-- ==== Sys2Proof/Word.lean ====
section
/-! DEFINITION. The word types of the machine and their plainest helpers (R3, R4). -/
namespace Sys2Proof

/-- One byte of memory (R3). -/
abbrev Byte := BitVec 8
/-- A 32-bit word: a lane register, an element of a Room. -/
abbrev Word32 := BitVec 32
/-- A 64-bit word: a scalar register, an address. -/
abbrev Word64 := BitVec 64
/-- One bit per lane of a group, lane L at bit L (R9). -/
abbrev Mask := BitVec 64
/-- A timestamp, compared by serial arithmetic (R93). -/
abbrev Stamp := BitVec 32

/-- The mask of the lowest `n` lanes. -/
def Mask.low (n : Nat) : Mask := BitVec.ofNat 64 (2 ^ n - 1)

/-- The mask that names lane `l` alone. -/
def Mask.one (l : Nat) : Mask := BitVec.ofNat 64 (2 ^ l)

/-- The lanes of a mask in ascending lane index (00_scope, ActiveLanes). -/
def Mask.lanes (m : Mask) : List Nat := (List.range 64).filter fun l => m.getLsbD l

/-- How many lanes a mask names. -/
def Mask.count (m : Mask) : Nat := m.lanes.length

/-- The mask of the lanes of `0 .. n - 1` for which `f` holds. -/
def Mask.ofFn (n : Nat) (f : Nat → Bool) : Mask :=
  (List.range n).foldl (fun m l => if f l then m ||| Mask.one l else m) 0#64

end Sys2Proof
end

