-- ==== Sys2Proof/Syntax.lean ====
section
/-! DEFINITION. The instruction set as syntax: one constructor of `Instr` per row of the opcode table.
Scalar words (R22 to R28) carry their typed fields; lane words (R31) carry one `LaneWord`; the events of the
engines and of the outside world (95_what_each_step_holds) have no word and carry the plain data that names them. -/
namespace Sys2Proof

/-- The type codes 0 to 19 of R33. -/
inductive Ty
  | i8 | i16 | i32 | i64 | n8 | n16 | n32 | n64 | f16 | bf16 | f32 | f64 | e4m3 | e5m2 | e3m2 | e2m3 | t2 | b32 | b64 | q
deriving DecidableEq, Repr

/-- The scope codes 0 to 6 of R28. -/
inductive Scope
  | grp | wg | quad | die | pkg | dom | sys
deriving DecidableEq, Repr

/-- The ordering modifiers of R152 (ORD 0 to 3 of R162, R165). -/
inductive Ord
  | plain | acq | rel | ar
deriving DecidableEq, Repr

/-- The conditions 0 to 5 of `sbc` and `wword` (R309, R324). -/
inductive Cond
  | eq | ne | lt | ge | ltn | gen
deriving DecidableEq, Repr

/-- The register that `sgetp` and `sputp` name: a predicate, a rejoin mask or an index register (R27, R316). -/
inductive Pkx
  | p (i : BitVec 3) | k (i : BitVec 3) | x (i : BitVec 2)
deriving DecidableEq, Repr

/-- The fields of a lane word other than OP (R31). The operand fields are read by class where an instruction uses them (R34). -/
structure LaneWord where
  /-- PN: negate the predicate. -/
  neg : Bool
  /-- P: the governing predicate. -/
  pred : BitVec 3
  ty : Ty
  fn : BitVec 6
  d : BitVec 10
  a : BitVec 10
  b : BitVec 10
  c : BitVec 10
  xi : Bool
  imm : BitVec 32
deriving DecidableEq, Repr

/-- The repeat prefix (R44). -/
structure Prefix where
  cnt : BitVec 6
  sd : BitVec 3
  sa : BitVec 3
  sb : BitVec 3
  sc : BitVec 3
deriving DecidableEq, Repr

/-- The clause header (R40). -/
structure ClauseHeader where
  wait : BitVec 12
  s0v : Bool
  s0f : BitVec 4
  s1v : Bool
  s1f : BitVec 4
  len : BitVec 4
  yh : Bool
deriving DecidableEq, Repr

/-- What an access needs of its page (R112, step 3). -/
inductive AccessKind
  | load | store | atomic | fetch
deriving DecidableEq, Repr

/-- The fault causes of R363. -/
inductive Cause
  | illegal | regbound | priv | align | converge | nomap | perm | first | key | poison | room | handle | format | fpx
  | trap | brk | watch | deque | timeout
deriving DecidableEq, Repr

/-- The region abort causes 1 to 8 of R343. -/
inductive AbortCause
  | cycle | source | capacity | explicit | fault | mode | preempt | conflict
deriving DecidableEq, Repr

/-- A cause with everything that the fault registers record of it (R364, R365). R6 says that the group number appears in fault records, and
neither R363 to R365 nor R379 gives it a field: the record holds none (log 42). -/
structure FaultRecord where
  cause : Cause
  /-- FPC as R364 lays it out. -/
  fpc : Word64
  /-- FINFO without LOST, as R365 lays it out. -/
  info : Word64
  /-- FINFO.MASK. -/
  mask : Mask
  addr : Word64
  /-- The lane instruction in flight that met the cause, if one did. -/
  ins : Option Nat := none
deriving DecidableEq, Repr

/-- A request header of R66 with its payload, one 32-byte sector at a time; `die` and the address give the slice. -/
structure MemRequest where
  kind : BitVec 4
  grp : BitVec 12
  wave : BitVec 8
  scnt : BitVec 6
  enc : Bool
  key : BitVec 13
  opc : BitVec 6
  blk : BitVec 41
  smask : BitVec 64
  payload : List Byte
deriving DecidableEq, Repr

/-- The functions that RDYMAP lists (R382). -/
inductive Func
  | stack (s : Nat) | quad (q : Nat) | dispatcher (d : Nat) | port (p : Nat) | link | keystore (s : Nat) | slice (i : Nat)
deriving DecidableEq, Repr

/-- The host atomic transactions of R384. -/
inductive HostAtomicOp
  | swap | add | cas
deriving DecidableEq, Repr

/-- The lane operations (R39), the functions of `fexp` and `vote` apart. -/
inductive LaneOp
  | iadd | isub | imul | imulh | imad | idiv | irem | iabs | ineg | imin | imax | iand
  | ior | ixor | inot | ishl | ishr | isra | irot | ibfx | ibfi | ipop | iclz | ibrev
  | icmp | fadd | fsub | fmul | ffma | fdiv | fsqrt | fmin | fmax | fabs | fneg | fcmp
  | fclass | frnd | fsc | fexpGet | fexpPut | fexpCvmget | fexpCvmput | fexpXeget | fexpXeput | cvt | cpack | cunpk
  | mov | sel | plog | shfl | shup | shdn | bcast | voteAny | voteAll | voteBallot | redg | scang
  | gsort | gtopk | gmerge | sin | cos | ex2 | lg2 | rcp | rsq | tanh | qpack | qunpk
  | qdot | qsc | qadd | qproj | qrot | qmov | qnorm | qld | qst | ld | st | atom
  | cas | red | tki | bpush | bpop | lbra | ljmp | lsetk | ljoin | lend | lexit | lnop
deriving DecidableEq, Repr

/-- One constructor per row of the opcode table, in the table's order. -/
inductive Instr
  /-- SADD (R305). -/
  | sadd (d a b : BitVec 6) (w : Bool)
  /-- SSUB (R305). -/
  | ssub (d a b : BitVec 6) (w : Bool)
  /-- SMUL (R305). -/
  | smul (d a b : BitVec 6) (w : Bool)
  /-- SMULH (R305). -/
  | smulh (d a b : BitVec 6) (w : Bool)
  /-- SDIV (R306). -/
  | sdiv (d a b : BitVec 6) (w : Bool)
  /-- SREM (R306). -/
  | srem (d a b : BitVec 6) (w : Bool)
  /-- SAND (R305). -/
  | sand (d a b : BitVec 6) (w : Bool)
  /-- SOR (R305). -/
  | sor (d a b : BitVec 6) (w : Bool)
  /-- SXOR (R305). -/
  | sxor (d a b : BitVec 6) (w : Bool)
  /-- SSHL (R305). -/
  | sshl (d a b : BitVec 6) (w : Bool)
  /-- SSHR (R305). -/
  | sshr (d a b : BitVec 6) (w : Bool)
  /-- SSRA (R305). -/
  | ssra (d a b : BitVec 6) (w : Bool)
  /-- SMIN (R305). -/
  | smin (d a b : BitVec 6) (w : Bool)
  /-- SMAX (R305). -/
  | smax (d a b : BitVec 6) (w : Bool)
  /-- SCLZ (R305). -/
  | sclz (d a : BitVec 6) (w : Bool)
  /-- SPOP (R305). -/
  | spop (d a : BitVec 6) (w : Bool)
  /-- SMOV (R305). -/
  | smov (d a : BitVec 6) (w : Bool)
  /-- SSEL (R305). -/
  | ssel (d a b : BitVec 6) (w : Bool)
  /-- SSET_EQ (R305). -/
  | ssetEq (d a b : BitVec 6) (w : Bool)
  /-- SSET_NE (R305). -/
  | ssetNe (d a b : BitVec 6) (w : Bool)
  /-- SSET_LT (R305). -/
  | ssetLt (d a b : BitVec 6) (w : Bool)
  /-- SSET_GE (R305). -/
  | ssetGe (d a b : BitVec 6) (w : Bool)
  /-- SSET_LTN (R305). -/
  | ssetLtn (d a b : BitVec 6) (w : Bool)
  /-- SSET_GEN (R305). -/
  | ssetGen (d a b : BitVec 6) (w : Bool)
  /-- SBFX (R306). -/
  | sbfx (d a b : BitVec 6) (w : Bool)
  /-- SBFI (R306). -/
  | sbfi (d a b : BitVec 6) (w : Bool)
  /-- SADDI (R307). -/
  | saddi (d a : BitVec 6) (imm : BitVec 14)
  /-- SANDI (R307). -/
  | sandi (d a : BitVec 6) (imm : BitVec 14)
  /-- SORI (R307). -/
  | sori (d a : BitVec 6) (imm : BitVec 14)
  /-- SXORI (R307). -/
  | sxori (d a : BitVec 6) (imm : BitVec 14)
  /-- SSHLI (R307). -/
  | sshli (d a : BitVec 6) (imm : BitVec 6)
  /-- SSHRI (R307). -/
  | sshri (d a : BitVec 6) (imm : BitVec 6)
  /-- SSRAI (R307). -/
  | ssrai (d a : BitVec 6) (imm : BitVec 6)
  /-- SMULI (R307). -/
  | smuli (d a : BitVec 6) (imm : BitVec 14)
  /-- SLO (R308). -/
  | slo (d : BitVec 6) (imm : BitVec 20)
  /-- SHI (R308). -/
  | shi (d : BitVec 6) (imm : BitVec 20)
  /-- SHX (R308). -/
  | shx (d : BitVec 6) (imm : BitVec 20)
  /-- SBR (R309). -/
  | sbr (off : BitVec 20)
  /-- SCALL (R309). -/
  | scall (d : BitVec 6) (off : BitVec 20)
  /-- SRET (R310). -/
  | sret (a : BitVec 6)
  /-- SBC (R309). -/
  | sbc (c : Cond) (a b : BitVec 6) (off : BitVec 11)
  /-- SLOOP (R309). -/
  | sloop (a : BitVec 6) (off : BitVec 11)
  /-- SEXIT (R311). -/
  | sexit
  /-- REGROUP (R301). -/
  | regroup (p : BitVec 3)
  /-- LRUN (R313). -/
  | lrun (c : Option (Fin 12)) (idx : BitVec 20)
  /-- CWAIT (R314). -/
  | cwait (m : BitVec 12)
  /-- SGET (R315). -/
  | sget (d a : BitVec 6) (f : BitVec 8)
  /-- SGETP (R316). -/
  | sgetp (d : BitVec 6) (r : Pkx)
  /-- SPUTP (R316). -/
  | sputp (r : Pkx) (a : BitVec 6)
  /-- SGETN (R317). -/
  | sgetn (d : BitVec 6) (n : BitVec 4)
  /-- SPUTN (R317). -/
  | sputn (n : BitVec 4) (a : BitVec 6)
  /-- SLD (R161). -/
  | sld (d a : BitVec 6) (z : BitVec 2) (off : BitVec 12)
  /-- SST (R161). -/
  | sst (d a : BitVec 6) (z : BitVec 2) (off : BitVec 12)
  /-- SATOM_LD (R163). -/
  | satomLd (d a : BitVec 6) (o : Ord) (sc : Scope) (w64 : Bool)
  /-- SATOM_ST (R163). -/
  | satomSt (a b : BitVec 6) (o : Ord) (sc : Scope) (w64 : Bool)
  /-- SATOM_SWAP (R163). -/
  | satomSwap (d a b : BitVec 6) (o : Ord) (sc : Scope) (w64 : Bool)
  /-- SATOM_ADD (R163). -/
  | satomAdd (d a b : BitVec 6) (o : Ord) (sc : Scope) (w64 : Bool)
  /-- SCAS (R163). -/
  | scas (d a b : BitVec 6) (o : Ord) (sc : Scope) (w64 : Bool)
  /-- ASET (R119). -/
  | aset (n : BitVec 3) (a b : BitVec 6)
  /-- ACLR (R120). -/
  | aclr (n : BitVec 3)
  /-- FENCE (R151). -/
  | fence (sc : Scope)
  /-- ORF (R157). -/
  | orf
  /-- PCOPY (R185). -/
  | pcopy (p a b : BitVec 6) (var : Bool)
  /-- PGATHER (R185). -/
  | pgather (p a b : BitVec 6) (var : Bool)
  /-- PSCATTER (R185). -/
  | pscatter (p a b : BitVec 6) (var : Bool)
  /-- PFILL (R185). -/
  | pfill (p a b : BitVec 6)
  /-- PLODGE (R141). -/
  | plodge (p a b : BitVec 6)
  /-- PPUSH (R185). -/
  | ppush (p a b : BitVec 6)
  /-- PCANCEL (R186). -/
  | pcancel (d a : BitVec 6) (all : Bool)
  /-- MTAKE (R271). -/
  | mtake (m : BitVec 3) (a : BitVec 6)
  /-- MGIVE (R272). -/
  | mgive (m : BitVec 3) (a : BitVec 6)
  /-- MFREE (R274). -/
  | mfree (m : BitVec 3)
  /-- MZERO (R275). -/
  | mzero (m : BitVec 3)
  /-- MTH (R276). -/
  | mth (h : BitVec 4) (a : BitVec 6)
  /-- MMA (R278). -/
  | mma (m : BitVec 3) (a b : BitVec 4)
  /-- MMAB (R263). -/
  | mmab (m : BitVec 3) (a b : BitVec 4)
  /-- MMAS (R261). -/
  | mmas (m : BitVec 3) (a b : BitVec 4)
  /-- MMAC (R262). -/
  | mmac (m : BitVec 3) (a b : BitVec 4)
  /-- MFENCE (R279). -/
  | mfence (d : BitVec 6)
  /-- MWAIT (R280). -/
  | mwait (a : BitVec 6)
  /-- MDRAIN (R282). -/
  | mdrain (m : BitVec 3) (a : BitVec 6) (h : BitVec 4) (subt : BitVec 4) (bat add : Bool)
  /-- MRD (R284). -/
  | mrd (m : BitVec 3) (a : BitVec 6) (f : BitVec 8)
  /-- MWR (R285). -/
  | mwr (m : BitVec 3) (a : BitVec 6) (f : BitVec 8)
  /-- BINI (R325). -/
  | bini (a b : BitVec 6)
  /-- BARA (R326). -/
  | bara (d a b : BitVec 6)
  /-- BARW (R326). -/
  | barw (d a b : BitVec 6)
  /-- BARX (R326). -/
  | barx (d a b : BitVec 6)
  /-- WWORD (R329). -/
  | wword (d a b : BitVec 6)
  /-- YIELD (R330). -/
  | yield
  /-- DQINIT (R332). -/
  | dqinit (a b : BitVec 6)
  /-- DQPUSH (R332). -/
  | dqpush (d a b : BitVec 6)
  /-- DQPOP (R332). -/
  | dqpop (d a : BitVec 6)
  /-- DQSTEAL (R332). -/
  | dqsteal (d a : BitVec 6)
  /-- RBEG (R338). -/
  | rbeg (a : BitVec 6)
  /-- REND (R345). -/
  | rend (d : BitVec 6)
  /-- RABORT (R345). -/
  | rabort (a : BitVec 6)
  /-- RSTAT (R345). -/
  | rstat (d a : BitVec 6)
  /-- TDECL (R335). -/
  | tdecl (d a b : BitVec 6)
  /-- BKMODE (R336). -/
  | bkmode (d a b : BitVec 6)
  /-- LAUNCH (R349). -/
  | launch (d a : BitVec 6)
  /-- EVSIG (R350). -/
  | evsig (d a b : BitVec 6)
  /-- EVWAIT (R350). -/
  | evwait (d a b : BitVec 6)
  /-- TRAP (R371). -/
  | trap (a : BitVec 6)
  /-- SYSRET (R372). -/
  | sysret (a : BitVec 6)
  /-- BRK (R371). -/
  | brk
  /-- SYSRD (R373). -/
  | sysrd (d a : BitVec 6)
  /-- SYSWR (R373). -/
  | syswr (a b : BitVec 6)
  /-- PGMAP (R374). -/
  | pgmap (d a : BitVec 6)
  /-- TLBI (R375). -/
  | tlbi (d a b : BitVec 6)
  /-- IADD (R211). -/
  | iadd (w : LaneWord)
  /-- ISUB (R211). -/
  | isub (w : LaneWord)
  /-- IMUL (R211). -/
  | imul (w : LaneWord)
  /-- IMULH (R211). -/
  | imulh (w : LaneWord)
  /-- IMAD (R211). -/
  | imad (w : LaneWord)
  /-- IDIV (R212). -/
  | idiv (w : LaneWord)
  /-- IREM (R212). -/
  | irem (w : LaneWord)
  /-- IABS (R211). -/
  | iabs (w : LaneWord)
  /-- INEG (R211). -/
  | ineg (w : LaneWord)
  /-- IMIN (R211). -/
  | imin (w : LaneWord)
  /-- IMAX (R211). -/
  | imax (w : LaneWord)
  /-- IAND (R211). -/
  | iand (w : LaneWord)
  /-- IOR (R211). -/
  | ior (w : LaneWord)
  /-- IXOR (R211). -/
  | ixor (w : LaneWord)
  /-- INOT (R211). -/
  | inot (w : LaneWord)
  /-- ISHL (R211). -/
  | ishl (w : LaneWord)
  /-- ISHR (R211). -/
  | ishr (w : LaneWord)
  /-- ISRA (R211). -/
  | isra (w : LaneWord)
  /-- IROT (R211). -/
  | irot (w : LaneWord)
  /-- IBFX (R212). -/
  | ibfx (w : LaneWord)
  /-- IBFI (R212). -/
  | ibfi (w : LaneWord)
  /-- IPOP (R211). -/
  | ipop (w : LaneWord)
  /-- ICLZ (R211). -/
  | iclz (w : LaneWord)
  /-- IBREV (R211). -/
  | ibrev (w : LaneWord)
  /-- ICMP (R213). -/
  | icmp (w : LaneWord)
  /-- FADD (R214). -/
  | fadd (w : LaneWord)
  /-- FSUB (R214). -/
  | fsub (w : LaneWord)
  /-- FMUL (R214). -/
  | fmul (w : LaneWord)
  /-- FFMA (R214). -/
  | ffma (w : LaneWord)
  /-- FDIV (R214). -/
  | fdiv (w : LaneWord)
  /-- FSQRT (R214). -/
  | fsqrt (w : LaneWord)
  /-- FMIN (R215). -/
  | fmin (w : LaneWord)
  /-- FMAX (R215). -/
  | fmax (w : LaneWord)
  /-- FABS (R214). -/
  | fabs (w : LaneWord)
  /-- FNEG (R214). -/
  | fneg (w : LaneWord)
  /-- FCMP (R216). -/
  | fcmp (w : LaneWord)
  /-- FCLASS (R217). -/
  | fclass (w : LaneWord)
  /-- FRND (R218). -/
  | frnd (w : LaneWord)
  /-- FSC (R218). -/
  | fsc (w : LaneWord)
  /-- FEXP_GET (R203). -/
  | fexpGet (w : LaneWord)
  /-- FEXP_PUT (R203). -/
  | fexpPut (w : LaneWord)
  /-- FEXP_CVMGET (R203). -/
  | fexpCvmget (w : LaneWord)
  /-- FEXP_CVMPUT (R203). -/
  | fexpCvmput (w : LaneWord)
  /-- FEXP_XEGET (R203). -/
  | fexpXeget (w : LaneWord)
  /-- FEXP_XEPUT (R203). -/
  | fexpXeput (w : LaneWord)
  /-- CVT (R219). -/
  | cvt (w : LaneWord)
  /-- CPACK (R220). -/
  | cpack (w : LaneWord)
  /-- CUNPK (R221). -/
  | cunpk (w : LaneWord)
  /-- MOV (R222). -/
  | mov (w : LaneWord)
  /-- SEL (R223). -/
  | sel (w : LaneWord)
  /-- PLOG (R224). -/
  | plog (w : LaneWord)
  /-- SHFL (R226). -/
  | shfl (w : LaneWord)
  /-- SHUP (R226). -/
  | shup (w : LaneWord)
  /-- SHDN (R226). -/
  | shdn (w : LaneWord)
  /-- BCAST (R226). -/
  | bcast (w : LaneWord)
  /-- VOTE_ANY (R227). -/
  | voteAny (w : LaneWord)
  /-- VOTE_ALL (R227). -/
  | voteAll (w : LaneWord)
  /-- VOTE_BALLOT (R227). -/
  | voteBallot (w : LaneWord)
  /-- REDG (R229). -/
  | redg (w : LaneWord)
  /-- SCANG (R229). -/
  | scang (w : LaneWord)
  /-- GSORT (R231). -/
  | gsort (w : LaneWord)
  /-- GTOPK (R232). -/
  | gtopk (w : LaneWord)
  /-- GMERGE (R233). -/
  | gmerge (w : LaneWord)
  /-- SIN (R251). -/
  | sin (w : LaneWord)
  /-- COS (R251). -/
  | cos (w : LaneWord)
  /-- EX2 (R251). -/
  | ex2 (w : LaneWord)
  /-- LG2 (R251). -/
  | lg2 (w : LaneWord)
  /-- RCP (R251). -/
  | rcp (w : LaneWord)
  /-- RSQ (R251). -/
  | rsq (w : LaneWord)
  /-- TANH (R251). -/
  | tanh (w : LaneWord)
  /-- QPACK (R240). -/
  | qpack (w : LaneWord)
  /-- QUNPK (R241). -/
  | qunpk (w : LaneWord)
  /-- QDOT (R242). -/
  | qdot (w : LaneWord)
  /-- QSC (R243). -/
  | qsc (w : LaneWord)
  /-- QADD (R244). -/
  | qadd (w : LaneWord)
  /-- QPROJ (R245). -/
  | qproj (w : LaneWord)
  /-- QROT (R245). -/
  | qrot (w : LaneWord)
  /-- QMOV (R246). -/
  | qmov (w : LaneWord)
  /-- QNORM (R247). -/
  | qnorm (w : LaneWord)
  /-- QLD (R248). -/
  | qld (w : LaneWord)
  /-- QST (R248). -/
  | qst (w : LaneWord)
  /-- LD (R170). -/
  | ld (w : LaneWord)
  /-- ST (R170). -/
  | st (w : LaneWord)
  /-- ATOM (R174). -/
  | atom (w : LaneWord)
  /-- CAS (R174). -/
  | cas (w : LaneWord)
  /-- RED (R176). -/
  | red (w : LaneWord)
  /-- TKI (R181). -/
  | tki (w : LaneWord)
  /-- BPUSH (R183). -/
  | bpush (w : LaneWord)
  /-- BPOP (R183). -/
  | bpop (w : LaneWord)
  /-- LBRA (R319). -/
  | lbra (w : LaneWord)
  /-- LJMP (R319). -/
  | ljmp (w : LaneWord)
  /-- LSETK (R320). -/
  | lsetk (w : LaneWord)
  /-- LJOIN (R321). -/
  | ljoin (w : LaneWord)
  /-- LEND (R322). -/
  | lend (w : LaneWord)
  /-- LEXIT (R322). -/
  | lexit (w : LaneWord)
  /-- LNOP (R322). -/
  | lnop (w : LaneWord)
  /-- REPEAT_PREFIX (R45). -/
  | repeatPrefix (p : Prefix)
  /-- CLAUSE_START (R42). -/
  | clauseStart (h : ClauseHeader)
  /-- CLAUSE_END (R42). -/
  | clauseEnd (t e : Nat)
  /-- LONG_LATENCY_COMPLETION (R43). -/
  | longLatencyCompletion (t e : Nat)
  /-- LANE_RUN_START (R292). -/
  | laneRunStart (t : Nat)
  /-- LANE_RUN_END (R14). -/
  | laneRunEnd (t : Nat)
  /-- REGROUP_MOVE (R301). -/
  | regroupMove (t : Nat)
  /-- GROUP_STARVED (R289). -/
  | groupStarved (t : Nat)
  /-- MEMORY_REQUEST (R66). -/
  | memoryRequest (r : MemRequest)
  /-- CHANNEL_BATCH (R67). -/
  | channelBatch (ch : Nat)
  /-- BATCH_AGE_LIMIT (R67). -/
  | batchAgeLimit (ch : Nat)
  /-- CHANNEL_RETIRE_START (R69). -/
  | channelRetireStart (stack f : Nat)
  /-- BLOCK_REBUILD (R69). -/
  | blockRebuild (stack : Nat)
  /-- DATA_CHANNEL_FAILURE (R71). -/
  | dataChannelFailure (stack c : Nat)
  /-- PARITY_CHANNEL_FAILURE (R71). -/
  | parityChannelFailure (stack g : Nat)
  /-- BANK_SELF_TEST (R72). -/
  | bankSelfTest (stack ch bank : Nat)
  /-- BANK_SELF_TEST_END (R72). -/
  | bankSelfTestEnd (stack : Nat) (repaired : Bool)
  /-- DRAIN_PREPARE (R76). -/
  | drainPrepare (t e slice : Nat)
  /-- DRAIN_COMMIT (R76). -/
  | drainCommit (t e : Nat)
  /-- MEMSIDE_OPERATION (R75). -/
  | memsideOperation (t e : Nat)
  /-- RED_CONTRIBUTION (R177). -/
  | redContribution (t e : Nat)
  /-- TKI_INSERTION (R181). -/
  | tkiInsertion (t e : Nat)
  /-- DEQUE_OPERATION (R332). -/
  | dequeOperation (t e : Nat)
  /-- KEY_PURGE_COMPLETE (R82). -/
  | keyPurgeComplete (slot : Nat)
  /-- GETS (R87). -/
  | gets (u r : Nat) (g : BitVec 2)
  /-- GETM (R87). -/
  | getm (u r : Nat) (g : BitVec 2)
  /-- UPG (R87). -/
  | upg (u r : Nat) (g : BitVec 2)
  /-- PUTE (R92). -/
  | pute (u q : Nat)
  /-- PUTX (R92). -/
  | putx (u q : Nat)
  /-- FWDS (R86). -/
  | fwds (u q : Nat)
  /-- FWDM (R86). -/
  | fwdm (u q : Nat)
  /-- RECALL (R86). -/
  | recallOwner (u q : Nat)
  /-- INV (R86). -/
  | inv (u q : Nat)
  /-- INVACK (R87). -/
  | invack (u q : Nat)
  /-- GRANT (R92). -/
  | grant (u q : Nat)
  /-- GRANT_STALE (R92). -/
  | grantStale (u q : Nat)
  /-- DATA_PHASE (R88). -/
  | dataPhase (u q : Nat)
  /-- PROBE (R91). -/
  | probe (u q : Nat)
  /-- DISCOVERY (R91). -/
  | discovery (u : Nat)
  /-- DIRECTORY_EVICTION (R90). -/
  | directoryEviction (u : Nat)
  /-- QUAD_EVICTION (R92). -/
  | quadEviction (u q : Nat)
  /-- HOST_READ (R104). -/
  | hostRead (pa n : Nat)
  /-- HOST_WRITE (R104). -/
  | hostWrite (pa : Nat) (data : List Byte)
  /-- LEASE_RENEWAL (R96). -/
  | leaseRenewal (core line : Nat) (pts : Stamp)
  /-- LEASE_WRITE (R97). -/
  | leaseWrite (t e : Nat)
  /-- ACKNOWLEDGEMENT (R149). -/
  | acknowledgement (t e : Nat)
  /-- TICK (R95). -/
  | tick
  /-- TMAX_EXCHANGE (R101). -/
  | tmaxExchange (received : List Stamp)
  /-- FLOOR_CATCHUP (R101). -/
  | floorCatchup
  /-- PAGE_WALK (R112). -/
  | pageWalk (t : Nat) (va : Word64) (k : AccessKind)
  /-- HEAT_SWEEP (R121). -/
  | heatSweep (asn : Nat)
  /-- PORTER_PIECE (R136). -/
  | porterPiece (core slot : Nat)
  /-- PORTER_COMMAND_END (R135). -/
  | porterCommandEnd (core slot : Nat)
  /-- FIFO_ACCESS_SERVED (R133). -/
  | fifoAccessServed (t e : Nat)
  /-- MODE_SWITCH_COMPLETE (R129). -/
  | modeSwitchComplete (quad bank : Nat)
  /-- INNKEEPER_GRANT (R267). -/
  | innkeeperGrant (hall : Nat)
  /-- HEAD_AGEING (R267). -/
  | headAgeing (t : Nat)
  /-- B_LOAD_COMPLETE (R256). -/
  | bLoadComplete (hall : Nat)
  /-- STREAM_START (R254). -/
  | streamStart (hall : Nat)
  /-- STREAM_END (R256). -/
  | streamEnd (hall : Nat)
  /-- OPERATION_COMMIT (R269). -/
  | operationCommit (hall : Nat)
  /-- ROOM_PORT_WORK (R268). -/
  | roomPortWork (t : Nat)
  /-- ROOM_PORT_WORK_END (R270). -/
  | roomPortWorkEnd (t : Nat)
  /-- BATCH_COMPLETE (R270). -/
  | batchComplete (t : Nat)
  /-- ROOM_HANDOVER (R272). -/
  | roomHandover (t : Nat)
  /-- ROOM_RELEASE (R265). -/
  | roomRelease (hall room : Nat)
  /-- MTAKE_GRANT (R271). -/
  | mtakeGrant (hall room : Nat)
  /-- MTAKE_TIMEOUT (R271). -/
  | mtakeTimeout (t : Nat)
  /-- WATCH_WAKE (R327). -/
  | watchWake (t : Nat)
  /-- WATCH_POLL (R327). -/
  | watchPoll (t : Nat)
  /-- WAIT_TIMEOUT (R326). -/
  | waitTimeout (t : Nat)
  /-- REGION_COMMIT (R342). -/
  | regionCommit (die e : Nat)
  /-- REGION_ABORT (R343). -/
  | regionAbort (t : Nat) (c : AbortCause)
  /-- IMPLICIT_RERUN (R303). -/
  | implicitRerun (t : Nat)
  /-- GROUP_RETIRE (R287). -/
  | groupRetire (t : Nat)
  /-- HOST_LAUNCH (R351). -/
  | hostLaunch (rec : List Byte) (tag : BitVec 16)
  /-- DEPENDENCE_MET (R353). -/
  | dependenceMet (l dep : Nat)
  /-- CARAVAN_PLACE (R357). -/
  | caravanPlace (die : Nat)
  /-- HEAD_WAIT_LIMIT (R357). -/
  | headWaitLimit (die : Nat)
  /-- LAUNCH_COMPLETE (R361). -/
  | launchComplete (l : Nat)
  /-- PRECISE_FAULT_ENTRY (R367). -/
  | preciseFaultEntry (t : Nat)
  /-- DEFERRED_CAUSE_ARRIVAL (R367). -/
  | deferredCauseArrival (t e : Nat) (own : Bool)
  /-- DEFERRED_FAULT_ENTRY (R367). -/
  | deferredFaultEntry (t : Nat)
  /-- PREEMPT_REQUEST (R376). -/
  | preemptRequest (die : Nat) (val : Word64)
  /-- PREEMPT_HALT (R377). -/
  | preemptHalt (cv : Nat)
  /-- CONTEXT_IMAGE_COMPLETE (R377). -/
  | contextImageComplete (cv : Nat)
  /-- PREEMPT_RELEASE (R376). -/
  | preemptRelease (die : Nat) (val : Word64)
  /-- CARAVAN_RESTORE (R380). -/
  | caravanRestore (cv : Nat)
  /-- RESET (R382). -/
  | reset
  /-- FUNCTION_READY (R382). -/
  | functionReady (f : Func)
  /-- FUNCTION_OUT_OF_SERVICE (R382). -/
  | functionOutOfService (f : Func)
  /-- HALL_ROW_REMAP (R253). -/
  | hallRowRemap (hall : Nat) (rows : BitVec 272)
  /-- LINK_TRAINING (R386). -/
  | linkTraining (port : Nat) (lo hi : BitVec 8)
  /-- FLIT_CRC_ERROR (R389). -/
  | flitCrcError (port : Nat)
  /-- PEER_TIMEOUT (R385). -/
  | peerTimeout (t e : Nat)
  /-- FIRMWARE_VERIFY (R387). -/
  | firmwareVerify (img sig : List Byte) (version : BitVec 8)
  /-- ATTESTATION_REPLY (R387). -/
  | attestationReply (nonce : List Byte) (pa : Nat)
  /-- KEY_LOAD (R388). -/
  | keyLoad (val : Word64)
  /-- KEY_DESTROY (R82). -/
  | keyDestroy (val : Word64)
  /-- KEYCTL_RESERVED_OP (R388). -/
  | keyctlReservedOp (val : Word64)
  /-- LODGE_WAY_CHANGE (R139). -/
  | lodgeWayChange (die : Nat) (val : Word64)
  /-- LODGE_FLUSH (R139). -/
  | lodgeFlush (die : Nat) (val : Word64)
  /-- LODGE_CHANGE_END (R139). -/
  | lodgeChangeEnd (die : Nat)
  /-- SLOGBASE_WRITE (R391). -/
  | slogbaseWrite (val : Word64)
  /-- CHECKPOINT_START (R392). -/
  | checkpointStart (val : Word64)
  /-- CHECKPOINT_END (R392). -/
  | checkpointEnd (ok : Bool)
  /-- CLOCK_STEP_DOWN (R394). -/
  | clockStepDown (cause : BitVec 2) (power : BitVec 12)
  /-- CLOCK_STEP_UP (R394). -/
  | clockStepUp
  /-- REGISTER_WRITE (R381). -/
  | registerWrite (off : Nat) (val : Word64)
  /-- HOST_ATOMIC (R384). -/
  | hostAtomic (pa : Nat) (op : HostAtomicOp) (w64 : Bool) (x y : Word64)
deriving DecidableEq, Repr

end Sys2Proof
end

