-- ==== Sys2Proof/Config.lean ====
section
/-! DEFINITION. What an implementation fixes and the manual leaves open, and the free values: constants without a body,
so that no proof can see what they are (R2; logs 2, 8, 9). -/
namespace Sys2Proof.Config

/-- A value that the manual calls unspecified (R2, R11, R158, R265): `occasion` is `State.freeCtr`, `index` which of the
values of that occasion. -/
opaque freeWord (occasion index : Nat) : BitVec 64

/-- The bits that one of the seven special functions gives an input, wherever R250 leaves a choice; `f` numbers the functions
in the order of R249. -/
opaque sfuBits (f : Nat) (x : BitVec 32) : BitVec 32

/-- AES-256 encryption of one block of 16 bytes under a key of 32 (R77, R81): the manual names the cipher. -/
opaque aes256 (key block : List (BitVec 8)) : List (BitVec 8)

/-- KMAC256 of a message under a key (R78): the manual names the function. -/
opaque kmac256 (key message : List (BitVec 8)) (bytes : Nat) : List (BitVec 8)

/-- SHAKE256 of a message (R387): the manual names the function. -/
opaque shake256 (message : List (BitVec 8)) (bytes : Nat) : List (BitVec 8)

/-- Whether a Falcon-1024 signature of a message holds under the maker's key (R387). -/
opaque falconVerify (message signature : List (BitVec 8)) : Bool

/-- The Falcon-1024 signature of a message under the identity key (R387), in its padded form of 1,280 bytes (PRESUMED, log 8). -/
opaque falconSign (message : List (BitVec 8)) : Vector (BitVec 8) 1280

/-- The key that the AES key unwrap of R388 yields from a wrapped key; none where the check of the wrapping fails. -/
opaque keyUnwrap (wrapped : List (BitVec 8)) : Option (List (BitVec 8))

/-- The key of a stack's counter tree (R78), which its base die keeps. -/
opaque treeKey (stack : Nat) : List (BitVec 8)

/-- The level-two slice of a die that the address hash selects for a 512-byte block (R15): the manual gives 48 slices and not the hash. -/
opaque sliceHash (block : Nat) : Nat

/-- The hash of the drop filter of a home slice (R90): a counter number below 4,096. -/
opaque dropHash (unit : Nat) : Nat

/-- The hash by which a die TLB of 8 ways finds the set of a page, run or block of an address space (R115): the manual does not give it. -/
opaque tlbHash (asn va : Nat) : Nat

/-- The hashes of a read-set signature (R339): `k` numbers the hash. -/
opaque signatureHash (k line : Nat) : Nat

/-- Whether a route leads to a peer node (R385): the manual leaves the domain to its installation. -/
opaque routed (node : Nat) : Bool

/-- The node number that firmware gives the package, less one (R385). -/
opaque nodeNumber : Nat

/-- The GiB of the protected region that firmware gives a stack at bring-up (R78). -/
opaque protectedGiB (stack : Nat) : Nat

/-- The event code that the service log gives a kind of event (R391): the manual lists the events and not their codes. -/
opaque logCode (kind : Nat) : BitVec 16

/-- The bytes of the context image of a Caravan of a launch record (R378): the manual gives the sections of an image and not their sizes; SIZE has four bytes (R379). -/
opaque imageBytes (record : BitVec 512) : BitVec 32

/-- Where a section of the context image of a Caravan of a launch begins: 0 the group records, 1 the banks, 2 the Rooms, 3 the Hall work
(R379; log 33). -/
opaque imageOffset (record : BitVec 512) (section_ : Nat) : BitVec 64

end Sys2Proof.Config
end

