-- ==== Sys2Proof/Machine/State.lean ====
section
/-! DEFINITION. Everything the machine holds, as plain data, and its value right after reset (R13, R382 and the file each
structure names). -/
namespace Sys2Proof.Machine

/-- Why the machine stops. -/
inductive Fault
  /-- Raised by `pgmap` when POOL or LIST names a physical address that R64 reserves; the manual gives that access no effect
  (log 20). Safe: the model stops where the hardware may go on. -/
  | absentPhysical
deriving DecidableEq, Repr

/-- Why an instruction has no meaning. -/
inductive Refusal
  /-- Raised by the dispatch of an instruction that the model does not give a meaning to; none is left. Safe. -/
  | notModelled (mnemonic : String)
deriving DecidableEq, Repr

/-- Bytes by address, strictly rising. Where a store of the machine reads 0 at an unlisted address, no listed byte is 0. -/
abbrev Cells := List Host.Cell

/-- The coherence modes of a page (R83). -/
inductive Coh
  | dir | lease | none
deriving DecidableEq, Repr

/-- What a page, run or block maps to (R109, R115): the addresses it covers, where they lie in domain form (R110), its fields
and the address of its entry. -/
structure Mapping where
  va : Nat
  size : Nat
  pa : Nat
  key : BitVec 13
  enc : Bool
  grain : BitVec 2
  coh : Coh
  xwr : BitVec 3
  entry : Nat
deriving DecidableEq, Repr

/-- A TLB entry (R115, R121): its address space, its mapping and whether it counts as filled or marked for writing. -/
structure TlbEntry where
  asn : BitVec 12
  map : Mapping
  written : Bool
deriving DecidableEq, Repr

/-- A translation register (R117). -/
structure TransReg where
  v : Bool := false
  vbase : BitVec 55 := 0
  pbase : Nat := 0
  req : BitVec 30 := 0
  limit : BitVec 30 := 0
  key : BitVec 13 := 0
  enc : Bool := false
  grain : BitVec 2 := 0
  coh : Coh := .dir
  xwr : BitVec 3 := 0
  stale : Bool := false
deriving DecidableEq, Repr

/-- Where one aligned piece of an access goes: a byte of a physical bank (its number in the package and the offset in it), or
memory under a mapping's attributes (R16, R17, R143). -/
inductive Target
  | bank (bank off : Nat)
  | mem (pa : Nat) (coh : Coh) (grain : BitVec 2) (enc : Bool) (key : BitVec 13)
deriving DecidableEq, Repr

/-- A path of lanes: the clause, the slot of it that issues next, the clause entry it belongs to (none: the clause is still to
be entered), its lanes, and whether it is a batch that lost reconvergence and has started no clause since (R294, R299, R41, R42). -/
structure Path where
  clause : BitVec 20
  slot : Nat
  entry : Option Nat
  mask : Mask
  lone : Bool := false
  /-- Entries of lanes that go on with it in the entry that is still to be made (R294, R321). -/
  also : List Nat := []
deriving DecidableEq, Repr

/-- One arrival at a join (R298), with its place in the order of arrivals (R299). -/
structure Batch where
  seq : Nat
  mask : Mask
  clause : BitVec 20
  slot : Nat
deriving DecidableEq, Repr

/-- A queued or executing lane run with its snapshots (R313, R293). -/
structure LaneRun where
  start : BitVec 20
  flag : Option (Fin 12)
  s : Vector Word64 64
  x : Vector (BitVec 8) 4
  a : Vector TransReg 8
deriving DecidableEq, Repr

/-- An open clause entry (R42): LEN of its header, its SET flags, its long-latency instructions still in flight and whether it
has issued its last slot or left by an `ljoin`. -/
structure ClauseEntry where
  id : Nat
  len : Nat
  sets : List (Fin 12)
  inFlight : Nat
  closed : Bool
  /-- The entry that its lanes have gone on in, and with which it ends (R321). -/
  upon : Option Nat := none
deriving DecidableEq, Repr

/-- Where a lane instruction stands (R364): clause, slot (of the prefix for a prefixed one), PC slot, its lanes, and its repeat
index and prefix. -/
structure IssuePlace where
  clause : BitVec 20
  slot : Nat
  pslot : Nat
  mask : Mask
  /-- The clause entry (R42); none at a header. -/
  entry : Option Nat
  /-- Under a prefix: the repetition and the prefix. -/
  rep : Option (Nat × Prefix)
  /-- It executes again, alone (R368). -/
  redo : Bool
deriving DecidableEq, Repr

/-- A 32-bit value for one register of one lane. -/
structure VWrite where
  reg : Nat
  lane : Nat
  val : Word32
deriving DecidableEq, Repr

/-- Everything that a lane instruction writes at completion (R202): v registers, one predicate as lanes and bits, q registers
with their n register, and flags by lane. -/
structure Commit where
  v : List VWrite := []
  p : Option (BitVec 3 × Mask × Mask) := none
  q : List (Nat × Nat × Nat × Word32) := []
  n : Option (Nat × Word32) := none
  xf : List (Nat × BitVec 6) := []
deriving DecidableEq, Repr

/-- A long-latency lane instruction in flight (R43): where it issued, what it writes, and the store-buffer
entries whose answers it waits for with the v register and the predicate that take them. -/
structure InFlight where
  id : Nat
  place : IssuePlace
  commit : Commit
  waits : List Nat
  dst : Option Nat
  wide : Bool
  pred : Option (BitVec 3)
  /-- XE as it stood at issue (R200). -/
  xe : BitVec 6
  /-- A precise cause may come when one of its accesses is performed (R46, R169, R385). -/
  late : Bool := false
  /-- An instruction of a handler issued it (R369). -/
  inHandler : Bool := false
deriving DecidableEq, Repr

/-- An atomic or other operation at an ordering point (R75, R163, R174, R177, R181, R332, R282). -/
inductive MemOp
  /-- One indivisible read-modify-write of `size` bytes: code of R173, with 8 for `cas`, on a type, and its operands. -/
  | rmw (code : Nat) (ty : Ty) (size : Nat) (x y : Word64) (cvm : Word64)
  /-- A contribution of `red` (R176) from a position, with the lane that takes the upper flags. -/
  | red (opc : Nat) (ty : Ty) (val : Word64) (die core slot lane : Nat)
  /-- An insertion of `tki` (R181) with the histogram's base, limit and attributes. -/
  | tki (k : Nat) (e : Word32) (hist : Option TransReg)
  /-- `bpush` and `bpop` of the lanes listed (R183). -/
  | bulk (push : Bool) (lanes : List (Nat × Word64))
  /-- An add-on-store or overwrite drain (R282): whether its Room has been read, element type, the elements' places with their
  values. -/
  | drain (ready add : Bool) (ty : Ty) (elems : List (Target × Word64))
deriving DecidableEq, Repr

/-- What a store-buffer entry does when it is performed. -/
inductive SbOp
  /-- The bytes of one aligned 128-byte line. -/
  | store (bytes : List (Target × Byte))
  | op (t : Target) (o : MemOp)
deriving DecidableEq, Repr

/-- A store-buffer entry (R148): its number, the accesses it counts in UAC, the PTS it carries, the instruction and lanes it
belongs to, whether it has been performed, its completion timestamp and the flags that come with its acknowledgement. -/
structure SbEntry where
  id : Nat
  count : Nat
  pts : Stamp
  fpc : Word64
  mask : Mask
  /-- The lane instruction that it is part of. -/
  ins : Option Nat
  inHandler : Bool
  op : SbOp
  performed : Bool
  stamp : Stamp
  flags : List (Nat × BitVec 6) := []
  /-- The LEASE lines that have taken its writer's jump: each with its new wts and rts and its bytes, as its home acknowledges them (R97). -/
  acks : List (Nat × Stamp × Cells) := []
  /-- The keys destroyed since it was issued, under which nothing of it is performed any more (R82). -/
  gone : List (BitVec 13) := []
deriving DecidableEq, Repr

/-- What a stalled scalar instruction waits for (R304, R326, R327, R271): the address of its word, since when, and for `barx`
whether its arrival stands; the watched address and whether a watch is held. -/
structure Wait where
  spc : Word64
  since : Nat
  arrived : Bool
  watch : Option Target
  woken : Bool
  /-- The limit in cycles, for the functions that have one. -/
  limit : Option Nat
  /-- The registers of an `mgive` that waits (R272). -/
  give : Option (BitVec 3 × BitVec 6) := none
  /-- It is parked: not ready until it is woken (R327). -/
  parked : Bool := false
  /-- It waits for a slot of a Porter (R135). -/
  porter : Bool := false
  /-- The bytes of the watched word, whether it has been written since it was read, and when it was read last (R327). -/
  size : Nat := 0
  written : Bool := false
  polled : Nat := 0
deriving DecidableEq, Repr

/-- A tile handle (R257): the 118 bits that `mth` writes, and V. -/
structure Handle where
  v : Bool := false
  bits : BitVec 118 := 0
deriving DecidableEq, Repr

/-- A product (R277, R278): kind 0 `mma`, 1 `mmab`, 2 `mmas`, 3 `mmac`, handles and format blocks as read at issue. -/
structure MatOp where
  kind : Nat
  a : Handle
  b : Handle
  fa : BitVec 128
  fb : BitVec 128
deriving DecidableEq, Repr

/-- Room work (R270). -/
inductive RoomOp
  | zero
  | mma (o : MatOp)
  /-- `mwr`: rows of values -/
  | write (wide : Bool) (row col : Nat) (vals : List (List Word64))
  /-- `mdrain`: origin, rows, columns, type, its entry in the store buffer, CVM and XE -/
  | drain (row col rows cols : Nat) (ty : Ty) (entry : Option Nat) (cvm : Word64) (xe : BitVec 6)
deriving DecidableEq, Repr

/-- How far a Room work item has come (R267, R268, R282). -/
inductive WorkStage
  /-- `trapped`: a drain whose flags are reported (R282) -/
  | queued | granted | loaded | streaming | streamed | port | trapped
deriving DecidableEq, Repr

/-- A Room work item (R270): its number, Room, batch (none: the open one), when it was issued and since when it is a head (R267),
the rows of A and columns of B, by member, that were written before it committed (R158), and the quad memory that its operands' atoms may
still show (R157). -/
structure WorkItem where
  id : Nat
  room : Nat
  op : RoomOp
  stage : WorkStage
  batch : Option Nat
  issued : Nat
  headSince : Option Nat
  aged : Bool
  hitA : List (Nat × Nat)
  hitB : List (Nat × Nat)
  seen : Cells
  fpc : Word64
  inHandler : Bool
deriving DecidableEq, Repr

/-- A plain scalar load that no rule orders before what its group has issued since: the register, the address, the size, and the line of
quad memory or of package memory (log 12). -/
structure LateLoad where
  reg : BitVec 6
  va : Word64
  size : Nat
  line : Nat ⊕ Nat
deriving DecidableEq, Repr

/-- The states of R286. -/
inductive GState
  | waiting | resident | saved | retiring | retired
deriving DecidableEq, Repr

/-- A repeat in progress: the PC slot it runs in, its prefix and the repetition to run next (R45). -/
structure Repeat where
  pslot : Nat
  p : Prefix
  j : Nat
deriving DecidableEq, Repr

/-- The handler frame (R367, R368), with the return point, the fault it serves, whether that fault is deferred, the place of a faulting lane
instruction, whether the scalar stream had ended (R311), the arrival of an interrupted `barx` (R326), and the suppressions of WATCH
that were still due (R372). -/
structure Frame where
  hrpc : Word64
  s : Vector Word64 8
  slots : Vector (Option Path) 2
  stack : List Path
  cached : Nat
  joins : Vector (List Batch) 8
  parked : Mask
  runs : List LaneRun
  running : Bool
  c : Vector (BitVec 6) 12
  rc : BitVec 6
  rip : Bool
  rep : Option Repeat
  entries : List ClauseEntry
  lastSlot : Nat
  redo : List IssuePlace
  lane : Option IssuePlace
  record : FaultRecord
  deferred : Bool
  ended : Bool
  wait : Option Wait
  noWatch : Bool
  noWatchLane : Bool
deriving DecidableEq, Repr

/-- A group: its registers and everything the core keeps for it (R9, R13, R286 to R300, R347, R359, R363 to R373). -/
structure Group where
  /-- Whether any group stands here: at reset none does (log 5). -/
  present : Bool
  tag : Nat
  state : GState
  die : Nat
  quad : Nat
  core : Nat
  slot : Nat
  laneBase : Nat
  width : Nat
  sAllot : Nat
  vAllot : Nat
  qAllot : Nat
  hAllot : Nat
  prio : Nat
  asn : BitVec 12
  launch : Nat
  caravan : Nat
  wg : Nat
  gidx : Nat
  implicit : Bool
  s : Vector Word64 64
  v : Vector (Vector Word32 64) 256
  q : Vector (Vector (Vector Word32 8) 64) 16
  n : Vector Word32 16
  p : Vector Mask 8
  k : Vector Mask 8
  x : Vector (BitVec 8) 4
  a : Vector TransReg 8
  c : Vector (BitVec 6) 12
  h : Vector Handle 16
  m : Vector (Option (BitVec 3)) 8
  spc : Word64
  /-- The scalar stream has executed `sexit` (R311). -/
  ended : Bool
  sentry : Word64
  lbase : Word64
  /-- The handler's lane base (R366). -/
  hbase : Word64
  slots : Vector (Option Path) 2
  stack : List Path
  /-- Stack entries held in the core (R297). -/
  cached : Nat
  joins : Vector (List Batch) 8
  parked : Mask
  exited : Mask
  runs : List LaneRun
  running : Bool
  entries : List ClauseEntry
  inflight : List InFlight
  redo : List IssuePlace
  lastSlot : Nat
  iss : Option IssuePlace
  rep : Option Repeat
  nextId : Nat
  pts : Stamp
  lct : Stamp
  uac : BitVec 16
  cvm : Word64
  xf : Vector (BitVec 6) 64
  xe : BitVec 6
  gstat : BitVec 32
  fmask : Mask
  rc : BitVec 6
  rip : Bool
  rgid : BitVec 6
  rgst : BitVec 32
  rgpred : Mask
  rgAbort : Word64
  fcause : BitVec 8
  fpc : Word64
  finfo : Word64
  finfoMask : Mask
  faddr : Word64
  hmask : Mask
  hrpc : Word64
  watch0 : Word64
  watch1 : Word64
  hmode : Bool
  frame : Option Frame
  pending : List FaultRecord
  lost : Bool
  stopped : Option (FaultRecord × Option IssuePlace)
  /-- WATCH is suppressed for the next scalar access (R372). -/
  noWatch : Bool
  /-- WATCH is suppressed for the next lane instruction (R372). -/
  noWatchLane : Bool
  /-- Batches closed so far: NB is this number modulo 256 (R279). -/
  batches : Nat
  /-- The closed batches that are not complete (R279). -/
  closedBatches : List Nat
  work : List WorkItem
  /-- Quad memory as it was at the group's last `orf`, or when it was placed: what its products may still read (R157). -/
  seen : Cells
  /-- The last plain scalar loads, which may still be performed (R145; log 12). -/
  late : List LateLoad
  sb : List SbEntry
  wait : Option Wait
  regroupAt : Option (BitVec 3)
  scalarIssued : Nat
  laneIssued : Nat
  /-- The cycle since which the group has been lane-ready, and scalar-ready, without issuing, and whether it is starved (R289). -/
  readySince : Nat
  scalarSince : Nat
  starved : Bool
  scalarStarved : Bool
  /-- It stands still until it is released (R369). -/
  halted : Bool
  /-- It stands at its boundary for a pre-emption (R377). -/
  paused : Bool
  /-- The common instants that had passed when it was placed or restored (R95). -/
  tickBase : Nat
  /-- The model's own: the peer that its next access reaches gives no answer (R385; log 35). -/
  silent : Bool
deriving DecidableEq, Repr

/-- The absent group in focus at reset (log 5); also the fixed part of a group's start (R359). -/
def Group.absent : Group :=
  { present := false, tag := 0, state := .retired, die := 0, quad := 0, core := 0, slot := 0, laneBase := 0, width := 16,
    sAllot := 64, vAllot := 256, qAllot := 16, hAllot := 16, prio := 0, asn := 0, launch := 0, caravan := 0, wg := 0, gidx := 0,
    implicit := false,
    s := Vector.replicate 64 0, v := Vector.replicate 256 (Vector.replicate 64 0),
    q := Vector.replicate 16 (Vector.replicate 64 (Vector.replicate 8 0)), n := Vector.replicate 16 0,
    p := Vector.replicate 8 0, k := Vector.replicate 8 0, x := Vector.replicate 4 0, a := Vector.replicate 8 {},
    c := Vector.replicate 12 0, h := Vector.replicate 16 {}, m := Vector.replicate 8 none,
    spc := 0, ended := false, sentry := 0, lbase := 0, hbase := 0, slots := Vector.replicate 2 none, stack := [], cached := 0, joins := Vector.replicate 8 [],
    parked := 0, exited := 0, runs := [], running := false, entries := [], inflight := [], redo := [], lastSlot := 1,
    iss := none, rep := none, nextId := 0,
    pts := 0, lct := 0, uac := 0, cvm := 0x0000111111111111#64, xf := Vector.replicate 64 0, xe := 0, gstat := 0, fmask := 0,
    rc := 0, rip := false, rgid := 0, rgst := 0, rgpred := 0, rgAbort := 0, fcause := 0, fpc := 0, finfo := 0, finfoMask := 0,
    faddr := 0, hmask := 0, hrpc := 0, watch0 := 0, watch1 := 0, hmode := false, frame := none, pending := [], lost := false,
    stopped := none, noWatch := false, noWatchLane := false, batches := 0, closedBatches := [], work := [], seen := [], late := [], sb := [], wait := none,
    regroupAt := none, scalarIssued := 0, laneIssued := 0, readySince := 0, scalarSince := 0, starved := false,
    scalarStarved := false, halted := false, paused := false, tickBase := 0, silent := false }

/-! Coherence (R84 to R92) -/

/-- Directory states of a unit (R87). -/
inductive DirSt
  | u | s | x | o
deriving DecidableEq, Repr

/-- The directory record of a unit (R85). -/
structure DirUnit where
  st : DirSt
  owner : Nat
  pv : BitVec 32
deriving DecidableEq, Repr

/-- A tag entry of an aligned 512-byte block (R85). -/
structure DirEntry where
  block : Nat
  grain : BitVec 2
  sv : BitVec 16
  host : BitVec 8
  units : List DirUnit
deriving DecidableEq, Repr

/-- The private states of R86, I apart. -/
inductive Moesi
  | s | e | o | m
deriving DecidableEq, Repr

/-- A unit held by a quad agent, or in its victim buffer (R84, R86, R92): its first address, size, state and dirty atoms, the cores of
the quad that hold it and when it was last used. -/
structure QuadLine where
  quad : Nat
  addr : Nat
  size : Nat
  st : Moesi
  dirty : BitVec 128
  cores : List Nat
  used : Nat
  /-- In the victim buffer, with its Put sent. -/
  victim : Bool
  /-- What the home answered: none yet, Grant or Grant STALE. -/
  granted : Option Bool
  /-- In the victim buffer: a FwdM or Recall has taken the unit from it (R92). -/
  taken : Bool
deriving DecidableEq, Repr

/-- A transaction in progress at a home (R84, R87, R91): its unit, the requesting quad, its kind (0 GetS, 1 GetM, 2 Upg, 4 eviction
of a record, 5 the data phase of a PutX) and the grain of the request. -/
structure Txn where
  addr : Nat
  req : Nat
  kind : Nat
  grain : BitVec 2
  /-- Quads whose Inv is still to be sent, then quads whose InvAck is awaited. -/
  inv : List Nat
  acks : List Nat
  /-- The owner whose FwdS, FwdM or Recall is awaited. -/
  fwd : Option Nat
  /-- Quads still to be probed (R91). -/
  probes : List Nat
deriving DecidableEq, Repr

/-- A request that waits at its home behind a transaction on its unit (R84, R92): its kind as in `Txn`, with 6 PutE and 7 PutX. -/
structure HomeReq where
  addr : Nat
  req : Nat
  kind : Nat
  grain : BitVec 2
deriving DecidableEq, Repr

/-- A core's copy of a LEASE line (R94), and when it was last used. -/
structure LeaseCopy where
  core : Nat
  line : Nat
  data : Cells
  wts : Stamp
  rts : Stamp
  used : Nat
deriving DecidableEq, Repr

/-- The lease timestamps of a line at its home (R94). -/
structure LeaseLine where
  line : Nat
  wts : Stamp
  rts : Stamp
deriving DecidableEq, Repr

/-- A NONE line held by a core: its data and dirty atoms (R102), its key tag and when it was last used. -/
structure NoneLine where
  core : Nat
  line : Nat
  data : Cells
  dirty : BitVec 32
  enc : Bool
  key : BitVec 13
  used : Nat
deriving DecidableEq, Repr

/-! Memory (R62 to R82) -/

/-- A valid line of a Cellar frame (R73): its number in the domain, and when its frame was last used. It is dirty when `Mem.cellar`
lists a byte of it. -/
structure CellarLine where
  line : Nat
  used : Nat
deriving DecidableEq, Repr

/-- A request at a channel scheduler (R67): its channel (stack × 32 + channel), when it came (none: in this step), the request and the lines of it that
are still to be served, whether it is the write-back of an evicted line, and whether it has waited 640 ns. -/
structure ChanReq where
  ch : Nat
  since : Option Nat
  req : MemRequest
  lines : List Nat
  wb : Bool
  aged : Bool
deriving DecidableEq, Repr

/-- The counter line of a 4 KiB block of encrypted memory (R78, R79): its block, as stack × 2^24 + block in the stack. -/
structure CounterLine where
  block : Nat
  major : Word64
  minors : List Nat
  cmac : List Byte
deriving DecidableEq, Repr

/-- A node of a stack's counter tree (R78): its level, counter lines being level 0, and its index there. -/
structure TreeNode where
  stack : Nat
  level : Nat
  idx : Nat
  major : Word64
  minors : List Nat
  cmac : List Byte
deriving DecidableEq, Repr

/-- The states of a key slot (R81). -/
inductive KeySt
  | free | live | purge
deriving DecidableEq, Repr

/-- A key slot that is not FREE with zero keys (R81). -/
structure KeySlot where
  slot : Nat
  st : KeySt
  data : List Byte
  mac : List Byte
deriving DecidableEq, Repr

/-- A reduction record (R334) with the contributions it holds: position and value, in order of position. -/
structure RedRecord where
  target : Nat
  ty : Ty
  opc : Nat
  counts : List (List Nat)
  got : List ((Nat × Nat × Nat) × Word64)
  seen : List (Nat × Nat)
  flags : BitVec 6
  late : List (Nat × Ty × Word64)
deriving DecidableEq, Repr

/-- A staged piece of a tile drain (R76, R268): owner tag and store-buffer entry of the drain, slice (or 512 + bank), and the lines
(of a bank, or of memory) that it covers there. -/
structure Staged where
  tag : Nat
  e : Nat
  slice : Nat
  lines : List (Nat ⊕ Nat)
deriving DecidableEq, Repr

/-- The mapping of a Cellar slice's memory timestamp (R94). -/
structure SliceStamp where
  slice : Nat
  mts : Stamp
deriving DecidableEq, Repr

/-- An event for the service log (R391): its kind (0 protocol error, 1 retirement, 2 channel failure, 3 MAC failure, 5 link event,
6 attestation reply, 7 a rebuild that failed, 8 a bank that cannot be repaired, 9 a refused image, 10 a corrected error), its unit, and its detail where the manual gives it. -/
structure LogItem where
  kind : Nat
  unit : Nat
  detail : Option (List Byte)
deriving DecidableEq, Repr

/-- The memory system. -/
structure Mem where
  /-- HBM, parity channels included (R62), keyed by channel and channel-local address; the bytes of a channel that has failed
  stand for what its parity group gives. -/
  hbm : Cells
  /-- Plaintext bytes that a Cellar slice holds newer than HBM (R73). -/
  cellar : Cells
  /-- Bytes that a home's data array holds newer than the Cellar (R85). -/
  l2 : Cells
  /-- Dirty bytes of quad agents and victim buffers (R86). -/
  quad : Cells
  /-- Host memory and the memory of peer packages (R64, R110). -/
  ext : Cells
  /-- Quad memory in SCRATCH and FIFO mode (R125), keyed by bank and offset. -/
  scratch : Cells
  /-- Poisoned 32-byte sectors of lines that are held above HBM (R63, R80). -/
  poison : List Nat
  /-- 128-byte lines of quad memory in SCRATCH and FIFO mode with an error that ECC cannot correct, keyed as `scratch` (R389). -/
  bankPoison : List Nat
  /-- Sectors whose data HBM has lost (R69, R161). -/
  dead : List Nat
  /-- 64-bit words of channels that ECC cannot correct (R63), by the key of their first byte in `hbm`. -/
  bad : List Nat
  /-- Failed channels, as stack and channel (R71). -/
  failed : List (Nat × Nat)
  /-- The key of each encrypted line that is held anywhere above HBM (R77). -/
  tags : List (Nat × BitVec 13)
  lines : List CellarLine
  chans : List ChanReq
  /-- Uses of lines so far, by which the least recently used one is known (R73, R127). -/
  uses : Nat
  /-- The batches that run, as channel (stack × 32 + channel), GRP and WAVE (R67). -/
  running : List (Nat × BitVec 12 × BitVec 8)
  mstat : Vector Word64 16
  protGiB : Vector Nat 16
  counters : List CounterLine
  /-- Nodes of the counter trees, the roots in the base dies included (R78). -/
  nodes : List TreeNode
  /-- Metadata lines that a base die's metadata cache holds verified, as stack, level and index (R80). -/
  verified : List (Nat × Nat × Nat)
  macs : List (Nat × List Byte)
  keys : List KeySlot
  dir : List DirEntry
  qlines : List QuadLine
  txns : List Txn
  /-- Requests that wait at their homes, in order of arrival (R84, R92). -/
  queue : List HomeReq
  drops : List (Nat × Nat)
  copies : List LeaseCopy
  leases : List LeaseLine
  mts : List SliceStamp
  /-- MTS of every slice that is not listed (R94, R101). -/
  mtsBase : Stamp
  nones : List NoneLine
  /-- Lines that cores keep in preference to others of their sets, as core and line (R171). -/
  kept : List (Nat × Nat)
  rstamp : Stamp
  tmax : Stamp
  hr : Stamp
  hostLeases : List LeaseLine
  /-- The adapter's MTS for host lines that its table does not hold (R105). -/
  hostMts : Stamp
  coreTlb : List (Nat × TlbEntry)
  dieTlb : List (Nat × TlbEntry)
  reds : List RedRecord
  /-- Events that the service log does not hold yet (R391). -/
  notes : List LogItem
  staged : List Staged
  /-- What a safe-tier node holds of die memory since a checkpoint was complete: the node and the bytes as HBM stores them (R392). -/
  safe : Option (Nat × Cells)
  /-- Lines that requests which slices have served in this step write, until their watchers know (R327, R353). -/
  served : List Nat
  /-- Units that cores have been granted in this step, as core and address, until their caches fit (R127). -/
  fresh : List (Nat × Nat)
deriving DecidableEq, Repr

/-! Quad memory, Porters, Lodge (R125 to R142) -/

/-- Bank modes (R125). -/
inductive BankMode
  | cache | scratch | fifo
deriving DecidableEq, Repr

/-- An access that waits at a FIFO bank (R133): its group, the PC slot of the lane instruction that makes it (none: no lane instruction
does), the slots it needs filled and free, and whether it may be served now. -/
structure FifoWait where
  tag : Nat
  lane : Option Nat
  needFill : Nat
  needFree : Nat
  granted : Bool
  /-- The Porter command that makes it, by core and place (R132, R136). -/
  cmd : Option (Nat × Nat) := none
deriving DecidableEq, Repr

/-- A bank that is allotted or holds a FIFO (R125, R132); every other bank is in CACHE mode and unallotted. -/
structure Bank where
  num : Nat
  mode : BankMode
  owner : Option Nat
  slotExp : Nat
  fill : Nat
  head : Nat
  tail : Nat
  /-- Waiting accesses in order of arrival (R133). -/
  waiters : List FifoWait
  /-- A mode change that waits for its write-backs (R129). -/
  switching : Bool
deriving DecidableEq, Repr

/-- A Porter command (R135): owner, its place on a Porter, its word, the moves still to be made and the bytes delivered. -/
structure PorterCmd where
  core : Nat
  slot : Nat
  tag : Nat
  kind : Nat
  spc : Word64
  inHandler : Bool
  pts : Stamp
  arrival : Word64
  dst : Word64
  src : Word64
  pattern : Word64
  rowLen : Nat
  rows : Nat
  dstStride : Nat
  srcStride : Nat
  index : Word64
  /-- The next row and the bytes of it already moved. -/
  row : Nat
  done : Nat
  delivered : Nat
  /-- The key tag of the source page of a `plodge`, as translated at issue (R140). -/
  enc : Bool
  key : BitVec 13
  /-- Whether a `plodge` has looked up the Lodge, and whether a change keeps it from doing so (R139, R141). -/
  looked : Bool
  barred : Bool
  /-- The Lodge entry that the command fills or reads. -/
  lodge : Option Nat
  filling : Bool
  /-- The index of the row that a gather or scatter moves, once it has been read (R185). -/
  idx : Option Nat := none
  /-- The bytes of a hit whose entry has left the Lodge meanwhile (R141). -/
  hit : Option Cells := none
deriving DecidableEq, Repr

/-- A Lodge entry (R140). -/
structure LodgeEntry where
  die : Nat
  id : Nat
  asn : BitVec 12
  tag : BitVec 32
  haddr : Nat
  enc : Bool
  key : BitVec 13
  valid : Bool
  used : Nat
  data : Cells
deriving DecidableEq, Repr

/-- A Lodge's control (R139): LWAY, NENT, FLUSH, and writes waiting for the running change. -/
structure Lodge where
  lway : Nat
  nent : Nat
  flush : Bool
  newWay : Option Nat
  queued : List Word64
deriving DecidableEq, Repr

/-! Regions (R337 to R345) -/

/-- States of a region table entry (R338). -/
inductive RegSt
  | free | run | ended
deriving DecidableEq, Repr

/-- A region table entry that is not FREE (R338, R339): die, entry, owner, the bytes written with the lines' grain and key tags, the lines
read, the source mask, DEPTH, and the writers that a load at the greatest DEPTH waits for (R340). -/
structure Region where
  die : Nat
  e : Nat
  owner : Nat
  st : RegSt
  bytes : Cells
  attrs : List (Nat × BitVec 2 × Bool × BitVec 13 × Word64 × Mask)
  read : List Nat
  sources : List Nat
  depth : Nat
  stall : List Nat
  implicit : Bool
deriving DecidableEq, Repr

/-! The Hall (R253 to R269) -/

/-- An owned Room (R264): its Hall, number, owner, flags, and its slots (row × 256 + column); an unlisted one is 0, or the free
value of an occasion (R265; log 2). -/
structure Room where
  hall : Nat
  num : Nat
  owner : Nat
  flags : BitVec 6
  base : Option Nat
  slots : List (Nat × Word32)
deriving DecidableEq, Repr

/-- A Hall that is not in its reset state (R253, R267): STATE, disabled rows, the operation (owner tag and item) whose B is in the
shadow, the one that streams, those whose streams have ended, the groups granted so far with the latest last, and the waiting
`mtake`s in order of issue: tag, request and m register (R271). -/
structure Hall where
  num : Nat
  st : Nat
  rows : BitVec 272
  shadow : Option (Nat × Nat)
  stream : Option (Nat × Nat)
  ended : List (Nat × Nat)
  granted : List Nat
  takers : List (Nat × Nat × BitVec 3)
  /-- Since when the stream runs (R256). -/
  streamAt : Nat := 0
deriving DecidableEq, Repr

/-! Launches (R347 to R362) -/

/-- An accepted launch (R354): its record and s2 (R359), where the words of its completion block and of its dependences lie (R348,
R353), with target counts and whether they are met, whether it is ready (R354) and since when, the PTS of its groups (R355), N (R360),
how many of its Caravans are placed and retired, whether co-scheduling is granted (R358), the MaxS of R361, STATUS (R362), since when
its next Caravan has been the head (R357), and whether a `tlbi` has removed the translations of its words (R123). -/
structure Launch where
  id : Nat
  die : Nat
  record : BitVec 512
  s2 : Word64
  words : List Target
  deps : List (Target × Nat × Bool)
  ready : Bool
  readyAt : Nat
  pts : Stamp
  n : Nat
  placed : Nat
  retired : Nat
  cos : Bool
  maxStamp : Stamp
  status : Nat
  headSince : Option Nat
  aged : Bool
  stale : Bool := false
deriving DecidableEq, Repr

/-- States of a Caravan that has been placed once. -/
inductive CState
  | queued | resident | saved
deriving DecidableEq, Repr

/-- A Caravan that has been placed (R7, R131, R377, R379): its launch, number, place, bank mask at placement and bank map; HALT and
HOLD of its image, whether it is to be pre-empted, whether its image is complete, and what the image holds of its banks, Rooms (with
the owners' m registers) and Porter commands; whether it is to be run again (R303); its workgroups that have retired; and since when
it has been the head (R357). `image`: where its image lies in the context pool (R378). -/
structure Caravan where
  id : Nat
  launch : Nat
  num : Nat
  st : CState
  quad : Nat
  core : Nat
  mask : BitVec 64
  bankMap : List (Nat × Nat)
  halt : Bool
  hold : Bool
  preempt : Bool
  saved : Bool
  banks : List (Nat × Bank)
  bankData : Cells
  rooms : List Room
  porters : List PorterCmd
  rerun : Bool
  wgRetired : List Nat
  headSince : Option Nat
  aged : Bool
  image : Nat := 0
deriving DecidableEq, Repr

/-- A place for a Caravan: quad of the package and first core (R356). -/
structure Seat where
  quad : Nat
  core : Nat
deriving DecidableEq, Repr

/-- What a Dispatcher reserves for its head (R357): the Caravan, where it has been placed before, or the launch whose next Caravan
it is, and its places. -/
structure Reservation where
  caravan : Option Nat
  launch : Nat
  seats : List Seat
deriving DecidableEq, Repr

/-- The Dispatchers (R354, R357, R376, R378), with PREQ and the reservation of each, and the bytes reserved in the context pool. -/
structure Disp where
  launches : List Launch
  caravans : List Caravan
  nextTag : Nat
  nextCaravan : Nat
  nextLaunch : Nat
  preq : Vector Word64 2
  /-- The Caravans that the running requests of each Dispatcher target (R376). -/
  preqRun : Vector (List Nat) 2
  reserved : Vector (Option Reservation) 2
  poolUsed : Nat
  /-- Responses to host launch transactions, tag and code, oldest first (R351). -/
  replies : List (BitVec 16 × Nat)
deriving DecidableEq, Repr

/-- The service registers and the parts of the package behind them (R381 to R394). -/
structure Service where
  rdymap : BitVec 768
  cwnode : BitVec 11
  astb : Word64
  hvbase : Word64
  ctxpool : Word64
  lease : BitVec 8
  tfloor : Stamp
  keyctl : Word64
  keybuf : Word64
  slogbase : Word64
  sloghead : Word64
  pwrcause : BitVec 2
  power : BitVec 12
  freq : BitVec 12
  ifver : Word64
  ckptctl : Word64
  /-- The node of the checkpoint that runs (R392). -/
  ckptNode : BitVec 11
  firmware : List (List Byte)
  /-- A firmware image has failed verification (R387). -/
  badImage : Bool
  /-- Ports that have negotiated a common version (R386). -/
  trained : List Nat
  portRetries : List (Nat × Nat)
  /-- The die bridge is down (R389). -/
  bridgeDown : Bool
  /-- Ticks so far (R95). -/
  ticks : Nat
deriving DecidableEq, Repr

/-- An error that the hardware finds (R389): one that is corrected, with the unit that the log names; one that is not, of a line held in
a Cellar slice, a level-two cache or quad memory in CACHE mode, or of a line of a bank in SCRATCH or FIFO mode; a flit of the die bridge. -/
inductive Upset
  | corrected (unit : Nat)
  | line (line : Nat)
  | bank (bank line : Nat)
  | bridge
deriving DecidableEq, Repr

/-- Which agent moves next (log 1): a group's scalar stream, one PC slot of a group's lane stream, either of them with a parity error
in a register that its word reads (R389), a load that is performed only now (R145), a store, an atomic or a load of a group of another package at its home (R97, R96, R106), a new average of
the power (R394), an event, an error, or waiting cycles. -/
inductive Pick
  | scalar (t : Nat)
  | lane (t slot : Nat)
  | parity (t : Nat) (slot : Option Nat)
  | late (t k : Nat)
  | peer (pa n : Nat) (coh : Coh) (pts : Stamp) (op : HostAtomicOp) (x y : Word64)
  | peerLoad (line : Nat) (pts : Stamp) (lease : BitVec 8)
  | power (watts : BitVec 12)
  | event (i : Instr)
  | upset (u : Upset)
  | wait (n : Nat)
deriving DecidableEq, Repr

/-- The machine. -/
structure State where
  /-- The group in focus: the one whose instruction a step executes (log 5). -/
  g : Group
  others : List Group
  mem : Mem
  banks : List Bank
  porters : List PorterCmd
  lodges : Vector Lodge 2
  lodgeEntries : List LodgeEntry
  regions : List Region
  /-- Entries [i][j] of the reachability matrix of a die that are 1: (die, i, j). -/
  reach : List (Nat × Nat × Nat)
  rooms : List Room
  halls : List Hall
  disp : Disp
  svc : Service
  /-- The model's own: cycles counted by steps (log 16). -/
  now : Nat
  /-- The model's own: which agent moves next; empty for the default schedule (log 1). -/
  agenda : List Pick
  /-- The model's own: the next free value (log 2). -/
  freeCtr : Nat
deriving DecidableEq, Repr

/-- The memory system right after reset (R81, R125, R94, R150). -/
def Mem.reset : Mem :=
  { hbm := [], cellar := [], l2 := [], quad := [], ext := [], scratch := [], bankPoison := [], poison := [], dead := [], bad := [], failed := [], tags := [], lines := [], chans := [], uses := 0, running := [],
    mstat := Vector.replicate 16 0, protGiB := Vector.replicate 16 0, counters := [], nodes := [], verified := [], macs := [], keys := [], dir := [],
    qlines := [], txns := [], queue := [], drops := [], copies := [], leases := [], mts := [], mtsBase := 0, nones := [], kept := [], rstamp := 0, tmax := 0, hr := 0,
    hostLeases := [], hostMts := 0, coreTlb := [], dieTlb := [], reds := [], notes := [], staged := [], safe := none, served := [], fresh := [] }

/-- The Dispatchers right after reset (R376). -/
def Disp.reset : Disp :=
  { launches := [], caravans := [], nextTag := 0, nextCaravan := 0, nextLaunch := 0, preq := Vector.replicate 2 0, preqRun := Vector.replicate 2 [],
    reserved := Vector.replicate 2 none, poolUsed := 0, replies := [] }

/-- The service registers right after reset (R100, R382, R386, R388, R391, R392, R394; log 7 for the rest). -/
def Service.reset : Service :=
  { rdymap := 0, cwnode := 0, astb := 0, hvbase := 0, ctxpool := 0, lease := 10, tfloor := 0, keyctl := 0, keybuf := 0,
    slogbase := 0, sloghead := 0, pwrcause := 0, power := 0, freq := 940, ifver := 0x0000000001010101#64, ckptctl := 0, ckptNode := 0, firmware := [], badImage := false, trained := [],
    portRetries := [], bridgeDown := false, ticks := 0 }

/-- The machine right after reset: no group, no launch, every function not ready (R382). -/
def State.reset : State :=
  { g := Group.absent, others := [], mem := Mem.reset, banks := [], porters := [],
    lodges := Vector.replicate 2 { lway := 0, nent := 0, flush := false, newWay := none, queued := [] }, lodgeEntries := [],
    regions := [], reach := [], rooms := [], halls := [], disp := Disp.reset, svc := Service.reset, now := 0, agenda := [],
    freeCtr := 0 }

end Sys2Proof.Machine
end

