-- ==== Sys2Proof/Machine/Cells.lean ====
section
/-! DEFINITION. Byte stores: lists of cells with rising addresses, and the two canonical forms that the memories keep. -/
namespace Sys2Proof.Machine

/-- The byte listed at an address. -/
def Cells.find : Cells → Nat → Option Byte
  | [], _ => none
  | (k, b) :: c, a => if a = k then some b else if a < k then none else Cells.find c a

/-- The byte at an address of a store that reads 0 where nothing is listed. -/
def Cells.get (c : Cells) (a : Nat) : Byte := (Cells.find c a).getD 0#8

/-- Lists a byte at an address. -/
def Cells.put : Cells → Nat → Byte → Cells
  | [], a, b => [(a, b)]
  | (k, x) :: c, a, b =>
    if a = k then (a, b) :: c else if a < k then (a, b) :: (k, x) :: c else (k, x) :: Cells.put c a b

/-- Takes an address off the list. -/
def Cells.drop : Cells → Nat → Cells
  | [], _ => []
  | (k, x) :: c, a => if a = k then c else if a < k then (k, x) :: c else (k, x) :: Cells.drop c a

/-- A write to a store that reads 0 where nothing is listed. -/
def Cells.set (c : Cells) (a : Nat) (b : Byte) : Cells := if b = 0#8 then Cells.drop c a else Cells.put c a b

/-- `n` bytes from an address, through a read of one. -/
def readBytes (f : Nat → Byte) (a n : Nat) : List Byte := (List.range n).map fun i => f (a + i)

/-- Writes bytes at consecutive addresses. -/
def Cells.setBytes (c : Cells) (a : Nat) : List Byte → Cells
  | [] => c
  | b :: bs => Cells.setBytes (c.set a b) (a + 1) bs

/-- Lists bytes at consecutive addresses. -/
def Cells.putBytes (c : Cells) (a : Nat) : List Byte → Cells
  | [] => c
  | b :: bs => Cells.putBytes (c.put a b) (a + 1) bs

/-- Takes `n` consecutive addresses off the list. -/
def Cells.dropRange (c : Cells) (a n : Nat) : Cells := c.filter fun x => x.1 < a || a + n ≤ x.1

/-- The part of a store inside a range. -/
def Cells.range (c : Cells) (a n : Nat) : Cells := c.filter fun x => a ≤ x.1 && x.1 < a + n

/-- Little-endian value of bytes (R3). -/
def leNat : List Byte → Nat
  | [] => 0
  | b :: bs => b.toNat + 256 * leNat bs

/-- The `n` bytes of a value, little-endian (R3). -/
def leBytes : Nat → Nat → List Byte
  | 0, _ => []
  | n + 1, x => BitVec.ofNat 8 x :: leBytes n (x / 256)

/-- The least of a list by a key, the first among equals. -/
def leastBy {α : Type} (f : α → Nat) (l : List α) : Option α :=
  l.foldl (fun b x => match b with
    | none => some x
    | some y => if f x < f y then some x else some y) none

/-- Addresses strictly rise from `lo`. -/
def Cells.risingFrom : Nat → Cells → Bool
  | _, [] => true
  | lo, (k, _) :: c => lo ≤ k && Cells.risingFrom (k + 1) c

/-- Addresses strictly rise. -/
def Cells.rising (c : Cells) : Bool := Cells.risingFrom 0 c

/-- The canonical form of a store that reads 0 where nothing is listed. -/
def Cells.canonical (c : Cells) : Bool := Cells.rising c && c.all fun x => x.2 != 0#8

/-- The canonical form of the memories: stores that read 0 where nothing is listed hold no 0, overlays only rise. -/
def Memory.wf (m : Mem) : Bool :=
  Cells.canonical m.hbm && Cells.canonical m.ext && Cells.canonical m.scratch && Cells.rising m.cellar && Cells.rising m.l2 &&
    Cells.rising m.quad

end Sys2Proof.Machine
end

