-- ==== Sys2Proof/Machine/Hbm.lean ====
section
/-! DEFINITION. HBM behind the Cellar (04_memory): the physical map, the hash, channels and parity, retirement, encryption. Addresses
are in domain form: node × 2^52 + physical address, this package being node 0 (R64, R110). -/
namespace Sys2Proof.Machine

/-- The bytes of one die's memory (R64). -/
def dieBytes : Nat := 0x7C00000000

/-- The node that a domain address names (R110). -/
def nodeOf (a : Nat) : Nat := a / 2 ^ 52
/-- The 52-bit physical address in its package. -/
def physOf (a : Nat) : Nat := a % 2 ^ 52
/-- Host memory (R64), of whichever package. -/
def isHost (a : Nat) : Bool := 2 ^ 51 ≤ physOf a
/-- Die memory of whichever package (R64). -/
def isDie (a : Nat) : Bool := physOf a < 2 * dieBytes
/-- A reserved physical address (R64). -/
def isAbsent (a : Nat) : Bool := !isHost a && !isDie a
/-- Memory of this package's own stacks. -/
def isOwn (a : Nat) : Bool := a < 2 * dieBytes
/-- The die whose stacks hold an address of die memory. -/
def dieOf (a : Nat) : Nat := physOf a / dieBytes

/-- A place in HBM: stack of the package, channel, channel-local byte address (R62). -/
structure Loc where
  stack : Nat
  ch : Nat
  off : Nat
deriving DecidableEq, Repr

/-- The power-of-two mode hash (R65). -/
def hashLoc (a : Nat) : Loc :=
  let o := physOf a % dieBytes
  let b := o / 2 ^ 11
  let st := (b % 8) ^^^ (b / 8 % 8) ^^^ (b / 64 % 8)
  let sb := b / 8
  let ch := (sb % 32) ^^^ (sb / 2 ^ 5 % 32) ^^^ (sb / 2 ^ 10 % 32) ^^^ (sb / 2 ^ 15 % 32) ^^^ (sb / 2 ^ 20 % 32)
  ⟨dieOf a * 8 + st, ch, sb / 32 * 2048 + o % 2048⟩

/-- A field of a stack's MSTAT (R68). -/
def Mem.mst (m : Mem) (stack lo n : Nat) : Nat := (m.mstat[stack]?.getD 0).toNat / 2 ^ lo % 2 ^ n
/-- MODE: 0 power-of-two, 1 rebuilding, 2 retired, 3 degraded. -/
def Mem.mode (m : Mem) (stack : Nat) : Nat := m.mst stack 18 2
/-- RCH. -/
def Mem.rch (m : Mem) (stack : Nat) : Nat := m.mst stack 20 5
/-- RBPTR. -/
def Mem.rbptr (m : Mem) (stack : Nat) : Nat := m.mst stack 25 20
/-- PFAIL of a parity group. -/
def Mem.pfail (m : Mem) (stack g : Nat) : Bool := m.mst stack (14 + g) 1 = 1
/-- Writes a field of MSTAT. -/
def Mem.setMst (m : Mem) (stack lo n v : Nat) : Mem :=
  let w := (m.mstat[stack]?.getD 0).toNat
  let old := w / 2 ^ lo % 2 ^ n
  { m with mstat := m.mstat.setIfInBounds stack (BitVec.ofNat 64 (w - old * 2 ^ lo + v % 2 ^ n * 2 ^ lo)) }

/-- The place of a block of channel `f` in the retired mode (R69, step 2). -/
def retiredLoc (f : Nat) (l : Loc) : Loc :=
  let cb := l.off / 2048
  let s := cb % 31
  ⟨l.stack, if s < f then s else s + 1, (1015808 + cb / 31) * 2048 + l.off % 2048⟩

/-- Where an address of this package's memory lies now (R65, R69, R70). -/
def Mem.locate (m : Mem) (a : Nat) : Loc :=
  let l := hashLoc a
  let f := m.rch l.stack
  if l.ch = f && m.mode l.stack ≠ 0 && l.off / 2048 < m.rbptr l.stack then retiredLoc f l else l

/-- The Cellar slice of an address, numbered stack × 32 + channel (R65). -/
def Mem.slice (m : Mem) (a : Nat) : Nat := (m.locate a).stack * 32 + (m.locate a).ch

/-- The key of a place in `Mem.hbm`. -/
def Loc.key (l : Loc) : Nat := (l.stack * 36 + l.ch) * 2 ^ 31 + l.off

/-- The byte that a place holds. -/
def Mem.locByte (m : Mem) (l : Loc) : Byte := m.hbm.get l.key

/-- A write to a data channel, with its group's parity (R63); a failed parity channel is not written (R71). -/
def Mem.setLoc (m : Mem) (l : Loc) (b : Byte) : Mem :=
  let p : Loc := ⟨l.stack, 32 + l.ch / 8, l.off⟩
  let par := m.locByte p ^^^ m.locByte l ^^^ b
  let h := m.hbm.set l.key b
  { m with hbm := if m.pfail l.stack (l.ch / 8) then h else h.set p.key par }

/-- A channel of the group, other than `c`, that cannot take part in a rebuild at a place (R71, R72): it has failed, or it is the
parity channel and its bank there is under self-test. -/
def Mem.memberDown (m : Mem) (l : Loc) : Bool :=
  let g := l.ch / 8
  (List.range 8).any (fun i => 8 * g + i ≠ l.ch && m.failed.contains (l.stack, 8 * g + i) &&
      !(8 * g + i = m.rch l.stack && m.mode l.stack ≠ 0 && l.off / 2048 < m.rbptr l.stack)) || m.pfail l.stack g ||
    (m.mst l.stack 9 1 = 1 && m.mst l.stack 45 6 = 32 + g && m.mst l.stack 0 7 = l.off / 2 ^ 24)

/-- Whether a read of HBM at an address needs a rebuild (R63, R70, R71). -/
def Mem.needsRebuild (m : Mem) (a : Nat) : Bool :=
  let l := m.locate a
  m.failed.contains (l.stack, l.ch) || m.bad.contains (l.key / 8 * 8) || (m.mode l.stack = 1 && l.ch = m.rch l.stack)

/-- Whether a rebuild that the sector of an address needs fails (R63, R71). -/
def Mem.rebuildFails (m : Mem) (a : Nat) : Bool :=
  (List.range 4).any fun i =>
    let b := a / 32 * 32 + 8 * i
    m.needsRebuild b && m.memberDown (m.locate b)

/-- Whether HBM returns the sector of an address as poison (R63, R69, R71). -/
def Mem.hbmPoison (m : Mem) (a : Nat) : Bool := m.dead.contains (a / 32) || m.rebuildFails a

/-- Whether a slice serves an address as part of the bank under run-time self-test (R72, step 2). -/
def Mem.testing (m : Mem) (a : Nat) : Bool :=
  let l := m.locate a
  m.mst l.stack 9 1 = 1 && m.mst l.stack 45 6 = l.ch && m.mst l.stack 0 7 = l.off / 2 ^ 24

/-- Whether the slice of an address has stopped caching it, since it tests another bank (R72, step 1). -/
def Mem.parked (m : Mem) (a : Nat) : Bool :=
  let l := m.locate a
  m.mst l.stack 9 1 = 1 && m.mst l.stack 45 6 = l.ch && m.mst l.stack 0 7 ≠ l.off / 2 ^ 24

/-! Encryption (R77 to R82) -/

/-- A key slot (R81): FREE with zero keys unless listed. -/
def Mem.keySlot (m : Mem) (k : BitVec 13) : KeySlot :=
  (m.keys.find? fun x => x.slot = k.toNat).getD ⟨k.toNat, .free, List.replicate 32 0, List.replicate 32 0⟩

/-- The offset of an address in the 62 GiB of its stack (R65). -/
def localOff (a : Nat) : Nat := physOf a % dieBytes / 2 ^ 14 * 2048 + physOf a % 2048

/-- The address at an offset in a stack of the package: the power-of-two hash the other way (R65). -/
def addrOfLocal (stack off : Nat) : Nat :=
  let sb := off / 2048
  let b := sb * 8 + ((stack % 8) ^^^ (sb % 8) ^^^ (sb / 8 % 8))
  stack / 8 * dieBytes + b * 2048 + off % 2048

/-- Whether a frame lies in its stack's protected region (R78). -/
def Mem.isProtected (m : Mem) (a : Nat) : Bool := localOff a < m.protGiB[(hashLoc a).stack]?.getD 0 * 2 ^ 30

/-- Whether an address lies among the metadata at the top of its stack, 83 MiB for each protected GiB (R78; log 8). -/
def Mem.isMetadata (m : Mem) (a : Nat) : Bool :=
  62 * 2 ^ 30 ≤ localOff a + m.protGiB[(hashLoc a).stack]?.getD 0 * 83 * 2 ^ 20

/-- Whether an access under a key is served (R78, R81). -/
def Mem.keyServes (m : Mem) (a : Nat) (enc : Bool) (k : BitVec 13) : Bool :=
  !enc || (m.isProtected a && (m.keySlot k).st = .live)

/-- The 4 KiB block of a line, in its stack (R78; log 8). -/
def metaBlock (line : Nat) : Nat := (hashLoc (line * 128)).stack * 2 ^ 24 + localOff (line * 128) / 4096

/-- Which line of its 4 KiB block a line is (R78). -/
def metaLine (line : Nat) : Nat := localOff (line * 128) / 128 % 32

/-- Line `i` of a 4 KiB block. -/
def blockLine (block i : Nat) : Nat := addrOfLocal (block / 2 ^ 24) (block % 2 ^ 24 * 4096 + 128 * i) / 128

/-- The counter line of a 4 KiB block (R78). -/
def Mem.counterLine (m : Mem) (block : Nat) : CounterLine :=
  (m.counters.find? fun c => c.block = block).getD ⟨block, 0, List.replicate 32 0, []⟩

/-- Bytes of a value from the most significant end. -/
def beBytes (n x : Nat) : List Byte := (leBytes n x).reverse

/-- Encrypts or decrypts the 128 bytes of a line under its key and counters (R77). -/
def cryptLine (key : List Byte) (line : Nat) (major minor : Nat) (bs : List Byte) : List Byte :=
  let pad := (List.range 8).flatMap fun i =>
    Config.aes256 key (beBytes 16 (((physOf (line * 128) / 16 + i) * 2 ^ 64 + major) * 2 ^ 16 + minor * 2 ^ 9))
  (List.range 128).map fun i => bs[i]?.getD 0 ^^^ pad[i]?.getD 0

/-- The MAC of a line (R77): 116 bits of address and counters and the ciphertext, from the most significant end. -/
def lineMac (key : List Byte) (line major minor : Nat) (cipher : List Byte) : List Byte :=
  let top := (physOf (line * 128) / 128 * 2 ^ 64 + major) * 2 ^ 7 + minor
  Config.kmac256 key (beBytes 143 (cipher.foldl (fun n b => n * 256 + b.toNat) top * 16)) 7

/-- The 128 bytes that HBM holds for a line. -/
def Mem.hbmLine (m : Mem) (line : Nat) : List Byte := readBytes (fun a => m.locByte (m.locate a)) (line * 128) 128

/-- Writes bytes to HBM. -/
def Mem.setHbm (m : Mem) (a : Nat) : List Byte → Mem
  | [] => m
  | b :: bs => (m.setLoc (m.locate a) b).setHbm (a + 1) bs

/-- Minor `m.minors[i]` of a line. -/
def Mem.minorOf (m : Mem) (line : Nat) : Nat := (m.counterLine (metaBlock line)).minors[metaLine line]?.getD 0

/-- What decryption makes of an encrypted line in HBM under a key (R77). -/
def Mem.decryptLine (m : Mem) (line : Nat) (k : BitVec 13) : List Byte :=
  cryptLine (m.keySlot k).data line (m.counterLine (metaBlock line)).major.toNat (m.minorOf line) (m.hbmLine line)

/-- Whether the MAC of an encrypted line holds (R77, R80). -/
def Mem.macHolds (m : Mem) (line : Nat) (k : BitVec 13) : Bool :=
  match m.macs.find? fun x => x.1 = line with
  | none => false
  | some (_, mac) =>
    lineMac (m.keySlot k).mac line (m.counterLine (metaBlock line)).major.toNat (m.minorOf line) (m.hbmLine line) = mac

/-! The counter tree (R78 to R80): level 0 holds the counter lines, each node covers eight lines of the level below it, and the one
node of the top level, the root, is in the base die. -/

/-- The level of the root of a stack's tree: 2^18 counter lines for each protected GiB. -/
def Mem.treeDepth (m : Mem) (stack : Nat) : Nat :=
  ((List.range 9).find? fun d => m.protGiB[stack]?.getD 0 * 2 ^ 18 ≤ 8 ^ d).getD 9

/-- A node of a tree. -/
def Mem.treeNode (m : Mem) (stack level idx : Nat) : TreeNode :=
  (m.nodes.find? fun x => x.stack = stack && x.level = level && x.idx = idx).getD ⟨stack, level, idx, 0, List.replicate 8 0, []⟩

/-- Puts a node in place. -/
def Mem.setNode (m : Mem) (n : TreeNode) : Mem :=
  { m with nodes := n :: m.nodes.filter fun x => !(x.stack = n.stack && x.level = n.level && x.idx = n.idx) }

/-- The counters of a metadata line as one value: MAJOR at [63:0], minors of 7 bits above it (R78). -/
def countersWord (major : Word64) (minors : List Nat) : Nat :=
  major.toNat + 2 ^ 64 * minors.foldr (fun x n => x % 128 + 128 * n) 0

/-- The CMAC that a metadata line has under its parent's counters (R78; log 8). -/
def Mem.cmacOf (m : Mem) (stack level idx : Nat) : List Byte :=
  let p := m.treeNode stack (level + 1) (idx / 8)
  let own := if level = 0 then
      let c := m.counterLine (stack * 2 ^ 24 + idx)
      countersWord c.major c.minors
    else
      let n := m.treeNode stack level idx
      countersWord n.major n.minors
  Config.kmac256 (Config.treeKey stack)
    (beBytes 8 p.major.toNat ++ beBytes 1 (p.minors[idx % 8]?.getD 0) ++ beBytes 1 level ++ beBytes 3 idx ++ beBytes 36 own) 7

/-- Whether a metadata line has been written. -/
def Mem.hasMeta (m : Mem) (stack level idx : Nat) : Bool :=
  if level = 0 then m.counters.any fun c => c.block = stack * 2 ^ 24 + idx
  else m.nodes.any fun x => x.stack = stack && x.level = level && x.idx = idx

/-- Computes the CMAC of a metadata line anew. -/
def Mem.remac (m : Mem) (stack level idx : Nat) : Mem :=
  let mac := m.cmacOf stack level idx
  if level = 0 then { m with counters := m.counters.map fun c => if c.block = stack * 2 ^ 24 + idx then { c with cmac := mac } else c }
  else { m with nodes := m.nodes.map fun x => if x.stack = stack && x.level = level && x.idx = idx then { x with cmac := mac } else x }

/-- A metadata line of a level has been written: its minor in its parent rises, or overflows with its seven siblings re-MACed, and so on
up to the root (R79). -/
def Mem.bumpTree : Nat → Mem → Nat → Nat → Nat → Mem
  | 0, m, _, _, _ => m
  | n + 1, m, stack, level, idx =>
    let p := m.treeNode stack (level + 1) (idx / 8)
    let minor := p.minors[idx % 8]?.getD 0
    let m1 := if minor < 127 then (m.setNode { p with minors := p.minors.set (idx % 8) (minor + 1) }).remac stack level idx
      else (List.range 8).foldl (fun (m : Mem) i => m.remac stack level (idx / 8 * 8 + i))
        (m.setNode { p with major := p.major + 1, minors := List.replicate 8 0 })
    m1.bumpTree n stack (level + 1) (idx / 8)

/-- Whether a metadata line and those on its path to the root hold, as far as they have not been verified (R80). -/
def Mem.pathHolds : Nat → Mem → Nat → Nat → Nat → Bool
  | 0, _, _, _, _ => true
  | n + 1, m, stack, level, idx =>
    m.verified.contains (stack, level, idx) || !m.hasMeta stack level idx ||
      ((if level = 0 then (m.counterLine (stack * 2 ^ 24 + idx)).cmac else (m.treeNode stack level idx).cmac) = m.cmacOf stack level idx &&
        m.pathHolds n stack (level + 1) (idx / 8))

/-- Whether a fill of an encrypted line is verified: its MAC and the metadata on its path (R80). -/
def Mem.verifies (m : Mem) (line : Nat) (k : BitVec 13) : Bool :=
  let b := metaBlock line
  m.macHolds line k && m.pathHolds (m.treeDepth (b / 2 ^ 24)) (b / 2 ^ 24) 0 (b % 2 ^ 24)

/-- The base die's metadata cache holds the path of a line verified (R80). -/
def Mem.keepPath (m : Mem) (line : Nat) : Mem :=
  let b := metaBlock line
  let path := (List.range (m.treeDepth (b / 2 ^ 24))).map fun l => (b / 2 ^ 24, l, b % 2 ^ 24 / 8 ^ l)
  { m with verified := path.filter (fun x => !m.verified.contains x) ++ m.verified }

/-- Encrypts and writes one line under the counters that `m` holds for it. -/
def Mem.encryptLine (m : Mem) (line : Nat) (k : BitVec 13) (plain : List Byte) : Mem :=
  let c := m.counterLine (metaBlock line)
  let s := m.keySlot k
  let x := cryptLine s.data line c.major.toNat (m.minorOf line) plain
  let m1 := m.setHbm (line * 128) x
  { m1 with macs := (line, lineMac s.mac line c.major.toNat (m.minorOf line) x) :: m1.macs.filter fun y => y.1 ≠ line }

/-- Sets the counters of a 4 KiB block. -/
def Mem.setCounters (m : Mem) (c : CounterLine) : Mem :=
  { m with counters := c :: m.counters.filter fun x => x.block ≠ c.block }

/-- A write-back of an encrypted line, with the overflow of its minor counter and the counters above it (R79). -/
def Mem.writeBackEnc (m : Mem) (line : Nat) (k : BitVec 13) (plain : List Byte) : Mem :=
  let b := metaBlock line
  let c := m.counterLine b
  let minor := m.minorOf line
  let m1 :=
    if minor < 127 then
      (m.setCounters { c with minors := c.minors.set (metaLine line) (minor + 1) }).encryptLine line k plain
    else
      let others := (List.range 32).filterMap fun i =>
        let l := blockLine b i
        if l = line || !(m.macs.any fun x => x.1 = l) then none else some (l, m.macHolds l k, m.decryptLine l k)
      let m1 := m.setCounters { c with major := c.major + 1, minors := List.replicate 32 0 }
      let m2 := others.foldl (fun (m : Mem) x =>
        if x.2.1 then m.encryptLine x.1 k x.2.2 else { m with macs := m.macs.filter fun y => y.1 ≠ x.1 }) m1
      m2.encryptLine line k plain
  m1.bumpTree (m1.treeDepth (b / 2 ^ 24)) (b / 2 ^ 24) 0 (b % 2 ^ 24)

/-! Bytes above HBM -/

/-- The key under which a line is held above HBM. -/
def Mem.tagOf (m : Mem) (line : Nat) : Option (BitVec 13) := (m.tags.find? fun x => x.1 = line).map (·.2)

/-- The byte that HBM gives, in the clear where its line is held under a key (R77). -/
def Mem.clearByte (m : Mem) (a : Nat) : Byte :=
  match m.tagOf (a / 128) with
  | none => m.locByte (m.locate a)
  | some k => (m.decryptLine (a / 128) k)[a % 128]?.getD 0

/-- The byte that a Cellar slice gives (R73, R77). -/
def Mem.sliceByte (m : Mem) (a : Nat) : Byte := (m.cellar.find a).getD (m.clearByte a)

end Sys2Proof.Machine
end

