-- ==== Sys2Proof/Machine/Paths.lean ====
section
/-! DEFINITION. The lanes of a group: PC slots, divergence stack, joins, clause entries, completion flags and lane runs
(R42, R292 to R300). All of it acts on one group. -/
namespace Sys2Proof.Machine

/-- Every lane of the group's width. -/
def Group.full (g : Group) : Mask := Mask.low g.width
/-- Lanes that have exited or were switched off (R134, R292). -/
def Group.gone (g : Group) : Mask := g.exited ||| g.fmask
/-- The group's live lanes (R324). -/
def Group.liveLanes (g : Group) : Mask := g.full &&& ~~~ g.gone

/-- The path in a PC slot. -/
def Group.path (g : Group) (k : Nat) : Option Path := (g.slots[k]?).join
/-- Puts a path, or nothing, in a PC slot. -/
def Group.setSlot (g : Group) (k : Nat) (p : Option Path) : Group := { g with slots := g.slots.setIfInBounds k p }
/-- The arrivals recorded at a join. -/
def Group.join (g : Group) (i : Nat) : List Batch := g.joins[i]?.getD []

/-- Sets a bit of GSTAT. -/
def Group.setStat (g : Group) (bit : Nat) : Group := { g with gstat := g.gstat ||| BitVec.ofNat 32 (2 ^ bit) }

/-- A push on the divergence stack, which may spill (R297). -/
def Group.push (g : Group) (p : Path) : Group :=
  if g.cached < 16 then { g with stack := p :: g.stack, cached := g.cached + 1 }
  else { g.setStat 3 with stack := p :: g.stack }

/-- A path that stands at a clause header. -/
def Path.start (clause : BitVec 20) (m : Mask) : Path := { clause := clause, slot := 0, entry := none, mask := m }

/-- Whether a path stands at a clause header that it has not entered. -/
def Path.atHeader (p : Path) : Bool := p.slot = 0 && p.entry.isNone

/-- The lane word index of a path: a clause header, or the slot at which it stands or resumes (R298). -/
def Path.pc (p : Path) : BitVec 20 := if p.atHeader then p.clause else p.clause + BitVec.ofNat 20 (p.slot + 1)

/-- Whether a popped path merges into the path of slot `k`: their PCs are equal (R294). A batch that lost reconvergence stays a path
of its own until it starts a clause (R299), and no lane joins a repeat that has begun. -/
def Group.takesIn (g : Group) (k : Nat) (q p : Path) : Bool :=
  !p.atHeader && p.pc = q.pc && !p.lone && !q.lone && !g.rep.any fun r => r.pslot = k

/-- A group with `st` left on its stack after a pop, which may fill (R297). -/
def Group.popped (g : Group) (st : List Path) : Group :=
  if g.cached ≤ 1 && !st.isEmpty then { g.setStat 3 with stack := st, cached := 1 }
  else { g with stack := st, cached := g.cached - 1 }

/-- A path whose lanes are joined by released ones that resume at its place: these enter the clause afresh, and it goes on with them in that
entry (R294, R321). -/
def Path.joined (q p : Path) : Path := { q with mask := q.mask ||| p.mask, entry := none, also := q.entry.toList ++ q.also }

/-- A pop into the empty slot `k`, with the merging rule of R294 (R296, R297). -/
def Group.pop (g : Group) (k : Nat) : Group :=
  match g.stack with
  | [] => g
  | p :: st =>
    match g.path (1 - k) with
    | some q => if g.takesIn (1 - k) q p then (g.popped st).setSlot (1 - k) (some (q.joined p)) else (g.popped st).setSlot k (some p)
    | none => (g.popped st).setSlot k (some p)

/-- Merges two slots that hold the same clause header (R294), but for a batch that lost reconvergence (R299). -/
def Group.merge (g : Group) : Option Group :=
  match g.path 0, g.path 1 with
  | some p, some q =>
    if p.atHeader && q.atHeader && p.clause = q.clause && !p.lone && !q.lone then
      some ((g.setSlot 0 (some { p with mask := p.mask ||| q.mask })).setSlot 1 none)
    else none
  | _, _ => none

/-- Refills empty slots from the stack and merges, until neither applies (R294, R296). -/
def Group.refill : Nat → Group → Group
  | 0, g => g
  | n + 1, g =>
    let g0 := if (g.path 0).isNone then g.pop 0 else g
    let g1 := if (g0.path 1).isNone then g0.pop 1 else g0
    match g1.merge with
    | some g2 => g2.refill n
    | none => if ((g1.path 0).isNone || (g1.path 1).isNone) && !g1.stack.isEmpty then g1.refill n else g1

/-- Places paths: free slots first, the others on the stack so that the earliest is popped first (R298, rule 3). -/
def Group.place (g : Group) : List Path → Group
  | [] => g
  | p :: ps =>
    if (g.path 0).isNone then (g.setSlot 0 (some p)).place ps
    else if (g.path 1).isNone then (g.setSlot 1 (some p)).place ps
    else (p :: ps).reverse.foldl Group.push g

/-- The path on which a batch resumes. -/
def Batch.path (b : Batch) : Path := { clause := b.clause, slot := b.slot, entry := none, mask := b.mask }

/-- One path for each distinct resume point, in order of first arrival (R298, rule 3). -/
def joinPaths : List Batch → List Path
  | [] => []
  | b :: bs =>
    let ps := joinPaths bs
    let here := ps.filter fun p => p.clause = b.clause && p.slot = b.slot
    { b.path with mask := here.foldl (fun m p => m ||| p.mask) b.mask } ::
      ps.filter fun p => !(p.clause = b.clause && p.slot = b.slot)

/-- Tests a join record and releases it when it is satisfied (R298, rules 2 and 3). -/
def Group.testJoin (g : Group) (i : Nat) : Group :=
  let bs := g.join i
  let arrived := bs.foldl (fun m b => m ||| b.mask) 0
  if bs.isEmpty || (g.k[i]?.getD 0 &&& g.liveLanes &&& ~~~ arrived) ≠ 0 then g
  else { g with joins := g.joins.setIfInBounds i [] }.place (joinPaths bs)

/-- Tests every join record, as an exit does (R298, rule 2). -/
def Group.testJoins (g : Group) : Group := (List.range 8).foldl Group.testJoin g

/-- Sorted insertion by order of arrival. -/
def Batch.insert (b : Batch) : List Batch → List Batch
  | [] => [b]
  | x :: xs => if b.seq ≤ x.seq then b :: x :: xs else x :: Batch.insert b xs

/-- Lost reconvergence (R299): JLOST, and every batch becomes a path of its own. -/
def Group.checkLost (g : Group) : Group :=
  let bs := (g.joins.toList.flatten).foldr Batch.insert []
  if g.running && (g.path 0).isNone && (g.path 1).isNone && g.stack.isEmpty && !bs.isEmpty then
    { g.setStat 0 with joins := Vector.replicate 8 [] }.place (bs.map fun b => ({ Batch.path b with lone := true } : Path))
  else g

/-- Brings slots, stack and joins to rest after lanes have moved (R294, R296, R299). -/
def Group.settle (g : Group) : Group :=
  let g1 := g.refill (g.stack.length + 2)
  let g2 := g1.checkLost
  g2.refill (g2.stack.length + 2)

/-- Raises a completion flag's counter. -/
def Group.incC (g : Group) (f : Fin 12) : Group := { g with c := g.c.setIfInBounds f (g.c[f] + 1) }
/-- Lowers a completion flag's counter. -/
def Group.decC (g : Group) (f : Fin 12) : Group := { g with c := g.c.setIfInBounds f (if g.c[f] = 0 then 0 else g.c[f] - 1) }

/-- Marks a clause entry as left (R42): it ends when its long-latency instructions have completed. -/
def Group.closeEntry (g : Group) (e : Option Nat) : Group :=
  { g with entries := g.entries.map fun x => if some x.id = e then { x with closed := true } else x }

/-- Marks the entries of a path as left. -/
def Group.closePath (g : Group) (p : Path) : Group := p.also.foldl (fun g e => g.closeEntry (some e)) (g.closeEntry p.entry)

/-- The clause entry with a number. -/
def Group.entry (g : Group) (e : Option Nat) : Option ClauseEntry := g.entries.find? fun x => some x.id = e

/-- Whether a place is an instruction's last repetition, or no repetition (R46). -/
def IssuePlace.last (p : IssuePlace) : Bool := p.rep.all fun x => x.1 = x.2.cnt.toNat

/-- A long-latency instruction of a clause entry issues (R42, R46). -/
def Group.joinEntry (g : Group) (p : IssuePlace) : Group :=
  { g with entries := g.entries.map fun x => if some x.id = p.entry && p.last then { x with inFlight := x.inFlight + 1 } else x }

/-- A long-latency instruction of a clause entry has completed (R42, R46). -/
def Group.leaveEntry (g : Group) (p : IssuePlace) : Group :=
  { g with entries := g.entries.map fun x => if some x.id = p.entry && p.last then { x with inFlight := x.inFlight - 1 } else x }

/-- LEN of the clause of a path. -/
def Group.lenOf (g : Group) (p : Path) : Nat := ((g.entry p.entry).map (·.len)).getD 0

/-- The fall-through header of a clause (R41). -/
def fallThrough (clause : BitVec 20) (len : Nat) : BitVec 20 := clause + BitVec.ofNat 20 (len + 2)

/-- Moves the path of slot `k` on by `n` slots, leaving the clause after its last (R41, R42). -/
def Group.moveOn (g : Group) (k n : Nat) : Group :=
  match g.path k with
  | none => g
  | some p =>
    if p.slot + n ≤ g.lenOf p then g.setSlot k (some { p with slot := p.slot + n })
    else ((g.closeEntry p.entry).setSlot k (some (Path.start (fallThrough p.clause (g.lenOf p)) p.mask))).settle

/-- Ends a repeat (R45). -/
def Group.endRepeat (g : Group) : Group := { g with rep := none, rip := false, rc := 0 }

/-- Moves on after the lane instruction that slot `k` has issued: the next repetition, or the slot after it (R45). -/
def Group.laneNext (g : Group) (k : Nat) : Group :=
  match g.rep with
  | some r =>
    if r.pslot = k then
      if r.j < r.p.cnt.toNat then { g with rep := some { r with j := r.j + 1 }, rc := BitVec.ofNat 6 (r.p.cnt.toNat - r.j - 1) }
      else g.endRepeat.moveOn k 2
    else g.moveOn k 1
  | none => g.moveOn k 1

/-- Takes lanes out of a slot; an empty slot leaves its clause entry (R296). -/
def Group.takeLanes (g : Group) (k : Nat) (m : Mask) : Group :=
  match g.path k with
  | none => g
  | some p =>
    if p.mask &&& ~~~ m = 0 then
      let g1 := (g.closePath p).setSlot k none
      if g.rep.any fun r => r.pslot = k then g1.endRepeat else g1
    else g.setSlot k (some { p with mask := p.mask &&& ~~~ m })

/-- Takes lanes out of every path and join record. -/
def Group.purge (g : Group) (m : Mask) : Group :=
  let g1 := (g.takeLanes 0 m).takeLanes 1 m
  let st := (g1.stack.map fun p => { p with mask := p.mask &&& ~~~ m }).filter fun p => p.mask ≠ 0
  { g1 with stack := st, cached := min g1.cached st.length,
            joins := g1.joins.map fun bs => (bs.map fun b => { b with mask := b.mask &&& ~~~ m }).filter fun b => b.mask ≠ 0 }

/-- Switches lanes off after a scratch violation (R134): they count as exited. -/
def Group.switchOff (g : Group) (m : Mask) : Group :=
  if m = 0 then g
  else ({ g with fmask := g.fmask ||| m, exited := g.exited ||| m }.purge m).testJoins.settle

/-- Empties slots, stack, joins and run queue. -/
def Group.clearLanes (g : Group) : Group :=
  { g with slots := Vector.replicate 2 none, stack := [], cached := 0, joins := Vector.replicate 8 [], parked := 0, runs := [],
           running := false, entries := [], rep := none, rip := false, rc := 0, redo := [] }

/-- Lowers the counters of runs and clause entries as their ends would (R42). -/
def Group.lowerCounters (g : Group) : Group :=
  (g.runs.filterMap (·.flag) ++ g.entries.flatMap (·.sets)).foldl Group.decC g

/-- Discards queued runs and stops executing ones (R343, R372). -/
def Group.stopRuns (g : Group) : Group := { g.lowerCounters.clearLanes with inflight := [], stopped := none }

/-- Starts the first queued run (R292, R370). -/
def Group.startRun (g : Group) : Group :=
  match g.runs with
  | [] => g
  | r :: _ =>
    let m := if g.hmode then g.liveLanes &&& g.hmask else g.liveLanes
    { g with running := true, parked := 0, stack := [], cached := 0, joins := Vector.replicate 8 [],
             slots := (Vector.replicate 2 none).setIfInBounds 0 (if m = 0 then none else some (Path.start r.start m)) }

/-- Whether the executing run has ended (R14, rule 2). -/
def Group.runOver (g : Group) : Bool :=
  g.running && (g.path 0).isNone && (g.path 1).isNone && g.stack.isEmpty && g.joins.toList.all (·.isEmpty) &&
    g.inflight.isEmpty && g.entries.isEmpty && g.redo.isEmpty

/-- Ends the executing run (R14, R42). -/
def Group.endRun (g : Group) : Group :=
  match g.runs with
  | [] => { g with running := false }
  | r :: rs =>
    let g1 : Group := { g with running := false, runs := rs, parked := 0 }
    match r.flag with
    | some f => g1.decC f
    | none => g1

end Sys2Proof.Machine
end

