-- ==== Sys2Proof/Machine/Ops.lean ====
section
/-! DEFINITION. The named operations over registers and groups, the end of a region by abort (R343), taking a fault and returning
from one (R363 to R373). -/
namespace Sys2Proof

/-- The code of a cause (R363). -/
def Cause.code : Cause → BitVec 8
  | .illegal => 0x01 | .regbound => 0x02 | .priv => 0x03 | .align => 0x04 | .converge => 0x05 | .nomap => 0x08
  | .perm => 0x09 | .first => 0x0A | .key => 0x0B | .poison => 0x0C | .room => 0x10 | .handle => 0x11 | .format => 0x12
  | .fpx => 0x18 | .trap => 0x20 | .brk => 0x21 | .watch => 0x22 | .deque => 0x30 | .timeout => 0x3F

/-- The code of an abort cause (R343). -/
def AbortCause.code : AbortCause → Nat
  | .cycle => 1 | .source => 2 | .capacity => 3 | .explicit => 4 | .fault => 5 | .mode => 6 | .preempt => 7 | .conflict => 8

/-- Whether an aborted implicit region is run again (R303, R346). -/
def AbortCause.reruns : AbortCause → Bool
  | .cycle | .source | .preempt | .conflict => true
  | _ => false

end Sys2Proof

namespace Sys2Proof.Machine

/-- What a meaning answers. -/
abbrev Out := Host.Outcome State Fault Refusal

/-! Groups -/

/-- Changes the group in focus. -/
def State.setG (s : State) (f : Group → Group) : State := { s with g := f s.g }

/-- Whether a group is the one with an owner tag. -/
def Group.hasTag (g : Group) (t : Nat) : Bool := g.present && g.tag = t

/-- The group with an owner tag. -/
def State.group (s : State) (t : Nat) : Option Group :=
  if s.g.hasTag t then some s.g else s.others.find? (·.hasTag t)

/-- Every group of the machine. -/
def State.groups (s : State) : List Group := (if s.g.present then [s.g] else []) ++ s.others

/-- Brings the group with an owner tag into focus. -/
def State.focus (s : State) (t : Nat) : State :=
  if s.g.hasTag t then s
  else
    match s.others.find? (·.hasTag t) with
    | none => s
    | some h =>
      let rest := s.others.filter fun x => !x.hasTag t
      { s with g := h, others := if s.g.present then s.g :: rest else rest }

/-- Acts on the group with an owner tag, brought into focus; nothing where there is none. -/
def State.forGroup (s : State) (t : Nat) (f : State → State) : State :=
  match s.group t with
  | none => s
  | some _ => f (s.focus t)

/-- Changes the group with an owner tag, wherever it stands. -/
def State.onGroup (s : State) (t : Nat) (f : Group → Group) : State :=
  if s.g.hasTag t then s.setG f else { s with others := s.others.map fun x => if x.hasTag t then f x else x }

/-- Changes a Caravan. -/
def State.onCaravan (s : State) (cv : Nat) (f : Caravan → Caravan) : State :=
  { s with disp := { s.disp with caravans := s.disp.caravans.map fun x => if x.id = cv then f x else x } }

/-- The launch with a number. -/
def State.launch? (s : State) (id : Nat) : Option Launch := s.disp.launches.find? fun l => l.id = id

/-- Marks the resident Caravans that `hit` names for pre-emption; a co-scheduled launch goes whole (R291, R376). -/
def State.markPreempt (s : State) (hit : Caravan → Bool) (hold : Bool) : State :=
  let named := s.disp.caravans.filter fun c => c.st = .resident && hit c
  let whole (c : Caravan) : Bool := ((s.launch? c.launch).map (·.cos)).getD false && named.any fun x => x.launch = c.launch
  { s with disp := { s.disp with caravans := s.disp.caravans.map fun c =>
      if c.st = .resident && (hit c || whole c) then { c with preempt := true, hold := c.hold || hold } else c } }

/-- A Caravan is no longer one that a running request waits for (R376). -/
def State.endRequest (s : State) (cv : Nat) : State :=
  { s with disp := { s.disp with preqRun := s.disp.preqRun.map fun l => l.filter fun x => x ≠ cv } }

/-- The Caravan with a number. -/
def State.caravan (s : State) (cv : Nat) : Option Caravan := s.disp.caravans.find? fun x => x.id = cv

/-- The group number of R6. -/
def Group.number (g : Group) : BitVec 12 := BitVec.ofNat 12 (g.die * 2048 + g.quad * 128 + g.core * 32 + g.slot)
/-- A quad of the package, 0 to 31. -/
def Group.quadNo (g : Group) : Nat := g.die * 16 + g.quad
/-- A core of the package, 0 to 127. -/
def Group.coreNo (g : Group) : Nat := g.quadNo * 4 + g.core

/-! Registers -/

/-- Whether an s register is within the allotment, or one of s56 to s63 in handler mode (R10, R370). -/
def Group.hasS (g : Group) (r : BitVec 6) : Bool := r.toNat < g.sAllot || (g.hmode && 56 ≤ r.toNat)
/-- s[r]. -/
def Group.sreg (g : Group) (r : BitVec 6) : Word64 := g.s[r.toNat]?.getD 0
/-- Writes s[r]. -/
def Group.setS (g : Group) (r : BitVec 6) (x : Word64) : Group := { g with s := g.s.setIfInBounds r.toNat x }
/-- s[r] of the group in focus. -/
def State.sreg (s : State) (r : BitVec 6) : Word64 := s.g.sreg r
/-- Writes s[r] of the group in focus. -/
def State.setS (s : State) (r : BitVec 6) (x : Word64) : State := s.setG fun g => g.setS r x
/-- Lane `l` of v[r]. -/
def Group.vreg (g : Group) (r l : Nat) : Word32 := (g.v[r]?.getD (Vector.replicate 64 0))[l]?.getD 0
/-- Writes lane `l` of v[r]. -/
def Group.setV (g : Group) (r l : Nat) (x : Word32) : Group :=
  { g with v := g.v.setIfInBounds r ((g.v[r]?.getD (Vector.replicate 64 0)).setIfInBounds l x) }
/-- Component `i` of q[r] in lane `l`. -/
def Group.qreg (g : Group) (r l i : Nat) : Word32 :=
  ((g.q[r]?.getD (Vector.replicate 64 (Vector.replicate 8 0)))[l]?.getD (Vector.replicate 8 0))[i]?.getD 0
/-- Writes component `i` of q[r] in lane `l`. -/
def Group.setQ (g : Group) (r l i : Nat) (x : Word32) : Group :=
  let q := g.q[r]?.getD (Vector.replicate 64 (Vector.replicate 8 0))
  { g with q := g.q.setIfInBounds r (q.setIfInBounds l ((q[l]?.getD (Vector.replicate 8 0)).setIfInBounds i x)) }
/-- p[r], p0 reading all ones over the width (R12). -/
def Group.preg (g : Group) (r : BitVec 3) : Mask := if r = 0 then g.full else g.p[r.toNat] &&& g.full
/-- Writes the lanes `m` of p[r]; a write to p0 is discarded (R12). -/
def Group.setP (g : Group) (r : BitVec 3) (m x : Mask) : Group :=
  if r = 0 then g else { g with p := g.p.setIfInBounds r.toNat ((g.p[r.toNat] &&& ~~~ m) ||| (x &&& m)) }

/-- The next scalar word (R20). -/
def Group.advance (g : Group) : Group := { g with spc := g.spc + 4, wait := none, noWatch := false }
/-- The next scalar word of the group in focus. -/
def State.advance (s : State) : State := s.setG Group.advance

/-- A fresh free value and the state after it (R2; log 2). -/
def State.freeVal (s : State) (i : Nat) : Word64 := Config.freeWord s.freeCtr i
/-- Uses up an occasion of free values. -/
def State.useFree (s : State) : State := { s with freeCtr := s.freeCtr + 1 }

/-! Memory as it reads now -/

/-- The byte that a read performed now returns, of die memory of this package, host memory or peer memory (R89, R104, R106). Where both
sides of a mixed mapping have written an atom, the DIR or host side's stands (R103; log 42). -/
def Mem.byte (m : Mem) (a : Nat) : Byte :=
  if isOwn a then
    match m.quad.find a with
    | some b => b
    | none =>
      match m.l2.find a with
      | some b => b
      | none => m.sliceByte a
  else m.ext.get a

/-- A little-endian value as it reads now. -/
def Mem.peek (m : Mem) (a n : Nat) : Nat := leNat (readBytes m.byte a n)

/-! Fault records (R363 to R365) -/

/-- The fields of FINFO (R365). -/
structure Info where
  arg : Nat := 0
  detail : Nat := 0
  level : Nat := 0
  flags : BitVec 6 := 0
  ctrlw : Bool := false
  arrived : Bool := false
  roomw : Bool := false
deriving DecidableEq, Repr

/-- FINFO with LOST clear (R365). -/
def Info.word (i : Info) : Word64 :=
  BitVec.ofNat 40 i.arg ++ BitVec.ofNat 4 i.detail ++ BitVec.ofNat 2 i.level ++ i.flags ++ BitVec.ofBool i.ctrlw ++
    BitVec.ofBool i.arrived ++ BitVec.ofBool i.roomw ++ 0#9

/-- FPC of a scalar word (R364). -/
def fpcScalar (a : Word64) : Word64 := a &&& 0x007FFFFFFFFFFFFF#64

/-- FPC of a lane instruction (R364). -/
def fpcLane (p : IssuePlace) (hdr : Bool) : Word64 :=
  0#1 ++ 1#1 ++ BitVec.ofBool p.rep.isSome ++ BitVec.ofNat 6 ((p.rep.map (·.1)).getD 0) ++ BitVec.ofNat 4 p.slot ++ BitVec.ofNat 1 p.pslot ++
    BitVec.ofBool hdr ++ 0#29 ++ p.clause

/-- FPC.DEFER. -/
def fpcDefer : Word64 := 0x8000000000000000#64

/-! Regions: what every abort does (R343) -/

/-- The live region of a group. -/
def State.regionOf (s : State) (t : Nat) : Option Region := s.regions.find? fun r => r.owner = t && r.st ≠ .free

/-- The live region of the group in focus. -/
def State.region (s : State) : Option Region := s.regionOf s.g.tag

/-- RGST after an abort (R344). -/
def rgstAbort (c : AbortCause) (fc ucode : BitVec 8) (nest : Bool) : BitVec 32 :=
  ucode ++ fc ++ 0#10 ++ BitVec.ofBool nest ++ 0#1 ++ BitVec.ofNat 4 c.code

/-- Steps 4 and 5 of R343 for the region's group; an implicit region ends its group instead (R303). -/
def Group.abortRegion (g : Group) (r : Region) (c : AbortCause) (fc ucode : BitVec 8) (nest jump : Bool) : Group :=
  let g1 : Group := { g.stopRuns with rgst := rgstAbort c fc ucode nest, rgpred := 0, wait := none, regroupAt := none }
  if r.implicit then
    if c matches .fault then g1 else { g1 with ended := true, state := if c.reruns then g.state else .retiring }
  else if jump then { g1 with spc := g.rgAbort }
  else g1

/-- Clears a region's entry, its row and column (R343, steps 1 and 2). -/
def State.dropRegion (s : State) (r : Region) : State :=
  { s with regions := (s.regions.filter fun x => !(x.die = r.die && x.e = r.e)).map fun x =>
             if x.die = r.die then { x with stall := x.stall.filter fun e => e ≠ r.e } else x,
           reach := s.reach.filter fun x => !(x.1 = r.die && (x.2.1 = r.e || x.2.2 = r.e)) }

/-- The waits of a group's instructions are given up (R304, R343, R367): they leave every queue that they stand in. -/
def State.abandonOf (s : State) (t : Nat) : State :=
  { s with banks := s.banks.map fun b => { b with waiters := b.waiters.filter fun x => x.tag ≠ t || x.cmd.isSome },
           halls := s.halls.map fun h => { h with takers := h.takers.filter fun x => x.1 ≠ t } }

/-- The waits of the group in focus are given up. -/
def State.abandon (s : State) : State := s.abandonOf s.g.tag

/-- Aborts one region and marks an implicit one for its re-run. -/
def State.abortOne (s : State) (r : Region) (c : AbortCause) (fc ucode : BitVec 8) (nest jump : Bool) : State :=
  let s1 := ((s.abandonOf r.owner).dropRegion r).onGroup r.owner fun g => g.abortRegion r c fc ucode nest jump
  match s.group r.owner with
  | some g => if r.implicit && c.reruns then s1.onCaravan g.caravan fun v => { v with rerun := true } else s1
  | none => s1

/-- Aborts with SOURCE every region of a die whose source mask holds an aborted entry (R343, step 3). -/
def State.abortSources : Nat → State → Nat → List Nat → State
  | 0, s, _, _ => s
  | n + 1, s, die, gone =>
    match s.regions.find? fun r => r.die = die && r.sources.any fun e => gone.contains e with
    | none => s
    | some r => (s.abortOne r .source 0 0 false true).abortSources n die (r.e :: gone)

/-- Aborts a region for a cause (R343). -/
def State.abortRegion (s : State) (r : Region) (c : AbortCause) (fc ucode : BitVec 8) (nest jump : Bool) : State :=
  (s.abortOne r c fc ucode nest jump).abortSources 128 r.die [r.e]

/-- Whether a request for a line of die memory waits: its stack or slice is not ready (R383), or its block is being moved (R70). -/
def State.lineWaits (s : State) (line : Nat) : Bool :=
  let a := line * 128
  let h := hashLoc a
  isOwn a && (!s.svc.rdymap.getLsbD h.stack || !s.svc.rdymap.getLsbD (192 + s.mem.slice a) ||
    (s.mem.mode h.stack = 1 && h.ch = s.mem.rch h.stack && h.off / 2048 = s.mem.rbptr h.stack))

/-- Whether an access of an agent other than a group to a line waits: at its die, or for a staged piece (R70, R76, R383). -/
def State.hostWaits (s : State) (line : Nat) : Bool :=
  s.lineWaits line || s.mem.staged.any fun x => x.lines.contains (.inr line)

/-! Taking a fault (R366 to R370) -/

/-- The handler vector of an ASN: scalar entry address and lane base (R366). -/
def State.handler (s : State) (asn : BitVec 12) : Word64 × Word64 :=
  let a := s.svc.hvbase.toNat % 2 ^ 52 + 16 * asn.toNat
  (BitVec.ofNat 64 (s.mem.peek a 8), BitVec.ofNat 64 (s.mem.peek (a + 8) 8))

/-- Whether the read of the handler vector waits, for a stack that is not ready, a block that moves or a staged piece (R70, R76, R383). -/
def State.vectorHeld (s : State) : Bool := s.hostWaits ((s.svc.hvbase.toNat % 2 ^ 52 + 16 * s.g.asn.toNat) / 128)

/-- Step 3 of R367: the fault registers. -/
def Group.record (g : Group) (f : FaultRecord) (deferred : Bool) : Group :=
  { g with fcause := f.cause.code, fpc := if deferred then f.fpc ||| fpcDefer else f.fpc,
           finfo := if g.lost then f.info ||| 0x100#64 else f.info, finfoMask := f.mask &&& g.full, faddr := f.addr,
           hrpc := g.spc, lost := false }

/-- A wait of which only an arrival stands is waited afresh, reading its word first (R304, R326, R367). -/
def Wait.afresh (w : Wait) : Wait := { w with parked := false, woken := false, watch := none, written := false, limit := none }

/-- Steps 3 to 6 of R367; `occ`: the occasion of what s56 to s63 hold beyond the allotment (R370). -/
def Group.enter (g : Group) (f : FaultRecord) (pl : Option IssuePlace) (deferred : Bool) (vec : Word64 × Word64) (occ : Nat) : Group :=
  let fr : Frame :=
    { s := Vector.ofFn fun i : Fin 8 => g.s[56 + i.val]?.getD 0, slots := g.slots, stack := g.stack, cached := g.cached,
      joins := g.joins, parked := g.parked, runs := g.runs, running := g.running, c := g.c, rc := g.rc, rip := g.rip, rep := g.rep,
      entries := g.entries, lastSlot := g.lastSlot, redo := g.redo, lane := pl, record := f, deferred := deferred,
      ended := g.ended, wait := (g.wait.filter (·.arrived)).map Wait.afresh, noWatch := g.noWatch, noWatchLane := g.noWatchLane, hrpc := g.spc }
  let g1 := (g.record f deferred).clearLanes
  { g1 with frame := some fr, s := Vector.ofFn fun r : Fin 64 => if g.sAllot ≤ r.val && 56 ≤ r.val then Config.freeWord occ r else g.s[r],
            c := Vector.replicate 12 0, hmode := true, ended := false, stopped := none, wait := none, regroupAt := none, late := [],
            noWatch := false, noWatchLane := false, hmask := if f.mask &&& g.full = 0 then g.liveLanes else f.mask &&& g.full, spc := vec.1, hbase := vec.2 }

/-- The group in focus enters its handler (R367). -/
def State.enterHandler (s : State) (f : FaultRecord) (pl : Option IssuePlace) (deferred : Bool) : State :=
  (s.setG fun g => g.enter f pl deferred (s.handler s.g.asn) s.freeCtr).useFree

/-- A group that stops for good until it is released (R369): its Caravan is pre-empted, with its whole launch where that is
co-scheduled (R291), and its image marked HALT. -/
def State.halt (s : State) (f : FaultRecord) (deferred : Bool) : State :=
  ((s.abandon.setG fun g => { g.record f deferred with halted := true, wait := none, stopped := none, late := [] }).onCaravan s.g.caravan
    fun v => { v with halt := true, preempt := true }).markPreempt (fun c => c.id = s.g.caravan) false

/-- Delivers a precise cause to the handler: at once when the lane stream has drained and the vector can be read, else when it has (R367,
R368, R369, R383). -/
def State.deliver (s : State) (f : FaultRecord) (pl : Option IssuePlace) : State :=
  if s.g.hmode then s.halt f false
  else if s.g.inflight.isEmpty && !s.vectorHeld then
    if (s.handler s.g.asn).1 = 0 then s.halt f false else s.abandon.enterHandler f pl false
  else s.abandon.setG fun g => { g with stopped := some (f, pl), wait := g.wait.filter (·.arrived) }

/-- The access that a peer did not answer has been reported (R385). -/
def State.answered (s : State) (c : Cause) : State := if c = .poison then s.setG fun g => { g with silent := false } else s

/-- A precise cause of the group in focus (R367, R369, R343): a live region aborts with FAULT instead, and only an implicit one's
fault is delivered too (R303). -/
def State.raise (s : State) (f : FaultRecord) (pl : Option IssuePlace) : State :=
  let s := s.answered f.cause
  match s.region with
  | some r =>
    let s1 := s.abortRegion r .fault f.cause.code 0 false true
    if r.implicit then s1.deliver f none else s1
  | none => s.deliver f pl

/-- A precise cause of the scalar word that issues. -/
def State.scalarFault (s : State) (c : Cause) (i : Info := {}) (addr : Word64 := 0) (mask : Mask := 0) : State :=
  s.raise ⟨c, fpcScalar s.g.spc, i.word, mask, addr, none⟩ none

/-- FPC of the instruction that issues (R364). -/
def State.fpcNow (s : State) : Word64 := (s.g.iss.map fun p => fpcLane p false).getD (fpcScalar s.g.spc)
/-- The lanes of the instruction that issues; none for a scalar one. -/
def State.maskNow (s : State) : Mask := (s.g.iss.map (·.mask)).getD 0

/-- Whether the place that issues stands at a clause header. -/
def Group.atHeader (g : Group) (p : IssuePlace) : Bool := !p.redo && (((g.path p.pslot).map fun x => x.entry.isNone).getD false)

/-- The lane instruction that issues no longer waits to execute again (R368); a suppression of WATCH was for it alone (R372). -/
def Group.popRedo (g : Group) : Group :=
  if g.redo.head? = g.iss then { g with redo := g.redo.drop 1, noWatchLane := false } else g

/-- A precise cause of the lane instruction that issues, in the lanes `m` (R47, R114, R200). -/
def State.laneFault (s : State) (c : Cause) (m : Mask) (i : Info := {}) (addr : Word64 := 0) : State :=
  match s.g.iss with
  | none => s
  | some p => (s.setG Group.popRedo).raise ⟨c, fpcLane p (s.g.atHeader p), i.word, m, addr, none⟩ (some p)

/-- Queues a deferred cause: one for each instruction and cause, eight at most (R169, R367). -/
def Group.addPending (g : Group) (f : FaultRecord) : Group :=
  if f.ins.isSome && g.pending.any fun p => p.ins = f.ins && p.cause = f.cause then
    { g with pending := g.pending.map fun p =>
        if p.ins = f.ins && p.cause = f.cause then { p with mask := p.mask ||| f.mask, info := p.info ||| f.info } else p }
  else if g.pending.length < 8 then { g with pending := g.pending ++ [f] }
  else { g with lost := true }

/-- A deferred cause reaches the group in focus (R343, R367, R369); `own`: an instruction of its handler issued the access. A halted group
keeps one of an earlier instruction for later. -/
def State.deferFault (s : State) (f : FaultRecord) (own : Bool) : State :=
  let s := s.answered f.cause
  if s.g.state = .retired then s
  else if s.g.halted then if own then s else s.setG fun g => g.addPending f
  else
    match s.region with
    | some r =>
      let s1 := s.abortRegion r .fault f.cause.code 0 false true
      if r.implicit then s1.setG fun g => { g with pending := g.pending ++ [f] } else s1
    | none =>
      if own then s.halt f true
      else s.setG fun g => g.addPending f

/-- Whether a deferred cause of the group in focus is taken now (R367). -/
def Group.takesDeferred (g : Group) : Bool :=
  !g.hmode && !g.pending.isEmpty && g.inflight.isEmpty && g.stopped.isNone && !g.halted && !g.paused &&
    (g.state = .resident || g.state = .retiring)

/-- Takes the oldest deferred cause of the group in focus at its scalar boundary, once the vector can be read (R367, R383). -/
def State.takeDeferred (s : State) : State :=
  match s.g.pending with
  | [] => s
  | f :: fs =>
    if s.vectorHeld then s else
    let s1 := s.setG fun g => { g with pending := fs }
    if (s.handler s.g.asn).1 = 0 then s1.halt f true
    else s1.abandon.enterHandler f none true

/-- Takes the precise cause that waited for the drain (R367, R368). -/
def State.takeStopped (s : State) : State :=
  match s.g.stopped with
  | none => s
  | some (f, pl) =>
    if s.vectorHeld then s else if (s.handler s.g.asn).1 = 0 then s.halt f false else s.abandon.enterHandler f pl false

/-! The end of the scalar stream and the return from a handler (R311, R372) -/

/-- `sexit` (R311): a region that `rbeg` opened aborts with EXPLICIT, and the group is RETIRING. -/
def State.sexit (s : State) : State :=
  let s1 := match s.region with
    | some r => if r.implicit then s else s.abortRegion r .explicit 0 0 false false
    | none => s
  s1.setG fun g => { g with ended := true, state := .retiring, wait := none }

/-- Puts the handler frame back (R372). -/
def Group.restore (g : Group) (fr : Frame) : Group :=
  let g1 := (List.range 8).foldl (fun (h : Group) i => h.setS (BitVec.ofNat 6 (56 + i)) (fr.s[i]?.getD 0)) g
  let g2 : Group :=
    { g1 with slots := fr.slots, stack := fr.stack, cached := fr.cached, joins := fr.joins, parked := fr.parked, runs := fr.runs,
              running := fr.running, c := fr.c, rc := fr.rc, rip := fr.rip, entries := fr.entries, lastSlot := fr.lastSlot,
              rep := fr.rep.map fun r => { r with j := r.p.cnt.toNat - fr.rc.toNat }, redo := fr.redo, ended := fr.ended,
              wait := fr.wait, noWatch := fr.noWatch, noWatchLane := fr.noWatchLane, frame := none, hmode := false, spc := fr.hrpc, hrpc := fr.hrpc }
  ((g2.purge g2.gone).testJoins).settle

/-- SKIP of a lane instruction that stood in its slot (R41, R319, R372): a header's lanes are parked. -/
def Group.skipLane (g : Group) (p : IssuePlace) : Group :=
  if p.redo then g.leaveEntry p
  else
    match g.path p.pslot with
    | none => g
    | some x =>
      if x.entry.isNone then ({ (g.closePath x).setSlot p.pslot none with parked := g.parked ||| x.mask }).settle
      else g.laneNext p.pslot

/-- The return that s[A][1:0] selects (R372); 3 is not one. -/
def State.sysret (s : State) (sel : Nat) : State :=
  match s.g.frame with
  | none => s
  | some fr =>
    let s1 := s.setG fun g => g.restore fr
    let rerun := s.g.implicit && s.g.rgst.toNat % 16 = 5
    if rerun then (s1.onCaravan s.g.caravan fun v => { v with rerun := true }).setG fun g => { g with ended := true }
    else if sel = 2 then
      let s2 := s1.setG fun g => { g.stopRuns with wait := none }
      if fr.ended then s2 else s2.sexit
    else if fr.deferred then s1
    else
      match fr.lane with
      | some p =>
        let p1 : IssuePlace := if p.redo then p else { p with rep := p.rep.map fun x => (x.2.cnt.toNat - fr.rc.toNat, x.2) }
        s1.setG fun g => if sel = 0 then { g with redo := p1 :: g.redo, noWatchLane := fr.record.cause = .watch } else g.skipLane p
      | none =>
        s1.setG fun g =>
          { g with spc := if sel = 1 || fr.record.cause = .trap then g.hrpc + 4 else g.hrpc,
                   noWatch := sel = 0 && fr.record.cause = .watch }

/-! Scalar instructions: the causes of R48 before their own -/

/-- Runs a scalar instruction whose s registers are within the allotment; REGBOUND otherwise (R10). -/
def withRegs (rs : List (BitVec 6)) (body : State → State) (s : State) : State :=
  if rs.all s.g.hasS then body s else s.scalarFault .regbound

/-- A privileged instruction (R25): PRIV outside handler mode. -/
def privileged (body : State → State) (s : State) : State := if s.g.hmode then body s else s.scalarFault .priv

/-- An instruction that a region may not hold (R337): a live region aborts with MODE. -/
def outsideRegion (body : State → State) (s : State) : State :=
  match s.region with
  | some r => s.abortRegion r .mode 0 0 false true
  | none => body s

/-- A reserved value in a control word (R323). -/
def State.controlFault (s : State) : State := s.scalarFault .illegal { ctrlw := true }

/-- A reserved value in the control word of a privileged instruction, in registers that the group has, comes before PRIV (R48, R323). -/
def withControl (rs : List (BitVec 6)) (reserved : State → Bool) (body : State → State) (s : State) : State :=
  if rs.all s.g.hasS && reserved s then s.controlFault else body s

end Sys2Proof.Machine
end

