-- ==== Sys2Proof/Machine/Cellar.lean ====
section
/-! DEFINITION. The Cellar (04_memory): lines and frames of its slices, fills, key tags, write-backs and the channel schedulers (R63,
R66, R67, R72 to R74, R77, R80, R94). -/
namespace Sys2Proof

/-- The requested sectors, in ascending order. -/
def MemRequest.sectors (r : MemRequest) : List Nat := (List.range 64).filter fun i => r.smask.getLsbD i

/-- The first address of a request's block. -/
def MemRequest.addr (r : MemRequest) : Nat := r.blk.toNat * 2048

/-- The lines that a request touches. -/
def MemRequest.lines (r : MemRequest) : List Nat := ((r.sectors.map fun i => r.addr / 128 + i / 4)).eraseDups

/-- Whether a request covers a line whole. -/
def MemRequest.covers (r : MemRequest) (line : Nat) : Bool :=
  (List.range 4).all fun i => r.smask.getLsbD (line % 16 * 4 + i)

/-- Whether a header is well formed (R66). -/
def MemRequest.ok (r : MemRequest) : Bool := r.kind.toNat < 6 && r.scnt.toNat + 1 = r.sectors.length

/-- Whether a request changes its sectors: a write, an operation, a write-back or a Porter write (R66). -/
def MemRequest.writes (r : MemRequest) : Bool := r.kind = 1 || r.kind = 2 || r.kind = 3 || r.kind = 5

end Sys2Proof

namespace Sys2Proof.Machine

/-- MaxS of R93: the later of two timestamps. -/
def maxS (a b : Stamp) : Stamp := if a = b || (b - a).toNat < 2 ^ 31 then b else a
/-- a ≤s b (R93). -/
def leS (a b : Stamp) : Bool := a = b || (b - a).toNat < 2 ^ 31

/-- Lists the bytes of `src` over those of `dst`. -/
def Cells.over (src dst : Cells) : Cells := src.foldl (fun d x => d.put x.1 x.2) dst

/-- Writes bytes to HBM, each at its own address. -/
def Mem.putHbm (m : Mem) : Cells → Mem
  | [] => m
  | (a, b) :: c => (m.setLoc (m.locate a) b).putHbm c

/-- Notes an event for the service log (R391). -/
def Mem.note (m : Mem) (kind unit : Nat) : Mem := { m with notes := m.notes ++ [⟨kind, unit, none⟩] }

/-! Poison (R63, R71, R80) -/

/-- Whether a line is valid in its slice (R72, R73). -/
def Mem.valid (m : Mem) (line : Nat) : Bool := m.lines.any (fun x => x.line = line) || m.testing (line * 128)

/-- Whether a sector is marked as poison, or would be read from HBM as such (R63). -/
def Mem.poisoned (m : Mem) (a : Nat) : Bool :=
  m.poison.contains (a / 32) ||
    (isOwn a && !m.valid (a / 128) && (m.quad.find a).isNone && (m.l2.find a).isNone && (m.cellar.find a).isNone && m.hbmPoison a)

/-- Whether no route leads to a node: none is installed, or no Coachway port is ready (R385, R389). -/
def State.routeless (s : State) (node : Nat) : Bool :=
  !(Config.routed node && (List.range 18).any fun p => s.svc.rdymap.getLsbD (130 + p))

/-- Whether an access of the group in focus to an address gets no answer: to a peer without a route, or that is silent (R385), to host
memory over a link that is down, or to the other die over a bridge that is down (R389). -/
def State.unrouted (s : State) (a : Nat) : Bool :=
  if nodeOf a ≠ 0 then s.g.silent || s.routeless (nodeOf a)
  else if isHost a then !s.svc.rdymap.getLsbD 148
  else s.svc.bridgeDown && isOwn a && dieOf a ≠ s.g.die

/-- Whether an access to an address is answered with poison, from a memory as it stands (R63, R385). -/
def State.poisoned (s : State) (m : Mem) (a : Nat) : Bool := s.unrouted a || m.poisoned a

/-- Notes that the Coachway returns poison for an access (R385); a slice notes its own when it fills a line. -/
def State.notePoison (s : State) (m : Mem) (a : Nat) : Mem := if s.unrouted a then m.note 5 (nodeOf a) else m

/-- Marks or clears the four sectors of a line. -/
def Mem.setPoison (m : Mem) (line : Nat) (p : Bool) : Mem :=
  let rest := m.poison.filter fun x => x / 4 ≠ line
  { m with poison := if p then (List.range 4).map (4 * line + ·) ++ rest else rest }

/-- Clears the poison of every sector that a write covers whole. -/
def Mem.cleanSectors (m : Mem) (a n : Nat) : Mem :=
  if m.poison.isEmpty then m
  else { m with poison := m.poison.filter fun x => !(a ≤ 32 * x && 32 * x + 32 ≤ a + n) }

/-! Write-back (R73, R74, R77) -/

/-- Whether a slice holds a line newer than HBM. -/
def Mem.dirtyLine (m : Mem) (line : Nat) : Bool := m.cellar.any fun x => x.1 / 128 = line

/-- Writes a line back to HBM, encrypted under its tag (R73, R77): every word of it is good again, and its poison stays with its
sectors (R63, R161). -/
def Mem.writeBack (m : Mem) (line : Nat) : Mem :=
  let a := line * 128
  if !m.dirtyLine line then m
  else
    let bare : Mem := { m with cellar := m.cellar.dropRange a 128 }
    let m1 := match m.tagOf line with
      | none => bare.putHbm (m.cellar.range a 128)
      | some k => bare.writeBackEnc line k (readBytes m.sliceByte a 128)
    { m1 with bad := m1.bad.filter fun w => !((List.range 16).any fun i => (m1.locate (a + 8 * i)).key = w),
              dead := ((List.range 4).map (4 * line + ·)).filter (fun x => m.poison.contains x) ++ m1.dead.filter fun x => x / 4 ≠ line }

/-- Whether anything above the Cellar holds a line of this package: the level-two cache, a quad, or a core (R77, R82). -/
def Mem.heldAbove (m : Mem) (line : Nat) : Bool :=
  (m.quad.any fun x => x.1 / 128 = line) || (m.l2.any fun x => x.1 / 128 = line) ||
    m.qlines.any (fun l => l.addr < line * 128 + 128 && line * 128 < l.addr + l.size) || m.copies.any (fun c => c.line = line) ||
    m.nones.any fun x => x.line = line

/-- What is left of a line that has left its slice (R73, R77): its poison marks go, and its key tag unless it is held above. -/
def Mem.forgetLine (m : Mem) (line : Nat) : Mem :=
  if m.valid line || m.dirtyLine line then m
  else
    { m with poison := m.poison.filter fun x => x / 4 ≠ line,
             tags := if m.heldAbove line then m.tags else m.tags.filter fun x => x.1 ≠ line }

/-! Leaving a slice (R73, R94) -/

/-- The number of the home slice of a LEASE line, in the domain. -/
def Mem.leaseSlice (m : Mem) (a : Nat) : Nat := nodeOf a * 512 + (if isOwn a then m.slice a else (hashLoc a).stack * 32 + (hashLoc a).ch)

/-- MTS of a slice (R94). -/
def Mem.mtsOf (m : Mem) (sl : Nat) : Stamp := ((m.mts.find? fun x => x.slice = sl).map (·.mts)).getD m.mtsBase

/-- A LEASE line leaves its slice (R94). -/
def Mem.dropLease (m : Mem) (line : Nat) : Mem :=
  match m.leases.find? fun x => x.line = line with
  | none => m
  | some h =>
    let sl := m.leaseSlice (line * 128)
    { m with leases := m.leases.filter fun x => x.line ≠ line,
             mts := ⟨sl, maxS (m.mtsOf sl) h.rts⟩ :: m.mts.filter fun x => x.slice ≠ sl }

/-- The write-back of a line as a request of its own (R67, rule 5); the step that makes it dates it. -/
def Mem.wbReq (m : Mem) (line : Nat) : ChanReq :=
  ⟨m.slice (line * 128), none, ⟨3, 0, 0, 0, false, 0, 0, BitVec.ofNat 41 (line / 16), 0, []⟩, [line], true, false⟩

/-- A line leaves its frame (R67, R73, R94): a dirty one as a write-back at its channel, which then serves it. -/
def Mem.evictLine (m : Mem) (line : Nat) : Mem :=
  let m1 := m.dropLease line
  let m2 : Mem := { m1 with lines := m1.lines.filter fun x => x.line ≠ line }
  if m2.dirtyLine line then { m2 with chans := m2.chans ++ [m2.wbReq line] } else m2.forgetLine line

/-- A slice writes a line back and keeps it, if it is valid there (R72, R74). -/
def Mem.flushLine (m : Mem) (line : Nat) : Mem :=
  let m1 := m.writeBack line
  ({ m1 with chans := m1.chans.filter fun q => !(q.wb && q.lines = [line]) } : Mem).forgetLine line

/-! Frames (R73) -/

/-- The slice of a line, as stack × 32 + channel, and its set there (R73): CB is the block's own, which the retired-mode indication of the tag
tells from that of a block that is at home in the channel (log 42). -/
def Mem.setOf (m : Mem) (line : Nat) : Nat × Nat := (m.slice (line * 128), (hashLoc (line * 128)).off / 2048 % 512)

/-- The blocks of frames of the set of a line, with whether they are dirty and when they were last used. -/
def Mem.frames (m : Mem) (line : Nat) : List (Nat × Bool × Nat) :=
  let mine := m.lines.filter fun x => m.setOf x.line = m.setOf line
  ((mine.map fun x => x.line / 16).eraseDups).map fun b =>
    let ls := mine.filter fun x => x.line / 16 = b
    (b, ls.any (fun x => m.dirtyLine x.line), ls.foldl (fun n x => max n x.used) 0)

/-- The frame that a set evicts: clean ones first, then the least recently used (R73). -/
def pickFrame : List (Nat × Bool × Nat) → Option Nat
  | [] => none
  | x :: xs =>
    match xs.foldl (fun (b : Nat × Bool × Nat) y => if (b.2.1 && !y.2.1) || (b.2.1 == y.2.1 && y.2.2 < b.2.2) then y else b) x with
    | b => some b.1

/-- Makes room for the frame of a line among the 16 ways of its set (R73). -/
def Mem.makeRoom (m : Mem) (line : Nat) : Mem :=
  if m.lines.length < 16 then m
  else
    let others := (m.frames line).filter fun x => x.1 ≠ line / 16
    if others.length < 16 then m
    else
      match pickFrame others with
      | none => m
      | some b => ((m.lines.filter fun x => x.line / 16 = b).map (·.line)).foldl Mem.evictLine m

/-- A line is valid in its slice and is used there (R73); a slice under test holds no line of another bank (R72). -/
def Mem.holdLine (m : Mem) (line : Nat) : Mem :=
  if m.parked (line * 128) then m
  else
    let m1 := if m.lines.any fun x => x.line = line then m else m.makeRoom line
    { m1 with lines := ⟨line, m1.uses⟩ :: m1.lines.filter fun x => x.line ≠ line, uses := m1.uses + 1 }

/-! Key tags and fills (R63, R74, R80) -/

/-- Dirty bytes of quads go to the home's data array (R88). -/
def Mem.bytesToHome (m : Mem) (a n : Nat) : Mem :=
  { m with quad := m.quad.dropRange a n, l2 := (m.quad.range a n).over m.l2 }

/-- The home's dirty bytes go to the Cellar (R89). -/
def Mem.bytesToCellar (m : Mem) (a n : Nat) : Mem :=
  { m with l2 := m.l2.dropRange a n, cellar := (m.l2.range a n).over m.cellar }

/-- The sectors of a block that its home's data array holds (R85). -/
def Mem.sectorsHeld (m : Mem) (block : Nat) : BitVec 16 :=
  (List.range 16).foldl (fun v i => if (m.l2.range (block * 512 + 32 * i) 32).isEmpty then v else v ||| BitVec.ofNat 16 (2 ^ i)) 0

/-- Keeps SV of the tag entries of a range (R85). -/
def Mem.keepSv (m : Mem) (a n : Nat) : Mem :=
  { m with dir := m.dir.map fun e =>
      if e.block * 512 < a + n && a < e.block * 512 + 512 then { e with sv := m.sectorsHeld e.block } else e }

/-- A line comes under another key tag, or none: it is written back under its own tag if it is dirty (R74). -/
def Mem.retag (m : Mem) (line : Nat) (want : Option (BitVec 13)) : Mem :=
  if m.tagOf line = want then m
  else
    let m1 := (((m.bytesToHome (line * 128) 128).bytesToCellar (line * 128) 128).keepSv (line * 128) 128).writeBack line
    { m1 with tags := (match want with
                | some k => [(line, k)]
                | none => []) ++ m1.tags.filter fun x => x.1 ≠ line,
              poison := m1.poison.filter fun x => x / 4 ≠ line }

/-- A read of a line of HBM into its slice (R63, R71, R80): words that ECC cannot correct are rebuilt and written back, or their
sectors are poison; a line whose check fails is poison whole. Both are reported. -/
def Mem.fillLine (m : Mem) (line : Nat) : Mem :=
  let a := line * 128
  let ours := (List.range 4).map (4 * line + ·)
  let lost := (List.range 4).any fun i => m.rebuildFails (a + 32 * i)
  let forged := (m.tagOf line).any fun k => !m.verifies line k
  let marks := if forged then ours
    else ours.filter fun x => m.hbmPoison (32 * x) && !(List.range 32).all fun i => (m.cellar.find (32 * x + i)).isSome
  let m1 : Mem := { m with
    poison := marks ++ m.poison.filter (fun x => x / 4 ≠ line),
    bad := m.bad.filter fun w => !((List.range 16).any fun i => (m.locate (a + 8 * i)).key = w && !m.memberDown (m.locate (a + 8 * i))) }
  let m2 := if lost then m1.note 7 (hashLoc a).stack else m1
  if forged then m2.note 3 (hashLoc a).stack else if (m.tagOf line).isSome then m2.keepPath line else m2

/-- An access under a key tag reaches its slice (R73, R74): a hit, or a fill of the line under that tag. `whole`: the access writes the
whole line, so that nothing is fetched. -/
def Mem.reachLine (m : Mem) (line : Nat) (enc : Bool) (k : BitVec 13) (whole : Bool) : Mem :=
  let want := if enc then some k else none
  let hit := m.valid line && m.tagOf line = want
  let m1 := m.retag line want
  let m2 := if hit then m1 else if whole then m1.setPoison line false else m1.fillLine line
  m2.holdLine line

/-! Requests at the channels (R66, R67) -/

/-- Writes one sector of a request's payload in its slice (R66). -/
def Mem.writeSector (m : Mem) (r : MemRequest) (x : Nat × Nat) : Mem :=
  let a := r.addr + 32 * x.2
  let bs := (List.range 32).map fun i => r.payload[32 * x.1 + i]?.getD 0
  ({ m with cellar := m.cellar.putBytes a bs } : Mem).cleanSectors a 32

/-- Serves one line of a request in its slice (R66, R73): a read or fill, and the sectors that the request writes there. -/
def Mem.serveLine (m : Mem) (r : MemRequest) (line : Nat) : Mem :=
  let m1 := m.reachLine line r.enc r.key (r.writes && r.covers line)
  if r.writes then (((List.range 64).zip r.sectors).filter fun x => r.addr / 128 + x.2 / 4 = line).foldl (fun m x => m.writeSector r x) m1
  else m1

/-- Serves a pending request at its channel (R67, R73). -/
def Mem.serveRequest (m : Mem) (q : ChanReq) : Mem :=
  let m1 : Mem := { m with chans := m.chans.filter fun x => x ≠ q }
  if q.wb then q.lines.foldl (fun (m : Mem) l => (m.writeBack l).forgetLine l) m1
  else q.lines.foldl (fun (m : Mem) l => m.serveLine q.req l) { m1 with served := if q.req.writes then q.lines ++ m1.served else m1.served }

/-- The pending requests of a list that must be served so that those that `want` picks are: these, and each that came before one of
them and overlaps it (R67, rule 4). -/
def chanClosure (want : ChanReq → Bool) : List ChanReq → List ChanReq
  | [] => []
  | q :: rest =>
    let later := chanClosure want rest
    if want q || later.any (fun x => x.lines.any fun n => q.lines.contains n) then q :: later else later

/-- An access to a line comes after every request for it that is pending (R67, rule 4; R75). -/
def Mem.settleChans (m : Mem) (line : Nat) : Mem :=
  (chanClosure (fun q => q.lines.contains line) m.chans).foldl Mem.serveRequest m

/-- A slice under test performs what reaches it for other banks directly on HBM (R72, step 1). -/
def Mem.flushParked (m : Mem) : Mem :=
  if (List.range 16).any fun st => m.mst st 9 1 = 1 then
    (((m.cellar.map fun x => x.1 / 128).eraseDups).filter fun l => m.parked (l * 128)).foldl Mem.flushLine m
  else m

/-- An access under a key tag reaches its slice in its turn (R67, R72 to R75). -/
def Mem.reach (m : Mem) (line : Nat) (enc : Bool) (k : BitVec 13) (whole : Bool) : Mem :=
  (m.flushParked.settleChans line).reachLine line enc k whole

/-- The lines that a slice holds newer than HBM. -/
def Mem.dirtyLines (m : Mem) (slice : Nat) : List Nat := ((m.cellar.map fun x => x.1 / 128).eraseDups).filter fun l => m.slice (l * 128) = slice

/-- A slice writes back its dirty lines (R72, R74). -/
def Mem.flushSlice (m : Mem) (slice : Nat) : Mem := (m.dirtyLines slice).foldl Mem.flushLine m

end Sys2Proof.Machine
end

