-- ==== Sys2Proof/Machine/Coherence.lean ====
section
/-! DEFINITION. The directory regime, leases and NONE lines as operations on the memory system (05_coherence). A coherence unit is named
by its first address and its size. -/
namespace Sys2Proof.Machine

/-- The bytes of a grain (R109). -/
def grainSize (g : BitVec 2) : Nat := if g = 0 then 32 else if g = 1 then 128 else 512

/-! The directory (R84 to R92) -/

/-- The tag entry of the block of an address. -/
def Mem.dirEntry (m : Mem) (a : Nat) : Option DirEntry := m.dir.find? fun e => e.block = a / 512

/-- Dirty atoms of quads go to the home's data array (R85, R88). -/
def Mem.quadToHome (m : Mem) (a n : Nat) : Mem := (m.bytesToHome a n).keepSv a n

/-- The home's dirty sectors go to the Cellar, through the slices of their lines, behind the requests that wait for them (R67, R73, R89). -/
def Mem.homeToCellar (m : Mem) (a n : Nat) : Mem :=
  let ls := ((m.l2.range a n).map fun x => x.1 / 128).eraseDups
  ((ls.foldl (fun (m : Mem) l => m.reach l (m.tagOf l).isSome ((m.tagOf l).getD 0) false) m).bytesToCellar a n).keepSv a n

/-- A fresh entry of a grain, every unit in U. -/
def DirEntry.fresh (block : Nat) (g : BitVec 2) : DirEntry :=
  ⟨block, g, 0, 0, List.replicate (512 / grainSize g) ⟨.u, 0, 0⟩⟩

/-- The record of the unit that holds an address; U where there is none. -/
def Mem.unit (m : Mem) (a : Nat) : DirUnit :=
  match m.dirEntry a with
  | none => ⟨.u, 0, 0⟩
  | some e => e.units[a % 512 / grainSize e.grain]?.getD ⟨.u, 0, 0⟩

/-- Puts a tag entry in place. -/
def Mem.setEntry (m : Mem) (e : DirEntry) : Mem := { m with dir := e :: m.dir.filter fun x => x.block ≠ e.block }

/-- Writes the record of the unit that holds an address, under a grain. -/
def Mem.setUnit (m : Mem) (a : Nat) (g : BitVec 2) (u : DirUnit) : Mem :=
  let e := (m.dirEntry a).getD { DirEntry.fresh (a / 512) g with sv := m.sectorsHeld (a / 512) }
  m.setEntry { e with units := e.units.set (a % 512 / grainSize e.grain) u }

/-- Whether a line of a quad agent meets a range. -/
def QuadLine.meets (l : QuadLine) (a n : Nat) : Bool := l.addr < a + n && a < l.addr + l.size

/-- The line that a quad agent holds for the unit of an address, or else its victim buffer (R92). -/
def Mem.qline (m : Mem) (q a : Nat) : Option QuadLine :=
  match m.qlines.find? fun l => l.quad = q && !l.victim && l.meets a 1 with
  | some l => some l
  | none => m.qlines.find? fun l => l.quad = q && !l.taken && l.meets a 1

/-- Drops the lines that a quad agent holds in a range; entries of its victim buffer stay until their Grant (R92). -/
def Mem.dropLines (m : Mem) (q a n : Nat) : Mem :=
  { m with qlines := m.qlines.filter fun l => !(l.quad = q && !l.victim && l.meets a n) }

/-- Quads give up a range, all but `q`; an entry of a victim buffer stays until its Grant or Grant STALE (R92). -/
def Mem.giveUp (m : Mem) (a n : Nat) : Mem :=
  { m with qlines := m.qlines.filterMap fun l =>
      if !l.meets a n then some l else if l.victim then some { l with taken := true, dirty := 0 } else none }

/-- Puts a line in a core of a quad agent (R84). -/
def Mem.setLine (m : Mem) (core a n : Nat) (st : Moesi) (dirty : BitVec 128) : Mem :=
  let q := core / 4
  let others := if st = .s then (m.qlines.find? fun l => l.quad = q && !l.victim && l.meets a 1).elim [] (·.cores) else []
  let m1 := m.dropLines q a n
  { m1 with qlines := ⟨q, a, n, st, dirty, core % 4 :: others.filter (fun c => c ≠ core % 4), m.uses, false, none, false⟩ :: m1.qlines,
            uses := m.uses + 1, fresh := (core, a) :: m.fresh }

/-- Changes the state of the line that a quad holds. -/
def Mem.changeLine (m : Mem) (q a : Nat) (st : Moesi) : Mem :=
  { m with qlines := m.qlines.map fun l => if l.quad = q && !l.taken && l.meets a 1 then { l with st := st } else l }

/-- A core uses a unit that its quad holds (R84, R127): in S beside the cores that hold it, else handed over by the core that held it. -/
def Mem.useLine (m : Mem) (core a : Nat) : Mem :=
  { m with qlines := m.qlines.map (fun l =>
      if l.quad = core / 4 && !l.victim && l.meets a 1 then
        { l with cores := core % 4 :: if l.st = .s then l.cores.filter (fun c => c ≠ core % 4) else [], used := m.uses }
      else l), uses := m.uses + 1 }

/-- The adapter writes back the pieces of a range that it holds and gives them up (R104). -/
def Mem.hostRecall (m : Mem) (a n : Nat) : Mem :=
  match m.dirEntry a with
  | none => m
  | some e =>
    let js := (List.range 8).filter fun j => e.host.getLsbD j && e.block * 512 + 64 * j < a + n && a < e.block * 512 + 64 * j + 64
    if js.isEmpty then m
    else
      let m1 := js.foldl (fun (m : Mem) j => m.quadToHome (e.block * 512 + 64 * j) 64) m
      m1.setEntry { (m1.dirEntry a).getD e with host := js.foldl (fun h j => h &&& ~~~ BitVec.ofNat 8 (2 ^ j)) e.host }

/-! The drop filter (R90, R91) -/

/-- The home slice of an address: a level-two slice of its die (R15). -/
def homeSlice (a : Nat) : Nat := dieOf a * 48 + Config.sliceHash (a / 512) % 48

/-- The counter of a unit in the drop filter of its home slice, 4,096 counters to a slice (R90). -/
def dropKey (a : Nat) : Nat := homeSlice a * 4096 + Config.dropHash a % 4096

/-- The count of a unit, by its first address, in the drop filter of its home (R90). -/
def Mem.dropCount (m : Mem) (a : Nat) : Nat := if m.drops.isEmpty then 0 else ((m.drops.find? fun x => x.1 = dropKey a).map (·.2)).getD 0

/-- Sets the count of a unit in the drop filter. -/
def Mem.setDrop (m : Mem) (a n : Nat) : Mem :=
  let rest := m.drops.filter fun x => x.1 ≠ dropKey a
  { m with drops := if n = 0 then rest else (dropKey a, n) :: rest }

/-- The first address of the unit of an address under a grain. -/
def unitBase (u : Nat) (g : BitVec 2) : Nat := u / grainSize g * grainSize g

/-- Discovery of the unit of an address (R91): a Hit in E or M rebuilds X with that owner. -/
def Mem.discover (m : Mem) (a : Nat) (g : BitVec 2) : Mem :=
  let b := unitBase a g
  match m.qlines.find? fun l => !l.taken && l.meets b 1 && (l.st = .e || l.st = .m) with
  | some l => (m.setUnit b g ⟨.x, l.quad, 0⟩).setDrop b (m.dropCount b - 1)
  | none => m

/-- A request for a range finds the units that were dropped silently (R90, R91): each one discovered lowers its counter. -/
def Mem.rediscover (m : Mem) (a n : Nat) : Mem :=
  if m.drops.isEmpty then m
  else
    (m.qlines.filter fun l => !l.taken && l.meets a n && (l.st = .e || l.st = .m) && (m.unit l.addr).st = .u).foldl (fun (m : Mem) l =>
      if m.dropCount l.addr = 0 then m else m.setDrop l.addr (m.dropCount l.addr - 1)) m

/-! Requests served whole (R85, R87, R89) -/

/-- The bounds of the units that quads hold in a range. -/
def Mem.span (m : Mem) (a n : Nat) : Nat × Nat :=
  m.qlines.foldl (fun b l => if l.meets a n then (min b.1 l.addr, max b.2 (l.addr + l.size)) else b) (a, a + n)

/-- Recalls a range from every quad: sharers invalidated, the owner's dirty atoms written back, units left in U (R85, R89). -/
def Mem.recallQuads (m : Mem) (a n : Nat) : Mem :=
  let b := m.span a n
  let m1 := ((m.rediscover a n).quadToHome b.1 (b.2 - b.1)).giveUp a n
  { m1 with dir := m1.dir.map fun e =>
      if e.block * 512 < a + n && a < e.block * 512 + 512 then
        let g := grainSize e.grain
        { e with units := (List.range e.units.length).map fun i =>
            if e.block * 512 + g * i < a + n && a < e.block * 512 + g * i + g then ⟨.u, 0, 0⟩ else e.units[i]?.getD ⟨.u, 0, 0⟩ }
      else e }

/-- Re-forms the entry of a block under the grain of a request (R85). -/
def Mem.regrain (m : Mem) (a : Nat) (g : BitVec 2) : Mem :=
  match m.dirEntry a with
  | none => m.setEntry { DirEntry.fresh (a / 512) g with sv := m.sectorsHeld (a / 512) }
  | some e =>
    if e.grain = g then m
    else
      let m1 := (m.hostRecall (e.block * 512) 512).recallQuads (e.block * 512) 512
      m1.setEntry { DirEntry.fresh e.block g with sv := m1.sectorsHeld e.block }

/-- What the home does before it serves a request for a unit: grain, host pieces, discovery (R85, R90, R91, R104). -/
def Mem.homeReady (m : Mem) (a : Nat) (g : BitVec 2) : Mem :=
  let b := unitBase a g
  let m1 := (m.regrain b g).hostRecall b (grainSize g)
  if (m1.unit b).st = .u && m1.dropCount b ≠ 0 then m1.discover b g else m1

/-- The bit of a quad in a presence vector. -/
def pvBit (q : Nat) : BitVec 32 := BitVec.ofNat 32 (2 ^ q)

/-- A GetS for a core, served whole (R87). A quad that the record names as owner in X and that asks again, its unit lying in its own
victim buffer, has no row in the table: its atoms go home and it is granted E again (log 42). -/
def Mem.serveGetS (m : Mem) (a : Nat) (g : BitVec 2) (core : Nat) : Mem :=
  let q := core / 4
  let n := grainSize g
  let b := unitBase a g
  let m1 := m.homeReady a g
  let u := m1.unit b
  match u.st with
  | .u => (m1.setUnit b g ⟨.x, q, 0⟩).setLine core b n .e 0
  | .s => (m1.setUnit b g { u with pv := u.pv ||| pvBit q }).setLine core b n .s 0
  | .x =>
    if u.owner = q then (((m1.quadToHome b n).giveUp b n).setUnit b g ⟨.x, q, 0⟩).setLine core b n .e 0
    else
      match m1.qline u.owner b with
      | some l =>
        if l.st = .m then ((m1.changeLine u.owner b .o).setUnit b g ⟨.o, u.owner, pvBit q⟩).setLine core b n .s 0
        else ((m1.changeLine u.owner b .s).setUnit b g ⟨.s, 0, pvBit q ||| pvBit u.owner⟩).setLine core b n .s 0
      | none => (m1.setUnit b g ⟨.x, q, 0⟩).setLine core b n .e 0
  | .o => (m1.setUnit b g { u with pv := u.pv ||| pvBit q }).setLine core b n .s 0

/-- A GetM or Upg for a core, served whole (R87). The dirty mask of a former owner passes with the unit (log 10). -/
def Mem.serveGetM (m : Mem) (a : Nat) (g : BitVec 2) (core : Nat) : Mem :=
  let n := grainSize g
  let b := unitBase a g
  let m1 := m.homeReady a g
  let dirty := (m1.qlines.filter fun l => !l.taken && l.meets b 1).foldl (fun d l => d ||| l.dirty) 0
  ((m1.giveUp b n).setUnit b g ⟨.x, core / 4, 0⟩).setLine core b n .m dirty

/-- A Put of a victim entry, through all its phases (R87, R88, R90, R92). -/
def Mem.putWhole (m : Mem) (l : QuadLine) : Mem :=
  let gone (m : Mem) : Mem := { m with qlines := m.qlines.filter fun x => x ≠ l }
  let r := m.unit l.addr
  let g := ((m.dirEntry l.addr).map (·.grain)).getD (if l.size = 32 then 0 else if l.size = 128 then 1 else 2)
  let mine := (r.st = .x || r.st = .o) && r.owner = l.quad
  let lost := r.st = .u && m.dropCount l.addr ≠ 0
  let m1 := if lost then m.setDrop l.addr (m.dropCount l.addr - 1) else m
  if !(mine || lost) || l.taken then gone m1
  else
    let m2 := gone (if l.st = .m || l.st = .o then m1.quadToHome l.addr l.size else m1)
    if mine then m2.setUnit l.addr g (if r.st = .o then ⟨.s, 0, r.pv⟩ else ⟨.u, 0, 0⟩) else m2

/-- A request that a home holds, served whole: a GetS or GetM, the eviction of a record, or a Put. -/
def Mem.serveWhole (m : Mem) (kind addr req : Nat) (g : BitVec 2) : Mem :=
  match kind with
  | 0 => m.serveGetS addr g (4 * req)
  | 1 | 2 => m.serveGetM addr g (4 * req)
  | 4 => m.recallQuads addr (grainSize g)
  | _ =>
    match m.qlines.find? fun l => l.quad = req && l.victim && l.meets addr 1 with
    | some l => m.putWhole l
    | none => m

/-- The data phase of a PutX (R87, R88, R92): the dirty atoms reach the home and the unit leaves its owner. -/
def Mem.dataPhase (m : Mem) (t : Txn) : Mem :=
  let u := m.unit t.addr
  ((m.quadToHome t.addr (grainSize t.grain)).setUnit t.addr t.grain (if u.st = .o then ⟨.s, 0, u.pv⟩ else ⟨.u, 0, 0⟩))

/-- An access to a range comes after the transactions and requests for its units that its home holds (R84): these are served to their
end, in order of arrival. -/
def Mem.settleTxns (m : Mem) (a n : Nat) : Mem :=
  let meets (x : Nat) (g : BitVec 2) : Bool := x < a + n && a < x + grainSize g
  let ts := m.txns.filter fun t => meets t.addr t.grain
  let m1 := ts.foldl (fun (m : Mem) t =>
    let m1 : Mem := { m with txns := m.txns.filter fun x => x ≠ t }
    if t.kind = 5 then
      let m2 := m1.dataPhase t
      { m2 with qlines := m2.qlines.filter fun l => !(l.quad = t.req && l.victim && l.granted = some true && l.meets t.addr 1) }
    else m1.serveWhole t.kind t.addr t.req t.grain) m
  (m1.queue.filter fun r => meets r.addr r.grain).foldl (fun (m : Mem) r =>
    let m1 : Mem := { m with queue := m.queue.filter fun x => x ≠ r }
    m1.serveWhole r.kind r.addr r.req r.grain) m1

/-- A recall of a range by its home in its turn, the adapter's pieces included (R84, R89, R104). -/
def Mem.recallRange (m : Mem) (a n : Nat) : Mem := ((m.settleTxns a n).hostRecall a n).recallQuads a n

/-- Recalls a range and writes its home's dirty sectors to the Cellar, before an access at the slice (R89). -/
def Mem.recallHome (m : Mem) (a n : Nat) : Mem :=
  let b := m.span a n
  let lo := b.1 / 64 * 64
  let hi := (b.2 + 63) / 64 * 64
  (m.recallRange a n).homeToCellar lo (hi - lo)

/-- What a request for a unit covers at its home: the whole block where the grain changes (R85). -/
def Mem.reqSpan (m : Mem) (a : Nat) (g : BitVec 2) : Nat × Nat :=
  if (m.dirEntry a).any fun e => e.grain ≠ g then (a / 512 * 512, 512) else (unitBase a g, grainSize g)

/-- A GetS of a core in its turn (R84, R87). -/
def Mem.getS (m : Mem) (a : Nat) (g : BitVec 2) (core : Nat) : Mem :=
  (m.settleTxns (m.reqSpan a g).1 (m.reqSpan a g).2).serveGetS a g core

/-- A GetM or Upg of a core in its turn (R84, R87). -/
def Mem.getM (m : Mem) (a : Nat) (g : BitVec 2) (core : Nat) : Mem :=
  (m.settleTxns (m.reqSpan a g).1 (m.reqSpan a g).2).serveGetM a g core

/-- Whether a quad holds a unit so that it need not ask for it (R86). -/
def Mem.hits (m : Mem) (u q : Nat) (g : BitVec 2) (store : Bool) : Bool :=
  match m.qline q u with
  | some l => l.size = grainSize g && !l.victim && (!store || l.st = .m || l.st = .e)
  | none => false

/-- A load of a core from a DIR unit (R84, R86). -/
def Mem.dirLoad (m : Mem) (a : Nat) (g : BitVec 2) (core : Nat) : Mem :=
  if m.hits a (core / 4) g false then m.useLine core a else m.getS a g core

/-- Lists the bytes of the atom of an address as they read now, as its dirty bytes (R88). -/
def Mem.atom (m : Mem) (a : Nat) : Cells :=
  (List.range 4).foldl (fun c i => if (c.find (a / 4 * 4 + i)).isSome then c else c.put (a / 4 * 4 + i) (m.byte (a / 4 * 4 + i))) m.quad

/-- A store of a core to one byte of a DIR unit (R84, R86): its whole atom is dirty (R88). -/
def Mem.dirStore (m : Mem) (a : Nat) (g : BitVec 2) (core : Nat) (b : Byte) : Mem :=
  let m1 := if m.hits a (core / 4) g true then m.useLine core a else m.getM a g core
  let m2 : Mem := { m1 with qlines := m1.qlines.map fun l =>
    if l.quad = core / 4 && !l.victim && l.meets a 1 then
      { l with st := .m, dirty := l.dirty ||| BitVec.ofNat 128 (2 ^ ((a - l.addr) / 4)) } else l }
  { m2 with quad := (m2.atom a).put a b }

/-! Writes at the Cellar slice or outside the package -/

/-- A write-back that no directory sees, of NONE and LEASE lines (R97, R102), or a write at a slice whose units have been recalled. -/
def Mem.plainWrite (m : Mem) (a : Nat) (b : Byte) : Mem :=
  if isOwn a then { m with cellar := m.cellar.put a b } else { m with ext := m.ext.set a b }

/-- Writes bytes at consecutive addresses so. -/
def Mem.plainBytes (m : Mem) (a : Nat) : List Byte → Mem
  | [] => m
  | b :: bs => (m.plainWrite a b).plainBytes (a + 1) bs

/-- A write of bytes performed at their slice, their units recalled before (R89); outside the package, at the far home. -/
def Mem.sliceWriteBytes (m : Mem) (a : Nat) (bs : List Byte) : Mem :=
  if isOwn a then (m.recallHome a bs.length).plainBytes a bs else m.plainBytes a bs

/-- Before an access that no directory sees, the adapter writes back the pieces of its line (R103, R104). -/
def Mem.hostAside (m : Mem) (line : Nat) : Mem :=
  if isOwn (line * 128) && (m.dirEntry (line * 128)).any (fun e => e.host ≠ 0) then
    let js := (List.range 2).filter fun j => (m.dirEntry (line * 128)).any fun e => e.host.getLsbD (line % 4 * 2 + j)
    js.foldl (fun (m : Mem) j => m.homeToCellar (line * 128 + 64 * j) 64) (m.hostRecall (line * 128) 128)
  else m

/-! Leases (R93 to R101) -/

/-- The timestamps of a line at its home, a fill where it holds none (R94). -/
def Mem.leaseLine (m : Mem) (line : Nat) : LeaseLine :=
  (m.leases.find? fun x => x.line = line).getD
    ⟨line, m.mtsOf (m.leaseSlice (line * 128)), m.mtsOf (m.leaseSlice (line * 128))⟩

/-- Sets the timestamps of a line at its home. -/
def Mem.setLease (m : Mem) (l : LeaseLine) : Mem := { m with leases := l :: m.leases.filter fun x => x.line ≠ l.line }

/-- Takes a timestamp into TMAX (R101). -/
def Mem.seen (m : Mem) (t : Stamp) : Mem := { m with tmax := maxS m.tmax t }

/-- A core's copy of a LEASE line. -/
def Mem.copy (m : Mem) (core line : Nat) : Option LeaseCopy := m.copies.find? fun x => x.core = core && x.line = line

/-- Keeps a copy of a LEASE line in a core, used now. -/
def Mem.setCopy (m : Mem) (c : LeaseCopy) : Mem :=
  { m with copies := { c with used := m.uses } :: m.copies.filter (fun x => !(x.core = c.core && x.line = c.line)), uses := m.uses + 1 }

/-- A line's 128 bytes as its home has them. -/
def Mem.lineCells (m : Mem) (line : Nat) : Cells := (List.range 128).map fun i => (line * 128 + i, m.byte (line * 128 + i))

/-- The adapter's table takes the timestamps of a line of host memory (R105): 65,536 lines, the oldest one leaving for its MTS. -/
def Mem.setHostLease (m : Mem) (l : LeaseLine) : Mem :=
  let all := l :: m.hostLeases.filter fun x => x.line ≠ l.line
  { m with hostLeases := all.take 65536, hostMts := (all.drop 65536).foldl (fun t x => maxS t x.rts) m.hostMts }

/-- A renewal at the home of a line for a core (R96, R105): the memory after it and the copy sent. -/
def Mem.renew (m : Mem) (core line : Nat) (pts : Stamp) (lease : BitVec 8) : Mem × LeaseCopy :=
  let l32 : Stamp := lease.setWidth 32
  if isHost (line * 128) && nodeOf (line * 128) = 0 then
    let t := maxS pts (m.hr + 1)
    let h : LeaseLine := ⟨line, t, maxS t (pts + l32)⟩
    let m1 : Mem := { m.setHostLease h with hr := maxS m.hr h.rts }
    (m1.seen h.rts, ⟨core, line, m.lineCells line, h.wts, h.rts, m.uses⟩)
  else
    let h := m.leaseLine line
    let h1 : LeaseLine := { h with rts := maxS h.rts (pts + l32) }
    ((m.setLease h1).seen h1.rts, ⟨core, line, m.lineCells line, h1.wts, h1.rts, m.uses⟩)

/-- The writer's jump at the home of a LEASE line (R97, R105): the memory after it and the completion timestamp. -/
def Mem.leaseJump (m : Mem) (line : Nat) (pts : Stamp) : Mem × Stamp :=
  if isHost (line * 128) && nodeOf (line * 128) = 0 then
    let t := maxS pts (m.hr + 1)
    ({ m.setHostLease ⟨line, t, t⟩ with hr := maxS m.hr t }.seen t, t)
  else
    let t := maxS pts ((m.leaseLine line).rts + 1)
    ((m.setLease ⟨line, t, t⟩).seen t, t)

/-! NONE lines (R102) -/

/-- A core's NONE line. -/
def Mem.noneLine (m : Mem) (core line : Nat) : Option NoneLine := m.nones.find? fun x => x.core = core && x.line = line

/-- Brings a NONE line into a core. -/
def Mem.fetchNone (m : Mem) (core line : Nat) (enc : Bool) (k : BitVec 13) : Mem :=
  match m.noneLine core line with
  | some x => { m with nones := { x with used := m.uses } :: m.nones.filter (fun y => !(y.core = core && y.line = line)), uses := m.uses + 1 }
  | none => { m with nones := ⟨core, line, m.lineCells line, 0, enc, k, m.uses⟩ :: m.nones, uses := m.uses + 1 }

/-- A store of one byte to a NONE line that a core holds. -/
def Mem.noneStore (m : Mem) (core a : Nat) (b : Byte) : Mem :=
  { m with nones := m.nones.map fun x =>
    if x.core = core && x.line = a / 128 then
      { x with data := x.data.put a b, dirty := x.dirty ||| BitVec.ofNat 32 (2 ^ (a % 128 / 4)) } else x }

/-- Writes back the dirty atoms of a NONE line (R102). -/
def Mem.writeNone (m : Mem) (x : NoneLine) : Mem :=
  let m1 := if isOwn (x.line * 128) && x.dirty ≠ 0 then (m.reach x.line x.enc x.key false).hostAside x.line else m
  (x.data.filter fun c => x.dirty.getLsbD (c.1 % 128 / 4)).foldl (fun m c => m.plainWrite c.1 c.2) m1

/-- Writes back and discards the NONE lines of a core (R102, R151). -/
def Mem.discardNone (m : Mem) (core : Nat) : Mem :=
  let mine := m.nones.filter fun x => x.core = core
  let m1 := mine.foldl Mem.writeNone m
  { m1 with nones := m1.nones.filter fun x => x.core ≠ core }

end Sys2Proof.Machine
end

