-- ==== Sys2Proof/Machine/Translate.lean ====
section
/-! DEFINITION. Translation: the walk, the TLBs, fault order and translation registers (R107 to R121). -/
namespace Sys2Proof.Machine

/-- A cause that translation finds, with its detail and level (R112, R113). -/
structure TransFault where
  cause : Cause
  detail : Nat
  level : Nat := 0
deriving DecidableEq, Repr

/-- The fields of FINFO that a translation fault fills (R113). -/
def TransFault.info (f : TransFault) : Info := { detail := f.detail, level := f.level }

/-- Whether a 64-bit address is canonical (R108). -/
def canonical (va : Word64) : Bool :=
  va.extractLsb' 54 10 = 0#10 || va.extractLsb' 54 10 = 0x3FF#10

/-- Whether an address lies in the scratch window (R17). -/
def inWindow (va : Word64) : Bool := va.extractLsb' 24 40 = 0xFFFFF00000#40

/-- Bits `lo` to `lo + n - 1` of an entry. -/
def bits (e lo n : Nat) : Nat := e / 2 ^ lo % 2 ^ n

/-- The domain address that a FRAME names (R110). -/
def State.frameAddr (s : State) (f : Nat) : Nat :=
  if bits f 35 1 = 1 then 2 ^ 51 + f % 2 ^ 35 * 2 ^ 16
  else
    let node := bits f 24 11
    (if node = s.svc.cwnode.toNat then 0 else node) * 2 ^ 52 + f % 2 ^ 24 * 2 ^ 16

/-- Whether an entry is a table pointer that is well-formed (R109). -/
def State.isPointer (s : State) (e : Nat) : Bool :=
  e % 2 ^ 16 = 0 && bits e 53 11 = 0 && isOwn (s.frameAddr (bits e 16 36))

/-- The mapping that a final entry makes (R109, R110). -/
def State.mapping (s : State) (e va size entry : Nat) : Mapping :=
  { va := va, size := size, pa := s.frameAddr (bits e 16 36), key := BitVec.ofNat 13 (bits e 3 13), enc := bits e 57 1 = 1,
    grain := BitVec.ofNat 2 (bits e 55 2), coh := if bits e 53 2 = 0 then .dir else if bits e 53 2 = 1 then .lease else .none,
    xwr := BitVec.ofNat 3 (e % 8), entry := entry }

/-- Whether the 32 entries of a contiguous run agree (R111). -/
def State.runOk (s : State) (base : Nat) : Bool :=
  let e0 := s.mem.peek base 8
  let bare (e : Nat) : Nat := bits e 0 16 + bits e 52 7 * 2 ^ 16
  bits e0 16 36 % 32 = 0 &&
    (List.range 32).all fun j =>
      let e := s.mem.peek (base + 8 * j) 8
      bare e = bare e0 && bits e 58 1 = 1 && bits e 16 36 = bits e0 16 36 + j

/-- The addresses of the table entries that the walk of an address reads, as far as it comes (R107 to R112). -/
def State.walkEntries (s : State) (asn : BitVec 12) (va : Word64) : List Nat :=
  let d := s.svc.astb.toNat + 32 * asn.toNat
  let dw := s.mem.peek d 8
  let v := va.toNat % 2 ^ 55
  if !canonical va then []
  else if dw % 2 = 0 then [d]
  else
    let a1 := bits dw 16 36 * 2 ^ 16 + 8 * bits v 42 13
    let e1 := s.mem.peek a1 8
    if bits e1 52 1 = 0 || !s.isPointer (e1 - 2 ^ 52) then [d, a1]
    else
      let a2 := s.frameAddr (bits e1 16 36) + 8 * bits v 29 13
      let e2 := s.mem.peek a2 8
      if bits e2 52 1 = 0 || e2 % 8 ≠ 0 || !s.isPointer (e2 - 2 ^ 52) then [d, a1, a2]
      else
        let a3 := s.frameAddr (bits e2 16 36) + 8 * bits v 16 13
        [d, a1, a2, a3] ++ if bits (s.mem.peek a3 8) 58 1 = 1 then (List.range 32).map fun j => a3 / 256 * 256 + 8 * j else []

/-- The lines of those entries. -/
def State.walkLines (s : State) (asn : BitVec 12) (va : Word64) : List Nat := ((s.walkEntries asn va).map (· / 128)).eraseDups

/-- Whether the walk of an address meets an entry that reads as poison (R63, R389). -/
def State.walkPoisoned (s : State) (asn : BitVec 12) (va : Word64) : Bool :=
  (s.walkEntries asn va).any fun a => (List.range 8).any fun i => s.mem.poisoned (a + i)

/-- The walk of an address: its mapping and whether first touch is pending (R112, steps 1 and 2). ROOT of the descriptor counts as a
plain physical address, an entry that reads as poison ends the walk with POISON (R389), and one held under a key is taken as it reads
(R107, R115; log 42). -/
def State.walk (s : State) (asn : BitVec 12) (va : Word64) : Except TransFault (Mapping × Bool) :=
  if !canonical va then .error ⟨.nomap, 1, 0⟩
  else if s.walkPoisoned asn va then .error ⟨.poison, 0, 0⟩
  else
    let d := s.svc.astb.toNat + 32 * asn.toNat
    let dw := s.mem.peek d 8
    if dw % 2 = 0 then .error ⟨.nomap, 2, 0⟩
    else
      let v := va.toNat % 2 ^ 55
      let a1 := bits dw 16 36 * 2 ^ 16 + 8 * bits v 42 13
      let e1 := s.mem.peek a1 8
      if bits e1 52 1 = 0 then .error ⟨.nomap, 2, 1⟩
      else if !s.isPointer (e1 - 2 ^ 52) then .error ⟨.nomap, 3, 1⟩
      else
        let a2 := s.frameAddr (bits e1 16 36) + 8 * bits v 29 13
        let e2 := s.mem.peek a2 8
        if bits e2 52 1 = 0 then .error ⟨.nomap, 2, 2⟩
        else if e2 % 8 ≠ 0 then
          if bits e2 16 13 ≠ 0 || bits e2 58 1 = 1 || bits e2 53 2 = 3 || bits e2 55 2 = 3 then .error ⟨.nomap, 3, 2⟩
          else .ok (s.mapping e2 (v / 2 ^ 29 * 2 ^ 29) (2 ^ 29) a2, bits e2 59 1 = 1)
        else if !s.isPointer (e2 - 2 ^ 52) then .error ⟨.nomap, 3, 2⟩
        else
          let i3 := bits v 16 13
          let t3 := s.frameAddr (bits e2 16 36)
          let a3 := t3 + 8 * i3
          let e3 := s.mem.peek a3 8
          if bits e3 52 1 = 0 then .error ⟨.nomap, 2, 3⟩
          else if bits e3 53 2 = 3 || bits e3 55 2 = 3 then .error ⟨.nomap, 3, 3⟩
          else if bits e3 58 1 = 1 then
            let base := t3 + 8 * (i3 / 32 * 32)
            let e0 := s.mem.peek base 8
            if s.runOk base then .ok (s.mapping e0 (v / 2 ^ 21 * 2 ^ 21) (2 ^ 21) base, bits e0 59 1 = 1)
            else .error ⟨.nomap, 3, 3⟩
          else .ok (s.mapping e3 (v / 2 ^ 16 * 2 ^ 16) (2 ^ 16) a3, bits e3 59 1 = 1)

/-- Whether XWR grants an access (R112, step 3). -/
def grants (xwr : BitVec 3) : AccessKind → Bool
  | .load => xwr.getLsbD 0
  | .store => xwr.getLsbD 1
  | .atomic => xwr.getLsbD 0 && xwr.getLsbD 1
  | .fetch => xwr.getLsbD 2

/-- Step 3 of R112: permission, and DIR mappings of host or peer memory. -/
def permCheck (xwr : BitVec 3) (coh : Coh) (pa : Nat) (k : AccessKind) : Option TransFault :=
  if !grants xwr k then some ⟨.perm, 6, 0⟩
  else if coh = .dir && (isHost pa || nodeOf pa ≠ 0) then some ⟨.perm, 7, 0⟩
  else none

/-- Whether a stack of a die failed bring-up (R382, R383). -/
def State.stackFailed (s : State) (die : Nat) : Bool := (List.range 8).any fun i => s.svc.rdymap.getLsbD (704 + 8 * die + i)

/-- Whether addresses meet the context pool, a frame and a number of GiB, which programs cannot address (R378, R381). -/
def State.inPool (s : State) (a n : Nat) : Bool :=
  let base := s.svc.ctxpool.toNat % 2 ^ 52 / 2 ^ 16 * 2 ^ 16
  a < base + s.svc.ctxpool.toNat % 2 ^ 16 * 2 ^ 30 && base < a + n

/-- Steps 4 to 6 of R112, with the failed stacks of R383, the metadata that software never reaches (R78; log 8) and the context pool (R378;
log 33). Step 5 is tested at the stack of the mapping's first byte, although the protected regions of the stacks that the frame spans may
differ in size (log 42). -/
def State.frameCheck (s : State) (m : Mapping) (ft : Bool) : Option TransFault :=
  if isAbsent m.pa || (isOwn m.pa && (s.stackFailed (dieOf m.pa) || s.mem.isMetadata m.pa || s.inPool m.pa m.size)) then some ⟨.nomap, 4, 0⟩
  else if m.enc && !(isOwn m.pa && s.mem.isProtected m.pa) then some ⟨.key, 8, 0⟩
  else if ft then some ⟨.first, 9, 0⟩
  else none

/-- The mapping for an access, with its checks (R112). -/
def State.checked (s : State) (m : Mapping) (ft : Bool) (k : AccessKind) : Except TransFault Mapping :=
  match permCheck m.xwr m.coh m.pa k with
  | some f => .error f
  | none =>
    match s.frameCheck m ft with
    | some f => .error f
    | none => .ok m

/-- Whether a TLB entry maps an address of an address space. -/
def TlbEntry.hits (e : TlbEntry) (asn : BitVec 12) (va : Word64) : Bool :=
  e.asn = asn && e.map.va ≤ va.toNat % 2 ^ 55 && va.toNat % 2 ^ 55 < e.map.va + e.map.size

/-- The TLB entry that an access of the group in focus hits, of its core or else of its die (R115). -/
def State.tlbFind (s : State) (g : Group) (va : Word64) : Option TlbEntry :=
  match s.mem.coreTlb.find? fun x => x.1 = g.coreNo && x.2.hits g.asn va with
  | some x => some x.2
  | none => (s.mem.dieTlb.find? fun x => x.1 = g.die && x.2.hits g.asn va).map (·.2)

/-- Translates an address for a group, as far as the answer goes (R112, R115): the mapping. -/
def State.lookup (s : State) (g : Group) (va : Word64) (k : AccessKind) : Except TransFault Mapping :=
  if !canonical va then .error ⟨.nomap, 1, 0⟩
  else
    match s.tlbFind g va with
    | some e => s.checked e.map false k
    | none =>
      match s.walk g.asn va with
      | .error f => .error f
      | .ok (m, ft) => s.checked m ft k

/-- Whether an access needs W. -/
def needsW : AccessKind → Bool
  | .store | .atomic => true
  | _ => false

/-- Adds 1 to a heat field of a page entry, saturating, as a memory-side operation (R121). -/
def Mem.heat (m : Mem) (entry lo : Nat) : Mem :=
  let e := m.peek entry 8
  if bits e 52 1 = 1 && bits e lo 2 < 3 then (m.reach (entry / 128) false 0 false).sliceWriteBytes entry (leBytes 8 (e + 2 ^ lo)) else m

/-- The set of an entry in the die TLB, of 1,024 sets (R115; log 8). -/
def TlbEntry.set (e : TlbEntry) : Nat := Config.tlbHash e.asn.toNat e.map.va % 1024

/-- Puts an entry of unit `n` first in a TLB, among the `cap` entries that its set keeps (R115). -/
def keepEntry (n cap : Nat) (set : TlbEntry → Bool) (e : TlbEntry) (l : List (Nat × TlbEntry)) : List (Nat × TlbEntry) :=
  let here (x : Nat × TlbEntry) : Bool := x.1 = n && set x.2
  (n, e) :: (l.filter fun x => here x && !(x.2.asn = e.asn && x.2.map.va = e.map.va)).take (cap - 1) ++ l.filter fun x => !here x

/-- Keeps an entry in the 8 ways of its set of a die's TLB (R115). -/
def Mem.fillDieTlb (m : Mem) (die : Nat) (e : TlbEntry) : Mem := { m with dieTlb := keepEntry die 8 (fun x => x.set = e.set) e m.dieTlb }

/-- Keeps an entry in the core's TLB of 64 entries and in its die's (R115). -/
def Mem.fillTlb (m : Mem) (core die : Nat) (e : TlbEntry) : Mem :=
  { m with coreTlb := keepEntry core 64 (fun _ => true) e m.coreTlb }.fillDieTlb die e

/-- What a translation that succeeds leaves behind: the TLB fill and the heat of R121. -/
def State.noteAccess (s : State) (g : Group) (va : Word64) (m : Mapping) (k : AccessKind) : State :=
  let w := needsW k
  match s.tlbFind g va with
  | some e =>
    if w && !e.written then { s with mem := (s.mem.heat m.entry 62).fillTlb g.coreNo g.die { e with written := true } }
    else { s with mem := s.mem.fillTlb g.coreNo g.die e }
  | none =>
    let m0 := ((s.walkLines g.asn va).filter fun l => isOwn (l * 128)).foldl (fun (m : Mem) l => m.reach l false 0 false) s.mem
    { s with mem := (m0.heat m.entry (if w then 62 else 60)).fillTlb g.coreNo g.die ⟨g.asn, m, w⟩ }

/-- The domain address of a virtual address under a mapping. -/
def Mapping.addr (m : Mapping) (va : Word64) : Nat := m.pa + (va.toNat % 2 ^ 55 - m.va)

/-! Translation registers (R117 to R119) -/

/-- The virtual base of a register as an address (R118). -/
def TransReg.base (r : TransReg) : Word64 := r.vbase.signExtend 64

/-- The walk of `aset` (R119): no permission test. -/
def State.formReg (s : State) (asn : BitVec 12) (va : Word64) (req : Nat) : Except TransFault TransReg :=
  match s.walk asn va with
  | .error f => .error f
  | .ok (m, ft) =>
    match s.frameCheck m ft with
    | some f => .error f
    | none =>
      let off := va.toNat % 2 ^ 55 - m.va
      .ok { v := true, vbase := va.setWidth 55, pbase := m.pa + off, req := BitVec.ofNat 30 req,
            limit := BitVec.ofNat 30 (min req (m.size - off)), key := m.key, enc := m.enc, grain := m.grain, coh := m.coh,
            xwr := m.xwr, stale := false }

/-- A register ready for use: formed afresh when it is stale (R118). -/
def State.freshReg (s : State) (g : Group) (r : TransReg) : Except TransFault TransReg :=
  if !r.v then .error ⟨.nomap, 5, 0⟩
  else if r.stale then s.formReg g.asn r.base r.req.toNat
  else .ok r

/-- Where an access goes: the address it names, the mapping attributes and its domain address. -/
structure Place where
  va : Word64
  pa : Nat
  coh : Coh
  grain : BitVec 2
  enc : Bool
  key : BitVec 13
  /-- Through the TLB, not within a translation register (R118). -/
  tlb : Option Mapping
deriving DecidableEq, Repr

/-- An address through the TLB (R112). -/
def State.place (s : State) (g : Group) (va : Word64) (k : AccessKind) : Except TransFault Place :=
  match s.lookup g va k with
  | .error f => .error f
  | .ok m => .ok ⟨va, m.addr va, m.coh, m.grain, m.enc, m.key, some m⟩

/-- An offset from a fresh translation register (R118), to memory of a die whose stacks all work (R383). -/
def State.placeReg (s : State) (g : Group) (r : TransReg) (o : Word64) (k : AccessKind) : Except TransFault Place :=
  if o.toNat < r.limit.toNat then
    let pa := r.pbase + o.toNat
    match permCheck r.xwr r.coh pa k with
    | some f => .error f
    | none => if isOwn pa && s.stackFailed (dieOf pa) then .error ⟨.nomap, 4, 0⟩ else .ok ⟨r.base + o, pa, r.coh, r.grain, r.enc, r.key, none⟩
  else s.place g (r.base + o) k

/-- Notes a performed translation (R115, R121). -/
def State.notePlace (s : State) (p : Place) (k : AccessKind) : State :=
  match p.tlb with
  | some m => s.noteAccess s.g p.va m k
  | none => s

end Sys2Proof.Machine
end

