-- ==== Sys2Proof/Machine/Regions.lean ====
section
/-! DEFINITION. What forwarding atomic regions make of loads, stores and commits (R337 to R342), the words that others watch (R327, R353) and a core's data cache (R127). -/
namespace Sys2Proof.Machine

/-- What a load answers: its bytes, a cause of R363, an abort of the region that made it, or a wait (R340). -/
inductive LoadRes
  | ok (bs : List Byte)
  | fault (c : Cause)
  | abort (c : AbortCause)
  | wait
deriving DecidableEq, Repr

/-- Whether a region has written a line (R339). -/
def Region.wrote (r : Region) (line : Nat) : Bool := r.bytes.any fun x => x.1 / 128 = line

/-- Whether a line is in a region's read set, hashes that match included (R339). -/
def Region.hasRead (r : Region) (line : Nat) : Bool :=
  r.read.any fun l => l = line || Config.signatureHash 0 l % 4096 = Config.signatureHash 0 line % 4096

/-- Entry [i][j] of a die's reachability matrix (R339). -/
def State.reaches (s : State) (die i j : Nat) : Bool := s.reach.contains (die, i, j)

/-- The live regions other than `r` that an access of `r` to a line meets (R340). -/
def State.conflicts (s : State) (r : Region) (line : Nat) (store : Bool) : List Region :=
  s.regions.filter fun p => !(p.die = r.die && p.e = r.e) && p.st ≠ .free && (p.wrote line || (store && p.hasRead line))

/-- The cause that aborts `r` when it meets those regions (R340). -/
def State.conflictAbort (s : State) (r : Region) (ps : List Region) : Option AbortCause :=
  if ps.any fun p => p.die ≠ r.die then some .conflict
  else if ps.any fun p => s.reaches r.die r.e p.e then some .cycle
  else none

/-- Adds the edge P → Q and what follows from it (R340). -/
def State.addEdge (s : State) (die p q : Nat) : State :=
  let froms := (List.range 64).filter fun a => a = p || s.reaches die a p
  let tos := (List.range 64).filter fun b => b = q || s.reaches die q b
  let new := (froms.flatMap fun a => tos.map fun b => (die, a, b)).filter fun x => !s.reach.contains x
  { s with reach := new ++ s.reach }

/-- Replaces a region's entry. -/
def State.setRegion (s : State) (r : Region) : State :=
  { s with regions := s.regions.map fun x => if x.die = r.die && x.e = r.e then r else x }

/-- The last live writer of a byte in the recorded order (R340). -/
def State.lastWriter (s : State) (ps : List Region) (a : Nat) : Option Region :=
  let ws := ps.filter fun p => (p.bytes.find a).isSome
  ws.find? fun w => !ws.any fun x => x.e ≠ w.e && s.reaches w.die w.e x.e

/-- A region's load of committed, forwarded and own bytes of one line (R340). A load that would make DEPTH 5 waits until the writers that it
would read from have committed or aborted. -/
def State.regionLoad (s : State) (r : Region) (a n : Nat) : State × LoadRes :=
  let line := a / 128
  let addrs := (List.range n).map (a + ·)
  if r.stall.any fun e => s.regions.any fun p => p.die = r.die && p.e = e then (s, .wait)
  else if addrs.all fun x => (r.bytes.find x).isSome then (s, .ok (readBytes r.bytes.get a n))
  else
    let ps := s.conflicts r line false
    match s.conflictAbort r ps with
    | some c => (s, .abort c)
    | none =>
      let value (x : Nat) : Byte :=
        match r.bytes.find x with
        | some b => b
        | none =>
          match s.lastWriter ps x with
          | some p => p.bytes.get x
          | none => s.mem.byte x
      let sup := ps.filter fun p => addrs.any fun x => (r.bytes.find x).isNone && (s.lastWriter ps x).map (·.e) = some p.e
      let depth := sup.foldl (fun d p => max d (p.depth + 1)) r.depth
      if depth ≥ 5 then (s.setRegion { r with stall := (sup.filter fun p => p.depth + 1 ≥ 5).map (·.e) }, .wait)
      else
        let s1 := ps.foldl (fun s p => s.addEdge r.die p.e r.e) s
        let r1 : Region := { r with read := if r.read.contains line then r.read else line :: r.read,
                                    sources := (sup.map (·.e)).filter (fun e => !r.sources.contains e) ++ r.sources,
                                    depth := depth }
        (s1.setRegion r1, .ok (addrs.map value))

/-- The ways of a set of a core's data cache (R127). -/
def State.cacheWays (s : State) (quad core : Nat) : Nat :=
  ((List.range 16).filter fun b =>
    !s.banks.any fun x => x.num = quad * 64 + core * 16 + b && x.mode ≠ .cache).length * 4

/-- Whether a core has a CACHE-mode bank (R127). -/
def State.hasCache (s : State) (g : Group) : Bool := s.cacheWays g.quadNo g.core ≠ 0

/-- The lines that live regions pin in a core's cache (R127, R339). -/
def State.pinned (s : State) (core : Nat) : List Nat :=
  (s.regions.flatMap fun r =>
    match s.group r.owner with
    | some g => if g.coreNo = core then (r.bytes.map fun x => x.1 / 128).eraseDups else []
    | none => [])

/-- Whether a region of the group in focus finds no way for a line: regions pin all of its set (R127). -/
def State.noWay (s : State) (line : Nat) : Bool :=
  ((s.pinned s.g.coreNo).filter fun l => l % 128 = line % 128).length ≥ s.cacheWays s.g.quadNo s.g.core

/-- A region's store to one line: the abort that it causes, or the state with the bytes buffered under the line's attributes and
its store's name (R82, R339, R340). -/
def State.regionStore (s : State) (r : Region) (p : Place) (bs : List Byte) : Except AbortCause State :=
  let line := p.pa / 128
  let ps := s.conflicts r line true
  match s.conflictAbort r ps with
  | some c => .error c
  | none =>
    let mine := (r.bytes.map fun x => x.1 / 128).eraseDups
    if !mine.contains line && (mine.length ≥ 512 || s.noWay line) then .error .capacity
    else
      let s1 := ps.foldl (fun s p => s.addEdge r.die p.e r.e) s
      .ok (s1.setRegion { r with bytes := r.bytes.putBytes p.pa bs,
                                 attrs := (line, p.grain, p.enc, p.key, s.fpcNow, s.maskNow) :: r.attrs.filter fun x => x.1 ≠ line })

/-- A write that is not part of a region aborts with CONFLICT every live region that has read the line (R341). -/
def State.conflictWrite (s : State) (line : Nat) : State :=
  go 128 s
where
  go : Nat → State → State
    | 0, s => s
    | n + 1, s =>
      match s.regions.find? fun r => r.st ≠ .free && r.hasRead line with
      | some r => go n (s.abortRegion r .conflict 0 0 false true)
      | none => s

/-! Watched words (R327, R353) -/

/-- Whether `n` bytes at one place meet `k` bytes at another. -/
def Target.meets (t : Target) (n : Nat) (w : Target) (k : Nat) : Bool :=
  match t, w with
  | .bank b o, .bank c p => b = c && o < p + k && p < o + n
  | .mem a .., .mem b .. => a < b + k && b < a + n
  | _, _ => false

/-- Whether a group's watch is on a word that a write meets. -/
def Group.watchMeets (g : Group) (hit : Target → Nat → Bool) : Bool := g.wait.any fun w => w.watch.any fun t => hit t w.size

/-- The group's watched word has been written. -/
def Group.wordWritten (hit : Target → Nat → Bool) (g : Group) : Group :=
  if g.watchMeets hit then { g with wait := g.wait.map fun w => { w with written := true } } else g

/-- The stamp of a dependence (R414). -/
def State.depStamp (s : State) : Target → Stamp
  | .mem pa .lease _ _ _ => maxS s.mem.rstamp (s.mem.leaseLine (pa / 128)).wts
  | _ => s.mem.rstamp

/-- Whether an event word, as its slice has it, is at least a target count (R353). -/
def State.depHolds (s : State) (t : Target) (tgt : Nat) : Bool :=
  match t with
  | .bank .. => false
  | .mem pa _ _ enc key =>
    s.mem.keyServes pa enc key && !((List.range 8).any fun i => s.poisoned s.mem (pa + i)) && tgt ≤ s.mem.peek pa 8

/-- A launch after a test of those of its dependences that `hit` picks: once met, a dependence stays met and has its stamp (R353, R355). -/
def State.metDeps (s : State) (hit : Target → Nat → Bool) (l : Launch) : Launch :=
  let new := l.deps.filter fun d => !l.stale && !d.2.2 && hit d.1 8 && s.depHolds d.1 d.2.1
  let st (x : Stamp) : Stamp := new.foldl (fun t d => maxS t (s.depStamp d.1)) x
  { l with deps := l.deps.map (fun d => if new.contains d then (d.1, d.2.1, true) else d), pts := st l.pts, maxStamp := st l.maxStamp }

/-- A write has been performed: who watches a word that it meets knows (R327), and the Dispatchers test it (R353). -/
def State.wrote (s : State) (hit : Target → Nat → Bool) : State :=
  let s1 : State := if s.groups.any fun g => g.watchMeets hit then
      { s with g := s.g.wordWritten hit, others := s.others.map (Group.wordWritten hit) } else s
  if s1.disp.launches.any fun l => l.deps.any fun d => !d.2.2 && hit d.1 8 then
    { s1 with disp := { s1.disp with launches := s1.disp.launches.map (s1.metDeps hit) } }
  else s1

/-- Whether a write of some bytes meets a word. -/
def bytesMeet (bs : List (Target × Byte)) (w : Target) (k : Nat) : Bool := bs.any fun x => x.1.meets 1 w k

/-- The dirty bytes of a core's NONE lines, of those that `lines` picks. -/
def Mem.noneDirty (m : Mem) (core : Nat) (lines : Nat → Bool) : List (Target × Byte) :=
  (m.nones.filter fun x => x.core = core && lines x.line).flatMap fun x =>
    (x.data.filter fun c => x.dirty.getLsbD (c.1 % 128 / 4)).map fun c => (.mem c.1 .none 0 x.enc x.key, c.2)

/-- Writes back and discards the NONE lines of a core; a write-back writes watched words (R102, R151, R327). -/
def State.discardNones (s : State) (core : Nat) : State :=
  ({ s with mem := s.mem.discardNone core } : State).wrote (bytesMeet (s.mem.noneDirty core fun _ => true))

/-! A core's data cache (R127) -/

/-- A line that a core's data cache holds, and when it was last used. -/
def Mem.cached (m : Mem) (core : Nat) : List (Nat × Nat) :=
  (m.qlines.filter fun l => l.quad = core / 4 && !l.victim && l.cores.contains (core % 4)).flatMap (fun l =>
      (List.range ((l.addr % 128 + l.size + 127) / 128)).map fun i => (l.addr / 128 + i, l.used)) ++
    (m.copies.filter fun c => c.core = core).map (fun c => (c.line, c.used)) ++
    (m.nones.filter fun x => x.core = core).map fun x => (x.line, x.used)

/-- The oldest entry of a quad's victim buffer becomes free (R92): its Put is served in its turn, behind the transaction and the requests
that came before it for the unit. -/
def Mem.freeOldest (m : Mem) (q : Nat) : Mem :=
  match (m.qlines.filter fun x => x.quad = q && x.victim).getLast? with
  | none => m
  | some v =>
    let m1 := m.settleTxns v.addr v.size
    match m1.qlines.find? fun x => x.quad = q && x.victim && x.addr = v.addr with
    | none => m1
    | some w => if w.granted.isSome then { m1 with qlines := m1.qlines.filter fun x => x ≠ w } else m1.putWhole w

/-- A unit leaves a core (R84, R86, R92): silently in S, else into the victim buffer of its quad, once an entry is free there. -/
def Mem.evictUnit (m : Mem) (core : Nat) (l : QuadLine) : Mem :=
  let rest := l.cores.filter fun c => c ≠ core % 4
  if !rest.isEmpty then { m with qlines := m.qlines.map fun x => if x = l then { x with cores := rest } else x }
  else if l.st = .s then { m with qlines := m.qlines.filter fun x => x ≠ l }
  else
    let m1 := if (m.qlines.filter fun x => x.quad = l.quad && x.victim).length < 16 then m else m.freeOldest l.quad
    { m1 with qlines := m1.qlines.map fun x => if x = l then { x with victim := true, cores := [] } else x }

/-- A core's LEASE copy and NONE line of a line leave it, with the dirty atoms written back (R98, R102). -/
def Mem.evictCopies (m : Mem) (core line : Nat) : Mem :=
  let m2 : Mem := { m with copies := m.copies.filter fun c => !(c.core = core && c.line = line) }
  let m3 := (m2.nones.filter fun x => x.core = core && x.line = line).foldl Mem.writeNone m2
  { m3 with nones := m3.nones.filter fun x => !(x.core = core && x.line = line) }

/-- A line leaves a core's data cache (R92, R98, R102, R127): its units, its LEASE copy, its NONE line with its dirty atoms. -/
def Mem.evictCached (m : Mem) (core line : Nat) : Mem :=
  ((m.qlines.filter fun l => l.quad = core / 4 && !l.victim && l.cores.contains (core % 4) && l.meets (line * 128) 128).foldl
    (fun (m : Mem) l => m.evictUnit core l) m).evictCopies core line

/-- The set of a line in a core's data cache keeps within its ways (R127): the least recently used line that no region pins leaves, one that
is to be kept in preference last (R171). -/
def State.fitCache : Nat → State → Nat → Nat → State
  | 0, s, _, _ => s
  | n + 1, s, core, line =>
    let pins := s.pinned core
    let held := (s.mem.cached core).filter fun x => x.1 % 128 = line % 128 && !pins.contains x.1
    let lines := (held.map (·.1)).eraseDups
    if lines.length + (pins.filter fun l => l % 128 = line % 128).length ≤ s.cacheWays (core / 4) (core % 4) then s
    else
      let age (l : Nat) : Nat := held.foldl (fun u x => if x.1 = l then max u x.2 else u) 0
      match leastBy (fun l => age l + if s.mem.kept.contains (core, l) then s.mem.uses else 0) lines with
      | none => s
      | some l =>
        State.fitCache n (({ s with mem := s.mem.evictCached core l } : State).wrote (bytesMeet (s.mem.noneDirty core fun x => x = l))) core line

/-- The lines of a unit that a core's quad holds for an address, or the line of the address alone. -/
def Mem.unitLines (m : Mem) (core pa : Nat) : List Nat :=
  match m.qline (core / 4) pa with
  | some l => (List.range ((l.addr % 128 + l.size + 127) / 128)).map (l.addr / 128 + ·)
  | none => [pa / 128]

/-- After a line, or a unit of several, has come into the data cache of a core (R127): where its ways are all pinned, it is not kept. -/
def State.fitCore (s : State) (core pa : Nat) : State :=
  if s.mem.qlines.length + s.mem.copies.length + s.mem.nones.length < 4 && s.regions.isEmpty then s
  else (s.mem.unitLines core pa).foldl (fun (s : State) l => s.fitCache 64 core l) s

/-- After a line has come into the data cache of the core of the group in focus. -/
def State.fit (s : State) (pa : Nat) : State := s.fitCore s.g.coreNo pa

/-- The caches of cores that have been granted units keep within their ways (R127). -/
def State.fitFresh (s : State) : State :=
  match s.mem.fresh with
  | [] => s
  | l => l.foldl (fun (s : State) x => s.fitCore x.1 x.2) { s with mem := { s.mem with fresh := [] } }

/-! Commits (R342) -/

/-- DEPTH of a region from the regions that it has still read from (R342). -/
def State.regionDepth (s : State) (r : Region) : Nat :=
  (s.regions.filter fun p => p.die = r.die && r.sources.contains p.e).foldl (fun d p => max d (p.depth + 1)) 0

/-- Whether a region in ENDED may commit (R342). -/
def State.mayCommit (s : State) (r : Region) : Bool :=
  r.st = .ended && !s.regions.any fun p => p.die = r.die && p.e ≠ r.e && p.st ≠ .free && s.reaches r.die p.e r.e

/-- One byte that a region commits: stored under its line's grain and key tag (R74, R342). -/
def State.commitByte (s : State) (r : Region) (g : Group) (x : Nat × Byte) : State :=
  let at_ := ((r.attrs.find? fun y => y.1 = x.1 / 128).map (·.2)).getD (1, false, 0, 0, 0)
  let m := if s.mem.hits x.1 g.quadNo at_.1 true && s.mem.tagOf (x.1 / 128) = (if at_.2.1 then some at_.2.2.1 else none) then s.mem
    else s.mem.reach (x.1 / 128) at_.2.1 at_.2.2.1 false
  { s with mem := m.dirStore x.1 at_.1 g.coreNo x.2 }

/-- Whether the commit of a region waits, for a block that moves, a stack that is not ready or a staged piece (R70, R76, R383). -/
def State.commitWaits (s : State) (r : Region) : Bool :=
  ((r.bytes.map fun x => x.1 / 128).eraseDups).any s.hostWaits

/-- The commit of a region: its bytes become visible together (R342). -/
def State.commitRegion (s : State) (r : Region) : State :=
  match s.group r.owner with
  | none => s.dropRegion r
  | some g =>
    let s0 := r.bytes.foldl (fun (s : State) x => s.commitByte r g x) s
    let s1 := (s0.wrote (bytesMeet (r.bytes.map fun x => (.mem x.1 .dir 0 false 0, x.2)))).dropRegion r
    let readers := s1.regions.filter fun x => x.die = r.die && x.sources.contains r.e
    let s2 : State := { s1 with regions := s1.regions.map fun x =>
      if x.die = r.die then { x with sources := x.sources.filter fun e => e ≠ r.e } else x }
    let read (x : Region) : Bool := readers.any fun y => y.die = x.die && y.e = x.e
    let s3 : State := { s2 with regions := s2.regions.map fun x => if read x then { x with depth := s2.regionDepth x } else x }
    let s4 := (r.bytes.map fun x => x.1 / 128).eraseDups.foldl (fun (s : State) l => s.fitCore g.coreNo (l * 128)) s3
    s4.onGroup r.owner fun h => { h with rgpred := h.liveLanes, rgst := 0 }

end Sys2Proof.Machine
end

