-- ==== Sys2Proof/Machine/Flags.lean ====
section
/-! DEFINITION. The exception flags of R199 and the flags that an overflow, an underflow and an inexact result set. -/
namespace Sys2Proof.Machine

/-- Flags in the bit positions of XF and XE (R199). -/
abbrev Flags := BitVec 6

/-- Inexact (bit 0). -/
def Flags.nx : Flags := 1#6
/-- Underflow (bit 1). -/
def Flags.uf : Flags := 2#6
/-- Overflow (bit 2). -/
def Flags.of : Flags := 4#6
/-- Division by zero (bit 3). -/
def Flags.dz : Flags := 8#6
/-- Invalid operation (bit 4). -/
def Flags.nv : Flags := 16#6
/-- Argument beyond hardware range reduction (bit 5). -/
def Flags.rg : Flags := 32#6

/-- A flag where a condition holds. -/
def Flags.when (b : Bool) (f : Flags) : Flags := if b then f else 0#6

/-- The flags of an overflow (R194). -/
def Flags.overflow : Flags := Flags.of ||| Flags.nx

/-- The flags of a result inside the range: UF for a tiny inexact one (R195), NX for an inexact one (R193). -/
def Flags.rounded (inexact tiny : Bool) : Flags :=
  Flags.when inexact Flags.nx ||| Flags.when (inexact && tiny) Flags.uf

end Sys2Proof.Machine
end

