-- ==== Sys2Proof/Machine/Legal.lean ====
section
/-! DEFINITION. Which encodings are instructions: the lane opcode map (R39), the operand fields each lane
instruction uses and how (R34 to R38 and each instruction's own description), and the checks that make a word ILLEGAL
(R23, R31 to R47). Shared by `WellFormed`, by the decoder and by the register checks at issue. -/
namespace Sys2Proof

/-- The OP field of each lane operation (R39). `fexp` and `vote` have one OP and are told apart by FN. -/
def LaneOp.code : LaneOp → BitVec 8
  | .iadd => 0x01
  | .isub => 0x02
  | .imul => 0x03
  | .imulh => 0x04
  | .imad => 0x05
  | .idiv => 0x06
  | .irem => 0x07
  | .iabs => 0x08
  | .ineg => 0x09
  | .imin => 0x0A
  | .imax => 0x0B
  | .iand => 0x0C
  | .ior => 0x0D
  | .ixor => 0x0E
  | .inot => 0x0F
  | .ishl => 0x10
  | .ishr => 0x11
  | .isra => 0x12
  | .irot => 0x13
  | .ibfx => 0x14
  | .ibfi => 0x15
  | .ipop => 0x16
  | .iclz => 0x17
  | .ibrev => 0x18
  | .icmp => 0x19
  | .fadd => 0x20
  | .fsub => 0x21
  | .fmul => 0x22
  | .ffma => 0x23
  | .fdiv => 0x24
  | .fsqrt => 0x25
  | .fmin => 0x26
  | .fmax => 0x27
  | .fabs => 0x28
  | .fneg => 0x29
  | .fcmp => 0x2A
  | .fclass => 0x2B
  | .frnd => 0x2C
  | .fsc => 0x2D
  | .fexpGet => 0x2E
  | .fexpPut => 0x2E
  | .fexpCvmget => 0x2E
  | .fexpCvmput => 0x2E
  | .fexpXeget => 0x2E
  | .fexpXeput => 0x2E
  | .cvt => 0x30
  | .cpack => 0x31
  | .cunpk => 0x32
  | .mov => 0x33
  | .sel => 0x34
  | .plog => 0x35
  | .shfl => 0x40
  | .shup => 0x41
  | .shdn => 0x42
  | .bcast => 0x43
  | .voteAny => 0x44
  | .voteAll => 0x44
  | .voteBallot => 0x44
  | .redg => 0x45
  | .scang => 0x46
  | .gsort => 0x47
  | .gtopk => 0x48
  | .gmerge => 0x49
  | .sin => 0x50
  | .cos => 0x51
  | .ex2 => 0x52
  | .lg2 => 0x53
  | .rcp => 0x54
  | .rsq => 0x55
  | .tanh => 0x56
  | .qpack => 0x60
  | .qunpk => 0x61
  | .qdot => 0x62
  | .qsc => 0x63
  | .qadd => 0x64
  | .qproj => 0x65
  | .qrot => 0x66
  | .qmov => 0x67
  | .qnorm => 0x68
  | .qld => 0x69
  | .qst => 0x6A
  | .ld => 0x70
  | .st => 0x71
  | .atom => 0x72
  | .cas => 0x73
  | .red => 0x74
  | .tki => 0x75
  | .bpush => 0x76
  | .bpop => 0x77
  | .lbra => 0x80
  | .ljmp => 0x81
  | .lsetk => 0x82
  | .ljoin => 0x83
  | .lend => 0x84
  | .lexit => 0x85
  | .lnop => 0x86

/-- The lane operation that OP and FN name (R39, R203, R227); none for a reserved OP or an unassigned function. -/
def LaneOp.ofCode (op : BitVec 8) (fn : BitVec 6) : Option LaneOp :=
  match op.toNat with
  | 0x01 => some .iadd
  | 0x02 => some .isub
  | 0x03 => some .imul
  | 0x04 => some .imulh
  | 0x05 => some .imad
  | 0x06 => some .idiv
  | 0x07 => some .irem
  | 0x08 => some .iabs
  | 0x09 => some .ineg
  | 0x0A => some .imin
  | 0x0B => some .imax
  | 0x0C => some .iand
  | 0x0D => some .ior
  | 0x0E => some .ixor
  | 0x0F => some .inot
  | 0x10 => some .ishl
  | 0x11 => some .ishr
  | 0x12 => some .isra
  | 0x13 => some .irot
  | 0x14 => some .ibfx
  | 0x15 => some .ibfi
  | 0x16 => some .ipop
  | 0x17 => some .iclz
  | 0x18 => some .ibrev
  | 0x19 => some .icmp
  | 0x20 => some .fadd
  | 0x21 => some .fsub
  | 0x22 => some .fmul
  | 0x23 => some .ffma
  | 0x24 => some .fdiv
  | 0x25 => some .fsqrt
  | 0x26 => some .fmin
  | 0x27 => some .fmax
  | 0x28 => some .fabs
  | 0x29 => some .fneg
  | 0x2A => some .fcmp
  | 0x2B => some .fclass
  | 0x2C => some .frnd
  | 0x2D => some .fsc
  | 0x2E =>
    match fn.toNat with
    | 0 => some .fexpGet | 1 => some .fexpPut | 2 => some .fexpCvmget | 3 => some .fexpCvmput
    | 4 => some .fexpXeget | 5 => some .fexpXeput | _ => none
  | 0x30 => some .cvt
  | 0x31 => some .cpack
  | 0x32 => some .cunpk
  | 0x33 => some .mov
  | 0x34 => some .sel
  | 0x35 => some .plog
  | 0x40 => some .shfl
  | 0x41 => some .shup
  | 0x42 => some .shdn
  | 0x43 => some .bcast
  | 0x44 =>
    match fn.toNat % 8 with
    | 0 => some .voteAny | 1 => some .voteAll | 2 => some .voteBallot | _ => none
  | 0x45 => some .redg
  | 0x46 => some .scang
  | 0x47 => some .gsort
  | 0x48 => some .gtopk
  | 0x49 => some .gmerge
  | 0x50 => some .sin
  | 0x51 => some .cos
  | 0x52 => some .ex2
  | 0x53 => some .lg2
  | 0x54 => some .rcp
  | 0x55 => some .rsq
  | 0x56 => some .tanh
  | 0x60 => some .qpack
  | 0x61 => some .qunpk
  | 0x62 => some .qdot
  | 0x63 => some .qsc
  | 0x64 => some .qadd
  | 0x65 => some .qproj
  | 0x66 => some .qrot
  | 0x67 => some .qmov
  | 0x68 => some .qnorm
  | 0x69 => some .qld
  | 0x6A => some .qst
  | 0x70 => some .ld
  | 0x71 => some .st
  | 0x72 => some .atom
  | 0x73 => some .cas
  | 0x74 => some .red
  | 0x75 => some .tki
  | 0x76 => some .bpush
  | 0x77 => some .bpop
  | 0x80 => some .lbra
  | 0x81 => some .ljmp
  | 0x82 => some .lsetk
  | 0x83 => some .ljoin
  | 0x84 => some .lend
  | 0x85 => some .lexit
  | 0x86 => some .lnop
  | _ => none

/-- The instruction of a lane operation. -/
def LaneOp.instr : LaneOp → LaneWord → Instr
  | .iadd, w => .iadd w
  | .isub, w => .isub w
  | .imul, w => .imul w
  | .imulh, w => .imulh w
  | .imad, w => .imad w
  | .idiv, w => .idiv w
  | .irem, w => .irem w
  | .iabs, w => .iabs w
  | .ineg, w => .ineg w
  | .imin, w => .imin w
  | .imax, w => .imax w
  | .iand, w => .iand w
  | .ior, w => .ior w
  | .ixor, w => .ixor w
  | .inot, w => .inot w
  | .ishl, w => .ishl w
  | .ishr, w => .ishr w
  | .isra, w => .isra w
  | .irot, w => .irot w
  | .ibfx, w => .ibfx w
  | .ibfi, w => .ibfi w
  | .ipop, w => .ipop w
  | .iclz, w => .iclz w
  | .ibrev, w => .ibrev w
  | .icmp, w => .icmp w
  | .fadd, w => .fadd w
  | .fsub, w => .fsub w
  | .fmul, w => .fmul w
  | .ffma, w => .ffma w
  | .fdiv, w => .fdiv w
  | .fsqrt, w => .fsqrt w
  | .fmin, w => .fmin w
  | .fmax, w => .fmax w
  | .fabs, w => .fabs w
  | .fneg, w => .fneg w
  | .fcmp, w => .fcmp w
  | .fclass, w => .fclass w
  | .frnd, w => .frnd w
  | .fsc, w => .fsc w
  | .fexpGet, w => .fexpGet w
  | .fexpPut, w => .fexpPut w
  | .fexpCvmget, w => .fexpCvmget w
  | .fexpCvmput, w => .fexpCvmput w
  | .fexpXeget, w => .fexpXeget w
  | .fexpXeput, w => .fexpXeput w
  | .cvt, w => .cvt w
  | .cpack, w => .cpack w
  | .cunpk, w => .cunpk w
  | .mov, w => .mov w
  | .sel, w => .sel w
  | .plog, w => .plog w
  | .shfl, w => .shfl w
  | .shup, w => .shup w
  | .shdn, w => .shdn w
  | .bcast, w => .bcast w
  | .voteAny, w => .voteAny w
  | .voteAll, w => .voteAll w
  | .voteBallot, w => .voteBallot w
  | .redg, w => .redg w
  | .scang, w => .scang w
  | .gsort, w => .gsort w
  | .gtopk, w => .gtopk w
  | .gmerge, w => .gmerge w
  | .sin, w => .sin w
  | .cos, w => .cos w
  | .ex2, w => .ex2 w
  | .lg2, w => .lg2 w
  | .rcp, w => .rcp w
  | .rsq, w => .rsq w
  | .tanh, w => .tanh w
  | .qpack, w => .qpack w
  | .qunpk, w => .qunpk w
  | .qdot, w => .qdot w
  | .qsc, w => .qsc w
  | .qadd, w => .qadd w
  | .qproj, w => .qproj w
  | .qrot, w => .qrot w
  | .qmov, w => .qmov w
  | .qnorm, w => .qnorm w
  | .qld, w => .qld w
  | .qst, w => .qst w
  | .ld, w => .ld w
  | .st, w => .st w
  | .atom, w => .atom w
  | .cas, w => .cas w
  | .red, w => .red w
  | .tki, w => .tki w
  | .bpush, w => .bpush w
  | .bpop, w => .bpop w
  | .lbra, w => .lbra w
  | .ljmp, w => .ljmp w
  | .lsetk, w => .lsetk w
  | .ljoin, w => .ljoin w
  | .lend, w => .lend w
  | .lexit, w => .lexit w
  | .lnop, w => .lnop w

/-- The lane operation and the word of a lane instruction; none for every other instruction. -/
def Instr.lane? : Instr → Option (LaneOp × LaneWord)
  | .iadd w => some (.iadd, w)
  | .isub w => some (.isub, w)
  | .imul w => some (.imul, w)
  | .imulh w => some (.imulh, w)
  | .imad w => some (.imad, w)
  | .idiv w => some (.idiv, w)
  | .irem w => some (.irem, w)
  | .iabs w => some (.iabs, w)
  | .ineg w => some (.ineg, w)
  | .imin w => some (.imin, w)
  | .imax w => some (.imax, w)
  | .iand w => some (.iand, w)
  | .ior w => some (.ior, w)
  | .ixor w => some (.ixor, w)
  | .inot w => some (.inot, w)
  | .ishl w => some (.ishl, w)
  | .ishr w => some (.ishr, w)
  | .isra w => some (.isra, w)
  | .irot w => some (.irot, w)
  | .ibfx w => some (.ibfx, w)
  | .ibfi w => some (.ibfi, w)
  | .ipop w => some (.ipop, w)
  | .iclz w => some (.iclz, w)
  | .ibrev w => some (.ibrev, w)
  | .icmp w => some (.icmp, w)
  | .fadd w => some (.fadd, w)
  | .fsub w => some (.fsub, w)
  | .fmul w => some (.fmul, w)
  | .ffma w => some (.ffma, w)
  | .fdiv w => some (.fdiv, w)
  | .fsqrt w => some (.fsqrt, w)
  | .fmin w => some (.fmin, w)
  | .fmax w => some (.fmax, w)
  | .fabs w => some (.fabs, w)
  | .fneg w => some (.fneg, w)
  | .fcmp w => some (.fcmp, w)
  | .fclass w => some (.fclass, w)
  | .frnd w => some (.frnd, w)
  | .fsc w => some (.fsc, w)
  | .fexpGet w => some (.fexpGet, w)
  | .fexpPut w => some (.fexpPut, w)
  | .fexpCvmget w => some (.fexpCvmget, w)
  | .fexpCvmput w => some (.fexpCvmput, w)
  | .fexpXeget w => some (.fexpXeget, w)
  | .fexpXeput w => some (.fexpXeput, w)
  | .cvt w => some (.cvt, w)
  | .cpack w => some (.cpack, w)
  | .cunpk w => some (.cunpk, w)
  | .mov w => some (.mov, w)
  | .sel w => some (.sel, w)
  | .plog w => some (.plog, w)
  | .shfl w => some (.shfl, w)
  | .shup w => some (.shup, w)
  | .shdn w => some (.shdn, w)
  | .bcast w => some (.bcast, w)
  | .voteAny w => some (.voteAny, w)
  | .voteAll w => some (.voteAll, w)
  | .voteBallot w => some (.voteBallot, w)
  | .redg w => some (.redg, w)
  | .scang w => some (.scang, w)
  | .gsort w => some (.gsort, w)
  | .gtopk w => some (.gtopk, w)
  | .gmerge w => some (.gmerge, w)
  | .sin w => some (.sin, w)
  | .cos w => some (.cos, w)
  | .ex2 w => some (.ex2, w)
  | .lg2 w => some (.lg2, w)
  | .rcp w => some (.rcp, w)
  | .rsq w => some (.rsq, w)
  | .tanh w => some (.tanh, w)
  | .qpack w => some (.qpack, w)
  | .qunpk w => some (.qunpk, w)
  | .qdot w => some (.qdot, w)
  | .qsc w => some (.qsc, w)
  | .qadd w => some (.qadd, w)
  | .qproj w => some (.qproj, w)
  | .qrot w => some (.qrot, w)
  | .qmov w => some (.qmov, w)
  | .qnorm w => some (.qnorm, w)
  | .qld w => some (.qld, w)
  | .qst w => some (.qst, w)
  | .ld w => some (.ld, w)
  | .st w => some (.st, w)
  | .atom w => some (.atom, w)
  | .cas w => some (.cas, w)
  | .red w => some (.red, w)
  | .tki w => some (.tki, w)
  | .bpush w => some (.bpush, w)
  | .bpop w => some (.bpop, w)
  | .lbra w => some (.lbra, w)
  | .ljmp w => some (.ljmp, w)
  | .lsetk w => some (.lsetk, w)
  | .ljoin w => some (.ljoin, w)
  | .lend w => some (.lend, w)
  | .lexit w => some (.lexit, w)
  | .lnop w => some (.lnop, w)
  | _ => none

/-- The type that a code names (R33). -/
def Ty.ofCode : Nat → Option Ty
  | 0 => some .i8 | 1 => some .i16 | 2 => some .i32 | 3 => some .i64
  | 4 => some .n8 | 5 => some .n16 | 6 => some .n32 | 7 => some .n64
  | 8 => some .f16 | 9 => some .bf16 | 10 => some .f32 | 11 => some .f64
  | 12 => some .e4m3 | 13 => some .e5m2 | 14 => some .e3m2 | 15 => some .e2m3
  | 16 => some .t2 | 17 => some .b32 | 18 => some .b64 | 19 => some .q
  | _ => none

/-- The code of a type (R33). -/
def Ty.code : Ty → BitVec 5
  | .i8 => 0 | .i16 => 1 | .i32 => 2 | .i64 => 3 | .n8 => 4 | .n16 => 5 | .n32 => 6 | .n64 => 7
  | .f16 => 8 | .bf16 => 9 | .f32 => 10 | .f64 => 11 | .e4m3 => 12 | .e5m2 => 13 | .e3m2 => 14 | .e2m3 => 15
  | .t2 => 16 | .b32 => 17 | .b64 => 18 | .q => 19

/-- The types of 64 bits, whose operands are register pairs (R34). -/
def Ty.wide : Ty → Bool
  | .i64 | .n64 | .f64 | .b64 => true
  | _ => false

/-- i8 to i64. -/
def Ty.signed : Ty → Bool
  | .i8 | .i16 | .i32 | .i64 => true
  | _ => false

/-- i8 to n64 (TY 0 to 7). -/
def Ty.integer (t : Ty) : Bool := t.code.toNat < 8

/-- f16, bf16, f32, f64, the types of the floating family (R214). -/
def Ty.float : Ty → Bool
  | .f16 | .bf16 | .f32 | .f64 => true
  | _ => false

/-- Every floating format of R187. -/
def Ty.floatAny (t : Ty) : Bool := t.float || t matches .e4m3 | .e5m2 | .e3m2 | .e2m3

/-- b32 and b64. -/
def Ty.bits : Ty → Bool
  | .b32 | .b64 => true
  | _ => false

/-- The key types of R230 and the lane reductions of R175. -/
def Ty.keyTy : Ty → Bool
  | .i32 | .n32 | .i64 | .n64 | .f32 | .f64 => true
  | _ => false

/-- The element size in bytes of a type in memory (R170). -/
def Ty.esize : Ty → Nat
  | .i8 | .n8 | .e4m3 | .e5m2 | .e3m2 | .e2m3 | .t2 => 1
  | .i16 | .n16 | .f16 | .bf16 => 2
  | .i64 | .n64 | .f64 | .b64 => 8
  | _ => 4

/-- How an instruction uses a register operand: the classes allowed beside v, whether special code 0x10 may stand, whether
it is written, whether it is a pair, the alignment of its register number and the registers it spans (R34 to R36, R45). -/
structure Opnd where
  v : Bool := true
  s : Bool := true
  sp : Bool := true
  lane : Bool := true
  dst : Bool := false
  al : Nat := 1
  span : Nat := 1
  ty : Ty := .n32
deriving DecidableEq, Repr

/-- How an instruction uses one of the fields D, A, B and C: not at all, in its own way, as a register operand, as a q register (R34). -/
inductive Fld
  | zero
  | own
  | opnd (o : Opnd)
  | dir
deriving DecidableEq, Repr

/-- The use of the four fields, the registers of a direction's span, whether XI = 1 may replace B, and whether IMM32 is an
offset, target or mask (R31, R37, R239). -/
structure Shape where
  d : Fld := .zero
  a : Fld := .zero
  b : Fld := .zero
  c : Fld := .zero
  span : Nat := 1
  xi : Bool := false
  imm : Bool := false
deriving DecidableEq, Repr

/-- A source of type `t` of any class. -/
def Fld.src (t : Ty) : Fld :=
  .opnd { ty := t, al := if t.wide then 2 else 1, span := if t.wide then 2 else 1 }

/-- A source of type `t` of class v, spanning `n` elements. -/
def Fld.vsrc (t : Ty) (n : Nat := 1) : Fld :=
  .opnd { ty := t, s := false, sp := false, al := if t.wide then 2 else 1, span := if t.wide then 2 * n else n }

/-- A destination of type `t` and of `n` elements (R34, Writes). -/
def Fld.dst (t : Ty) (n : Nat := 1) : Fld :=
  .opnd { ty := t, s := false, sp := false, dst := true, al := if t.wide then 2 else 1,
          span := if t.wide then 2 * n else n }

/-- A destination that spans `n` registers, aligned to `al`. -/
def Fld.dstSpan (t : Ty) (al n : Nat) : Fld :=
  .opnd { ty := t, s := false, sp := false, dst := true, al := al, span := n }

/-- A source of class s or special that is read in each lane. -/
def Fld.ssrc (t : Ty) : Fld := .opnd { ty := t, v := false }

/-- A source of class s or special that is one value for the whole group (R36). -/
def Fld.usrc (t : Ty) : Fld := .opnd { ty := t, v := false, lane := false }

/-- RM of the override layout (R38). -/
def LaneWord.rm (w : LaneWord) : Nat := w.fn.toNat / 8
/-- SM of the override layout (R38). -/
def LaneWord.sm (w : LaneWord) : Nat := w.fn.toNat / 2 % 4
/-- VAR (R38, R165). -/
def LaneWord.var (w : LaneWord) : Bool := w.fn.getLsbD 0
/-- BK of a memory instruction (R165). -/
def LaneWord.bk (w : LaneWord) : Nat := w.fn.toNat / 16
/-- BK of `qld` and `qst` (R239). -/
def LaneWord.qbk (w : LaneWord) : Nat := w.fn.toNat / 4 % 4
/-- SC of a memory instruction (R165). -/
def LaneWord.sc (w : LaneWord) : Bool := w.fn.getLsbD 3
/-- ORD of a memory instruction (R165). -/
def LaneWord.ordCode (w : LaneWord) : Nat := w.fn.toNat / 2 % 4
/-- SCOPE of a memory instruction (R165). -/
def LaneWord.scopeCode (w : LaneWord) : Nat := w.c.toNat % 8
/-- HINT of `ld`, `st`, `qld` (R165, R239). -/
def LaneWord.hint (w : LaneWord) : Nat := w.c.toNat / 8 % 4
/-- OPC of `atom`, `cas`, `red` (R165). -/
def LaneWord.opc (w : LaneWord) : Nat := w.c.toNat / 32 % 16
/-- The source type of a conversion and of `qpack` (R219, R239). -/
def LaneWord.srcTy (w : LaneWord) : Option Ty := if w.c.toNat < 32 then Ty.ofCode w.c.toNat else none
/-- The registers of a direction's span, S of R234 (R239). -/
def LaneWord.qspan (w : LaneWord) : Nat := 2 ^ (w.fn.toNat / 16)

/-- The A field of a memory instruction of base kind `bk` (R167). -/
def bkShape (bk : Nat) : Fld :=
  match bk with
  | 0 => .own
  | 1 => .opnd { v := false, sp := false, ty := .b64 }
  | 2 => .opnd { s := false, sp := false, al := 2, span := 2, ty := .b64 }
  | _ => .opnd { sp := false, ty := .n32 }

/-- The elements that `cpack` converts and `cunpk` writes, by the packed type (R220). -/
def Ty.packCount : Ty → Nat
  | .e3m2 | .e2m3 => 8
  | .t2 => 16
  | .i8 | .n8 | .e4m3 | .e5m2 => 4
  | _ => 2

/-- The registers that eight FP6 elements occupy, or one for every other packed type (R220). -/
def Ty.packRegs : Ty → Nat
  | .e3m2 | .e2m3 => 2
  | _ => 1

/-- The fields each lane instruction uses (R207 to R248 for the arithmetic, R165 to R183 for memory, R318 for control). R223 says that A
of `sel` is not checked as an operand field under R34, and also that it may be of any source class: the model's choice is to read it as
a source like B, so that an odd register of a pair is ILLEGAL there and a prefix steps it (log 42). R230 names one span for its three
instructions: of `gsort` without PAY the model checks the registers that it writes, D or its pair (log 42). -/
def laneShape (op : LaneOp) (w : LaneWord) : Shape :=
  let t := w.ty
  let st := w.srcTy.getD .b32
  let n := if t.wide then 2 else 1
  match op with
  | .imad | .ibfi | .ffma => { d := .dst t, a := .src t, b := .src t, c := .src t, xi := true }
  | .iabs | .ineg | .inot | .ipop | .iclz | .ibrev | .fsqrt | .fabs | .fneg | .frnd => { d := .dst t, a := .src t }
  | .iadd | .isub | .imul | .imulh | .idiv | .irem | .imin | .imax | .iand | .ior | .ixor | .ishl | .ishr | .isra | .irot
  | .ibfx | .fadd | .fsub | .fmul | .fdiv | .fmin | .fmax => { d := .dst t, a := .src t, b := .src t, xi := true }
  | .icmp | .fcmp => { a := .src t, b := .src t, xi := true }
  | .fclass => { d := .dst .n32, a := .src t }
  | .fsc => { d := .dst t, a := .src t, b := .src .i32, xi := true }
  | .fexpGet | .fexpCvmget | .fexpXeget => { d := .dst t }
  | .fexpPut => { a := .src t }
  | .fexpCvmput | .fexpXeput => { a := .usrc t }
  | .cvt => { d := .dst t, a := .src st, c := .own }
  | .cpack => { d := .dstSpan t 1 t.packRegs, a := .vsrc st t.packCount, c := .own }
  | .cunpk => { d := .dst t st.packCount, a := .opnd { ty := st, s := false, sp := false, span := st.packRegs }, c := .own }
  | .mov => { d := .dst t, b := .src t, xi := true }
  | .sel => { d := .dst t, a := .src t, b := .src t, c := .own, xi := true }
  | .plog => { a := .own, b := .own }
  | .shfl => { d := .dst t, a := .vsrc t, b := .src .b32, xi := true }
  | .shup | .shdn | .bcast => { d := .dst t, a := .vsrc t, b := .ssrc .b32, xi := true }
  | .voteAny | .voteAll => { a := .own }
  | .voteBallot => { d := .dst t, a := .own }
  | .redg | .scang => { d := .dst t, a := .vsrc t }
  | .gsort =>
    if w.fn.getLsbD 1 then { d := .dstSpan t n (n + 1), a := .vsrc t, b := .vsrc .b32 }
    else { d := .dst t, a := .vsrc t }
  | .gtopk => { d := .dstSpan t n (n + 1), a := .vsrc t, b := .usrc .n32, xi := true }
  | .gmerge => { d := .dst t 2, a := .vsrc t, b := .vsrc t }
  | .sin | .cos | .ex2 | .lg2 | .rcp | .rsq | .tanh => { d := .dst t, a := .src t }
  | .qpack =>
    { d := .dir, a := .vsrc st (if st = .bf16 then 4 * w.qspan else 8 * w.qspan), c := .own, span := w.qspan }
  | .qunpk => { d := .dst t (8 * w.qspan), a := .dir, span := w.qspan }
  | .qdot => { d := .dst t, a := .dir, b := .dir, span := w.qspan }
  | .qsc => { d := .dir, a := .dir, b := .usrc .q, span := w.qspan }
  | .qadd | .qproj | .qrot => { d := .dir, a := .dir, b := .dir, span := w.qspan }
  | .qmov => { d := .dir, a := .dir, span := w.qspan }
  | .qnorm => { d := .dst t, a := .dir, span := w.qspan }
  | .qld => { d := .dir, a := bkShape w.qbk, c := .own, span := w.qspan, imm := true }
  | .qst => { d := .dir, a := bkShape w.qbk, span := w.qspan, imm := true }
  | .ld => { d := .dst t (if w.var then 4 else 1), a := bkShape w.bk, b := .src .i32, c := .own, imm := true }
  | .st =>
    { d := if w.var then .vsrc t 4 else .src t, a := bkShape w.bk, b := .src .i32, c := .own, imm := true }
  | .atom => { d := .dst t, a := bkShape w.bk, b := .src .i32, c := .own, imm := true }
  | .cas => { d := .dstSpan t (if t.wide then 4 else 1) (2 * n), a := bkShape w.bk, b := .src .i32, c := .own, imm := true }
  | .red => { d := .src t, a := bkShape w.bk, b := .usrc .i32, c := .own, imm := true }
  | .tki => { d := .src t, a := bkShape w.bk, b := .src .i32, c := .own, imm := true }
  | .bpush => { d := .vsrc t, a := bkShape w.bk, b := .own, c := .own, imm := true }
  | .bpop => { d := .dst t, a := bkShape w.bk, b := .own, c := .own, imm := true }
  | .lbra | .ljmp | .ljoin | .lend | .lexit | .lnop => { imm := true }
  | .lsetk =>
    if w.fn.toNat % 4 = 0 then { a := .opnd { v := false, sp := false, ty := .b64 }, imm := true }
    else if w.fn.toNat % 4 = 1 then { a := .own, imm := true }
    else { imm := true }

/-- The types each lane instruction takes (R33 and each instruction's description). -/
def laneTyOk (op : LaneOp) (t : Ty) : Bool :=
  match op with
  | .iadd | .isub | .imul | .imulh | .imad | .idiv | .irem | .imin | .imax | .ibfx | .ibfi | .icmp => t.integer
  | .iabs | .ineg => t.signed
  | .iand | .ior | .ixor | .inot | .ishl | .ishr | .isra | .irot | .ipop | .iclz | .ibrev => t.integer || t.bits
  | .fadd | .fsub | .fmul | .ffma | .fdiv | .fsqrt | .fmin | .fmax | .fabs | .fneg | .fcmp | .fclass | .frnd | .fsc => t.float
  | .fexpGet | .fexpPut | .fexpXeget | .fexpXeput => t = .b32
  | .fexpCvmget | .fexpCvmput => t = .b64
  | .cvt => t.code.toNat < 17
  | .cpack => t.code.toNat < 17 && t.esize ≤ 2
  | .cunpk => (t matches .i32 | .n32 | .f32 | .f64)
  | .mov | .sel | .shfl | .shup | .shdn | .bcast | .voteBallot => t.bits
  | .redg | .scang => t.keyTy || t.bits
  | .gsort | .gtopk | .gmerge | .red => t.keyTy
  | .sin | .cos | .ex2 | .lg2 | .rcp | .rsq | .tanh | .qdot | .qnorm => t = .f32
  | .qunpk => t = .f32 || t = .f64
  | .qpack | .qsc | .qadd | .qproj | .qrot | .qmov | .qld | .qst => t = .q
  | .ld | .st => t.code.toNat < 14 || t.bits
  | .atom => t.keyTy || t.bits
  | .cas => (t matches .i32 | .n32 | .b32 | .i64 | .n64 | .b64)
  | .tki => t = .bf16
  | .bpush | .bpop => t = .b64
  | .plog | .voteAny | .voteAll | .lbra | .ljmp | .lsetk | .ljoin | .lend | .lexit | .lnop => t = .i8

/-- ORD and SCOPE of a lane memory instruction, `acq` and `rel` saying which of the two it accepts (R166). -/
def memOrdOk (w : LaneWord) (acq rel : Bool) : Bool :=
  w.scopeCode ≤ 6 && (w.ordCode ≠ 0 || w.scopeCode = 0) &&
    (w.ordCode = 0 || (w.ordCode = 1 && acq) || (w.ordCode = 2 && rel) || (w.ordCode = 3 && acq && rel))

/-- The operations and types of `redg`, `scang` (R228). -/
def redgOk (w : LaneWord) : Bool :=
  let f := w.ty = .f32 || w.ty = .f64
  (match w.fn.toNat % 8 with
   | 0 | 4 | 5 => w.ty.keyTy
   | 1 | 2 | 3 => !f
   | _ => false) && (w.rm = 0 || (f && w.rm ≤ 5))

/-- The operations and types of `atom` (R173). -/
def atomOk (w : LaneWord) : Bool :=
  let f := w.ty = .f32 || w.ty = .f64
  match w.opc with
  | 0 | 4 | 5 => w.ty.keyTy
  | 1 | 2 | 3 => !f
  | 6 => true
  | _ => false

/-- The pairs of types that `cvt` converts between, with RM and SM (R219). -/
def cvtOk (w : LaneWord) : Bool :=
  match w.srcTy with
  | none => false
  | some s =>
    s.code.toNat < 17 && (s ≠ .t2 || w.ty ≠ .t2) && (w.ty ≠ .t2 || w.sm = 0) &&
      (!(s.integer && w.ty.integer) || w.rm = 0)

/-- The source types of `cpack` (R220), converted as `cvt` converts them. -/
def cpackOk (w : LaneWord) : Bool :=
  match w.srcTy with
  | some s => (s matches .i32 | .n32 | .f32 | .i64 | .n64 | .f64) && cvtOk w
  | none => false

/-- The pairings of `cunpk` (R221). -/
def cunpkOk (w : LaneWord) : Bool :=
  match w.srcTy with
  | some s =>
    match w.ty with
    | .f32 | .f64 => (s matches .f16 | .bf16 | .e4m3 | .e5m2 | .e3m2 | .e2m3)
    | .i32 => (s matches .i8 | .i16 | .t2)
    | .n32 => (s matches .n8 | .n16)
    | _ => false
  | none => false

/-- What each lane instruction requires of FN, of its predicate fields and of the fields it reads in its own way
(R38, R165 to R183, R203, R209 to R233, R239, R318). -/
def laneOwnOk (op : LaneOp) (w : LaneWord) : Bool :=
  let fn := w.fn.toNat
  match op with
  | .iadd | .isub | .imul | .imad | .iabs | .ineg => w.rm = 0 && w.sm ≤ 2 && !w.var
  | .ishl => w.rm = 0 && w.sm ≤ 2 && !w.var && (!w.ty.bits || w.sm ≠ 1)
  | .imulh | .idiv | .irem | .imin | .imax | .iand | .ior | .ixor | .inot | .ishr | .isra | .irot | .ibfx | .ibfi | .ipop
  | .iclz | .ibrev | .fabs | .fneg | .fclass | .mov | .shfl | .shup | .shdn | .bcast
  | .sin | .cos | .ex2 | .lg2 | .rcp | .rsq | .tanh => fn = 0
  | .icmp => fn % 8 ≤ 5
  | .fcmp => true
  | .fadd | .fsub | .fmul | .ffma | .fdiv | .fsqrt | .fsc => w.rm ≤ 5 && w.sm ≤ 2 && !w.var
  | .frnd => w.rm ≤ 5 && w.sm = 0
  | .fmin | .fmax => fn ≤ 1
  | .fexpGet => fn = 0
  | .fexpPut => fn = 1
  | .fexpCvmget => fn = 2
  | .fexpCvmput => fn = 3
  | .fexpXeget => fn = 4
  | .fexpXeput => fn = 5
  | .cvt => w.rm ≤ 5 && w.sm ≤ 2 && !w.var && cvtOk w
  | .cpack => w.rm ≤ 5 && w.sm ≤ 2 && !w.var && cpackOk w
  | .cunpk => fn = 0 && cunpkOk w
  | .sel => fn = 0 && w.c.toNat < 16
  | .plog => w.a.toNat < 16 && w.b.toNat < 16
  | .voteAny => fn % 8 = 0 && w.a.toNat < 16
  | .voteAll => fn % 8 = 1 && w.a.toNat < 16
  | .voteBallot => fn = 2 && w.a.toNat < 16
  | .redg | .scang => redgOk w
  | .gsort => fn ≤ 3
  | .gtopk | .gmerge => fn ≤ 1
  | .qpack => fn % 16 = 0 && fn / 16 ≤ 2 && (w.srcTy = some .bf16 || w.srcTy = some .f32 || w.srcTy = some .f64)
  | .qunpk | .qnorm => fn / 16 ≤ 2 && fn / 2 % 8 ≤ 5
  | .qdot => fn / 16 ≤ 2 && fn / 2 % 8 ≤ 5 && !w.var
  | .qsc | .qadd | .qproj => fn / 16 ≤ 2 && fn / 2 % 8 = 0
  | .qrot | .qmov => fn / 16 ≤ 2 && fn % 16 = 0
  | .qld => fn / 16 ≤ 2 && fn % 4 = 0 && w.qbk ≤ 1 && w.c.toNat / 32 = 0 && w.c.toNat % 8 = 0 && (w.qbk ≠ 0 || w.a.toNat < 8)
  | .qst => fn / 16 ≤ 2 && fn % 4 = 0 && w.qbk ≤ 1 && (w.qbk ≠ 0 || w.a.toNat < 8)
  | .ld => memOrdOk w true false && w.c.toNat / 32 = 0 && (!w.var || w.ty.esize ≥ 4) && (w.bk ≠ 0 || w.a.toNat < 8)
  | .st =>
    memOrdOk w false true && w.c.toNat / 32 = 0 && w.hint ≤ 1 && (!w.var || w.ty.esize ≥ 4) && (w.bk ≠ 0 || w.a.toNat < 8)
  | .atom => memOrdOk w true true && w.c.toNat / 512 = 0 && w.hint = 0 && atomOk w && (w.bk ≠ 0 || w.a.toNat < 8)
  | .cas =>
    memOrdOk w true true && !w.var && w.c.toNat / 512 = 0 && w.hint = 0 && w.opc = 0 && (w.bk ≠ 0 || w.a.toNat < 8)
  | .red =>
    memOrdOk w false true && !w.var && !w.sc && w.bk ≤ 1 && w.c.toNat / 512 = 0 && w.hint = 0 &&
      (w.opc = 0 || w.opc = 4 || w.opc = 5) && (w.bk ≠ 0 || w.a.toNat < 8)
  | .tki => memOrdOk w false true && w.hint = 0 && (w.var || w.c.toNat / 128 = 0) && (w.bk ≠ 0 || w.a.toNat < 8)
  | .bpush =>
    memOrdOk w false true && !w.var && !w.sc && w.bk ≤ 1 && w.c.toNat / 256 = 0 && w.hint = 0 && w.b.toNat = 0x300 &&
      (w.bk ≠ 0 || w.a.toNat < 8)
  | .bpop =>
    memOrdOk w true false && !w.var && !w.sc && w.bk ≤ 1 && w.c.toNat / 256 = 0 && w.hint = 0 && w.b.toNat = 0x300 &&
      (w.bk ≠ 0 || w.a.toNat < 8)
  | .lbra => fn = 0 && w.imm.toNat < 2 ^ 20
  | .ljmp => fn = 0 && w.pred = 0 && !w.neg && w.imm.toNat < 2 ^ 20
  | .lsetk => fn / 4 % 2 = 0 && fn % 4 ≤ 2 && (fn % 4 ≠ 1 || w.a.toNat < 16) && (fn % 4 = 2 || w.imm = 0)
  | .ljoin => fn / 8 = 0 && w.pred = 0 && !w.neg && w.imm = 0
  | .lend | .lexit => fn = 0 && w.imm = 0
  | .lnop => fn = 0 && w.pred = 0 && !w.neg && w.imm = 0

/-- The special operand codes (R36), for an operand of type `t`. -/
def specialOk (code : Nat) (t : Ty) (lane : Bool) : Bool :=
  code = 0 || code = 1 || (code = 2 && !(t matches .b32 | .b64 | .q)) || (code = 0x10 && lane) ||
    code = 0x11 || code = 0x12 || code = 0x13

/-- Whether a 10-bit field is an operand of the kind the instruction asks for, as far as the word alone tells (R34, R36). -/
def opndOk (o : Opnd) (x : BitVec 10) : Bool :=
  let low := x.toNat % 256
  match x.toNat / 256 with
  | 0 => o.v && low % o.al = 0
  | 1 => o.v
  | 2 => o.s && low < 64
  | _ => o.sp && specialOk low o.ty o.lane

/-- Whether a field holds what its use allows (R34, R239). -/
def fldOk (f : Fld) (span : Nat) (x : BitVec 10) : Bool :=
  match f with
  | .zero => x = 0
  | .own => true
  | .opnd o => opndOk o x
  | .dir => x.toNat < 16 && x.toNat % span = 0

/-- The B field and the immediate (R37). -/
def bOk (s : Shape) (w : LaneWord) : Bool :=
  if w.xi then s.xi && !s.imm && w.b = 0 else fldOk s.b s.span w.b && (s.imm || w.imm = 0)

/-- Whether a lane word is an instruction, as far as the word alone tells (R47). -/
def laneLegal (op : LaneOp) (w : LaneWord) : Bool :=
  let s := laneShape op w
  !(w.neg && w.pred = 0) && laneTyOk op w.ty && laneOwnOk op w &&
    fldOk s.d s.span w.d && fldOk s.a s.span w.a && fldOk s.c s.span w.c && bOk s w

/-- The lane control instructions (0x80 to 0x86). -/
def LaneOp.control : LaneOp → Bool
  | .lbra | .ljmp | .lsetk | .ljoin | .lend | .lexit | .lnop => true
  | _ => false

/-- The control instructions that stand only in a clause's last slot (R41). -/
def LaneOp.lastOnly : LaneOp → Bool
  | .lbra | .ljmp | .lend | .lexit => true
  | _ => false

/-- The long-latency lane instructions (R43). -/
def LaneOp.long : LaneOp → Bool
  | .ld | .st | .atom | .cas | .red | .tki | .bpush | .bpop | .qld | .qst | .idiv | .irem | .fdiv | .fsqrt
  | .sin | .cos | .ex2 | .lg2 | .rcp | .rsq | .tanh | .gsort | .gtopk | .gmerge => true
  | _ => false

/-- Whether a step may stand on a field in use `f` that holds `x` (R44, R239). -/
def stepOk (f : Fld) (span cnt : Nat) (x : BitVec 10) (step : Nat) : Bool :=
  step = 0 ||
    match f with
    | .opnd o => x.toNat < 512 && step % (min o.al 2) = 0 && (cnt = 0 || step % o.al = 0)
    | .dir => step % span = 0
    | _ => false

/-- Whether a repeat prefix may govern the instruction (R44). -/
def prefixLegal (p : Prefix) (op : LaneOp) (w : LaneWord) : Bool :=
  let s := laneShape op w
  let n := p.cnt.toNat
  !op.control && stepOk s.d s.span n w.d p.sd.toNat && stepOk s.a s.span n w.a p.sa.toNat &&
    stepOk (if w.xi then .zero else s.b) s.span n w.b p.sb.toNat && stepOk s.c s.span n w.c p.sc.toNat

/-- Whether a clause header is one (R40). -/
def headerLegal (h : ClauseHeader) : Bool :=
  (if h.s0v then h.s0f.toNat ≤ 11 else h.s0f = 0) && (if h.s1v then h.s1f.toNat ≤ 11 else h.s1f = 0) &&
    !(h.s0v && h.s1v && h.s0f = h.s1f)

/-- ORD and SCOPE of a scalar atomic (R162). -/
def satomOrdOk (o : Ord) (sc : Scope) (acq rel : Bool) : Bool :=
  match o with
  | .plain => sc = .grp
  | .acq => acq
  | .rel => rel
  | .ar => acq && rel

/-- What a scalar word must meet beside the ranges of its fields (R162, R184, R186 and the register pairs of `mth` and `wword`; R314, R281). -/
def scalarLegal : Instr → Bool
  | .satomLd _ _ o sc _ => satomOrdOk o sc true false
  | .satomSt _ _ o sc _ => satomOrdOk o sc false true
  | .satomSwap _ _ _ o sc _ | .satomAdd _ _ _ o sc _ | .scas _ _ _ o sc _ => satomOrdOk o sc true true
  | .cwait m => m ≠ 0
  | .mdrain _ _ _ t bat _ => bat || t = 0
  | .wword _ _ b => b.toNat < 63
  | .mth _ a => a.toNat < 63
  | .pcopy p _ _ var => p.toNat + (if var then 2 else 1) ≤ 63
  | .pgather p _ _ var | .pscatter p _ _ var => p.toNat + (if var then 3 else 2) ≤ 63
  | .pfill p _ _ | .ppush p _ _ => p.toNat + 1 ≤ 63
  | .plodge p _ _ => p.toNat + 2 ≤ 63
  | .pcancel _ a all => !all || a = 0
  | _ => true

end Sys2Proof
end

