-- ==== Sys2Proof/Machine/Num.lean ====
section
/-! DEFINITION. The number formats, rounding, saturation and flags of the chapter on numbers (R187 to R196), on exact
integers: a finite value is a sign, an integer and a power of two. -/
namespace Sys2Proof.Machine

/-- A floating format (R187): fraction bits, exponent bits, bias, whether it has infinities, the largest finite code and
the default NaN code (R189; 0 where the format has none), signs apart. -/
structure Fmt where
  mb : Nat
  eb : Nat
  bias : Nat
  inf : Bool
  maxCode : Nat
  nan : Nat
deriving DecidableEq, Repr

/-- The format of a floating type (R187); every other type has f32's, which no rule reads. -/
def fmt : Ty → Fmt
  | .f16 => ⟨10, 5, 15, true, 0x7BFF, 0x7E00⟩
  | .bf16 => ⟨7, 8, 127, true, 0x7F7F, 0x7FC0⟩
  | .f64 => ⟨52, 11, 1023, true, 0x7FEFFFFFFFFFFFFF, 0x7FF8000000000000⟩
  | .e4m3 => ⟨3, 4, 7, false, 0x7E, 0x7F⟩
  | .e5m2 => ⟨2, 5, 15, true, 0x7B, 0x7E⟩
  | .e3m2 => ⟨2, 3, 3, false, 0x1F, 0⟩
  | .e2m3 => ⟨3, 2, 1, false, 0x1F, 0⟩
  | _ => ⟨23, 8, 127, true, 0x7F7FFFFF, 0x7FC00000⟩

/-- The value of a code: a NaN with its sign, whether it is quiet, and its fraction; an infinity; or (-1)^s × m × 2^e. -/
inductive FVal
  | nan (s quiet : Bool) (frac : Nat)
  | inf (s : Bool)
  | fin (s : Bool) (m : Nat) (e : Int)
deriving DecidableEq, Repr

/-- The bit of the sign. -/
def signBit (t : Ty) : Nat := 2 ^ ((fmt t).eb + (fmt t).mb)

/-- A code with a sign. -/
def withSign (t : Ty) (s : Bool) (code : Nat) : Nat := if s then signBit t + code else code

/-- The value of a code (R187, R189). -/
def unpack (t : Ty) (bits : Nat) : FVal :=
  let f := fmt t
  let s := bits / signBit t % 2 = 1
  let e := bits / 2 ^ f.mb % 2 ^ f.eb
  let m := bits % 2 ^ f.mb
  if f.inf && e = 2 ^ f.eb - 1 then
    if m = 0 then .inf s else .nan s (t = .e5m2 || m / 2 ^ (f.mb - 1) % 2 = 1) m
  else if t = .e4m3 && bits % 128 = 127 then .nan s true m
  else if e = 0 then .fin s m (1 - (f.bias : Int) - f.mb)
  else .fin s (m + 2 ^ f.mb) ((e : Int) - f.bias - f.mb)

/-- Whether a value is a NaN. -/
def FVal.isNan : FVal → Bool
  | .nan .. => true
  | _ => false

/-- Whether a value is a signalling NaN (R189). -/
def FVal.isSnan : FVal → Bool
  | .nan _ q _ => !q
  | _ => false

/-- Whether a value is a zero of either sign. -/
def FVal.isZero : FVal → Bool
  | .fin _ m _ => m = 0
  | _ => false

/-- Whether a value is an infinity. -/
def FVal.isInf : FVal → Bool
  | .inf _ => true
  | _ => false

/-- The sign of a value. -/
def FVal.sign : FVal → Bool
  | .nan s _ _ => s
  | .inf s => s
  | .fin s _ _ => s

/-- A value with the opposite sign. -/
def FVal.neg : FVal → FVal
  | .nan s q m => .nan (!s) q m
  | .inf s => .inf (!s)
  | .fin s m e => .fin (!s) m e

/-- Whether a discarded remainder rounds the magnitude up (R193): `rem` of `2 ^ k`, `odd` the parity of what is kept, `s`
the sign. -/
def roundUp (rm : Nat) (s odd : Bool) (rem k : Nat) : Bool :=
  match rm with
  | 1 => 2 * rem > 2 ^ k || (2 * rem = 2 ^ k && odd)
  | 3 => rem ≠ 0 && !s
  | 4 => rem ≠ 0 && s
  | 5 => 2 * rem ≥ 2 ^ k
  | _ => false

/-- `m × 2^e` as a multiple of `2^q`, rounded in mode `rm`, and whether that was inexact (R193). -/
def roundAt (rm : Nat) (s : Bool) (m : Nat) (e q : Int) : Nat × Bool :=
  if e ≥ q then (m * 2 ^ (e - q).toNat, false)
  else
    let k := (q - e).toNat
    let r := m / 2 ^ k
    let rem := m % 2 ^ k
    (if roundUp rm s (r % 2 = 1) rem k then r + 1 else r, rem ≠ 0)

/-- Whether an overflow gives an infinity under IEEE behaviour (R194). -/
def overflowInf (rm : Nat) (s : Bool) : Bool := rm = 1 || rm = 5 || (rm = 3 && !s) || (rm = 4 && s)

/-- The code of infinity in a format that has one. -/
def infCode (t : Ty) : Nat := (2 ^ (fmt t).eb - 1) * 2 ^ (fmt t).mb

/-- What a result beyond the largest finite value is stored as (R194). -/
def overflowCode (t : Ty) (rm : Nat) (sat s : Bool) : Nat :=
  if sat || t = .e3m2 || t = .e2m3 || !overflowInf rm s then withSign t s (fmt t).maxCode
  else if (fmt t).inf then withSign t s (infCode t)
  else withSign t s (fmt t).nan

/-- The exact value `(-1)^s × m × 2^e` rounded once to the format of `t` (R193 to R195). -/
def roundExact (t : Ty) (rm : Nat) (sat : Bool) (s : Bool) (m : Nat) (e : Int) : Nat × Flags :=
  if m = 0 then (withSign t s 0, 0#6)
  else
    let f := fmt t
    let q1 := e + Nat.log2 m - f.mb
    let qmin := 1 - (f.bias : Int) - f.mb
    let q := max q1 qmin
    let (r, inexact) := roundAt rm s m e q
    let code := ((q + f.mb + f.bias) * 2 ^ f.mb + r - 2 ^ f.mb).toNat
    if code > f.maxCode then (overflowCode t rm sat s, Flags.overflow)
    else
      let tiny := q1 < qmin && (roundAt rm s m e q1).1 < 2 ^ (qmin + f.mb - q1).toNat
      (withSign t s code, Flags.rounded inexact tiny)

/-- The same where the value lies strictly between `m × 2^e` and `(m + 1) × 2^e` when `sticky` holds. -/
def roundSticky (t : Ty) (rm : Nat) (sat : Bool) (s : Bool) (m : Nat) (e : Int) (sticky : Bool) : Nat × Flags :=
  roundExact t rm sat s (4 * m + if sticky then 1 else 0) (e - 2)

/-- The quieted NaN of a code (R189). -/
def quieted (t : Ty) (bits : Nat) : Nat := if bits / 2 ^ ((fmt t).mb - 1) % 2 = 1 then bits else bits + 2 ^ ((fmt t).mb - 1)

/-- The NaN result of an operation with NaN operands of its own format, the first one quieted, with NV for a signalling
one (R189); none without a NaN operand. -/
def nanOf (t : Ty) (ops : List Nat) : Option (Nat × Flags) :=
  match ops.find? fun x => (unpack t x).isNan with
  | some x => some (quieted t x, Flags.when (ops.any fun y => (unpack t y).isSnan) Flags.nv)
  | none => none

/-- The default NaN with NV, the result of an invalid operation without a NaN operand (R189). -/
def invalid (t : Ty) : Nat × Flags := ((fmt t).nan, Flags.nv)

/-- The sum of two finite values, exactly: sign, magnitude, exponent; an exact zero of opposite signs is -0 in mode 4 alone (R193). -/
def sumFin (rm : Nat) (s1 : Bool) (m1 : Nat) (e1 : Int) (s2 : Bool) (m2 : Nat) (e2 : Int) : Bool × Nat × Int :=
  let e := min e1 e2
  let x := m1 * 2 ^ (e1 - e).toNat
  let y := m2 * 2 ^ (e2 - e).toNat
  if s1 = s2 then (s1, x + y, e)
  else if x = y then (rm = 4, 0, e)
  else if x > y then (s1, x - y, e) else (s2, y - x, e)

/-- The sum of two values that are no NaN, rounded (R214). -/
def addVal (t : Ty) (rm : Nat) (sat : Bool) (x y : FVal) : Nat × Flags :=
  match x, y with
  | .inf s1, .inf s2 => if s1 = s2 then (withSign t s1 (infCode t), 0#6) else invalid t
  | .inf s, _ => (withSign t s (infCode t), 0#6)
  | _, .inf s => (withSign t s (infCode t), 0#6)
  | .fin s1 m1 e1, .fin s2 m2 e2 =>
    let r := sumFin rm s1 m1 e1 s2 m2 e2
    roundExact t rm sat r.1 r.2.1 r.2.2
  | _, _ => invalid t

/-- `fadd` (R214). -/
def fAdd (t : Ty) (rm : Nat) (sat : Bool) (a b : Nat) : Nat × Flags :=
  (nanOf t [a, b]).getD (addVal t rm sat (unpack t a) (unpack t b))

/-- `fsub` (R214). -/
def fSub (t : Ty) (rm : Nat) (sat : Bool) (a b : Nat) : Nat × Flags :=
  (nanOf t [a, b]).getD (addVal t rm sat (unpack t a) (unpack t b).neg)

/-- The exact product of two values that are no NaN; none for zero times infinity. -/
def mulVal (x y : FVal) : Option FVal :=
  match x, y with
  | .inf s1, .inf s2 => some (.inf (s1 != s2))
  | .inf s1, .fin s2 m _ => if m = 0 then none else some (.inf (s1 != s2))
  | .fin s1 m _, .inf s2 => if m = 0 then none else some (.inf (s1 != s2))
  | .fin s1 m1 e1, .fin s2 m2 e2 => some (.fin (s1 != s2) (m1 * m2) (e1 + e2))
  | _, _ => none

/-- A value rounded to a format that has infinities (R193 to R195). -/
def roundVal (t : Ty) (rm : Nat) (sat : Bool) : FVal → Nat × Flags
  | .nan .. => invalid t
  | .inf s => (withSign t s (infCode t), 0#6)
  | .fin s m e => roundExact t rm sat s m e

/-- `fmul` (R214). -/
def fMul (t : Ty) (rm : Nat) (sat : Bool) (a b : Nat) : Nat × Flags :=
  (nanOf t [a, b]).getD <|
    match mulVal (unpack t a) (unpack t b) with
    | some v => roundVal t rm sat v
    | none => invalid t

/-- `ffma` (R214): the product is exact, and NV is set for zero times infinity even where a quiet NaN C is the result. -/
def fFma (t : Ty) (rm : Nat) (sat : Bool) (a b c : Nat) : Nat × Flags :=
  let x := unpack t a
  let y := unpack t b
  match nanOf t [a, b, c] with
  | some (r, f) =>
    if x.isNan || y.isNan then (r, f)
    else (r, f ||| Flags.when (mulVal x y = none) Flags.nv)
  | none =>
    match mulVal x y with
    | none => invalid t
    | some p => addVal t rm sat p (unpack t c)

/-- A quotient of integers with at least 80 significant bits, its exponent, and whether a remainder is left. -/
def divBits (m1 : Nat) (e1 : Int) (m2 : Nat) (e2 : Int) : Nat × Int × Bool :=
  let k := 80 + Nat.log2 m2
  let n := m1 * 2 ^ k
  (n / m2, e1 - e2 - k, n % m2 ≠ 0)

/-- `fdiv` (R214). -/
def fDiv (t : Ty) (rm : Nat) (sat : Bool) (a b : Nat) : Nat × Flags :=
  (nanOf t [a, b]).getD <|
    match unpack t a, unpack t b with
    | .inf _, .inf _ => invalid t
    | .inf s1, .fin s2 _ _ => (withSign t (s1 != s2) (infCode t), 0#6)
    | .fin s1 _ _, .inf s2 => (withSign t (s1 != s2) 0, 0#6)
    | .fin s1 m1 e1, .fin s2 m2 e2 =>
      if m2 = 0 then
        if m1 = 0 then invalid t else (withSign t (s1 != s2) (infCode t), Flags.dz)
      else if m1 = 0 then (withSign t (s1 != s2) 0, 0#6)
      else
        let d := divBits m1 e1 m2 e2
        roundSticky t rm sat (s1 != s2) d.1 d.2.1 d.2.2
    | _, _ => invalid t

/-- The integer square root of `n`, one bit a step from bit `k - 1` down. -/
def isqrtGo (n : Nat) : Nat → Nat → Nat
  | 0, r => r
  | k + 1, r => let c := r + 2 ^ k; isqrtGo n k (if c * c ≤ n then c else r)

/-- The integer square root. -/
def isqrt (n : Nat) : Nat := isqrtGo n (Nat.log2 n / 2 + 1) 0

/-- `fsqrt` (R214). -/
def fSqrt (t : Ty) (rm : Nat) (sat : Bool) (a : Nat) : Nat × Flags :=
  (nanOf t [a]).getD <|
    match unpack t a with
    | .inf s => if s then invalid t else (a, 0#6)
    | .fin s m e =>
      if m = 0 then (a, 0#6)
      else if s then invalid t
      else
        let odd := e % 2 = 1
        let n := m * 2 ^ (if odd then 141 else 140)
        let r := isqrt n
        roundSticky t rm sat false r ((e - (if odd then 141 else 140)) / 2) (r * r ≠ n)
    | _ => invalid t

/-- A value that is no NaN as an integer multiple of `2^e0`, an infinity as a multiple beyond every finite one. -/
def FVal.scaled (e0 : Int) : FVal → Int
  | .nan .. => 0
  | .inf s => if s then -(2 ^ 5000) else 2 ^ 5000
  | .fin s m e => if s then -((m * 2 ^ (e - e0).toNat : Nat) : Int) else ((m * 2 ^ (e - e0).toNat : Nat) : Int)

/-- Numeric order of two values that are no NaN: less, equal or greater, the two zeros equal (R187). -/
def FVal.cmp (x y : FVal) : Ordering :=
  compare (x.scaled (-1200)) (y.scaled (-1200))

/-- Whether `x` is below `y` in the order of minimum and maximum, where -0 ranks below +0 (R215). -/
def FVal.below (x y : FVal) : Bool :=
  match x.cmp y with
  | .lt => true
  | .eq => x.sign && !y.sign
  | .gt => false

/-- `fmin` and `fmax`; `num` selects minimumNumber and maximumNumber (R215). -/
def fMinMax (t : Ty) (max num : Bool) (a b : Nat) : Nat × Flags :=
  let x := unpack t a
  let y := unpack t b
  let nv := Flags.when (x.isSnan || y.isSnan) Flags.nv
  if num && x.isNan && !y.isNan then (b, nv)
  else if num && y.isNan && !x.isNan then (a, nv)
  else
    match nanOf t [a, b] with
    | some r => r
    | none => (if max then (if x.below y then b else a) else (if y.below x then b else a), 0#6)

/-- `fcmp` (R216): the condition `c` of FN[2:0] and NV. -/
def fCmp (t : Ty) (c : Nat) (a b : Nat) : Bool × Flags :=
  let x := unpack t a
  let y := unpack t b
  let un := x.isNan || y.isNan
  let o := x.cmp y
  let snan := x.isSnan || y.isSnan
  match c with
  | 0 => (!un && o = .eq, Flags.when snan Flags.nv)
  | 1 => (un || o ≠ .eq, Flags.when snan Flags.nv)
  | 2 => (!un && o = .lt, Flags.when un Flags.nv)
  | 3 => (!un && o ≠ .gt, Flags.when un Flags.nv)
  | 4 => (!un && o = .gt, Flags.when un Flags.nv)
  | 5 => (!un && o ≠ .lt, Flags.when un Flags.nv)
  | 6 => (un, Flags.when snan Flags.nv)
  | _ => (!un, Flags.when snan Flags.nv)

/-- The class bit of a code (R217). -/
def fClass (t : Ty) (a : Nat) : Nat :=
  match unpack t a with
  | .nan _ q _ => if q then 2 else 1
  | .inf s => if s then 4 else 512
  | .fin s m _ =>
    if m = 0 then (if s then 32 else 64)
    else if m < 2 ^ (fmt t).mb then (if s then 16 else 128)
    else (if s then 8 else 256)

/-- `frnd` (R218): `x` says that a changed value sets NX. -/
def fRnd (t : Ty) (rm : Nat) (x : Bool) (a : Nat) : Nat × Flags :=
  (nanOf t [a]).getD <|
    match unpack t a with
    | .fin s m e =>
      if e ≥ 0 then (a, 0#6)
      else
        let r := roundAt rm s m e 0
        ((roundExact t rm false s r.1 0).1, Flags.when (x && r.2) Flags.nx)
    | _ => (a, 0#6)

/-- `fsc` (R218): scaling by a power of two. -/
def fSc (t : Ty) (rm : Nat) (sat : Bool) (a : Nat) (n : Int) : Nat × Flags :=
  (nanOf t [a]).getD <|
    match unpack t a with
    | .fin s m e => roundExact t rm sat s m (e + n)
    | _ => (a, 0#6)

/-- The width in bits of an element of a type. -/
def tyBits : Ty → Nat
  | .i8 | .n8 | .e4m3 | .e5m2 => 8
  | .e3m2 | .e2m3 => 6
  | .t2 => 2
  | .i16 | .n16 | .f16 | .bf16 => 16
  | .i64 | .n64 | .f64 | .b64 => 64
  | _ => 32

/-- The integer that the low bits of a pattern stand for under an integer type (R190). -/
def toInt (t : Ty) (x : Nat) : Int :=
  let n := tyBits t
  let y := x % 2 ^ n
  if t.signed && 2 ^ (n - 1) ≤ y then (y : Int) - 2 ^ n else y

/-- The smallest integer of a type. -/
def intMin (t : Ty) : Int := if t.signed then -(2 ^ (tyBits t - 1)) else 0
/-- The largest integer of a type. -/
def intMax (t : Ty) : Int := if t.signed then 2 ^ (tyBits t - 1) - 1 else 2 ^ tyBits t - 1

/-- The bits of an integer modulo `2^N`. -/
def wrapInt (t : Ty) (r : Int) : Nat := (r % 2 ^ tyBits t).toNat

/-- An exact integer result stored by clamp or by wrap (R196, R211). -/
def storeInt (t : Ty) (clamp : Bool) (r : Int) : Nat :=
  wrapInt t (if clamp then max (intMin t) (min (intMax t) r) else r)

/-- An exact integer with its sign rounded to a floating format (R219). -/
def intToFloat (t : Ty) (rm : Nat) (sat : Bool) (x : Int) : Nat × Flags :=
  roundExact t rm sat (x < 0) x.natAbs 0

/-- A floating value converted to an integer type (R196). -/
def floatToInt (t : Ty) (rm : Nat) (clamp : Bool) (v : FVal) : Nat × Flags :=
  match v with
  | .nan .. => (0, Flags.nv)
  | .inf s => (if clamp then wrapInt t (if s then intMin t else intMax t) else 0, Flags.nv)
  | .fin s m e =>
    let r := roundAt rm s m e 0
    let i : Int := if s then -(r.1 : Int) else r.1
    if intMin t ≤ i && i ≤ intMax t then (wrapInt t i, Flags.when r.2 Flags.nx)
    else (storeInt t clamp i, Flags.nv)

/-- A floating value of format `src` converted to format `t` (R189, R194, R219). -/
def floatToFloat (src t : Ty) (rm : Nat) (sat : Bool) (v : FVal) : Nat × Flags :=
  match v with
  | .nan s q frac =>
    let f := Flags.when (!q) Flags.nv
    if t = .e3m2 || t = .e2m3 then (0, Flags.nv)
    else if t = .e4m3 || t = .e5m2 || src = .e4m3 || src = .e5m2 then (withSign t s (fmt t).nan, f)
    else
      let ms := (fmt src).mb
      let mt := (fmt t).mb
      let kept := if mt ≥ ms then frac * 2 ^ (mt - ms) else frac / 2 ^ (ms - mt)
      (withSign t s (infCode t + (2 ^ (mt - 1) + kept % 2 ^ (mt - 1))), f)
  | .inf s =>
    if (fmt t).inf then (withSign t s (infCode t), 0#6)
    else if t = .e4m3 && !sat then (withSign t s (fmt t).nan, Flags.nv)
    else (withSign t s (fmt t).maxCode, Flags.nv)
  | .fin s m e => roundExact t rm sat s m e

/-- The ternary element of a code, and NV for the reserved one (R190). -/
def ternary (x : Nat) : Int × Flags :=
  match x % 4 with
  | 1 => (1, 0#6)
  | 2 => (0, Flags.nv)
  | 3 => (-1, 0#6)
  | _ => (0, 0#6)

/-- The code of the sign of an integer (R219, any → t2). -/
def ternaryCode (x : Int) : Nat := if x = 0 then 0 else if x > 0 then 1 else 3

/-- A value converted to t2 (R219), in mode 1 when RM is 0. -/
def toTernary (rm : Nat) (v : FVal) : Nat × Flags :=
  match v with
  | .nan .. => (0, Flags.nv)
  | .inf s => (if s then 3 else 1, Flags.nv)
  | .fin s m e =>
    let r := roundAt (if rm = 0 then 1 else rm) s m e 0
    (ternaryCode (if s then -(r.1 : Int) else r.1), Flags.when (r.2 || r.1 > 1) Flags.nx)

/-- `cvt` of one element of type `src` to type `t` (R219). `rm` is the mode that applies, `rmField` the RM field itself. -/
def convert (src t : Ty) (rm rmField : Nat) (sat : Bool) (x : Nat) : Nat × Flags :=
  if src = .t2 then
    let v := ternary x
    if t.integer then (storeInt t sat v.1, v.2)
    else let r := intToFloat t rm sat v.1; (r.1, v.2 ||| r.2)
  else if src.integer then
    let v := toInt src x
    if t = .t2 then toTernary rmField (.fin (v < 0) v.natAbs 0)
    else if t.integer then (storeInt t sat v, 0#6)
    else intToFloat t rm sat v
  else
    let v := unpack src (x % 2 ^ tyBits src)
    if t = .t2 then toTernary rmField v
    else if t.integer then floatToInt t rm sat v
    else floatToFloat src t rm sat v

/-- 1.0 in a type; 1 for integers and t2; in both halves for f16 and bf16 (R36, R207). -/
def typedOne : Ty → Nat
  | .f16 => 0x3C003C00
  | .bf16 => 0x3F803F80
  | .f32 => 0x3F800000
  | .f64 => 0x3FF0000000000000
  | .e4m3 => 0x38
  | .e5m2 => 0x3C
  | .e3m2 => 0x0C
  | .e2m3 => 0x08
  | _ => 1

/-- The position in CVM of the field of a destination type (R197). -/
def cvmPos : Ty → Nat
  | .f64 => 0
  | .f16 => 8
  | .bf16 => 12
  | .e4m3 => 16
  | .e5m2 => 20
  | .e3m2 => 24
  | .e2m3 => 28
  | .i8 | .n8 => 32
  | .i16 | .n16 => 36
  | .i32 | .n32 | .b32 => 40
  | .i64 | .n64 | .b64 => 44
  | _ => 4

/-- The rounding mode that applies: RM, or RND of CVM's field (R38, R197). -/
def modeOf (cvm : Word64) (t : Ty) (rm : Nat) : Nat := if rm = 0 then cvm.toNat / 2 ^ cvmPos t % 8 else rm

/-- The saturation that applies: SM, or SAT of CVM's field (R38, R197). -/
def satOf (cvm : Word64) (t : Ty) (sm : Nat) : Bool :=
  if sm = 0 then cvm.toNat / 2 ^ (cvmPos t + 3) % 2 = 1 else sm = 1

/-- What a write leaves in CVM: a field with a mode code that is none keeps its old value, and bits 63:48 are zero (R197). -/
def cvmWrite (old new : Word64) : Word64 :=
  let nib := fun i =>
    let x := new.toNat / 2 ^ (4 * i) % 16
    if x % 8 = 0 || x % 8 ≥ 6 then old.toNat / 2 ^ (4 * i) % 16 else x
  BitVec.ofNat 64 ((List.range 12).foldl (fun acc i => acc + nib i * 2 ^ (4 * i)) 0)

/-- `PairTree` of R177: neighbours combined pairwise until one is left; the fuel is the number of levels. -/
def pairLevel {α : Type} (op : α → α → α) : List α → List α
  | x :: y :: r => op x y :: pairLevel op r
  | l => l

/-- The root of the pairwise tree over a list whose length is a power of two at most `2 ^ levels`. -/
def pairTree {α : Type} (op : α → α → α) : Nat → List α → List α
  | 0, l => l
  | n + 1, l => pairTree op n (pairLevel op l)

end Sys2Proof.Machine
end

