-- ==== Sys2Proof/Machine/Tile.lean ====
section
/-! DEFINITION. Tiles in scratch and what the Hall makes of them: handles and format blocks (R257, R258), where elements, scales,
bitmaps and CSR arrays lie (R191, R258, R262, R263), and the sums of R206. All addresses are window offsets. -/
namespace Sys2Proof.Machine

/-! Handles and format blocks -/

/-- Bits of a handle. -/
def Handle.field (h : Handle) (lo n : Nat) : Nat := h.bits.toNat / 2 ^ lo % 2 ^ n
/-- BASE (R257). -/
def Handle.base (h : Handle) : Nat := h.field 0 22
/-- BSTRIDE. -/
def Handle.bstride (h : Handle) : Nat := h.field 22 22
/-- ROWS + 1. -/
def Handle.rows (h : Handle) : Nat := h.field 44 12 + 1
/-- VROWS. -/
def Handle.vrows (h : Handle) : Nat := h.field 56 12
/-- COLS + 1. -/
def Handle.cols (h : Handle) : Nat := h.field 68 12 + 1
/-- PITCH. -/
def Handle.pitch (h : Handle) : Nat := h.field 80 16
/-- FMTB. -/
def Handle.fmtb (h : Handle) : Nat := h.field 96 22

/-- Bits of a format block (R258). -/
def fmtBits (f : BitVec 128) (lo n : Nat) : Nat := f.toNat / 2 ^ lo % 2 ^ n
/-- EFMT; `q` stands for a code that is no type. -/
def efmt (f : BitVec 128) : Ty := (Ty.ofCode (fmtBits f 0 5)).getD .q
/-- SFMT. -/
def sfmt (f : BitVec 128) : Nat := fmtBits f 8 4
/-- The elements of a block along K that BLK gives. -/
def blkLen (f : BitVec 128) : Nat := 16 * 2 ^ fmtBits f 12 2
/-- SCE. -/
def sce (f : BitVec 128) : Bool := fmtBits f 14 1 = 1
/-- BME. -/
def bme (f : BitVec 128) : Bool := fmtBits f 15 1 = 1
/-- SCALE. -/
def scaleAt (f : BitVec 128) : Nat := fmtBits f 84 22
/-- BMAP. -/
def bmapAt (f : BitVec 128) : Nat := fmtBits f 106 22
/-- Whether a reserved bit is set. -/
def fmtReserved (f : BitVec 128) : Bool := fmtBits f 5 3 ≠ 0 || fmtBits f 16 68 ≠ 0

/-- Whether a type is one of the FP6 formats, held in two planes (R191). -/
def fp6 (t : Ty) : Bool := t = .e3m2 || t = .e2m3

/-- Whether a type is one of the 8-bit formats of R255. -/
def eight (t : Ty) : Bool := t = .e4m3 || t = .e5m2 || fp6 t

/-- K maximum and N maximum of a pair of formats; none for a pair that R255 does not list. -/
def pairLimits (a b : Ty) : Option (Nat × Nat) :=
  if a = b && (a = .bf16 || a = .f16) then some (256, 256)
  else if eight a && eight b || (a = .i8 && b = .i8) then some (512, 256)
  else if a = .i8 && b = .t2 then some (2048, 256)
  else if a = .f64 && b = .f64 then some (256, 128)
  else none

/-! Places -/

/-- The bytes of `n` bits at a bit offset from a byte. -/
def spanBits (start off n : Nat) : Nat × Nat := (start + off / 8, (off % 8 + n + 7) / 8)

/-- The smallest exponent of two not below `n`. -/
def clog2 (n : Nat) : Nat := if n ≤ 1 then 0 else Nat.log2 (n - 1) + 1

/-- The start of the 2-bit plane (R191). -/
def Handle.plane2 (h : Handle) (base : Nat) : Nat := base + 2 ^ clog2 (h.rows * h.pitch)

/-- The bytes that a row takes at least, the nibble plane's for FP6 (R259). -/
def rowBytes (t : Ty) (cols : Nat) : Nat := ((if fp6 t then 4 else tyBits t) * cols + 7) / 8

/-- The byte ranges of columns `c` to `c + n - 1` of row `r` of a tile (R191, R257). -/
def Handle.spans (h : Handle) (t : Ty) (base r c n : Nat) : List (Nat × Nat) :=
  if fp6 t then
    [spanBits (base + r * h.pitch) (4 * c) (4 * n), spanBits (h.plane2 base + r * (h.pitch / 2)) (2 * c) (2 * n)]
  else [spanBits (base + r * h.pitch) (tyBits t * c) (tyBits t * n)]

/-- `n` bits at a bit offset from a byte, through a read of one byte. -/
def bitsAt (f : Nat → Byte) (start off n : Nat) : Nat :=
  leNat (readBytes f (start + off / 8) ((off % 8 + n + 7) / 8)) / 2 ^ (off % 8) % 2 ^ n

/-- The code of an element (R191, R257). -/
def Handle.code (h : Handle) (f : Nat → Byte) (t : Ty) (base r c : Nat) : Nat :=
  if fp6 t then 4 * bitsAt f (base + r * h.pitch) (4 * c) 4 + bitsAt f (h.plane2 base + r * (h.pitch / 2)) (2 * c) 2
  else bitsAt f (base + r * h.pitch) (tyBits t * c) (tyBits t)

/-- M, K and N of a product (R259). -/
def MatOp.m (o : MatOp) : Nat := o.a.rows
/-- K. -/
def MatOp.k (o : MatOp) : Nat := o.a.cols
/-- N. -/
def MatOp.n (o : MatOp) : Nat := o.b.cols
/-- The format of A. -/
def MatOp.ta (o : MatOp) : Ty := efmt o.fa
/-- The format of B. -/
def MatOp.tb (o : MatOp) : Ty := efmt o.fb
/-- Members (R263). -/
def MatOp.members (o : MatOp) : Nat := if o.kind = 1 then 16 else 1
/-- Whether elements are binary64 (R255). -/
def MatOp.wide (o : MatOp) : Bool := o.ta = .f64

/-- Scale blocks of a line along K (R258). -/
def MatOp.blocks (o : MatOp) (f : BitVec 128) : Nat := (o.k + blkLen f - 1) / blkLen f

/-- The first scale byte of a line of an operand's member (R258, R263). -/
def MatOp.scaleLine (o : MatOp) (f : BitVec 128) (stride mem line : Nat) : Nat := scaleAt f + mem * stride + line * o.blocks f

/-- The bytes of a row of a bitmap (R258). -/
def bitmapRow (f : BitVec 128) (r cols : Nat) : Nat := bmapAt f + r * (8 * ((cols + 63) / 64))

/-- Row pointer `i` of a CSR operand (R262). -/
def MatOp.rowPtr (o : MatOp) (f : Nat → Byte) (i : Nat) : Nat := leNat (readBytes f (o.a.bstride + 4 * i) 4)

/-- The byte ranges that row `i` of A's member `mem` is read from. -/
def MatOp.aSpans (o : MatOp) (f : Nat → Byte) (mem i : Nat) : List (Nat × Nat) :=
  if o.kind = 3 then
    let z := o.rowPtr f i
    let n := o.rowPtr f (i + 1) - z
    (o.a.bstride + 4 * i, 8) ::
      if n = 0 then [] else [(bmapAt o.fa + 2 * z, 2 * n), (o.a.base + o.ta.esize * z, o.ta.esize * n)]
  else
    o.a.spans o.ta (o.a.base + mem * o.a.bstride) i 0 o.k ++
      (if sce o.fa then [(o.scaleLine o.fa o.a.bstride mem i, o.blocks o.fa)] else []) ++
      if bme o.fa then [(bitmapRow o.fa i o.k, (o.k + 7) / 8)] else []

/-- The byte ranges that column `n` of B's member `mem` is read from. -/
def MatOp.bSpans (o : MatOp) (mem n : Nat) : List (Nat × Nat) :=
  (List.range o.b.vrows).flatMap (fun k =>
    o.b.spans o.tb (o.b.base + mem * o.b.bstride) k n 1 ++
      if bme o.fb then [(bitmapRow o.fb k o.n + n / 8, 1)] else []) ++
    if sce o.fb then [(o.scaleLine o.fb o.b.bstride mem n, o.blocks o.fb)] else []

/-- Every byte range that a product reads (R259). -/
def MatOp.allSpans (o : MatOp) (f : Nat → Byte) : List (Nat × Nat) :=
  (if o.kind = 3 then [(o.a.bstride, 4 * (o.a.rows + 1))] else []) ++
    (List.range o.members).flatMap fun mem =>
      (List.range o.a.vrows).flatMap (o.aSpans f mem) ++
        (List.range o.b.vrows).flatMap (fun k =>
          o.b.spans o.tb (o.b.base + mem * o.b.bstride) k 0 o.n ++ if bme o.fb then [(bitmapRow o.fb k o.n, (o.n + 7) / 8)] else []) ++
        if sce o.fb then [(scaleAt o.fb + mem * o.b.bstride, o.n * o.blocks o.fb)] else []

/-- Whether a byte lies in one of some ranges. -/
def inSpans (l : List (Nat × Nat)) (off : Nat) : Bool := l.any fun x => x.1 ≤ off && off < x.1 + x.2

/-! Elements and sums (R190, R192, R206) -/

/-- An operand element as a product sees it: whether its bitmap bit is set, whether its row is padded, its value and flags. -/
structure HElem where
  use : Bool
  pad : Bool
  v : FVal
  fl : Flags
deriving DecidableEq, Repr

/-- The value of an element code under a block scale (R190, R192). -/
def hallValue (t : Ty) (scale : Int) (code : Nat) : FVal × Flags :=
  if scale = -128 then (.fin false 0 0, 0)
  else if t = .t2 then let x := ternary code; (.fin (x.1 < 0) x.1.natAbs 0, x.2)
  else if t.integer then let x := toInt t code; (.fin (x < 0) x.natAbs scale, 0)
  else
    match unpack t code with
    | .fin s m e => (.fin s m (e + scale), 0)
    | v => (v, Flags.when v.isSnan Flags.nv)

/-- The block scale of K position `k` on a line; 0 without scales. -/
def MatOp.scale (o : MatOp) (f : Nat → Byte) (fb : BitVec 128) (stride mem line k : Nat) : Int :=
  if sce fb then (f (o.scaleLine fb stride mem line + k / blkLen fb)).toInt else 0

/-- Whether a bitmap bit is set; every one is without a bitmap (R258, R261). -/
def bitSet (f : Nat → Byte) (fb : BitVec 128) (cols r c : Nat) : Bool :=
  !bme fb || (f (bitmapRow fb r cols + c / 8)).getLsbD (c % 8)

/-- Element (i, k) of A's member. -/
def MatOp.aElem (o : MatOp) (f : Nat → Byte) (mem i k : Nat) : HElem :=
  let x := hallValue o.ta (o.scale f o.fa o.a.bstride mem i k) (o.a.code f o.ta (o.a.base + mem * o.a.bstride) i k)
  ⟨bitSet f o.fa o.k i k, false, x.1, x.2⟩

/-- Element (k, n) of B's member; rows from VROWS on are padded (R260). -/
def MatOp.bElem (o : MatOp) (f : Nat → Byte) (mem k n : Nat) : HElem :=
  if o.b.vrows ≤ k then ⟨true, true, .fin false 0 0, 0⟩
  else
    let x := hallValue o.tb (o.scale f o.fb o.b.bstride mem n k) (o.b.code f o.tb (o.b.base + mem * o.b.bstride) k n)
    ⟨bitSet f o.fb o.n k n, false, x.1, x.2⟩

/-- The non-zeros of row `i` of a CSR operand: column index and element (R262). -/
def MatOp.csrRow (o : MatOp) (f : Nat → Byte) (i : Nat) : List (Nat × HElem) :=
  let z := o.rowPtr f i
  (List.range (o.rowPtr f (i + 1) - z)).map fun j =>
    let x := hallValue o.ta 0 (leNat (readBytes f (o.a.base + o.ta.esize * (z + j)) o.ta.esize))
    (leNat (readBytes f (bmapAt o.fa + 2 * (z + j)) 2), ⟨true, false, x.1, x.2⟩)

/-- A product (R206): one that is skipped or meets a padded row counts as +0, and integers have no negative zero. A signalling NaN of A that
meets a padded row of B keeps its flag, as R206 has it for any operand element, while R260 has the padded row set none (log 42). -/
def hallProduct (int : Bool) (x y : HElem) : FVal × Flags :=
  if !x.use || !y.use then (.fin false 0 0, 0)
  else if y.pad then (.fin false 0 0, x.fl)
  else if x.v.isNan || y.v.isNan then (.nan false true 0, x.fl ||| y.fl)
  else
    match mulVal x.v y.v with
    | none => (.nan false true 0, x.fl ||| y.fl ||| Flags.nv)
    | some (.fin s m e) => (.fin (s && !(int && m = 0)) m e, x.fl ||| y.fl)
    | some v => (v, x.fl ||| y.fl)

/-- The exact sum of the products of a chunk (R206). -/
def chunkSum (ps : List (FVal × Flags)) : FVal × Flags :=
  let fl := ps.foldl (fun f p => f ||| p.2) 0
  let vs := ps.map (·.1)
  let pos := vs.contains (.inf false)
  let neg := vs.contains (.inf true)
  if vs.any FVal.isNan || (pos && neg) then (.nan false true 0, fl ||| Flags.when (pos && neg) Flags.nv)
  else if pos || neg then (.inf neg, fl)
  else
    match vs with
    | [] => (.fin false 0 0, fl)
    | v :: rest =>
      (rest.foldl (fun acc x =>
        match acc, x with
        | .fin s1 m1 e1, .fin s2 m2 e2 => let r := sumFin 1 s1 m1 e1 s2 m2 e2; .fin r.1 r.2.1 r.2.2
        | a, _ => a) v, fl)

/-- A result of the Hall: a NaN is the default NaN (R189, R206). -/
def hallNan (t : Ty) (r : Nat × Flags) : Nat × Flags := if (unpack t r.1).isNan then ((fmt t).nan, r.2) else r

/-- Adds a chunk sum to an accumulator: rounded first for binary32, fused for binary64 (R206). -/
def hallAcc (t : Ty) (acc : Nat × Flags) (c : FVal × Flags) : Nat × Flags :=
  let fl := acc.2 ||| c.2
  let r :=
    if t = .f64 then
      if c.1.isNan || (unpack t acc.1).isNan then ((fmt t).nan, Flags.when (unpack t acc.1).isSnan Flags.nv)
      else addVal t 1 false c.1 (unpack t acc.1)
    else
      let s : Nat × Flags := if c.1.isNan then ((fmt t).nan, 0) else roundVal t 1 false c.1
      let x := fAdd t 1 false s.1 acc.1
      (x.1, s.2 ||| x.2)
  let r := hallNan t r
  (r.1, fl ||| r.2)

/-- The type of the accumulators. -/
def MatOp.accTy (o : MatOp) : Ty := if o.wide then .f64 else .f32

/-- The products of chunk `c` of Room element (i, n) (R206, R262). Of a CSR row only the listed non-zeros count, so that a chunk of -0
products gives -0 where +0 products of the other positions would give +0 (log 42). -/
def MatOp.chunk (o : MatOp) (f : Nat → Byte) (mem i n c : Nat) : List (FVal × Flags) :=
  let len := if o.wide then 1 else 16
  let int := o.ta = .i8
  if o.kind = 3 then
    ((o.csrRow f i).filter fun x => x.1 < o.k && x.1 / len = c).map fun x => hallProduct int x.2 (o.bElem f mem x.1 n)
  else (List.range (min len (o.k - len * c))).map fun j => hallProduct int (o.aElem f mem i (len * c + j)) (o.bElem f mem (len * c + j) n)

/-- Room element (i, n) of a member after a product, and the flags of its sums (R206). -/
def MatOp.element (o : MatOp) (f : Nat → Byte) (mem i n acc : Nat) : Nat × Flags :=
  let chunks := if o.wide then o.k else (o.k + 15) / 16
  let outside := o.kind = 3 && (o.csrRow f i).any fun x => o.k ≤ x.1
  (List.range chunks).foldl (fun a c => hallAcc o.accTy a (chunkSum (o.chunk f mem i n c))) (acc, Flags.when outside Flags.nv)

/-! Rooms -/

/-- The owned Room with a number in a Hall. -/
def State.roomAt (s : State) (hall num : Nat) : Option Room := s.rooms.find? fun r => r.hall = hall && r.num = num

/-- Replaces an owned Room. -/
def State.setRoom (s : State) (r : Room) : State :=
  { s with rooms := s.rooms.map fun x => if x.hall = r.hall && x.num = r.num then r else x }

/-- A slot of a Room. -/
def Room.get (r : Room) (i : Nat) : Word32 :=
  match r.slots.find? fun x => x.1 = i with
  | some x => x.2
  | none =>
    match r.base with
    | some occ => (Config.freeWord occ i).setWidth 32
    | none => 0

/-- Room element (row, col), a slot or a binary64 pair with its low word first (R255). -/
def Room.element (r : Room) (wide : Bool) (row col : Nat) : Nat :=
  if wide then (r.get (row * 256 + 2 * col)).toNat + 2 ^ 32 * (r.get (row * 256 + 2 * col + 1)).toNat else (r.get (row * 256 + col)).toNat

/-- The slots of an element with its value. -/
def elementSlots (wide : Bool) (row col x : Nat) : List (Nat × Word32) :=
  if wide then [(row * 256 + 2 * col, BitVec.ofNat 32 x), (row * 256 + 2 * col + 1, BitVec.ofNat 32 (x / 2 ^ 32))]
  else [(row * 256 + col, BitVec.ofNat 32 x)]

/-- Writes slots of a Room. -/
def Room.write (r : Room) (l : List (Nat × Word32)) : Room :=
  { r with slots := l ++ r.slots.filter fun x => !l.any fun y => y.1 = x.1 }

/-- The place of a member's element (i, n) in the Room (R254, R263). -/
def MatOp.place (o : MatOp) (mem i n : Nat) : Nat × Nat :=
  if o.kind = 1 then (64 * (mem / 4) + i, 64 * (mem % 4) + n) else (i, n)

/-- The rows of A and the columns of B, by member, that some bytes are operands of (R158). -/
def MatOp.hits (o : MatOp) (f : Nat → Byte) (off n : Nat) : List (Nat × Nat) × List (Nat × Nat) :=
  let meets (l : List (Nat × Nat)) : Bool := l.any fun x => x.1 < off + n && off < x.1 + x.2
  let pick (n : Nat) (spans : Nat → Nat → List (Nat × Nat)) : List (Nat × Nat) :=
    (List.range o.members).flatMap fun mem => ((List.range n).filter fun i => meets (spans mem i)).map fun i => (mem, i)
  (pick o.a.vrows (o.aSpans f), pick o.n o.bSpans)

/-- Members, rows and columns of every element that a product updates (R254, R260). -/
def MatOp.frame (o : MatOp) : List (Nat × Nat × Nat) :=
  (List.range o.members).flatMap fun mem => (List.range o.a.vrows).flatMap fun i => (List.range o.n).map fun n => (mem, i, n)

/-- Whether an element is of one of some rows of A or columns of B. -/
def inHits (ha hb : List (Nat × Nat)) (x : Nat × Nat × Nat) : Bool := ha.contains (x.1, x.2.1) || hb.contains (x.1, x.2.2)

/-- Unspecified values for the elements of some rows of A and columns of B (R158, R259). -/
def MatOp.openSlots (o : MatOp) (occ : Nat) (ha hb : List (Nat × Nat)) : List (Nat × Word32) :=
  (o.frame.filter (inHits ha hb)).flatMap fun x =>
    let p := o.place x.1 x.2.1 x.2.2
    elementSlots o.wide p.1 p.2 (Config.freeWord occ (p.1 * 256 + p.2)).toNat

end Sys2Proof.Machine
end

