-- ==== Sys2Proof/Machine/Access.lean ====
section
/-! DEFINITION. Accesses: the scratch window and FIFO banks (R16 to R19, R131 to R134), loads, stores and the store buffer
(R143 to R149), fences, acquires and releases (R151, R152). -/
namespace Sys2Proof.Machine

/-! The scratch window -/

/-- What a window access reaches (R17, R18, R132). -/
inductive Window
  /-- A byte range of a bank in SCRATCH mode. -/
  | scratch (bank off : Nat)
  /-- A load of slot HEAD, at an offset in the slot. -/
  | head (bank off : Nat)
  /-- A store to slot TAIL. -/
  | tail (bank off : Nat)
  | fill (bank : Nat)
  | free (bank : Nat)
  | pop (bank : Nat)
  | push (bank : Nat)
  | violation
deriving DecidableEq, Repr

/-- The bank that a package-wide number names; CACHE mode and unallotted unless listed (R125). -/
def State.bank (s : State) (n : Nat) : Bank :=
  (s.banks.find? fun b => b.num = n).getD ⟨n, .cache, none, 0, 0, 0, 0, [], false⟩

/-- Replaces a bank. -/
def State.setBank (s : State) (b : Bank) : State := { s with banks := b :: s.banks.filter fun x => x.num ≠ b.num }

/-- SLOT of a FIFO bank (R132). -/
def Bank.slotSize (b : Bank) : Nat := 2 ^ (4 + b.slotExp)
/-- N of a FIFO bank (R132). -/
def Bank.count (b : Bank) : Nat := 65536 / b.slotSize
/-- FREE (R132). -/
def Bank.free (b : Bank) : Nat := b.count - b.fill

/-- The physical bank that a window bank number names for a Caravan (R131). -/
def State.bankOf (s : State) (cv win : Nat) : Option Nat :=
  match s.caravan cv with
  | none => none
  | some c => (c.bankMap.find? fun x => x.1 = win).map (·.2)

/-- What `n` bytes at a window address reach, for a group of a Caravan (R17, R18, R131, R132). -/
def State.window (s : State) (cv : Nat) (va : Word64) (n : Nat) (store : Bool) : Window :=
  let w := va.toNat % 2 ^ 24
  let off := w % 65536
  match s.bankOf cv (w / 65536) with
  | none => .violation
  | some p =>
    let b := s.bank p
    match b.mode with
    | .cache => .violation
    | .scratch => if off + n ≤ 65536 then .scratch p off else .violation
    | .fifo =>
      if !store && off + n ≤ b.slotSize then .head p off
      else if store && 0x4000 ≤ off && off + n ≤ 0x4000 + b.slotSize then .tail p (off - 0x4000)
      else if off = 0x8000 && n = 4 then if store then .pop p else .fill p
      else if off = 0x8004 && n = 4 then if store then .push p else .free p
      else .violation

/-- The key of a byte of a bank in `Mem.scratch`. -/
def scratchKey (bank off : Nat) : Nat := bank * 65536 + off

/-- The bytes of a bank as they are held. -/
def State.bankBytes (s : State) (bank off n : Nat) : List Byte := readBytes s.mem.scratch.get (scratchKey bank off) n

/-- Whether bytes of a bank lie in a line that ECC cannot correct (R389). -/
def State.bankPoisoned (s : State) (bank off n : Nat) : Bool :=
  s.mem.bankPoison.any fun l => scratchKey bank off / 128 ≤ l && l ≤ (scratchKey bank off + n - 1) / 128

/-- The byte at a window offset of a Caravan as the Hall reads it; 0 where no bank is allotted. -/
def State.tileByte (s : State) (cv off : Nat) : Byte :=
  match s.bankOf cv (off / 65536) with
  | some p => s.mem.scratch.get (scratchKey p (off % 65536))
  | none => 0

/-- The byte that a product reads: in a 4-byte atom that differs from what the last `orf` before the product saw, `seen`, the old value or
the new one (R157, R146). -/
def State.hallByte (s : State) (cv : Nat) (seen : Cells) (off : Nat) : Byte :=
  let new := s.tileByte cv off
  match s.bankOf cv (off / 65536) with
  | some p =>
    let old := seen.get (scratchKey p (off % 65536))
    if old = new then new else if (Config.freeWord s.freeCtr (65536 + off / 4)).getLsbD 0 then old else new
  | none => new

/-- Whether a window bank number names an allotted bank in SCRATCH mode (R259). -/
def State.tileBank (s : State) (cv win : Nat) : Bool :=
  match s.bankOf cv win with
  | some p => (s.bank p).mode = .scratch
  | none => false

/-- Marks the rows and columns of one work item whose operands some bytes are (R158). -/
def State.itemHit (s : State) (g : Group) (off n : Nat) (i : WorkItem) : State :=
  match i.op with
  | .mma o =>
    let h := o.hits (s.tileByte g.caravan) off n
    if h.1.isEmpty && h.2.isEmpty then s
    else s.onGroup g.tag fun x => { x with work := x.work.map fun j =>
      if j.id = i.id then { j with hitA := h.1 ++ j.hitA, hitB := h.2 ++ j.hitB } else j }
  | _ => s

/-- What a write of bank bytes does to products that have not committed (R158). -/
def State.operandWrite (s : State) (bank off n : Nat) : State :=
  (s.groups.filter fun g => !g.work.isEmpty).foldl (fun s g =>
    match (s.caravan g.caravan).bind fun c => c.bankMap.find? fun x => x.2 = bank with
    | none => s
    | some x => g.work.foldl (fun s i => s.itemHit g (x.1 * 65536 + off) n i) s) s

/-- Writes bytes of a bank, at its port (R19); a line that is written whole is good again (R389). -/
def State.setBankBytes (s : State) (bank off : Nat) (bs : List Byte) : State :=
  let k := scratchKey bank off
  let s1 : State := { s with mem := { s.mem with scratch := s.mem.scratch.setBytes k bs,
                                                 bankPoison := s.mem.bankPoison.filter fun l => !(k ≤ l * 128 && l * 128 + 128 ≤ k + bs.length) } }
  (s1.operandWrite bank off bs.length).wrote ((Target.bank bank off).meets bs.length)

/-- A pop of a FIFO (R132). -/
def Bank.pop (b : Bank) : Bank := { b with head := (b.head + 1) % b.count, fill := b.fill - 1 }
/-- A push of a FIFO (R132). -/
def Bank.push (b : Bank) : Bank := { b with tail := (b.tail + 1) % b.count, fill := b.fill + 1 }

/-- Whether the scalar stream, or the lane instruction of a PC slot, of the group in focus has an access waiting at a FIFO bank that may not
be served yet. -/
def State.fifoBlocked (s : State) (lane : Option Nat) : Bool :=
  s.banks.any fun b => b.waiters.any fun w => w.cmd.isNone && w.tag = s.g.tag && w.lane = lane && !w.granted

/-- Whether a FIFO bank serves an access now (R132, R133): it has what the access needs, and every access that has waited for longer is short
of slots that this one does not need. -/
def Bank.serves (b : Bank) (mine : FifoWait → Bool) (needFill needFree : Nat) : Bool :=
  needFill ≤ b.fill && needFree ≤ b.free && (b.waiters.takeWhile fun w => !mine w).all fun w =>
    (b.fill < w.needFill && needFill = 0) || (b.free < w.needFree && needFree = 0)

/-- The turn of a scalar FIFO access (R133): it is served, or it waits in order of arrival. -/
def State.fifoTurn (s : State) (bank : Nat) (needFill needFree : Nat) (serve : State → State) : State :=
  let b := s.bank bank
  let mine (w : FifoWait) : Bool := w.cmd.isNone && w.tag = s.g.tag && w.lane = none
  if b.serves mine needFill needFree then
    serve (s.setBank { b with waiters := b.waiters.filter fun w => !mine w })
  else if b.waiters.any mine then s
  else s.setBank { b with waiters := b.waiters ++ [{ tag := s.g.tag, lane := none, needFill := needFill, needFree := needFree, granted := false }] }

/-! The store buffer (R148) -/

/-- The line of one target, as the store buffer counts lines. -/
def Target.line : Target → Nat ⊕ Nat
  | .bank b o => .inl (scratchKey b o / 128)
  | .mem pa .. => .inr (pa / 128)

/-- The lines of an entry. -/
def SbEntry.lines (e : SbEntry) : List (Nat ⊕ Nat) :=
  match e.op with
  | .store bs => (bs.map fun x => x.1.line).eraseDups
  | .op t (.drain _ _ _ es) => (t.line :: es.map fun x => x.1.line).eraseDups
  | .op t _ => [t.line]

/-- Whether an entry is a drain that does not apply by itself: its Room has not been read yet, or it adds and waits for its commit
(R76, R282). -/
def SbEntry.waitsRoom (e : SbEntry) : Bool :=
  match e.op with
  | .op _ (.drain ready add _ _) => !e.performed && (!ready || add)
  | _ => false

/-- Whether one of some lines waits at its die. -/
def State.anyWaits (s : State) (ls : List (Nat ⊕ Nat)) : Bool :=
  ls.any fun l => match l with
    | .inl _ => false
    | .inr n => s.lineWaits n

/-- Whether the walker's accesses for an address wait, for a block that moves, a stack that is not ready or a staged piece (R70, R76, R383):
those of the walk, or of the heat that the first write through an entry adds (R121). -/
def State.walkHeld (s : State) (g : Group) (va : Word64) (k : AccessKind := .load) : Bool :=
  !inWindow va &&
    match s.tlbFind g va with
    | some e => needsW k && !e.written && s.hostWaits (e.map.entry / 128)
    | none => (s.walkLines g.asn va).any s.hostWaits

/-- Whether the walk that forms a register waits (R70, R76, R383). -/
def State.formHeld (s : State) (g : Group) (va : Word64) : Bool := (s.walkLines g.asn va).any s.hostWaits

/-- Goes on once the walker need not wait for an address. -/
def State.afterWalk (s : State) (va : Word64) (k : AccessKind) (cont : State) : State := if s.walkHeld s.g va k then s else cont

/-- Whether accesses of the group in focus to some lines wait: at the die, for a staged piece, or for a drain of its own (R76, R147,
R268, R383). -/
def State.lineHeld (s : State) (ls : List (Nat ⊕ Nat)) : Bool :=
  s.anyWaits ls ||
  s.mem.staged.any (fun x => x.lines.any fun l => ls.contains l) ||
    s.g.sb.any fun e => e.waitsRoom && e.lines.any fun l => ls.contains l

/-- Goes on unless some lines are held. -/
def State.unheld (s : State) (ls : List (Nat ⊕ Nat)) (k : State) : State := if s.lineHeld ls then s else k

/-- The lines for which the store buffer of a group holds entries (R148); a drain counts as one. -/
def Group.sbLines (g : Group) : List (Nat ⊕ Nat) :=
  (g.sb.flatMap fun e =>
    match e.op with
    | .op t _ => [t.line]
    | _ => e.lines).eraseDups

/-- Whether the store buffer and UAC have room for accesses to lines (R148). An instruction whose lines are more than the whole buffer
issues when the buffer is empty (log 43). -/
def Group.sbRoom (g : Group) (lines : List (Nat ⊕ Nat)) (count : Nat) : Bool :=
  ((lines.filter fun l => !g.sbLines.contains l).eraseDups.length + g.sbLines.length ≤ 64 || g.sb.isEmpty) && g.uac.toNat + count ≤ 65535

/-- Puts an entry in the store buffer (R148). Entries on one line are performed in program order and count as one line; each keeps the
FPC and lanes that a deferred cause of it names (R82, R365). -/
def Group.enqueue (g : Group) (op : SbOp) (count : Nat) (fpc : Word64) (mask : Mask) (ins : Option Nat := none) : Group :=
  let e : SbEntry := { id := g.nextId, count := count, pts := g.pts, fpc := fpc, mask := mask, ins := ins, inHandler := g.hmode, op := op,
                       performed := false, stamp := 0 }
  { g with sb := g.sb ++ [e], nextId := g.nextId + 1, uac := g.uac + BitVec.ofNat 16 count }

/-- Whether a key that an entry was issued under for a target has been destroyed since (R82). -/
def SbEntry.lost (e : SbEntry) : Target → Bool
  | .mem _ _ _ enc key => enc && e.gone.contains key
  | .bank .. => false

/-- The byte that the group's own buffered stores give at a place of memory or scratch, in a line, newest first (R147, R148): a store older
than an operation on the line gives none, since the operation has acted on it. -/
def Group.forward (g : Group) (line : Nat ⊕ Nat) (same : Target → Bool) : Option Byte :=
  (g.sb.reverse.takeWhile fun e => !(e.op matches .op .. && e.lines.contains line)).findSome? fun e =>
    match e.op with
    | .store bs => if (e.performed && e.acks.isEmpty) || bs.any (fun x => e.lost x.1) then none
                   else (bs.find? fun x => same x.1).map (·.2)
    | .op .. => none

/-- Whether a target is the byte of memory at `a`. -/
def Target.isMem (a : Nat) : Target → Bool
  | .mem pa .. => pa = a
  | .bank .. => false

/-- Whether a target is a byte of a bank. -/
def Target.isBank (bank off : Nat) : Target → Bool
  | .bank b o => b = bank && o = off
  | .mem .. => false

/-! Logical time (R101) -/

/-- The floor advances when TMAX has run far enough ahead; copies below it are never used again (R101). -/
def State.advanceFloor (s : State) : State :=
  if (s.mem.tmax - s.svc.tfloor).toNat < 2 ^ 30 + 2 ^ 28 then s
  else
    let f := s.mem.tmax - 0x40000000#32
    { s with svc := { s.svc with tfloor := f }, mem := { s.mem with copies := s.mem.copies.filter fun c => leS f c.rts } }

/-- The writer's jump at the home of a LEASE line (R97): the state after it and the completion timestamp. -/
def State.leaseJump (s : State) (line : Nat) (pts : Stamp) : State × Stamp :=
  let (m, t) := s.mem.leaseJump line pts
  (({ s with mem := m } : State).advanceFloor, t)

/-! Performing stores (R97, R143, R147, R341) -/

/-- Whether the group in focus holds its core's data cache: a NONE store of a group that is saved is performed at the slice (R159). -/
def State.keepsLines (s : State) : Bool := s.hasCache s.g && (s.g.state = .resident || s.g.state = .retiring)

/-- Whether a quad holds a DIR unit under a key tag so that an access need not leave it (R86). -/
def Mem.hitsTagged (m : Mem) (p : Nat) (q : Nat) (g : BitVec 2) (store enc : Bool) (key : BitVec 13) : Bool :=
  m.hits p q g store && m.tagOf (p / 128) = if enc then some key else none

/-- Performs the bytes of a store to one line under one mapping at its ordering point, for the core of the group in focus (R86, R89, R97,
R102). -/
def State.storeLine (s : State) (pa : Nat) (coh : Coh) (grain : BitVec 2) (enc : Bool) (key : BitVec 13) (bs : List (Nat × Byte)) : State :=
  let line := pa / 128
  let core := s.g.coreNo
  let whole := bs.length ≥ 128
  let reached := if isOwn pa then s.mem.reach line enc key whole else s.mem
  let plain (m : Mem) : Mem := bs.foldl (fun m x => m.plainWrite x.1 x.2) m
  match coh with
  | .dir =>
    if s.hasCache s.g then
      let m := if bs.all fun x => s.mem.hitsTagged x.1 s.g.quadNo grain true enc key then s.mem else reached
      ({ s with mem := bs.foldl (fun m x => m.dirStore x.1 grain core x.2) m } : State).fit pa
    else { s with mem := plain (if isOwn pa then bs.foldl (fun m x => m.recallHome x.1 1) reached else reached) }
  | .lease => { s with mem := plain (reached.hostAside line) }
  | .none =>
    if s.keepsLines then
      let m := (if (s.mem.noneLine core line).isSome then s.mem else reached.hostAside line).fetchNone core line enc key
      ({ s with mem := bs.foldl (fun m x => m.noneStore core x.1 x.2) m } : State).fit pa
    else { s with mem := plain (reached.hostAside line) }

/-- The bytes of memory among the bytes of a store. -/
def memBytes (bs : List (Target × Byte)) : List (Nat × Byte) :=
  bs.filterMap fun x => match x.1 with
    | .mem pa .. => some (pa, x.2)
    | .bank .. => none

/-- Performs the bytes of a store that share a line. -/
def State.storeBytes (s : State) (bs : List (Target × Byte)) : State :=
  match bs with
  | (.mem pa coh grain enc key, _) :: _ => s.storeLine pa coh grain enc key (memBytes bs)
  | _ => bs.foldl (fun s x => match x.1 with
    | .bank k o => s.setBankBytes k o [x.2]
    | .mem .. => s) s

/-- A store that covers a whole line clears its poison; a partial one leaves it (R161). -/
def State.cleanStored (s : State) (bs : List (Target × Byte)) : State :=
  match bs with
  | (.mem pa .., _) :: _ => if bs.length ≥ 128 then { s with mem := s.mem.setPoison (pa / 128) false } else s
  | _ => s

/-- Performs a store entry's bytes: regions that have read the line abort first (R341), a LEASE line takes the writer's jump (R97).
Answers the completion timestamp (R149). -/
def State.performStore (s : State) (bs : List (Target × Byte)) (pts : Stamp) : State × Stamp :=
  match bs with
  | (.mem pa coh ..,  _) :: _ =>
    let s1 := ((s.conflictWrite (pa / 128)).storeBytes bs).cleanStored bs
    match coh with
    | .lease => let r := s1.leaseJump (pa / 128) pts; (r.1.wrote (bytesMeet bs), r.2)
    | _ => (s1.wrote (bytesMeet bs), pts)
  | _ => (s.storeBytes bs, pts)

/-- Whether the keys of an entry's targets serve it (R81, R82). -/
def State.targetServed (s : State) : Target → Bool
  | .bank .. => true
  | .mem pa _ _ enc key => s.mem.keyServes pa enc key

/-! Loads -/

/-- The copy of a LEASE line that a load of the group in focus hits (R96, R98, R101): its lease has not run out, and no operation of the
group on the line awaits its acknowledgement (R147, rule 2). -/
def State.copyHit (s : State) (line : Nat) : Option LeaseCopy :=
  match s.mem.copy s.g.coreNo line with
  | some c =>
    if leS s.g.pts c.rts && leS s.svc.tfloor c.rts &&
        !(s.g.sb.any fun e => e.performed && e.op matches .op .. && e.lines.contains (.inr line)) then some c else none
  | none => none

/-- The bytes of a load of memory that is not part of a region, and the state after it (R86, R89, R96, R102, R147). The caller has
checked that it lies in one line. `keep`: a copy may be installed (R89, R171). `lend`: one of a LEASE line (R96). -/
def State.plainLoad (s : State) (p : Place) (n : Nat) (keep : Bool := true) (lend : Bool := keep) : State × LoadRes :=
  if !s.mem.keyServes p.pa p.enc p.key then (s, .fault .key)
  else
    let line := p.pa / 128
    let core := s.g.coreNo
    let caches := s.hasCache s.g
    let held : Bool := match p.coh with
      | .dir => caches && s.mem.hitsTagged p.pa s.g.quadNo p.grain false p.enc p.key
      | .lease => (s.copyHit line).isSome
      | .none => caches && (s.mem.noneLine core line).isSome
    let reached := if isOwn p.pa && !held then s.mem.reach line p.enc p.key false else s.mem
    let m0 := if held || p.coh = .dir then reached else reached.hostAside line
    if (List.range n).any fun i => if held then m0.poisoned (p.pa + i) else s.poisoned m0 (p.pa + i) then
      ({ s with mem := s.notePoison m0 p.pa }, .fault .poison)
    else
      let own (a : Nat) (x : Byte) : Byte := (s.g.forward (.inr line) (Target.isMem a)).getD x
      let answer (f : Nat → Byte) : LoadRes := .ok ((List.range n).map fun i => own (p.pa + i) (f (p.pa + i)))
      match p.coh with
      | .dir =>
        if keep && caches then
          let m1 := m0.dirLoad p.pa p.grain core
          (({ s with mem := m1 } : State).fit p.pa, answer m1.byte)
        else ({ s with mem := m0 }, answer m0.byte)
      | .lease =>
        let use (m : Mem) (c : LeaseCopy) : State × LoadRes :=
          ((({ s with mem := m, g := { s.g with pts := maxS s.g.pts c.wts } } : State).advanceFloor).fit p.pa, answer c.data.get)
        match s.copyHit line with
        | some c => use (m0.setCopy c) c
        | none =>
          let (m1, c1) := m0.renew core line s.g.pts s.svc.lease
          use (if lend && caches then m1.setCopy c1 else m1) c1
      | .none =>
        if (keep || (m0.noneLine core line).isSome) && caches then
          let m1 := m0.fetchNone core line p.enc p.key
          (({ s with mem := m1 } : State).fit p.pa, answer (match m1.noneLine core line with
            | some x => x.data.get
            | none => m1.byte))
        else ({ s with mem := m0 }, answer m0.byte)

/-- A load of memory within one line by the group in focus: part of its live region where it has one (R337, R340). -/
def State.lineLoad (s : State) (p : Place) (n : Nat) (keep : Bool := true) : State × LoadRes :=
  match s.region with
  | none => s.plainLoad p n keep
  | some r =>
    if p.coh ≠ .dir then (s, .abort .mode)
    else if keep && s.hasCache s.g && !(s.pinned s.g.coreNo).contains (p.pa / 128) && s.noWay (p.pa / 128) then (s, .abort .capacity)
    else
      match s.plainLoad p n keep with
      | (s1, .fault c) => (s1, .fault c)
      | (s1, _) => s1.regionLoad r p.pa n

/-- Splits a byte range at 128-byte lines: offset and length of each part. -/
def lineParts (pa n : Nat) : List (Nat × Nat) :=
  let k := min n (128 - pa % 128)
  if k = n then [(0, n)] else [(0, k), (k, n - k)]

/-- A load of memory (R146: a larger access is single in each atom only). The atoms of one line are read in one step, one of the orders that
R146 allows (log 12). -/
def State.memLoad (s : State) (p : Place) (n : Nat) (keep : Bool := true) : State × LoadRes :=
  (lineParts p.pa n).foldl (fun (acc : State × LoadRes) part =>
    match acc with
    | (s, .ok bs) =>
      match s.lineLoad { p with pa := p.pa + part.1 } part.2 keep with
      | (s1, .ok cs) => (s1, .ok (bs ++ cs))
      | r => r
    | r => r) (s, .ok [])

/-- The targets of a store of bytes at a place. -/
def Place.targets (p : Place) (bs : List Byte) : List (Target × Byte) :=
  (List.range bs.length).map fun i => (.mem (p.pa + i) p.coh p.grain p.enc p.key, bs[i]?.getD 0)

/-- The targets of a store to a bank. -/
def bankTargets (bank off : Nat) (bs : List Byte) : List (Target × Byte) :=
  (List.range bs.length).map fun i => (.bank bank (off + i), bs[i]?.getD 0)

/-- The bytes of a bank as the group's own loads see them. -/
def State.scratchLoad (s : State) (bank off n : Nat) : List Byte :=
  (List.range n).map fun i =>
    (s.g.forward (.inl (scratchKey bank (off + i) / 128)) (Target.isBank bank (off + i))).getD (s.mem.scratch.get (scratchKey bank (off + i)))

/-- What a load of a bank by the group in focus answers (R389). -/
def State.scratchAnswer (s : State) (bank off n : Nat) : LoadRes :=
  if s.bankPoisoned bank off n then .fault .poison else .ok (s.scratchLoad bank off n)

/-- What a read of the head slot of a FIFO bank answers (R132, R389). -/
def State.headAnswer (s : State) (bank off n : Nat) : LoadRes :=
  let o := (s.bank bank).head * (s.bank bank).slotSize + off
  if s.bankPoisoned bank o n then .fault .poison else .ok (s.bankBytes bank o n)

/-! Fences, acquires and releases -/

/-- Whether a package-wide place lies within a scope instance of a group (R144). -/
def State.inScope (s : State) (g : Group) (sc : Scope) (slice : Bool) : Target → Bool
  | .bank b _ =>
    match sc with
    | .grp => b / 16 = g.coreNo
    | .wg | .quad => b / 64 = g.quadNo
    | .die => b / 1024 = g.die
    | _ => true
  | .mem pa coh _ _ _ =>
    let near := !slice && s.hasCache g && (coh = .dir || coh = .none)
    match sc with
    | .grp | .wg | .quad => near
    | .die => near || (isOwn pa && dieOf pa = g.die)
    | .pkg => isOwn pa || near
    | .dom => !isHost pa || near
    | .sys => true

/-- Whether an ordering point of an entry lies within a scope instance (R151): that of a drain's every target, at its slice where the
drain adds (R155). -/
def State.entryInScope (s : State) (g : Group) (sc : Scope) (e : SbEntry) : Bool :=
  match e.op with
  | .store bs => bs.any fun x => s.inScope g sc false x.1
  | .op t (.drain _ add _ es) => s.inScope g sc add t || es.any fun x => s.inScope g sc add x.1
  | .op t _ => s.inScope g sc true t

/-- Whether a fence of a scope has nothing left to wait for (R151). -/
def State.fenceReady (s : State) (sc : Scope) : Bool := !s.g.sb.any fun e => s.entryInScope s.g sc e

/-- Scopes that act on NONE lines (R102, R151). -/
def Scope.quadOrWider : Scope → Bool
  | .grp | .wg => false
  | _ => true

/-- Scopes that use RSTAMP (R151, R152). -/
def Scope.domOrSys : Scope → Bool
  | .dom | .sys => true
  | _ => false

/-- The effects of a fence once it need not wait (R151). -/
def State.fence (s : State) (sc : Scope) : State :=
  let s1 := if Scope.quadOrWider sc then s.discardNones s.g.coreNo else s
  let pts := maxS s1.g.pts s1.g.lct
  let m1 : Mem := if Scope.domOrSys sc then ({ s1.mem with rstamp := maxS s1.mem.rstamp pts } : Mem).seen pts else s1.mem
  ({ s1 with mem := m1, g := { s1.g with pts := pts } } : State).advanceFloor

/-- AcquireSteps of a scope, after the value has been returned (R152). -/
def State.acquire (s : State) (sc : Scope) : State :=
  let s1 := if Scope.quadOrWider sc then s.discardNones s.g.coreNo else s
  { s1 with g := { s1.g with pts := if Scope.domOrSys sc then maxS s1.g.pts s1.mem.rstamp else s1.g.pts } }

end Sys2Proof.Machine
end

