-- ==== Sys2Proof/Machine/MemOps.lean ====
section
/-! DEFINITION. The operations at ordering points: atomics, reductions, top-k insertion, deques and add-on-store (R75, R163,
R173 to R183, R331, R332, R76), and what performing and acknowledging a store-buffer entry does (R148, R149, R169). -/
namespace Sys2Proof.Machine

/-! One indivisible read and write -/

/-- Before an indivisible access to a NONE page the core writes back and discards its own copy (R163). -/
def State.dropNone (s : State) (pa : Nat) : State :=
  match s.mem.noneLine s.g.coreNo (pa / 128) with
  | none => s
  | some x =>
    let m := s.mem.writeNone x
    ({ s with mem := { m with nones := m.nones.filter fun y => !(y.core = s.g.coreNo && y.line = pa / 128) } } : State).wrote
      (bytesMeet (s.mem.noneDirty s.g.coreNo fun l => l = pa / 128))

/-- Brings `n` bytes of memory within one line to their Cellar slice (R74, R81, R89, R104, R163): a DIR unit is recalled. -/
def State.toSlice (s : State) (pa n : Nat) (coh : Coh) (enc : Bool) (key : BitVec 13) : State :=
  let s1 := if coh = .none then s.dropNone pa else s
  if isOwn pa then
    let m := s1.mem.reach (pa / 128) enc key false
    { s1 with mem := if coh = .dir then m.recallHome pa n else m.hostAside (pa / 128) }
  else s1

/-- The completion timestamp of an operation at a slice: each line of a LEASE page that it writes takes the writer's jump (R97, R149). -/
def State.jumpLines (s : State) (coh : Coh) (pts : Stamp) (lines : List Nat) : State × Stamp :=
  match coh with
  | .lease => lines.foldl (fun r l => let r1 := r.1.leaseJump l pts; (r1.1, maxS r.2 r1.2)) (s, pts)
  | _ => (s, pts)

/-- Reads `n` bytes at an ordering point and writes what `f` makes of their value, with no other access between; none: no
write. `stamp`: what the access leaves at the home, and its completion timestamp, before anyone sees the write (R97, R414). Answers the old
value and that timestamp, or KEY or POISON (R146, R149, R169). -/
def State.readWrite (s : State) (t : Target) (n : Nat) (stamp : State → State × Stamp) (f : Nat → Option Nat) :
    State × Except Cause (Nat × Stamp) :=
  match t with
  | .bank b o =>
    let old := leNat (s.bankBytes b o n)
    let r := stamp s
    if s.bankPoisoned b o n then (s, .error .poison)
    else match f old with
    | some new => (r.1.setBankBytes b o (leBytes n new), .ok (old, r.2))
    | none => (r.1, .ok (old, r.2))
  | .mem pa coh _ enc key =>
    if !s.mem.keyServes pa enc key then (s, .error .key)
    else
      let s1 := s.toSlice pa n coh enc key
      if (List.range n).any fun i => s1.poisoned s1.mem (pa + i) then ({ s1 with mem := s1.notePoison s1.mem pa }, .error .poison)
      else
        let old := s1.mem.peek pa n
        let s2 := match f old with
          | some new =>
            let s2 := s1.conflictWrite (pa / 128)
            { s2 with mem := (List.range n).foldl (fun m i => m.plainWrite (pa + i) ((leBytes n new)[i]?.getD 0)) s2.mem }
          | none => s1
        let r := stamp s2
        (if (f old).isSome then r.1.wrote (t.meets n) else r.1, .ok (old, r.2))

/-- Such an access of a group that carries a PTS: on a LEASE line it takes the writer's jump (R97, R149). -/
def State.indivisible (s : State) (t : Target) (n : Nat) (pts : Stamp) (f : Nat → Option Nat) : State × Except Cause (Nat × Stamp) :=
  s.readWrite t n (fun s => match t with
    | .mem pa coh .. => s.jumpLines coh pts [pa / 128]
    | .bank .. => (s, pts)) f

/-- The operation of an atomic (R173), with code 8 for `cas`: the new value and the flags of a floating one. -/
def atomicOp (code : Nat) (ty : Ty) (x y : Nat) (cvm : Word64) (old : Nat) : Nat × Flags :=
  let float := ty = .f32 || ty = .f64
  match code with
  | 0 => if float then fAdd ty (modeOf cvm ty 0) (satOf cvm ty 0) old x else (wrapInt ty (old + x), 0)
  | 1 => (old &&& x, 0)
  | 2 => (old ||| x, 0)
  | 3 => (old ^^^ x, 0)
  | 4 => if float then fMinMax ty false false old x else (if toInt ty x < toInt ty old then x else old, 0)
  | 5 => if float then fMinMax ty true false old x else (if toInt ty old < toInt ty x then x else old, 0)
  | 6 => (x, 0)
  | _ => (if old = x then y else old, 0)

/-! Reductions (R176 to R179) -/

/-- The identity of a reduction (R176). -/
def redIdentity (opc : Nat) (ty : Ty) : Nat :=
  match opc with
  | 0 => match ty with
    | .f32 => 0x80000000
    | .f64 => 0x8000000000000000
    | _ => 0
  | 4 => match ty with
    | .f32 => 0x7F800000
    | .f64 => 0x7FF0000000000000
    | _ => wrapInt ty (intMax ty)
  | _ => match ty with
    | .f32 => 0xFF800000
    | .f64 => 0xFFF0000000000000
    | _ => wrapInt ty (intMin ty)

/-- One Op of a reduction: nearest-even and IEEE overflow for floats, wrapping for integers (R177). -/
def redOp (opc : Nat) (ty : Ty) (a b : Nat × Flags) : Nat × Flags :=
  let r : Nat × Flags :=
    if ty = .f32 || ty = .f64 then
      if opc = 0 then fAdd ty 1 false a.1 b.1 else fMinMax ty (opc = 5) false a.1 b.1
    else
      match opc with
      | 0 => (wrapInt ty (a.1 + b.1), 0)
      | 4 => (if toInt ty b.1 < toInt ty a.1 then b.1 else a.1, 0)
      | _ => (if toInt ty a.1 < toInt ty b.1 then b.1 else a.1, 0)
  (r.1, r.2 ||| a.2 ||| b.2)

/-- The pairwise tree over `2 ^ levels` leaves (R177). -/
def redTree (opc : Nat) (ty : Ty) (levels : Nat) (xs : List (Nat × Flags)) : Nat × Flags :=
  (pairTree (redOp opc ty) levels xs).headD (redIdentity opc ty, 0)

/-- The record that covers a target. -/
def Mem.redRecord (m : Mem) (pa : Nat) : Option RedRecord := m.reds.find? fun r => r.target = pa

/-- Contributions that a record expects from a core of a die (R334). -/
def RedRecord.expects (r : RedRecord) (die core : Nat) : Nat := (r.counts[die]?.getD [])[core]?.getD 0

/-- Contributions that a record has from a core of a die. -/
def RedRecord.has (r : RedRecord) (die core : Nat) : Nat := (r.seen.filter fun x => x = (die, core)).length

/-- Whether a record has every declared contribution (R177). -/
def RedRecord.full (r : RedRecord) : Bool :=
  (List.range 2).all fun d => (List.range 64).all fun c => r.expects d c ≤ r.has d c

/-- The root of the combining tree of a record (R177). -/
def RedRecord.root (r : RedRecord) : Nat × Flags :=
  let id : Nat × Flags := (redIdentity r.opc r.ty, 0)
  let leaf (d c g : Nat) : Nat × Flags :=
    match r.got.find? fun x => x.1 = (d, c, g) with
    | some x => (x.2.toNat, 0)
    | none => id
  let core (d c : Nat) : Nat × Flags :=
    if r.has d c = 0 then id else redTree r.opc r.ty 5 ((List.range 32).map (leaf d c))
  let die (d : Nat) : Nat × Flags := redTree r.opc r.ty 6 ((List.range 64).map (core d))
  redOp r.opc r.ty (die 0) (die 1)

/-- Takes a contribution into a record (R177, R178); one beyond its core's count waits with its own operation and type. -/
def RedRecord.take (r : RedRecord) (opc : Nat) (ty : Ty) (val : Word64) (die core slot : Nat) : RedRecord :=
  if r.has die core ≥ r.expects die core then { r with late := r.late ++ [(opc, ty, val)] }
  else
    let same := opc = r.opc && ty = r.ty
    let v := if same then val.toNat else redIdentity r.opc r.ty
    let pos := (die, core, slot)
    let (leaf, fl) : Nat × Flags := match r.got.find? fun x => x.1 = pos with
      | some x => redOp r.opc r.ty (x.2.toNat, 0) (v, 0)
      | none => (v, 0)
    { r with got := (pos, BitVec.ofNat 64 leaf) :: r.got.filter (fun x => x.1 ≠ pos), seen := (die, core) :: r.seen,
             flags := r.flags ||| fl ||| Flags.when (!same) Flags.nv }

/-! Top-k insertion (R180, R181) -/

/-- Ranks entries of a record: a higher key ranks above, and at equal keys the lower ID (R181). -/
def tkiKey (e : Word32) : Int :=
  let score := e.toNat % 65536
  let mag := score % 32768
  if e.toNat / 65536 = 0xFFFF then -200000
  else if mag > 0x7F80 then -100000
  else if score < 32768 then mag else -(mag : Int)

/-- Whether entry `a` ranks above entry `b`. -/
def tkiAbove (a b : Word32) : Bool :=
  tkiKey a > tkiKey b || (tkiKey a = tkiKey b && a.toNat / 65536 < b.toNat / 65536)

/-- Stable insertion by rank. -/
def tkiInsert (e : Word32) : List Word32 → List Word32
  | [] => [e]
  | x :: xs => if tkiAbove e x then e :: x :: xs else x :: tkiInsert e xs

/-- Stable sort by rank. -/
def tkiSort (l : List Word32) : List Word32 := l.foldl (fun acc e => tkiInsert e acc) []

/-- The empty entry. -/
def tkiEmpty : Word32 := 0xFFFFFF80#32

/-- Whether an entry is real: its ID is not 0xFFFF. -/
def tkiReal (e : Word32) : Bool := e.toNat / 65536 ≠ 0xFFFF

/-- An insertion (R181): the record's four entries after it, the IDs whose counts fall, and whether the entry's count rises. -/
def tkiStep (k : Nat) (e : Word32) (rec : List Word32) : List Word32 × List Nat × Bool :=
  let real := rec.filter tkiReal
  let id := e.toNat / 65536
  match real.find? fun x => x.toNat / 65536 = id with
  | some x =>
    let real1 := if tkiAbove e x then (real.takeWhile fun y => y.toNat / 65536 ≠ id) ++
        e :: ((real.dropWhile fun y => y.toNat / 65536 ≠ id).drop 1) else real
    let kept := (tkiSort real1).take k
    let out := (tkiSort real1).drop k
    (kept ++ List.replicate (4 - kept.length) tkiEmpty, out.map fun y => y.toNat / 65536, false)
  | none =>
    let all := tkiSort (real ++ [e])
    let kept := all.take k
    let out := (all.drop k).filter fun y => y.toNat / 65536 ≠ id
    (kept ++ List.replicate (4 - kept.length) tkiEmpty, out.map fun y => y.toNat / 65536,
      kept.any fun y => y.toNat / 65536 = id)

/-- The entries of a record. -/
def tkiEntries (x : Nat) : List Word32 := (List.range 4).map fun i => BitVec.ofNat 32 (x / 2 ^ (32 * i))

/-- The counters that an insertion into a record changes, with what it adds to them (R181). -/
def tkiCounts (k : Nat) (e : Word32) (old : Nat) : List (Nat × Nat) :=
  let r := tkiStep k e (tkiEntries old)
  r.2.1.map (fun i => (i, 2 ^ 32 - 1)) ++ if r.2.2 then [(e.toNat / 65536, 1)] else []

/-! Deques (R331, R332) -/

/-- A deque descriptor's fields, and whether it is valid (R331). -/
structure Deque where
  bottom : Nat
  top : Nat
  cap : Nat
  valid : Bool
  /-- It lies at offset 0 of its block. -/
  based : Bool
deriving DecidableEq, Repr

/-- Entries held (R331). -/
def Deque.size (d : Deque) : Nat := (d.bottom + 2 ^ 32 - d.top) % 2 ^ 32

/-- Reads a descriptor: 64 bytes as one value. -/
def Deque.of (pa x : Nat) : Deque :=
  let d : Deque := ⟨bits x 96 32, bits x 64 32, bits x 8 8, true, pa % 2048 = 0⟩
  { d with valid := x % 256 = 1 && 1 ≤ d.cap && d.cap ≤ 248 && bits x 16 48 = 0 && x / 2 ^ 128 = 0 && d.size ≤ d.cap &&
                    d.based }

/-- The descriptor's 64 bytes as a value. -/
def Deque.word (d : Deque) : Nat := d.bottom * 2 ^ 96 + d.top * 2 ^ 64 + d.cap * 2 ^ 8 + 1

/-- The EMPTY code. -/
def dequeEmpty : Word64 := 0xFFFFFFFFFFFFFFFF#64

/-- The deque operations that return one value (R332). -/
inductive DequeOp
  | init (cap : Nat) | push (x : Word64) | pop | steal
deriving DecidableEq, Repr

/-- A deque operation on its 2 KiB block: the block's new bytes as a list of offset and 8-byte value, the new descriptor and the
answer, or DEQUE (R332). `ring` reads an entry. -/
def Deque.step (d : Deque) (ring : Nat → Word64) : DequeOp → Except Cause (Deque × List (Nat × Word64) × Word64)
  | .init cap => if cap = 0 || cap > 248 || !d.based then .error .deque else .ok (⟨0, 0, cap, true, true⟩, [], 0)
  | .push x =>
    if !d.valid || x = dequeEmpty then .error .deque
    else if d.size = d.cap then .ok (d, [], 1)
    else .ok ({ d with bottom := (d.bottom + 1) % 2 ^ 32 }, [(64 + 8 * (d.bottom % d.cap), x)], 0)
  | .pop =>
    if !d.valid then .error .deque
    else if d.size = 0 then .ok (d, [], dequeEmpty)
    else
      let b := (d.bottom + 2 ^ 32 - 1) % 2 ^ 32
      .ok ({ d with bottom := b }, [], ring (b % d.cap))
  | .steal =>
    if !d.valid then .error .deque
    else if d.size = 0 then .ok (d, [], dequeEmpty)
    else .ok ({ d with top := (d.top + 1) % 2 ^ 32 }, [], ring (d.top % d.cap))

/-- The bytes of the block of a descriptor, offset by offset, as their slice reads them. -/
def Mem.ring (m : Mem) (pa i : Nat) : Word64 := BitVec.ofNat 64 (m.peek (pa + 64 + 8 * i) 8)

/-- Whether the slice reads a ring entry as poison (R63, R169). -/
def State.ringPoisoned (s : State) (pa i : Nat) : Bool := (List.range 8).any fun j => s.poisoned s.mem (pa + 64 + 8 * i + j)

/-- The ring entry that an operation on a descriptor reads. -/
def Deque.reads (d : Deque) : DequeOp → Option Nat
  | .pop => if d.size = 0 then none else some ((d.bottom + 2 ^ 32 - 1) % 2 ^ 32 % d.cap)
  | .steal => if d.size = 0 then none else some (d.top % d.cap)
  | _ => none

/-- Writes the descriptor and the ring entries of a deque at the slice. -/
def State.writeDeque (s : State) (pa : Nat) (d : Deque) (es : List (Nat × Word64)) : State :=
  let s1 := es.foldl (fun (s : State) e => s.conflictWrite ((pa + e.1) / 128)) (s.conflictWrite (pa / 128))
  { s1 with mem := es.foldl (fun m e => m.plainBytes (pa + e.1) (leBytes 8 e.2.toNat)) (s1.mem.plainBytes pa (leBytes 64 d.word)) }

/-- Who watches a word of a deque's block knows of an operation, its lines having taken the writer's jump (R97, R327, R414). -/
def State.dequeWrote (s : State) (coh : Coh) (pts : Stamp) (lines : List Nat) : State × Stamp :=
  let r := s.jumpLines coh pts lines
  (r.1.wrote fun w k => lines.any fun l => (Target.mem (l * 128) .dir 0 false 0).meets 128 w k, r.2)

/-- The lines that a deque operation writes: its descriptor's and those of ring entries. -/
def dequeLines (pa : Nat) (es : List (Nat × Word64)) : List Nat := (pa / 128 :: es.map fun e => (pa + e.1) / 128).eraseDups

/-- Brings the block of a descriptor to its slice (R89, R332). -/
def State.dequeBlock (s : State) (pa : Nat) (coh : Coh) (enc : Bool) (key : BitVec 13) : State :=
  (List.range 16).foldl (fun (s : State) i => s.toSlice ((pa / 128 + i) * 128) 128 coh enc key) s

/-- A deque operation at the descriptor's slice (R332). -/
def State.dequeAt (s : State) (t : Target) (pts : Stamp) (op : DequeOp) : State × Except Cause (Word64 × Stamp) :=
  match t with
  | .bank .. => (s, .error .nomap)
  | .mem pa coh _ enc key =>
    if !s.mem.keyServes pa enc key then (s, .error .key)
    else
      let s1 := s.dequeBlock pa coh enc key
      let d := Deque.of pa (s1.mem.peek pa 64)
      if (List.range 64).any (fun i => s1.poisoned s1.mem (pa + i)) || (d.valid && (d.reads op).any (s1.ringPoisoned pa)) then
        ({ s1 with mem := s1.notePoison s1.mem pa }, .error .poison)
      else
        match d.step (s1.mem.ring pa) op with
        | .error c => (s1, .error c)
        | .ok (d, es, v) =>
          let r := (s1.writeDeque pa d es).dequeWrote coh pts (dequeLines pa es)
          (r.1, .ok (v, r.2))

/-! Entries of the store buffer -/

/-- What performing an operation answers: values by lane, lanes with success (R183), flags for a lane's XF, its timestamp, and a cause
that a part of it met (R169, R282). -/
structure OpRes where
  vals : List (Nat × Word64) := []
  success : Mask := 0
  flags : List (Nat × Flags) := []
  stamp : Stamp
  late : Option Cause := none
deriving DecidableEq, Repr

/-- One lane's push or pop in a bulk operation (R183): the state, the answer, the lines written and whether a poisoned entry was met. -/
def State.bulkOne (pa : Nat) (push : Bool) (acc : State × OpRes × List Nat × Bool) (x : Nat × Word64) : State × OpRes × List Nat × Bool :=
  let (s, r, ls, bad) := acc
  let d := Deque.of pa (s.mem.peek pa 64)
  if push && (x.2 = dequeEmpty || d.size = d.cap) then acc
  else if !push && d.size = 0 then acc
  else
    match d.step (s.mem.ring pa) (if push then .push x.2 else .pop) with
    | .ok (d1, es, v) =>
      (s.writeDeque pa d1 es, { r with vals := if push then r.vals else r.vals ++ [(x.1, v)], success := r.success ||| Mask.one x.1 },
        dequeLines pa es ++ ls, bad || (!push && (d.reads .pop).any (s.ringPoisoned pa)))
    | .error _ => acc

/-- Pushes or pops in lane order until the deque is full or empty (R183); nothing moves where an entry that would be popped is poison
(R169). -/
def State.bulkAt (s : State) (t : Target) (pts : Stamp) (push : Bool) (lanes : List (Nat × Word64)) :
    State × Except Cause OpRes :=
  match t with
  | .bank .. => (s, .ok { stamp := pts })
  | .mem pa coh _ enc key =>
    if !s.mem.keyServes pa enc key then (s, .error .key)
    else
      let s1 := s.dequeBlock pa coh enc key
      if (List.range 64).any fun i => s1.poisoned s1.mem (pa + i) then ({ s1 with mem := s1.notePoison s1.mem pa }, .error .poison)
      else if !(Deque.of pa (s1.mem.peek pa 64)).valid then (s1, .error .deque)
      else
        let (s2, r, ls, bad) := lanes.foldl (State.bulkOne pa push) (s1, { stamp := pts }, [pa / 128], false)
        if bad then (s1, .error .poison)
        else
          let j := s2.dequeWrote coh pts ls.eraseDups
          (j.1, .ok { r with stamp := j.2 })

/-- The lowest lane of a mask. -/
def Mask.first (m : Mask) : Nat := m.lanes.headD 0

/-- The acknowledgement of a contribution that its slice has accepted before the root completes: it carries
the writer's jump on a LEASE line (R97, R149). -/
def State.acceptRed (s : State) (t : Target) (pts : Stamp) : State × Except Cause OpRes :=
  match t with
  | .bank .. => (s, .ok { stamp := pts })
  | .mem pa coh _ _ _ =>
    let r := s.jumpLines coh pts [pa / 128]
    (r.1, .ok { stamp := r.2 })

/-- Combines a value into a target at its slice (R177, R178), with the lane that takes its flags. -/
def State.combine (s : State) (t : Target) (pts : Stamp) (lane opc : Nat) (ty : Ty) (v : Nat) : State × Except Cause OpRes :=
  match s.indivisible t ty.esize pts (fun old => some (redOp opc ty (old, 0) (v, 0)).1) with
  | (s1, .ok (old, st)) => (s1, .ok { stamp := st, flags := [(lane, (redOp opc ty (old, 0) (v, 0)).2)] })
  | (s1, .error c) => (s1, .error c)

/-- A contribution at its target's slice (R177 to R179): each is refused where its key does not serve (R81, R169). The flags of the Op of an
excess contribution, and of one without a record, are raised in the lane of the contribution that completes the record, or its own, which
R179 leaves open (log 42). -/
def State.redAt (s : State) (t : Target) (pts : Stamp) (opc : Nat) (ty : Ty) (val : Word64) (die core slot lane : Nat) :
    State × Except Cause OpRes :=
  match t with
  | .bank .. => (s, .ok { stamp := pts })
  | .mem pa .. =>
    if !s.targetServed t then (s, .error .key)
    else
      match s.mem.redRecord pa with
      | none => s.combine t pts lane opc ty val.toNat
      | some r =>
        let r1 := r.take opc ty val die core slot
        let rest := s.mem.reds.filter fun x => x.target ≠ pa
        if r1.full then
          let (root, fl) := r1.root
          let s1 : State := { s with mem := { s.mem with reds := rest } }
          match s1.combine t pts lane r1.opc r1.ty root with
          | (s2, .ok res) =>
            let done := r1.late.foldl (fun (acc : State × OpRes) x =>
              match acc.1.combine t pts lane x.1 x.2.1 x.2.2.toNat with
              | (s3, .ok e) => (s3, { acc.2 with flags := acc.2.flags ++ e.flags, stamp := maxS acc.2.stamp e.stamp })
              | (s3, .error c) => (s3, { acc.2 with late := some c })) (s2, res)
            (done.1, .ok { done.2 with flags := (lane, fl ||| r1.flags) :: done.2.flags })
          | e => e
        else ({ s with mem := { s.mem with reds := r1 :: rest } } : State).acceptRed t pts

/-- Memory-side adds to the counters of a histogram, each an operation of its own (R181): the latest timestamp and the cause that one of
them met. -/
def State.countAt (s : State) (h : TransReg) (pts : Stamp) : List (Nat × Nat) → State × Stamp × Option Cause
  | [] => (s, pts, none)
  | (id, by_) :: rest =>
    if 4 * id + 4 > h.limit.toNat then s.countAt h pts rest
    else
      match s.indivisible (.mem (h.pbase + 4 * id) h.coh h.grain h.enc h.key) 4 pts (fun old => some ((old + by_) % 2 ^ 32)) with
      | (s1, .ok (_, t)) => let r := s1.countAt h pts rest; (r.1, maxS t r.2.1, r.2.2)
      | (s1, .error c) => let r := s1.countAt h pts rest; (r.1, r.2.1, some c)

/-- An insertion at its record's slice, then its counter updates (R181), all in one step: nobody sees the record and the counters at
different stages, as R181 would let a reader do that is not ordered after the acknowledgement (log 42). -/
def State.tkiAt (s : State) (t : Target) (pts : Stamp) (k : Nat) (e : Word32) (hist : Option TransReg) :
    State × Except Cause OpRes :=
  let value (l : List Word32) : Nat := l.foldr (fun w n => w.toNat + 2 ^ 32 * n) 0
  match s.indivisible t 16 pts (fun old => some (value (tkiStep k e (tkiEntries old)).1)) with
  | (s1, .error c) => (s1, .error c)
  | (s1, .ok (old, st)) =>
    match hist with
    | none => (s1, .ok { stamp := st })
    | some h =>
      let r := s1.countAt h pts (tkiCounts k e old)
      (r.1, .ok { stamp := maxS st r.2.1, late := r.2.2 })

/-- One element of a tile drain: stored, or added with nearest-even and IEEE overflow (R282). -/
def State.drainElem (s : State) (add : Bool) (ty : Ty) (pts : Stamp) (x : Target × Word64) :
    State × Except Cause (Stamp × Flags) :=
  if add then
    match s.indivisible x.1 ty.esize pts (fun old => some (fAdd ty 1 false old x.2.toNat).1) with
    | (s1, .ok (old, t)) => (s1, .ok (t, (fAdd ty 1 false old x.2.toNat).2))
    | (s1, .error c) => (s1, .error c)
  else
    match x.1 with
    | .bank b o => (s.setBankBytes b o (leBytes ty.esize x.2.toNat), .ok (pts, 0))
    | .mem pa coh grain enc key =>
      if !s.mem.keyServes pa enc key then (s, .error .key)
      else if s.unrouted pa then ({ s with mem := s.notePoison s.mem pa }, .error .poison)
      else
        let bs := (List.range ty.esize).map fun i => (Target.mem (pa + i) coh grain enc key, (leBytes ty.esize x.2.toNat)[i]?.getD 0)
        let (s1, t) := s.performStore bs pts
        (s1, .ok (t, 0))

/-- A tile drain, whole (R82, R282): an add-on-store is dropped where a key fails, and each element of an overwrite or addition that
meets a cause of its own leaves the others standing. -/
def State.drainAt (s : State) (pts : Stamp) (add : Bool) (ty : Ty) (es : List (Target × Word64)) : State × Except Cause OpRes :=
  if add && es.any fun x => !s.targetServed x.1 then (s, .error .key)
  else
    let (s1, t, fl, c) := es.foldl (fun (acc : State × Stamp × Flags × Option Cause) x =>
      let (s, t, fl, c) := acc
      match s.drainElem add ty pts x with
      | (s1, .ok (t1, f1)) => (s1, maxS t t1, fl ||| f1, c)
      | (s1, .error c1) => (s1, t, fl, some c1)) (s, pts, 0, none)
    (s1, .ok { stamp := t, flags := s.g.full.lanes.map fun l => (l, fl), late := c })

/-- Performs an operation at its ordering point. -/
def State.opAt (s : State) (t : Target) (pts : Stamp) (lane : Nat) : MemOp → State × Except Cause OpRes
  | .rmw code ty size x y cvm =>
    match s.indivisible t size pts (fun old => some (atomicOp code ty x.toNat y.toNat cvm old).1) with
    | (s1, .ok (old, st)) =>
      (s1, .ok { stamp := st, vals := [(lane, BitVec.ofNat 64 old)], flags := [(lane, (atomicOp code ty x.toNat y.toNat cvm old).2)] })
    | (s1, .error c) => (s1, .error c)
  | .red opc ty val die core slot l => s.redAt t pts opc ty val die core slot l
  | .tki k e hist => s.tkiAt t pts k e hist
  | .bulk push lanes => s.bulkAt t pts push lanes
  | .drain _ add ty es => s.drainAt pts add ty es

/-- Sets flags in the XF of lanes (R199). -/
def Group.raiseFlags (g : Group) (fl : List (Nat × Flags)) : Group :=
  { g with xf := fl.foldl (fun (x : Vector (BitVec 6) 64) p => x.setIfInBounds p.1 (x[p.1]?.getD 0 ||| p.2)) g.xf }

/-- The v writes of an answer (R174, R183). -/
def answerWrites (dst : Option Nat) (wide : Bool) (vals : List (Nat × Word64)) : List VWrite :=
  match dst with
  | none => []
  | some d => vals.flatMap fun x =>
    VWrite.mk d x.1 (x.2.setWidth 32) :: if wide then [VWrite.mk (d + 1) x.1 (x.2.extractLsb' 32 32)] else []

/-- Hands the answer of entry `id` to the lane instruction that waits for it. -/
def Group.giveAnswer (g : Group) (id : Nat) (r : OpRes) : Group :=
  { g with inflight := g.inflight.map fun f =>
      if f.waits.contains id then
        { f with commit := { f.commit with v := f.commit.v ++ answerWrites f.dst f.wide r.vals, xf := f.commit.xf ++ r.flags,
                                           p := f.pred.map fun p => (p, g.full, r.success) } }
      else f }

/-- Marks an entry as performed; its flags and what the homes of LEASE lines have now come with the acknowledgement (R97). -/
def Group.markPerformed (g : Group) (id : Nat) (t : Stamp) (fl : List (Nat × Flags) := []) (acks : List (Nat × Stamp × Cells) := []) : Group :=
  { g with sb := g.sb.map fun e => if e.id = id then { e with performed := true, stamp := t, flags := fl, acks := acks } else e }

/-- The LEASE line of a target. -/
def Target.leaseLine : Target → Option Nat
  | .mem pa .lease _ _ _ => some (pa / 128)
  | _ => none

/-- The LEASE line of an entry. -/
def SbEntry.leaseLine (e : SbEntry) : Option Nat :=
  match e.op with
  | .store bs => (bs.head?.map fun x => x.1.leaseLine).join
  | .op t _ => t.leaseLine

/-- What the homes of LEASE lines acknowledge of an access that led from `s` to `t` (R97): the lines that have taken a jump, with their
timestamps and bytes. -/
def State.acks (s t : State) : List (Nat × Stamp × Cells) :=
  ((t.mem.leases ++ t.mem.hostLeases).filter fun l => !(s.mem.leases ++ s.mem.hostLeases).contains l).map fun l =>
    (l.line, l.wts, t.mem.lineCells l.line)

/-- Whether an operation reports its late causes precisely (R169). -/
def SbEntry.precise (e : SbEntry) : Bool :=
  match e.op with
  | .op _ (.bulk ..) => true
  | _ => false

/-- Whether an entry is Room work (R365, ROOMW). -/
def SbEntry.roomWork (e : SbEntry) : Bool :=
  match e.op with
  | .op _ (.drain ..) => true
  | _ => false

/-- A repetition whose late cause is precise keeps its slot until it completes, so that no later one issues (R46, R368). -/
def InFlight.holds (i : InFlight) : Bool := i.place.rep.isSome && i.late && !i.place.redo

/-- Whether an entry is an atomic of a lane on a peer's memory, whose POISON is precise (R385). -/
def SbEntry.peerAtomic (e : SbEntry) : Bool :=
  match e.op with
  | .op (.mem pa ..) (.rmw ..) => nodeOf pa ≠ 0
  | _ => false

/-- Whether an entry is an atomic of a lane on memory to which no route leads (R385, R389). -/
def State.refuses (s : State) (e : SbEntry) : Bool :=
  match e.op with
  | .op (.mem pa ..) (.rmw ..) => s.unrouted pa
  | _ => false

/-- A precise cause of a lane instruction that has issued (R368): the first one stops the group, a later one leaves its instruction to
execute again. One of an instruction that a handler issued halts the group, even after `sysret` (R369). -/
def State.stopAt (s : State) (f : FaultRecord) (pl : IssuePlace) (inHandler : Bool) : State :=
  if inHandler then s.halt f false
  else
    match s.g.stopped with
    | some _ => s.setG fun g => { g with redo := g.redo ++ [pl] }
    | none => s.raise f (some pl)

/-- Whether a cause that an entry meets when it is performed is precise (R169, R385): one of a bulk deque operation, and POISON of an atomic
on a peer's memory, or over a bridge that is down. -/
def State.faultsPrecisely (s : State) (e : SbEntry) (c : Cause) : Bool := e.precise || ((e.peerAtomic || s.refuses e) && c = .poison)

/-- A late cause of an entry (R82, R169, R385): deferred, or precise; its instruction has then no effect and executes again alone, a
repetition where it stood (R46, R363). -/
def State.lateCause (s : State) (e : SbEntry) (c : Cause) : State :=
  let f : FaultRecord := ⟨c, e.fpc, Info.word { roomw := e.roomWork }, if e.roomWork then s.g.full else e.mask, 0, e.ins⟩
  if s.faultsPrecisely e c then
    match s.g.inflight.find? fun i => i.waits.contains e.id with
    | none => s.deferFault f e.inHandler
    | some i =>
      let s1 := s.setG fun g =>
        let g1 : Group := { g with inflight := g.inflight.filter fun x => x.id ≠ i.id }
        if i.holds then g1.leaveEntry i.place else g1
      s1.stopAt f { i.place with redo := !i.holds } i.inHandler
  else s.deferFault f e.inHandler

/-- Whether no route leads to a target (R385). -/
def State.noRoute (s : State) : Target → Bool
  | .bank .. => false
  | .mem pa .. => s.unrouted pa

/-- What is left of an entry's operation where keys have been destroyed since it was issued (R82): an insertion without its counters, an
overwrite drain without the elements under them; none: nothing. With whether a part is lost. -/
def SbEntry.left (e : SbEntry) (t : Target) : MemOp → Option (MemOp × Bool)
  | .tki k x (some h) =>
    if e.lost t then none else if h.enc && e.gone.contains h.key then some (.tki k x none, true) else some (.tki k x (some h), false)
  | .drain ready add ty es =>
    let bad := es.any fun x => e.lost x.1
    if add && bad then none else some (.drain ready add ty (es.filter fun x => !e.lost x.1), bad)
  | o => if e.lost t then none else some (o, false)

/-- Performs one entry of the group in focus. -/
def State.performOne (s : State) (e : SbEntry) : State :=
  match e.op with
  | .store bs =>
    if bs.any fun x => s.noRoute x.1 then
      ({ s with mem := s.mem.note 5 0 }.setG fun g => g.markPerformed e.id e.pts).lateCause e .poison
    else if bs.all fun x => s.targetServed x.1 && !e.lost x.1 then
      let (s1, t) := s.performStore bs e.pts
      s1.setG fun g => g.markPerformed e.id t [] (s.acks s1)
    else (s.setG fun g => g.markPerformed e.id e.pts).lateCause e .key
  | .op t o =>
    match e.left t o with
    | none => (s.setG fun g => g.markPerformed e.id e.pts).lateCause e .key
    | some (o, part) =>
      match s.opAt t e.pts (Mask.first e.mask) o with
      | (s1, .ok r) =>
        let fl := match o with
          | .red .. | .drain .. => r.flags
          | _ => []
        let s2 := s1.setG fun g => (g.markPerformed e.id r.stamp fl (s.acks s1)).giveAnswer e.id r
        ((if part then some Cause.key else r.late).map (s2.lateCause e)).getD s2
      | (s1, .error c) => (s1.setG fun g => g.markPerformed e.id e.pts).lateCause e c

/-- The lines that performing an entry touches: for an insertion those of the counters that it changes too, for bulk deque operations those
of the whole block (R181, R183). -/
def State.touches (s : State) (e : SbEntry) : List (Nat ⊕ Nat) :=
  match e.op with
  | .op (.mem pa ..) (.tki k x (some h)) =>
    e.lines ++ ((tkiCounts k x (s.mem.peek pa 16)).filter fun c => 4 * c.1 + 4 ≤ h.limit.toNat).map fun c => .inr ((h.pbase + 4 * c.1) / 128)
  | .op (.mem pa ..) (.bulk ..) => (List.range 16).map fun i => .inr (pa / 128 + i)
  | _ => e.lines

/-- Whether an entry waits at the die for one of its lines, or for a staged piece (R70, R76, R383). -/
def State.entryWaits (s : State) (e : SbEntry) : Bool :=
  let ls := s.touches e
  s.anyWaits ls || s.mem.staged.any fun x => x.lines.any fun l => ls.contains l

/-- The entries that are performed with one: those of its instruction, where that is an atomic which may fault precisely as it is
performed (R363, R385; log 12). -/
def State.mates (s : State) (e : SbEntry) : List SbEntry :=
  let l := s.g.sb.filter fun x => !x.performed && x.ins = e.ins
  if e.ins.isSome && l.any (fun x => x.peerAtomic || s.refuses x) then l else [e]

/-- The entries before `id` that share a line with it, directly or through one another (R147, rule 4). -/
def State.sbBefore (s : State) (id : Nat) : List SbEntry :=
  let lines (e : SbEntry) : List (Nat ⊕ Nat) := (s.mates e).flatMap SbEntry.lines
  match s.g.sb.find? fun e => e.id = id with
  | none => []
  | some e =>
    let before := (s.g.sb.takeWhile fun x => x.id ≠ id).reverse
    (before.foldl (fun (acc : List SbEntry × List (Nat ⊕ Nat)) x =>
      if (lines x).any fun l => acc.2.contains l then (x :: acc.1, lines x ++ acc.2) else acc) ([], lines e)).1

/-- The atomics of an instruction on a peer that gives no answer have no effect (R363, R385). -/
def State.refuseAtomic (s : State) (l bad : List SbEntry) : State :=
  let s1 := l.foldl (fun (s : State) e => s.setG fun g => g.markPerformed e.id e.pts) { s with mem := s.mem.note 5 0 }
  match bad with
  | [] => s1
  | e :: _ => s1.lateCause { e with mask := bad.foldl (fun m x => m ||| x.mask) 0 } .poison

/-- Performs an entry, with its mates, where nothing holds them back. -/
def State.performFree (s : State) (id : Nat) : State :=
  match s.g.sb.find? fun e => e.id = id with
  | none => s
  | some e =>
    let l := s.mates e
    if e.performed || l.any fun x => x.waitsRoom || s.entryWaits x then s
    else
      match l.filter s.refuses with
      | [] => l.foldl State.performOne s
      | bad => s.refuseAtomic l bad

/-- Performs entries one by one, up to the first that must wait. -/
def State.performAll (s : State) : List Nat → State
  | [] => s
  | i :: is =>
    let s1 := s.performFree i
    if s1.g.sb.any fun e => e.id = i && !e.performed then s1 else s1.performAll is

/-- Performs entry `id` of the group in focus, those that must come first before it (R147, R148). -/
def State.performEntry (s : State) (id : Nat) : State :=
  let l := match s.g.sb.find? fun e => e.id = id with
    | some e => s.mates e
    | none => []
  s.performAll (((l.flatMap fun e => s.sbBefore e.id).map (·.id)).eraseDups ++ [id])

/-- Performs the entries of the group in focus that hold any of some lines: what a later access of the group to them must see. -/
def State.performLines (s : State) (ls : List (Nat ⊕ Nat)) : State :=
  ((s.g.sb.filter fun e => !e.performed && e.lines.any fun l => ls.contains l).map (·.id)).foldl State.performEntry s

/-- Performs those entries that are operations, whose results cannot be forwarded (R147, rule 2). -/
def State.performOps (s : State) (ls : List (Nat ⊕ Nat)) : State :=
  ((s.g.sb.filter fun e => !e.performed && e.op matches .op .. && e.lines.any fun l => ls.contains l).map (·.id)).foldl
    State.performEntry s

/-- Goes on unless an operation of the group in focus to some lines has not been performed: it is performed first, and the instruction
waits (R147, rule 2). -/
def State.afterOps (s : State) (ls : List (Nat ⊕ Nat)) (k : State) : State :=
  if s.g.sb.any fun e => !e.performed && e.op matches .op .. && e.lines.any fun l => ls.contains l then s.performOps ls else k

/-- Goes on unless an entry of the group in focus for some lines has not been performed: it is performed first (R147, rule 4). -/
def State.afterEntries (s : State) (ls : List (Nat ⊕ Nat)) (k : State) : State :=
  if s.g.sb.any fun e => !e.performed && e.lines.any fun l => ls.contains l then s.performLines ls else k

/-- A core's copy of a LEASE line becomes what the line's home has acknowledged (R97). -/
def Mem.ackCopy (m : Mem) (core : Nat) (x : Nat × Stamp × Cells) : Mem :=
  match m.copy core x.1 with
  | none => m
  | some c => m.setCopy { c with data := x.2.2, wts := x.2.1, rts := x.2.1 }

/-- What an acknowledgement with a timestamp, and of LEASE lines with theirs, does to its group and its core's copies (R97, R149). -/
def State.ackStamp (s : State) (t : Stamp) (acks : List (Nat × Stamp × Cells)) : State :=
  { s with g := { s.g with lct := maxS s.g.lct t, pts := if acks.isEmpty then s.g.pts else maxS s.g.pts t },
           mem := acks.foldl (fun (m : Mem) x => m.ackCopy s.g.coreNo x) s.mem }

/-- Takes an acknowledged entry out of the store buffer (R148): UAC falls by the accesses it counts, or, while entries of the same access
are left, one of those counts them. -/
def Group.takeAck (g : Group) (e : SbEntry) : Group :=
  let sb := g.sb.filter fun x => x.id ≠ e.id
  let g1 : Group := match sb.find? fun x => e.count ≠ 0 && e.ins.isSome && x.ins = e.ins && x.count = 0 with
    | some h => { g with sb := sb.map fun x => if x.id = h.id then { x with count := e.count } else x }
    | none => { g with sb := sb, uac := g.uac - BitVec.ofNat 16 e.count }
  { g1 with inflight := g1.inflight.map fun f => { f with waits := f.waits.filter fun w => w ≠ e.id } }

/-- An acknowledgement reaches the group in focus (R148, R149). -/
def State.acknowledge (s : State) (id : Nat) : State :=
  let s1 := s.performEntry id
  match s1.g.sb.find? fun e => e.id = id with
  | none => s1
  | some e => if !e.performed then s1 else (s1.ackStamp e.stamp e.acks).setG fun g => (g.raiseFlags e.flags).takeAck e

end Sys2Proof.Machine
end

