-- ==== Sys2Proof/Machine/MemEvents.lean ====
section
/-! DEFINITION. Events of the memory system: requests and channel schedulers, retirement and failures, self-test, eviction, operations
at slices (R63 to R82), and the service log (R391). -/
namespace Sys2Proof.Machine

/-! The service log (R391) -/

/-- Changes the service registers. -/
def State.onSvc (s : State) (f : Service → Service) : State := { s with svc := f s.svc }

/-- Notes an event for the service log. -/
def State.note (s : State) (kind unit : Nat) : State := { s with mem := s.mem.note kind unit }

/-- The 32 bytes of an entry. -/
def State.logEntry (s : State) (i : LogItem) : List Byte :=
  leBytes 2 (Config.logCode i.kind).toNat ++ leBytes 2 i.unit ++ leBytes 4 0 ++ leBytes 8 s.now ++
    (i.detail.getD (leBytes 8 (s.freeVal 0).toNat ++ leBytes 8 (s.freeVal 1).toNat)).take 16

/-- LOG2N of SLOGBASE. -/
def State.log2n (s : State) : Nat := s.svc.slogbase.toNat % 32

/-- Writes bytes to die memory at their homes, as firmware does. -/
def State.firmWrite (s : State) (a : Nat) (bs : List Byte) : State :=
  let s1 := s.conflictWrite (a / 128)
  ({ s1 with mem := (s1.mem.reach (a / 128) false 0 false).sliceWriteBytes a bs } : State).wrote ((Target.mem a .dir 0 false 0).meets bs.length)

/-- Where the log's next entry goes. -/
def State.logPlace (s : State) : Nat :=
  s.svc.slogbase.toNat % 2 ^ 52 / 2 ^ 12 * 2 ^ 12 + s.svc.sloghead.toNat % 2 ^ s.log2n * 32

/-- Writes one event to the log and counts it. -/
def State.logOne (s : State) (i : LogItem) : State :=
  let a := s.logPlace
  let s1 := if s.log2n ≠ 0 && isOwn a then (s.firmWrite a (s.logEntry i)).useFree else s
  s1.onSvc fun v => { v with sloghead := v.sloghead + 1 }

/-- Writes events in their order; one whose place is not ready waits, with those after it (R383). -/
def State.logAll (s : State) : List LogItem → State
  | [] => s
  | i :: is =>
    if s.log2n ≠ 0 && isOwn s.logPlace && s.hostWaits (s.logPlace / 128) then { s with mem := { s.mem with notes := i :: is ++ s.mem.notes } }
    else (s.logOne i).logAll is

/-- Writes the events that have been noted. -/
def State.flushLog (s : State) : State :=
  match s.mem.notes with
  | [] => s
  | l => State.logAll { s with mem := { s.mem with notes := [] } } l

/-- Who watches a word of a line that a served request writes knows (R327, R353). -/
def State.tellServed (s : State) : State :=
  match s.mem.served with
  | [] => s
  | ls => ({ s with mem := { s.mem with served := [] } } : State).wrote fun w k =>
      ls.any fun l => (Target.mem (l * 128) .dir 0 false 0).meets 128 w k

/-! Requests (R66, R67) -/

/-- The write-backs that a step has made came in that step (R67). -/
def State.dateChans (s : State) : State :=
  if s.mem.chans.all fun q => q.since.isSome then s
  else { s with mem := { s.mem with chans := s.mem.chans.map fun q => { q with since := some (q.since.getD s.now) } } }

/-- Whether a slice performs a line of a request when it arrives (R73): the line is valid under the request's key tag, or the request
writes it whole. -/
def Mem.atOnce (m : Mem) (r : MemRequest) (line : Nat) : Bool :=
  (m.valid line && m.tagOf line = (if r.enc then some r.key else none)) || (r.writes && r.covers line)

/-- A request as its slice performs it: what an operation that comes by itself makes of its sectors is free, since the manual gives
neither the codes nor the payload of KIND 2 (R66; log 44). -/
def State.slicePayload (s : State) (r : MemRequest) : MemRequest :=
  if r.kind = 2 then { r with payload := (List.range (4 * r.sectors.length)).flatMap fun i => leBytes 8 (s.freeVal i).toNat } else r

/-- A request reaches its slice (R66, R67, R73 to R75): Porters and operations recall units first (R89); what misses, or comes after a
pending request for its line, goes to the channel, where it joins the batch of its pair if that runs. -/
def State.serveSlice (s : State) (r0 : MemRequest) : State :=
  let r := s.slicePayload r0
  let s1 := if r.kind = 2 then s.useFree else s
  let s2 := if r.writes then r.lines.foldl State.conflictWrite s1 else s1
  let m0 := s2.mem.flushParked
  let m := if r.kind = 2 || r.kind = 4 || r.kind = 5 then r.lines.foldl (fun (m : Mem) l => m.recallHome (l * 128) 128) m0 else m0
  let wait := r.lines.filter fun l => !m.atOnce r l || m.chans.any fun q => q.lines.contains l
  let m1 := (r.lines.filter fun l => !wait.contains l).foldl (fun (m : Mem) l => m.serveLine r l) m
  let q : ChanReq := ⟨m.slice r.addr, some s.now, r, wait, false, false⟩
  let m2 : Mem := { m1 with chans := m1.chans ++ [q] }
  let m3 := if wait.isEmpty then m1
    else if r.kind ≠ 3 && m2.running.contains (q.ch, r.grp, r.wave) then (chanClosure (fun x => x = q) m2.chans).foldl Mem.serveRequest m2
    else m2
  let s3 : State := { s2 with mem := m3 }
  if r.writes then s3.wrote ((Target.mem r.addr .dir 0 false 0).meets 2048) else s3

/-- MEMORY_REQUEST (R66, R67, R73, R74, R383): a bad header is discarded and logged, and a request under a key that does not serve
it leaves the slice as it is (R81); a read or operation waits for a staged piece (R76). -/
def execMemoryRequest (r : MemRequest) (s : State) : Out :=
  .next (if !r.ok then (s.note 0 (r.kind.toNat)).flushLog
    else if !isOwn r.addr || r.lines.any s.lineWaits || !s.mem.keyServes r.addr r.enc r.key ||
        (!(r.kind = 1 || r.kind = 3 || r.kind = 5) && s.mem.staged.any fun x => x.lines.any fun l => r.lines.any fun n => l = .inr n) then s
    else (s.serveSlice r).flushLog)

/-- The oldest of some pending requests, one that has waited 640 ns before any other (R67). -/
def oldestRequest (l : List ChanReq) : Option ChanReq :=
  match l.find? (·.aged) with
  | some q => some q
  | none => l.head?

/-- CHANNEL_BATCH (R67): the scheduler is free when no sector of a running batch is left. A write-back forms a batch by itself; a request
for a block that moves waits (R70). -/
def execChannelBatch (ch : Nat) (s : State) : Out :=
  let mine := s.mem.chans.filter fun q => q.ch = ch && !q.lines.any s.lineWaits
  .next (match oldestRequest mine with
    | none => s
    | some q =>
      let rest := s.mem.running.filter fun x => x.1 ≠ ch
      let pair := q.req.kind ≠ 3
      let m : Mem := { s.mem with running := if pair then (ch, q.req.grp, q.req.wave) :: rest else rest }
      let batch (x : ChanReq) : Bool := x = q || (pair && x.req.kind ≠ 3 && x.req.grp = q.req.grp && x.req.wave = q.req.wave)
      ({ s with mem := (chanClosure batch mine).foldl Mem.serveRequest m } : State).flushLog)

/-- BATCH_AGE_LIMIT (R67): a request that has waited 640 ns, 602 cycles, ends the running batch and is picked next. -/
def execBatchAgeLimit (ch : Nat) (s : State) : Out :=
  .next (match (s.mem.chans.filter fun q => q.ch = ch && !q.aged).find? fun q => q.since.any fun t => 602 ≤ s.now - t with
    | none => s
    | some q => { s with mem := { s.mem with running := s.mem.running.filter fun x => x.1 ≠ ch,
                                             chans := s.mem.chans.map fun x => if x = q then { x with aged := true } else x } })

/-! Retirement (R68 to R70) -/

/-- CHANNEL_RETIRE_START (R69): at most one channel of a stack, and never during a self-test (R72). -/
def execChannelRetireStart (stack f : Nat) (s : State) : Out :=
  .next (if stack < 16 && f < 32 && s.mem.mode stack = 0 && s.mem.mst stack 9 1 = 0 then
      let m := ((s.mem.setMst stack 18 2 1).setMst stack 20 5 f).setMst stack 25 20 0
      ({ s with mem := m }.note 1 stack).flushLog
    else s)

/-- The address that the power-of-two hash puts at a place (R65). -/
def unhash (l : Loc) : Nat :=
  let cb := l.off / 2048
  let x := l.ch ^^^ (cb % 32) ^^^ (cb / 2 ^ 5 % 32) ^^^ (cb / 2 ^ 10 % 32) ^^^ (cb / 2 ^ 15 % 32)
  addrOfLocal l.stack ((cb * 32 + x) * 2048 + l.off % 2048)

/-- Moves one byte of the retiring channel (R69, step 2). -/
def Mem.moveByte (m : Mem) (f : Nat) (l : Loc) : Mem :=
  let b := m.locByte l
  ((m.setLoc (retiredLoc f l) b).setLoc l 0)

/-- The slice that receives a block takes MaxS of the two slices' MTS (R94). -/
def Mem.mergeMts (m : Mem) (src dst : Nat) : Mem :=
  { m with mts := ⟨dst, maxS (m.mtsOf src) (m.mtsOf dst)⟩ :: m.mts.filter fun x => x.slice ≠ dst }

/-- A sector of the retiring channel that is lost as its block moves (R69, R71): poison in slice F where its line is valid there, else one
that its parity group cannot rebuild. -/
def Mem.lostMoving (m : Mem) (a : Nat) : Bool := if m.valid (a / 128) then m.poison.contains (a / 32) else m.hbmPoison a

/-- Moves a block of the retiring channel, with the requests that wait for it (R69, R70, R94). -/
def Mem.moveBlock (m : Mem) (f : Nat) (l : Loc) : Mem :=
  let a := unhash l
  let r := retiredLoc f l
  let m1 := (List.range 2048).foldl (fun (m : Mem) i => m.moveByte f { l with off := l.off + i }) m
  let m2 := m1.mergeMts (l.stack * 32 + f) (r.stack * 32 + r.ch)
  { m2 with
    dead := ((List.range 64).map (a / 32 + ·)).filter (fun x => m.lostMoving (32 * x)) ++ m2.dead.filter fun x => x / 64 ≠ a / 2048,
    bad := m2.bad.filter fun w => !(w / 2048 = r.key / 2048 || w / 2048 = l.key / 2048),
    chans := m2.chans.map fun q => if q.lines.any fun n => n / 16 = a / 2048 then { q with ch := r.stack * 32 + r.ch } else q }

/-- A frame has come to another slice with its block (R69, R73): its set there keeps within its ways. -/
def Mem.settleFrame (m : Mem) (line : Nat) : Mem := if m.lines.any fun x => x.line / 16 = line / 16 then m.makeRoom line else m

/-- BLOCK_REBUILD (R69, R70, R94): the block at RBPTR moves with what its slice holds; a sector that cannot be rebuilt is poison. -/
def execBlockRebuild (stack : Nat) (s : State) : Out :=
  .next (if s.mem.mode stack ≠ 1 then s
    else
      let f := s.mem.rch stack
      let p := s.mem.rbptr stack
      let l : Loc := ⟨stack, f, p * 2048⟩
      let lost := (List.range 64).any fun i => s.mem.lostMoving (unhash l + 32 * i) && !s.mem.valid ((unhash l + 32 * i) / 128)
      let m3 := ((s.mem.moveBlock f l).setMst stack 25 20 (p + 1)).settleFrame (unhash l / 128)
      let s1 : State := { s with mem := if lost then m3.note 7 stack else m3 }
      if p + 1 < 1015808 then s1.flushLog
      else
        let m4 := m3.setMst stack 18 2 2
        let s2 : State := { s1 with mem := { m4 with failed := m4.failed.filter fun x => x ≠ (stack, f), notes := s1.mem.notes } }
        ((s2.onSvc fun v => { v with rdymap := v.rdymap &&& ~~~ BitVec.ofNat 768 (2 ^ (192 + stack * 32 + f)) }).note 1 stack).flushLog)

/-! Failures and self-test (R71, R72) -/

/-- Whether a channel is its stack's retired or retiring one (R69). -/
def Mem.isRetired (m : Mem) (stack c : Nat) : Bool :=
  c = m.rch stack && (m.mode stack = 1 || (m.mode stack ≠ 0 && m.rbptr stack ≥ 1015808))

/-- DATA_CHANNEL_FAILURE (R71): an unretired data channel that R69 does not absorb. -/
def execDataChannelFailure (stack c : Nat) (s : State) : Out :=
  .next (if !(stack < 16 && c < 32) || s.mem.failed.contains (stack, c) || s.mem.isRetired stack c then s
    else
      let rest := if s.mem.mode stack = 1 then [(stack, s.mem.rch stack)] else []
      let m := (s.mem.setMst stack 10 4 (s.mem.mst stack 10 4 ||| 2 ^ (c / 8))).setMst stack 18 2 3
      ({ s with mem := { m with failed := (stack, c) :: rest ++ m.failed } }.note 2 stack).flushLog)

/-- PARITY_CHANNEL_FAILURE (R71). -/
def execParityChannelFailure (stack g : Nat) (s : State) : Out :=
  .next (if stack < 16 && g < 4 && !s.mem.pfail stack g then
      ({ s with mem := s.mem.setMst stack (14 + g) 1 1 }.note 2 stack).flushLog
    else s)

/-- The first address of a bank of a data channel, as a place. -/
def bankLoc (stack ch bank : Nat) : Loc := ⟨stack, ch, bank * 2 ^ 24⟩

/-- Whether a word of HBM lies in a bank. -/
def inBank (l : Loc) (w : Nat) : Bool := l.key ≤ w && w < l.key + 2 ^ 24

/-- A slice stops caching for a test of a bank and takes the bank in (R72, steps 1 and 2): its dirty lines are written back, lines
outside the bank leave, and what needs a rebuild, for the channel's failure or an uncorrectable word, is rebuilt or its sector is poison
(R63, R71). -/
def Mem.copyBank (m : Mem) (stack ch bank : Nat) : Mem :=
  let l := bankLoc stack ch bank
  let m1 := m.flushSlice (stack * 32 + ch)
  let out := (m1.lines.map (·.line)).filter fun n => m1.slice (n * 128) = stack * 32 + ch && !inBank l (m1.locate (n * 128)).key
  let m2 := out.foldl (fun (m : Mem) n => m.evictLine n) m1
  let offs := if m2.failed.contains (stack, ch) then (List.range 524288).map (32 * ·) else (m2.bad.filter (inBank l)).map (· - l.key)
  let place (o : Nat) : Nat := unhash { l with off := l.off + o }
  let lost := ((offs.map place).filter fun a => m2.rebuildFails a && !m2.lines.any fun x => x.line = a / 128).map (· / 32)
  { m2 with dead := lost ++ m2.dead.filter (fun x => !lost.contains x), poison := lost ++ m2.poison.filter fun x => !lost.contains x }

/-- BANK_SELF_TEST (R72): never while MODE is 1, one bank of a stack at a time. -/
def execBankSelfTest (stack ch bank : Nat) (s : State) : Out :=
  .next (if stack < 16 && ch < 36 && bank < 128 && s.mem.mode stack ≠ 1 && s.mem.mst stack 9 1 = 0 then
      let m := if ch < 32 then s.mem.copyBank stack ch bank else s.mem
      ({ s with mem := ((m.setMst stack 9 1 1).setMst stack 45 6 ch).setMst stack 0 7 bank } : State).flushLog
    else s)

/-- BANK_SELF_TEST_END (R72, steps 4 to 6): the slice's contents go back to the bank; a bank that cannot be repaired is reported. -/
def execBankSelfTestEnd (stack : Nat) (repaired : Bool) (s : State) : Out :=
  .next (if !(stack < 16) || s.mem.mst stack 9 1 = 0 then s
    else
      let ch := s.mem.mst stack 45 6
      let l := bankLoc stack ch (s.mem.mst stack 0 7)
      let m0 := s.mem.flushParked
      let m1 := (if ch < 32 then m0.flushSlice (stack * 32 + ch) else m0).setMst stack 9 1 0
      let m2 := ((m1.poison.map fun x => x / 4).eraseDups).foldl (fun (m : Mem) n => m.forgetLine n) m1
      if repaired then { s with mem := { m2 with bad := m2.bad.filter fun w => !inBank l w } }
      else ({ s with mem := m2 }.note 8 stack).flushLog)

/-! Operations at slices (R75, R177, R181, R332) -/

/-- Performs an entry of a group's store buffer when it is of a kind. -/
def State.performIf (s : State) (t e : Nat) (kind : SbEntry → Bool) : State :=
  s.forGroup t fun s => if s.g.sb.any fun x => x.id = e && kind x then (s.performEntry e).flushLog else s

/-- An atomic or compare-and-swap. -/
def SbEntry.isRmw (e : SbEntry) : Bool := match e.op with
  | .op _ (.rmw ..) => true
  | _ => false
/-- A contribution. -/
def SbEntry.isRed (e : SbEntry) : Bool := match e.op with
  | .op _ (.red ..) => true
  | _ => false
/-- An insertion. -/
def SbEntry.isTki (e : SbEntry) : Bool := match e.op with
  | .op _ (.tki ..) => true
  | _ => false
/-- A bulk deque operation. -/
def SbEntry.isBulk (e : SbEntry) : Bool := match e.op with
  | .op _ (.bulk ..) => true
  | _ => false

/-- MEMSIDE_OPERATION (R75). -/
def execMemsideOperation (t e : Nat) (s : State) : Out := .next (s.performIf t e SbEntry.isRmw)
/-- RED_CONTRIBUTION (R177). -/
def execRedContribution (t e : Nat) (s : State) : Out := .next (s.performIf t e SbEntry.isRed)
/-- TKI_INSERTION (R181). -/
def execTkiInsertion (t e : Nat) (s : State) : Out := .next (s.performIf t e SbEntry.isTki)
/-- DEQUE_OPERATION (R183, R332). -/
def execDequeOperation (t e : Nat) (s : State) : Out := .next (s.performIf t e SbEntry.isBulk)

/-- LEASE_WRITE (R97, R105): a store or operation on a LEASE line is performed at its home. -/
def execLeaseWrite (t e : Nat) (s : State) : Out := .next (s.performIf t e fun x => x.leaseLine.isSome)

/-- ACKNOWLEDGEMENT (R97, R148, R149). -/
def execAcknowledgement (t e : Nat) (s : State) : Out := .next (s.forGroup t fun s => (s.acknowledge e).flushLog)

/-- KEY_PURGE_COMPLETE (R82): no line tagged with the key is left. -/
def execKeyPurgeComplete (slot : Nat) (s : State) : Out :=
  .next (if s.mem.keys.any (fun k => k.slot = slot && k.st = .purge) && !s.mem.tags.any (fun x => x.2.toNat = slot) then
      { s with mem := { s.mem with keys := s.mem.keys.filter fun k => k.slot ≠ slot } }
    else s)

end Sys2Proof.Machine
end

