-- ==== Sys2Proof/Machine/CohEvents.lean ====
section
/-! DEFINITION. Events of coherence and translation: the directory's transactions (R84 to R92), the host (R104, R384), leases and the
timestamp floor (R95 to R101), page walks and heat (R112, R121). Values do not depend on when these events come (R84, R88): they move
states, records and bytes between the places that hold them. -/
namespace Sys2Proof.Machine

/-! Requests at the home (R84 to R87) -/

/-- The transaction in progress on the unit of an address. -/
def Mem.txnAt (m : Mem) (u : Nat) : Option Txn := m.txns.find? fun t => t.addr ≤ u && u < t.addr + grainSize t.grain

/-- The open transactions of a unit come off the list. -/
def Mem.closeTxn (m : Mem) (u : Nat) : Mem := { m with txns := m.txns.filter fun t => !(t.addr ≤ u && u < t.addr + grainSize t.grain) }

/-- Replaces the transaction on the unit of an address. -/
def Mem.putTxn (m : Mem) (t : Txn) : Mem := let m1 := m.closeTxn t.addr; { m1 with txns := t :: m1.txns }

/-- The quads of a presence vector, `q` apart. -/
def pvQuads (v : BitVec 32) (q : Nat) : List Nat := (List.range 32).filter fun i => v.getLsbD i && i ≠ q

/-- Ends a request by granting its unit (R87). The events name a quad, not its core: its first core takes the unit (log 42). -/
def Mem.finishTxn (m : Mem) (t : Txn) : Mem := (m.closeTxn t.addr).serveWhole t.kind t.addr t.req t.grain

/-- Serves a request in the state that the directory has for its unit (R87): at once, or by messages to other quads. -/
def Mem.serveTxn (m : Mem) (t : Txn) : Mem :=
  let u := m.unit t.addr
  let fwd : Option Nat := if (u.st = .x || u.st = .o) && u.owner ≠ t.req then some u.owner else none
  let inv := if t.kind ≠ 0 && (u.st = .s || u.st = .o) then pvQuads u.pv t.req else []
  if fwd.isNone && inv.isEmpty then m.finishTxn t else m.putTxn { t with fwd := fwd, inv := inv, acks := [], probes := [] }

/-- The victim entry of a quad for a unit. -/
def Mem.victimOf (m : Mem) (u q : Nat) : Option QuadLine := m.qlines.find? fun l => l.quad = q && l.victim && l.meets u 1

/-- The home's answer to a Put. -/
def Mem.answerPut (m : Mem) (l : QuadLine) (grant : Bool) : Mem :=
  { m with qlines := m.qlines.map fun x => if x = l then { x with granted := some grant } else x }

/-- A Put has its turn (R87, R90, R92): Grant for the owner and for a unit whose record was dropped, else Grant STALE. -/
def Mem.servePut (m : Mem) (l : QuadLine) (g : BitVec 2) (dirty : Bool) : Mem :=
  let r := m.unit l.addr
  let mine := (r.st = .x || r.st = .o) && r.owner = l.quad
  let lost := r.st = .u && m.dropCount l.addr ≠ 0
  let m1 := (if lost then m.setDrop l.addr (m.dropCount l.addr - 1) else m).answerPut l ((mine || lost) && !l.taken)
  if !(mine || lost) || l.taken then m1
  else if dirty then m1.putTxn ⟨l.addr, l.quad, 5, g, [], [], some l.quad, []⟩
  else if mine then m1.setUnit l.addr g ⟨.u, 0, 0⟩ else m1

/-- A request has its turn at its home (R84, R85, R90, R91): a unit without a record whose counter is not zero is first looked for. -/
def Mem.begin (m : Mem) (r : HomeReq) : Mem :=
  if r.kind = 6 || r.kind = 7 then
    match m.victimOf r.addr r.req with
    | some l => m.servePut l r.grain (r.kind = 7)
    | none => m
  else
    let b := unitBase r.addr r.grain
    let m1 := (m.regrain b r.grain).hostRecall b (grainSize r.grain)
    let t : Txn := ⟨b, r.req, r.kind, r.grain, [], [], none, []⟩
    if (m1.unit b).st = .u && m1.dropCount b ≠ 0 then m1.putTxn { t with probes := List.range 32 } else m1.serveTxn t

/-- Whether a request at a home concerns a range. -/
def HomeReq.meets (r : HomeReq) (a n : Nat) : Bool := r.addr < a + n && a < r.addr + grainSize r.grain

/-- Whether a request must wait: for a transaction on what it covers, or behind one of some requests that came before it (R84). -/
def Mem.mustWait (m : Mem) (r : HomeReq) (before : List HomeReq) : Bool :=
  let b := m.reqSpan r.addr r.grain
  m.txns.any (fun t => t.addr < b.1 + b.2 && b.1 < t.addr + grainSize t.grain) || before.any fun x => x.meets b.1 b.2

/-- The requests that wait have their turns, in order of arrival (R84, R92). -/
def Mem.serveQueue : Nat → Mem → Mem
  | 0, m => m
  | n + 1, m =>
    match m.queue.find? fun r => !m.mustWait r (m.queue.takeWhile fun x => x ≠ r) with
    | none => m
    | some r => (({ m with queue := m.queue.erase r } : Mem).begin r).serveQueue n

/-- Transactions have ended: what waited for them goes on. -/
def Mem.goOn (m : Mem) : Mem := m.serveQueue m.queue.length

/-- A request reaches its home (R84): it queues, and has its turn at once where nothing is before it. A quad has one request for a unit
at a time. -/
def Mem.arrive (m : Mem) (r : HomeReq) : Mem :=
  if m.queue.contains r || m.txns.any (fun t => t.req = r.req && t.addr = r.addr) then m
  else ({ m with queue := m.queue ++ [r] } : Mem).goOn

/-- A GetS, GetM or Upg of a quad. -/
def Mem.request (m : Mem) (kind u r : Nat) (g : BitVec 2) : Mem :=
  if isOwn u && r < 32 && g ≠ 3 then m.arrive ⟨unitBase u g, r, kind, g⟩ else m

/-- GETS (R85 to R87, R91). -/
def execGets (u r : Nat) (g : BitVec 2) (s : State) : Out :=
  .next (if s.mem.hits u r g false then s else { s with mem := s.mem.request 0 u r g })
/-- GETM (R85 to R87, R91). -/
def execGetm (u r : Nat) (g : BitVec 2) (s : State) : Out :=
  .next (if s.mem.hits u r g true then s else { s with mem := s.mem.request 1 u r g })
/-- UPG (R85 to R87): from a quad that does not hold the unit, a GetM. -/
def execUpg (u r : Nat) (g : BitVec 2) (s : State) : Out :=
  .next (if s.mem.hits u r g true then s else { s with mem := s.mem.request 2 u r g })

/-! Answers of quads (R86, R87, R91) -/

/-- Whether every Inv of a transaction has been acknowledged. -/
def Txn.settled (t : Txn) : Bool := t.inv.isEmpty && t.acks.isEmpty

/-- A message that the owner of a unit answers, of the kinds `ks`. -/
def State.ownerAnswers (s : State) (u q : Nat) (ks : List Nat) : State :=
  match s.mem.txnAt u with
  | some t => if ks.contains t.kind && t.fwd = some q && t.settled then { s with mem := (s.mem.finishTxn t).goOn } else s
  | none => s

/-- FWDS (R86, R87). -/
def execFwds (u q : Nat) (s : State) : Out := .next (s.ownerAnswers u q [0])
/-- FWDM (R86, R87): sent when every sharer has acknowledged. -/
def execFwdm (u q : Nat) (s : State) : Out := .next (s.ownerAnswers u q [1, 2])
/-- RECALL (R86, R88, R90): a FwdM for the home itself. -/
def execRecall (u q : Nat) (s : State) : Out := .next (s.ownerAnswers u q [4])

/-- INV (R86, R92): the quad gives the unit up and acknowledges; its victim buffer keeps what waits there for a Grant. -/
def execInv (u q : Nat) (s : State) : Out :=
  .next (match s.mem.txnAt u with
    | some t =>
      if t.inv.contains q then
        let m := s.mem.putTxn { t with inv := t.inv.filter fun x => x ≠ q, acks := q :: t.acks }
        { s with mem := m.dropLines q t.addr (grainSize t.grain) }
      else s
    | none => s)

/-- INVACK (R87): with the last one the request goes on. -/
def execInvack (u q : Nat) (s : State) : Out :=
  .next (match s.mem.txnAt u with
    | some t =>
      if t.acks.contains q then
        let t1 := { t with acks := t.acks.filter fun x => x ≠ q }
        if t1.settled && t1.fwd.isNone then { s with mem := (s.mem.finishTxn t1).goOn } else { s with mem := s.mem.putTxn t1 }
      else s
    | none => s)

/-- PROBE (R91): a quad answers, from its victim buffer too. -/
def execProbe (u q : Nat) (s : State) : Out :=
  .next (match s.mem.txnAt u with
    | some t => if t.probes.contains q then { s with mem := s.mem.putTxn { t with probes := t.probes.filter fun x => x ≠ q } } else s
    | none => s)

/-- Whether a transaction waits for nothing but the end of its discovery. -/
def Txn.probed (t : Txn) : Bool := t.kind ≤ 2 && t.probes.isEmpty && t.settled && t.fwd.isNone

/-- DISCOVERY (R91): after all 32 answers the record is rebuilt, or stays U, and the request is served. -/
def execDiscovery (u : Nat) (s : State) : Out :=
  .next (match s.mem.txnAt u with
    | some t => if t.probed then { s with mem := ((s.mem.discover t.addr t.grain).serveTxn t).goOn } else s
    | none => s)

/-! Eviction and write-back (R90, R92) -/

/-- DIRECTORY_EVICTION (R90): X is dropped silently, the sharers of S are invalidated, the owner in O is recalled. -/
def execDirectoryEviction (u : Nat) (s : State) : Out :=
  .next (match s.mem.dirEntry u with
    | none => s
    | some e =>
      let b := unitBase u e.grain
      let r := s.mem.unit b
      if s.mem.mustWait ⟨b, 32, 4, e.grain⟩ s.mem.queue then s
      else
        match r.st with
        | .u => s
        | .x => if s.mem.dropCount b = 15 then s else { s with mem := (s.mem.setUnit b e.grain ⟨.u, 0, 0⟩).setDrop b (s.mem.dropCount b + 1) }
        | _ =>
          let t : Txn := ⟨b, 32, 4, e.grain, pvQuads r.pv 32, [], if r.st = .o then some r.owner else none, []⟩
          { s with mem := if t.inv.isEmpty && t.fwd.isNone then (s.mem.finishTxn t).goOn else s.mem.putTxn t })

/-- A unit leaves a quad (R86, R92): in S silently, else into the victim buffer of 16 entries, for one of which it waits. -/
def Mem.leaveQuad (m : Mem) (u q : Nat) : Mem :=
  match m.qline q u with
  | none => m
  | some l =>
    if l.victim then m
    else if l.st = .s then m.dropLines q l.addr l.size
    else if (m.qlines.filter fun x => x.quad = q && x.victim).length < 16 then
      { m with qlines := m.qlines.map fun x => if x = l then { x with victim := true, cores := [] } else x }
    else m

/-- QUAD_EVICTION (R86, R92, R98, R102): what the cores of a quad hold of the line leaves them, unless a region pins it (R339). -/
def execQuadEviction (u q : Nat) (s : State) : Out :=
  let cores := (List.range 4).map (4 * q + ·)
  .next (if cores.any fun c => (s.pinned c).contains (u / 128) then s
    else
      ({ s with mem := cores.foldl (fun (m : Mem) c => m.evictCopies c (u / 128)) (s.mem.leaveQuad u q) } : State).wrote
        (bytesMeet (cores.flatMap fun c => s.mem.noneDirty c fun x => x = u / 128)))

/-- A Put of a quad reaches the home of its unit (R84, R87, R92). -/
def State.put (s : State) (u q : Nat) (dirty : Bool) : State :=
  match s.mem.victimOf u q with
  | none => s
  | some l =>
    let g := ((s.mem.dirEntry l.addr).map (·.grain)).getD (if l.size = 32 then 0 else if l.size = 128 then 1 else 2)
    if l.granted.isSome || (l.st = .m || l.st = .o) ≠ dirty then s
    else { s with mem := s.mem.arrive ⟨l.addr, q, if dirty then 7 else 6, g⟩ }

/-- PUTE (R87, R92). -/
def execPute (u q : Nat) (s : State) : Out := .next (s.put u q false)
/-- PUTX (R87, R92). -/
def execPutx (u q : Nat) (s : State) : Out := .next (s.put u q true)

/-- An answer to a Put frees its victim entry (R92). -/
def State.freeVictim (s : State) (u q : Nat) (grant : Bool) : State :=
  match s.mem.victimOf u q with
  | none => s
  | some l => if l.granted = some grant then { s with mem := { s.mem with qlines := s.mem.qlines.filter fun x => x ≠ l } } else s

/-- GRANT (R92): the quad sends the dirty atoms of a PutX and frees the entry. -/
def execGrant (u q : Nat) (s : State) : Out := .next (s.freeVictim u q true)
/-- GRANT_STALE (R92). -/
def execGrantStale (u q : Nat) (s : State) : Out := .next (s.freeVictim u q false)

/-- DATA_PHASE (R87, R88, R92): the dirty atoms that follow a Grant reach the home's data array. -/
def execDataPhase (u q : Nat) (s : State) : Out :=
  .next (match s.mem.txnAt u with
    | some t =>
      if t.kind = 5 && t.fwd = some q && (s.mem.victimOf u q).isNone then { s with mem := ((s.mem.closeTxn t.addr).dataPhase t).goOn } else s
    | none => s)

/-! The host (R104, R105, R384) -/

/-- HOST_READ (R89, R104): the lines pass their slices in the clear, and nothing is installed. -/
def execHostRead (pa n : Nat) (s : State) : Out :=
  .next (if !isOwn pa || n = 0 then s
    else ({ s with mem := (List.range ((pa % 128 + n + 127) / 128)).foldl (fun (m : Mem) i =>
      if isOwn (pa + 128 * i) && !s.hostWaits (pa / 128 + i) then m.reach (pa / 128 + i) false 0 false else m) s.mem } : State).flushLog)

/-- The adapter takes its piece exclusively (R104): the quads give up its units, and its HOST bit is set. A block that its home does not
track gets an entry of GRAIN 0 (log 42). -/
def Mem.takePiece (m : Mem) (a : Nat) : Mem :=
  let b := a / 64 * 64
  let n := max 64 (((m.dirEntry b).map fun e => grainSize e.grain).getD 32)
  let m1 := (m.settleTxns (b / n * n) n).recallQuads (b / n * n) n
  let e := (m1.dirEntry b).getD { DirEntry.fresh (b / 512) 0 with sv := m1.sectorsHeld (b / 512) }
  m1.setEntry { e with host := e.host ||| BitVec.ofNat 8 (2 ^ (b % 512 / 64)) }

/-- Whether a line is known as a LEASE line: its home holds its timestamps, or a core a copy. -/
def Mem.leased (m : Mem) (line : Nat) : Bool := m.leases.any (fun x => x.line = line) || m.copies.any fun x => x.line = line

/-- What a host write leaves in HR and RSTAMP (R105): a LEASE line takes the writer's jump from HR. -/
def Mem.hostStamp (m : Mem) (line : Nat) : Mem :=
  let (m1, t) := if m.leased line then m.leaseJump line m.hr else (m, m.hr)
  let h := maxS m1.hr t
  { m1 with hr := h, rstamp := maxS m1.rstamp h }

/-- A host write within one 64-byte piece: performed at the home of a LEASE line (R105), else in the adapter's piece, whole atoms of which
are dirty (R88, R103, R104). -/
def State.hostPiece (s : State) (a : Nat) (bs : List Byte) : State :=
  let line := a / 128
  let s1 := s.conflictWrite line
  let m := s1.mem.reach line false 0 false
  let m1 := if m.leased line then m.sliceWriteBytes a bs
    else
      let m1 := m.takePiece a
      let m2 := (List.range ((a % 4 + bs.length + 3) / 4)).foldl (fun (m : Mem) i => { m with quad := m.atom (a + 4 * i) }) m1
      { m2 with quad := m2.quad.putBytes a bs }
  (({ s1 with mem := (m1.cleanSectors a bs.length).hostStamp line } : State).advanceFloor).wrote ((Target.mem a .dir 0 false 0).meets bs.length)

/-- The parts of a byte range at 64-byte pieces: offset and length of each. -/
def pieceParts (a n : Nat) : List (Nat × Nat) :=
  (List.range ((a % 64 + n + 63) / 64)).map fun i =>
    let off := if i = 0 then 0 else 64 * i - a % 64
    (off, min (n - off) (64 - (a + off) % 64))

/-- HOST_WRITE (R104, R105): of package memory, or by a host processor of its own memory. -/
def execHostWrite (pa : Nat) (data : List Byte) (s : State) : Out :=
  .next (if data.isEmpty then s
    else if isHost pa && nodeOf pa = 0 then { s with mem := { s.mem with ext := s.mem.ext.setBytes pa data } }
    else if !isOwn pa || !isOwn (pa + data.length - 1) ||
        (List.range ((pa % 128 + data.length + 127) / 128)).any fun i => s.hostWaits (pa / 128 + i) then s
    else ((pieceParts pa data.length).foldl (fun (s : State) x => s.hostPiece (pa + x.1) ((data.drop x.1).take x.2)) s).flushLog)

/-- The value that a host atomic writes (R384). -/
def hostAtomicValue (op : HostAtomicOp) (n : Nat) (x y : Word64) (old : Nat) : Nat :=
  match op with
  | .swap => x.toNat % 2 ^ (8 * n)
  | .add => (old + x.toNat) % 2 ^ (8 * n)
  | .cas => if old = x.toNat % 2 ^ (8 * n) then y.toNat % 2 ^ (8 * n) else old

/-- HOST_ATOMIC (R89, R105, R384): one indivisible access at the slice, with what a host write leaves. -/
def execHostAtomic (pa : Nat) (op : HostAtomicOp) (w64 : Bool) (x y : Word64) (s : State) : Out :=
  let n := if w64 then 8 else 4
  .next (if !isOwn pa || pa % n ≠ 0 || s.hostWaits (pa / 128) then s
    else
      (s.readWrite (.mem pa .dir 0 false 0) n (fun s => (({ s with mem := s.mem.hostStamp (pa / 128) } : State).advanceFloor, 0))
        fun old => some (hostAtomicValue op n x y old)).1.flushLog)

/-! Leases and logical time (R95, R96, R101) -/

/-- LEASE_RENEWAL (R96, R105): the home extends the lease, and a core with a CACHE-mode bank keeps the copy; it waits for a staged piece
(R76). -/
def execLeaseRenewal (core line : Nat) (pts : Stamp) (s : State) : Out :=
  .next (if s.hostWaits line || (nodeOf (line * 128) ≠ 0 && s.routeless (nodeOf (line * 128))) || isAbsent (line * 128) then s
    else
      let m0 := if isOwn (line * 128) then
          (s.mem.reach line (s.mem.tagOf line).isSome ((s.mem.tagOf line).getD 0) false).hostAside line else s.mem
      let (m, c) := m0.renew core line pts s.svc.lease
      let keep := s.cacheWays (core / 4) (core % 4) ≠ 0
      let s1 := ({ s with mem := if keep then m.setCopy c else m } : State).advanceFloor
      if keep then s1.fitCore core (line * 128) else s1)

/-- A store or atomic of a group of another package, of `n` bytes at their home, here or at a peer: on a LEASE line it takes the writer's jump
from its group's PTS (R97, R106; log 1). A peer has no DIR page of this memory (R83). -/
def State.peerAccess (s : State) (pa n : Nat) (coh : Coh) (pts : Stamp) (op : HostAtomicOp) (x y : Word64) : State :=
  if coh = .dir || !([1, 2, 4, 8].contains n) || pa % n ≠ 0 || isAbsent pa || isHost pa || s.hostWaits (pa / 128) then s
  else (s.indivisible (.mem pa coh 0 false 0) n pts fun old => some (hostAtomicValue op n x y old)).1.flushLog

/-- A load of a group of another package that renews its lease at the home, here or at a peer (R96, R106; log 1). -/
def State.peerLoad (s : State) (line : Nat) (pts : Stamp) (lease : BitVec 8) : State :=
  let pa := line * 128
  if isAbsent pa || isHost pa || s.hostWaits line then s
  else
    let m := if isOwn pa then (s.mem.reach line (s.mem.tagOf line).isSome ((s.mem.tagOf line).getD 0) false).hostAside line else s.mem
    ({ s with mem := (m.renew 0 line pts lease).1 } : State).advanceFloor

/-- One tick of a resident group, the instant being later than its placement or restoring (R95). -/
def Group.tick (n : Nat) (g : Group) : Group :=
  if g.present && (g.state = .resident || g.state = .retiring) && g.tickBase < n then { g with pts := g.pts + 1 } else g

/-- TICK (R95): at every common instant of 1,024 cycles. -/
def execTick (s : State) : Out :=
  .next (if s.svc.ticks < s.now / 1024 then
      let n := s.svc.ticks + 1
      let s1 : State := { s with g := s.g.tick n, others := s.others.map (Group.tick n) }
      ({ s1 with svc := { s1.svc with ticks := n }, mem := s1.groups.foldl (fun (m : Mem) g => m.seen g.pts) s1.mem } : State).advanceFloor
    else s)

/-- TMAX_EXCHANGE (R101): the values received from the domain. -/
def execTmaxExchange (received : List Stamp) (s : State) : Out :=
  .next ({ s with mem := received.foldl Mem.seen s.mem } : State).advanceFloor

/-- Raises the timestamps of a line to the floor. -/
def LeaseLine.raise (f : Stamp) (l : LeaseLine) : LeaseLine := { l with wts := maxS l.wts f, rts := maxS l.rts f }

/-- Raises a group's timestamps to the floor. -/
def Group.raise (f : Stamp) (g : Group) : Group :=
  if g.present && (g.state = .resident || g.state = .retiring) then { g with pts := maxS g.pts f, lct := maxS g.lct f } else g

/-- FLOOR_CATCHUP (R101, R105, R106). -/
def execFloorCatchup (s : State) : Out :=
  let f := s.svc.tfloor
  .next { s with
    g := s.g.raise f, others := s.others.map (Group.raise f),
    mem := { s.mem with leases := s.mem.leases.map (LeaseLine.raise f), hostLeases := s.mem.hostLeases.map (LeaseLine.raise f),
                        mts := s.mem.mts.map fun x => { x with mts := maxS x.mts f }, mtsBase := maxS s.mem.mtsBase f,
                        hostMts := maxS s.mem.hostMts f, rstamp := maxS s.mem.rstamp f, hr := maxS s.mem.hr f,
                        copies := s.mem.copies.filter fun c => leS f c.rts } }

/-! Translation (R112, R115, R121) -/

/-- PAGE_WALK (R112, R115, R121): a walk that succeeds fills the TLBs; a cause is taken by the access that needs it (R114). -/
def execPageWalk (t : Nat) (va : Word64) (k : AccessKind) (s : State) : Out :=
  .next (s.forGroup t fun s =>
    if s.walkHeld s.g va k then s
    else
      match s.lookup s.g va k with
      | .ok m => s.noteAccess s.g va m k
      | .error _ => s)

/-- What a sweep makes of a page entry (R121). -/
def sweptEntry (e : Nat) : Nat :=
  e - (if bits e 60 2 ≠ 0 then 2 ^ 60 else 0) - (if bits e 62 2 ≠ 0 then 2 ^ 62 else 0)

/-- Sweeps one leaf or block. -/
def Mem.sweepEntry (m : Mem) (a : Nat) : Mem :=
  let e := m.peek a 8
  if bits e 52 1 = 1 && sweptEntry e ≠ e then (m.reach (a / 128) false 0 false).sliceWriteBytes a (leBytes 8 (sweptEntry e)) else m

/-- Sweeps the leaves of a level-3 table; of a contiguous run only the first entry counts (R111). -/
def Mem.sweepLeaves (m : Mem) (t : Nat) : Mem :=
  (List.range 8192).foldl (fun (m : Mem) j =>
    if j % 32 ≠ 0 && bits (m.peek (t + 8 * j) 8) 58 1 = 1 then m else m.sweepEntry (t + 8 * j)) m

/-- Sweeps the blocks of a level-2 table. -/
def Mem.sweepBlocks (m : Mem) (t : Nat) : Mem :=
  (List.range 8192).foldl (fun (m : Mem) i => if m.peek (t + 8 * i) 8 % 8 ≠ 0 then m.sweepEntry (t + 8 * i) else m) m

/-- The tables that the pointers of a table name. -/
def State.tablesBelow (s : State) (t : Nat) : List Nat :=
  (List.range 8192).filterMap fun i =>
    let e := s.mem.peek (t + 8 * i) 8
    if bits e 52 1 = 1 && s.isPointer (e - 2 ^ 52) then some (s.frameAddr (bits e 16 36)) else none

/-- HEAT_SWEEP (R107, R121): one pass over an address space whose SWEEP is not 0, once none of its tables waits (R70, R76, R383). -/
def execHeatSweep (asn : Nat) (s : State) : Out :=
  let d := s.svc.astb.toNat + 32 * (asn % 4096)
  let dw := s.mem.peek d 8
  .next (if s.hostWaits (d / 128) || dw % 2 = 0 || s.mem.peek (d + 16) 2 = 0 then s
    else
      let root := bits dw 16 36 * 2 ^ 16
      let second := (s.tablesBelow root).eraseDups
      let third := (second.flatMap s.tablesBelow).eraseDups
      if (root :: second ++ third).any fun t => (List.range 512).any fun i => s.hostWaits (t / 128 + i) then s
      else { s with mem := third.foldl Mem.sweepLeaves (second.foldl Mem.sweepBlocks s.mem) })

end Sys2Proof.Machine
end

