-- ==== Sys2Proof/Machine/ScalarAlu.lean ====
section
/-! DEFINITION. The arithmetic, logic and constant instructions of the scalar stream (R305 to R308). -/
namespace Sys2Proof.Machine

/-- The result of a `salu` function `f` of D, A and B in its 64-bit or `.w` form (R305). -/
def saluResult (f : (n : Nat) → BitVec n → BitVec n → BitVec n → BitVec n) (w : Bool) (d a b : Word64) : Word64 :=
  if w then (f 32 (d.setWidth 32) (a.setWidth 32) (b.setWidth 32)).signExtend 64 else f 64 d a b

/-- A `salu` function of two sources, and of D as a third where it reads it (R305). -/
def salu (f : (n : Nat) → BitVec n → BitVec n → BitVec n → BitVec n) (d a b : BitVec 6) (w : Bool) (s : State) : State :=
  withRegs [d, a, b] (fun s => (s.setS d (saluResult f w (s.sreg d) (s.sreg a) (s.sreg b))).advance) s

/-- A `salu` function of one source (R305). -/
def salu1 (f : (n : Nat) → BitVec n → BitVec n) (d a : BitVec 6) (w : Bool) (s : State) : State :=
  withRegs [d, a] (fun s => (s.setS d (saluResult (fun n _ x _ => f n x) w 0 (s.sreg a) 0)).advance) s

/-- 1 or 0. -/
def flagWord (n : Nat) (c : Bool) : BitVec n := BitVec.ofNat n (if c then 1 else 0)

/-- `sdiv` (R305, R306). -/
def sdivF (n : Nat) (_ a b : BitVec n) : BitVec n :=
  if b = 0 then if a.slt 0 then BitVec.intMin n else BitVec.intMax n else a.sdiv b
/-- `srem` (R305, R306). -/
def sremF (n : Nat) (_ a b : BitVec n) : BitVec n := if b = 0 then a else a.srem b
/-- High half of the signed product. -/
def smulhF (n : Nat) (_ a b : BitVec n) : BitVec n := BitVec.ofInt n (a.toInt * b.toInt / 2 ^ n)
/-- Leading zero bits. -/
def leadingZeros (n : Nat) (a : BitVec n) : BitVec n := BitVec.ofNat n (if a = 0 then n else n - 1 - Nat.log2 a.toNat)
/-- Number of one bits. -/
def oneBits (n : Nat) (a : BitVec n) : BitVec n := BitVec.ofNat n ((List.range n).filter a.getLsbD).length

/-- The field that `sbfx` takes out of A under a control word (R306). -/
def bitField (n : Nat) (a : BitVec n) (pos len : Nat) (u : Bool) : BitVec n :=
  let k := min len n
  let x : Int := if u then a.toNat else a.toInt
  let y := x / 2 ^ pos % 2 ^ k
  if k = 0 then 0 else BitVec.ofInt n (if !u && y ≥ 2 ^ (k - 1) then y - 2 ^ k else y)

/-- D with a field replaced from A (R306). -/
def bitInsert (n : Nat) (d a : BitVec n) (pos len : Nat) : BitVec n :=
  let m := BitVec.ofNat n ((2 ^ min len n - 1) * 2 ^ pos)
  (d &&& ~~~ m) ||| (BitVec.ofNat n (a.toNat * 2 ^ pos) &&& m)

/-- `sbfx` with its control word in B. -/
def sbfxF (n : Nat) (_ a b : BitVec n) : BitVec n := bitField n a (b.toNat % 256) (b.toNat / 256 % 256) (b.getLsbD 16)
/-- `sbfi` with its control word in B. -/
def sbfiF (n : Nat) (d a b : BitVec n) : BitVec n := bitInsert n d a (b.toNat % 256) (b.toNat / 256 % 256)

/-- SADD (R305). -/
def execSadd (d a b : BitVec 6) (w : Bool) (s : State) : Out := .next (salu (fun _ _ x y => x + y) d a b w s)
/-- SSUB (R305). -/
def execSsub (d a b : BitVec 6) (w : Bool) (s : State) : Out := .next (salu (fun _ _ x y => x - y) d a b w s)
/-- SMUL (R305). -/
def execSmul (d a b : BitVec 6) (w : Bool) (s : State) : Out := .next (salu (fun _ _ x y => x * y) d a b w s)
/-- SMULH (R305). -/
def execSmulh (d a b : BitVec 6) (w : Bool) (s : State) : Out := .next (salu smulhF d a b w s)
/-- SDIV (R305, R306). -/
def execSdiv (d a b : BitVec 6) (w : Bool) (s : State) : Out := .next (salu sdivF d a b w s)
/-- SREM (R305, R306). -/
def execSrem (d a b : BitVec 6) (w : Bool) (s : State) : Out := .next (salu sremF d a b w s)
/-- SAND (R305). -/
def execSand (d a b : BitVec 6) (w : Bool) (s : State) : Out := .next (salu (fun _ _ x y => x &&& y) d a b w s)
/-- SOR (R305). -/
def execSor (d a b : BitVec 6) (w : Bool) (s : State) : Out := .next (salu (fun _ _ x y => x ||| y) d a b w s)
/-- SXOR (R305). -/
def execSxor (d a b : BitVec 6) (w : Bool) (s : State) : Out := .next (salu (fun _ _ x y => x ^^^ y) d a b w s)
/-- SSHL (R305). -/
def execSshl (d a b : BitVec 6) (w : Bool) (s : State) : Out := .next (salu (fun n _ x y => x <<< (y.toNat % n)) d a b w s)
/-- SSHR (R305). -/
def execSshr (d a b : BitVec 6) (w : Bool) (s : State) : Out := .next (salu (fun n _ x y => x >>> (y.toNat % n)) d a b w s)
/-- SSRA (R305). -/
def execSsra (d a b : BitVec 6) (w : Bool) (s : State) : Out :=
  .next (salu (fun n _ x y => x.sshiftRight (y.toNat % n)) d a b w s)
/-- SMIN (R305). -/
def execSmin (d a b : BitVec 6) (w : Bool) (s : State) : Out :=
  .next (salu (fun _ _ x y => if y.slt x then y else x) d a b w s)
/-- SMAX (R305). -/
def execSmax (d a b : BitVec 6) (w : Bool) (s : State) : Out :=
  .next (salu (fun _ _ x y => if x.slt y then y else x) d a b w s)
/-- SCLZ (R305). -/
def execSclz (d a : BitVec 6) (w : Bool) (s : State) : Out := .next (salu1 leadingZeros d a w s)
/-- SPOP (R305). -/
def execSpop (d a : BitVec 6) (w : Bool) (s : State) : Out := .next (salu1 oneBits d a w s)
/-- SMOV (R305). -/
def execSmov (d a : BitVec 6) (w : Bool) (s : State) : Out := .next (salu1 (fun _ x => x) d a w s)
/-- SSEL (R305). -/
def execSsel (d a b : BitVec 6) (w : Bool) (s : State) : Out :=
  .next (salu (fun _ z x y => if z ≠ 0 then x else y) d a b w s)
/-- SSET_EQ (R305). -/
def execSsetEq (d a b : BitVec 6) (w : Bool) (s : State) : Out := .next (salu (fun n _ x y => flagWord n (x = y)) d a b w s)
/-- SSET_NE (R305). -/
def execSsetNe (d a b : BitVec 6) (w : Bool) (s : State) : Out := .next (salu (fun n _ x y => flagWord n (x ≠ y)) d a b w s)
/-- SSET_LT (R305). -/
def execSsetLt (d a b : BitVec 6) (w : Bool) (s : State) : Out := .next (salu (fun n _ x y => flagWord n (x.slt y)) d a b w s)
/-- SSET_GE (R305). -/
def execSsetGe (d a b : BitVec 6) (w : Bool) (s : State) : Out :=
  .next (salu (fun n _ x y => flagWord n (!x.slt y)) d a b w s)
/-- SSET_LTN (R305). -/
def execSsetLtn (d a b : BitVec 6) (w : Bool) (s : State) : Out := .next (salu (fun n _ x y => flagWord n (x.ult y)) d a b w s)
/-- SSET_GEN (R305). -/
def execSsetGen (d a b : BitVec 6) (w : Bool) (s : State) : Out :=
  .next (salu (fun n _ x y => flagWord n (!x.ult y)) d a b w s)
/-- SBFX (R306). -/
def execSbfx (d a b : BitVec 6) (w : Bool) (s : State) : Out := .next (salu sbfxF d a b w s)
/-- SBFI (R306). -/
def execSbfi (d a b : BitVec 6) (w : Bool) (s : State) : Out := .next (salu sbfiF d a b w s)

/-- An instruction with an immediate (R307). -/
def saluImm (f : Word64 → Word64) (d a : BitVec 6) (s : State) : State :=
  withRegs [d, a] (fun s => (s.setS d (f (s.sreg a))).advance) s

/-- SADDI (R307). -/
def execSaddi (d a : BitVec 6) (imm : BitVec 14) (s : State) : Out := .next (saluImm (· + imm.signExtend 64) d a s)
/-- SANDI (R307). -/
def execSandi (d a : BitVec 6) (imm : BitVec 14) (s : State) : Out := .next (saluImm (· &&& imm.signExtend 64) d a s)
/-- SORI (R307). -/
def execSori (d a : BitVec 6) (imm : BitVec 14) (s : State) : Out := .next (saluImm (· ||| imm.signExtend 64) d a s)
/-- SXORI (R307). -/
def execSxori (d a : BitVec 6) (imm : BitVec 14) (s : State) : Out := .next (saluImm (· ^^^ imm.signExtend 64) d a s)
/-- SSHLI (R307). -/
def execSshli (d a imm : BitVec 6) (s : State) : Out := .next (saluImm (· <<< imm.toNat) d a s)
/-- SSHRI (R307). -/
def execSshri (d a imm : BitVec 6) (s : State) : Out := .next (saluImm (· >>> imm.toNat) d a s)
/-- SSRAI (R307). -/
def execSsrai (d a imm : BitVec 6) (s : State) : Out := .next (saluImm (BitVec.sshiftRight · imm.toNat) d a s)
/-- SMULI (R307). -/
def execSmuli (d a : BitVec 6) (imm : BitVec 14) (s : State) : Out := .next (saluImm (· * imm.signExtend 64) d a s)

/-- A constant form, a function of the old s[D] (R308). -/
def saluConst (f : Word64 → Word64) (d : BitVec 6) (s : State) : State :=
  withRegs [d] (fun s => (s.setS d (f (s.sreg d))).advance) s

/-- SLO (R308). -/
def execSlo (d : BitVec 6) (imm : BitVec 20) (s : State) : Out := .next (saluConst (fun _ => imm.signExtend 64) d s)
/-- SHI (R308). -/
def execShi (d : BitVec 6) (imm : BitVec 20) (s : State) : Out :=
  .next (saluConst (fun x => x.extractLsb' 40 24 ++ imm ++ x.extractLsb' 0 20) d s)
/-- SHX (R308). -/
def execShx (d : BitVec 6) (imm : BitVec 20) (s : State) : Out :=
  .next (saluConst (fun x => imm.signExtend 24 ++ x.extractLsb' 0 40) d s)

end Sys2Proof.Machine
end

