-- ==== Sys2Proof/Machine/Control.lean ====
section
/-! DEFINITION. Scalar control flow, lane runs and the scalar access to lane and group state (R309 to R317). -/
namespace Sys2Proof.Machine

/-- Continues the scalar stream at an address (R310). -/
def State.jump (s : State) (a : Word64) : State := s.setG fun g => { g with spc := a, wait := none, noWatch := false }

/-- The target of a branch: PC + 4 × offset (R309). -/
def branchTarget {n : Nat} (pc : Word64) (off : BitVec n) : Word64 := pc + 4 * off.signExtend 64

/-- The conditions of `sbc` and `wword` (R309). -/
def condHolds (c : Cond) (a b : Word64) : Bool :=
  match c with
  | .eq => a = b
  | .ne => a ≠ b
  | .lt => a.slt b
  | .ge => !a.slt b
  | .ltn => a.ult b
  | .gen => !a.ult b

/-- SBR (R309). -/
def execSbr (off : BitVec 20) (s : State) : Out := .next (s.jump (branchTarget s.g.spc off))

/-- SCALL (R309, R310). -/
def execScall (d : BitVec 6) (off : BitVec 20) (s : State) : Out :=
  .next (withRegs [d] (fun s => (s.setS d (s.g.spc + 4)).jump (branchTarget s.g.spc off)) s)

/-- SRET (R309, R310). -/
def execSret (a : BitVec 6) (s : State) : Out :=
  .next (withRegs [a] (fun s => if (s.sreg a).toNat % 4 = 0 then s.jump (s.sreg a)
    else s.scalarFault .align {} (s.sreg a)) s)

/-- SBC (R309). -/
def execSbc (c : Cond) (a b : BitVec 6) (off : BitVec 11) (s : State) : Out :=
  .next (withRegs [a, b] (fun s => if condHolds c (s.sreg a) (s.sreg b) then s.jump (branchTarget s.g.spc off)
    else s.advance) s)

/-- SLOOP (R309). -/
def execSloop (a : BitVec 6) (off : BitVec 11) (s : State) : Out :=
  .next (withRegs [a] (fun s =>
    let x := s.sreg a - 1
    if x ≠ 0 then (s.setS a x).jump (branchTarget s.g.spc off) else (s.setS a x).advance) s)

/-- SEXIT (R311). -/
def execSexit (s : State) : Out := .next s.sexit

/-- REGROUP (R301, R312): the group stands at its `regroup`; REGROUP_MOVE continues it. -/
def execRegroup (p : BitVec 3) (s : State) : Out := .next (s.setG fun g => { g with regroupAt := some p })

/-- Whether `lrun` need not stall (R313). -/
def Group.lrunReady (g : Group) (c : Option (Fin 12)) : Bool :=
  g.runs.length < 4 && match c with
    | some f => g.c[f].toNat < 63
    | none => true

/-- A lane run with its snapshots (R313). -/
def Group.newRun (g : Group) (c : Option (Fin 12)) (idx : BitVec 20) : LaneRun := ⟨idx, c, g.s, g.x, g.a⟩

/-- LRUN (R313): stalls while four runs are queued or executing or the flag's counter is at 63. -/
def execLrun (c : Option (Fin 12)) (idx : BitVec 20) (s : State) : Out :=
  if s.g.lrunReady c then
    .next ((s.setG fun g =>
      let g1 : Group := { g with runs := g.runs ++ [g.newRun c idx] }
      match c with
      | some f => g1.incC f
      | none => g1).advance)
  else .next s

/-- Whether every counter of a mask is zero (R314). -/
def Group.clear (g : Group) (m : BitVec 12) : Bool :=
  (List.finRange 12).all fun i => !m.getLsbD i || g.c[i] = 0

/-- CWAIT (R314): stalls until every named counter is zero. -/
def execCwait (m : BitVec 12) (s : State) : Out := .next (if s.g.clear m then s.advance else s)

/-- SGET (R315). -/
def execSget (d a : BitVec 6) (f : BitVec 8) (s : State) : Out :=
  .next (withRegs [d, a] (fun s =>
    if f.toNat < s.g.vAllot then (s.setS d ((s.g.vreg f.toNat ((s.sreg a).toNat % s.g.width)).setWidth 64)).advance
    else s.scalarFault .regbound) s)

/-- What `sgetp` reads (R30, R316). -/
def Group.pkx (g : Group) : Pkx → Word64
  | .p i => g.preg i
  | .k i => g.k[i.toNat] &&& g.full
  | .x i => g.x[i.toNat].setWidth 64

/-- What `sputp` writes (R12, R30, R316); a k register's join is tested again. -/
def Group.setPkx (g : Group) (r : Pkx) (x : Word64) : Group :=
  match r with
  | .p i => g.setP i g.full x
  | .k i => (({ g with k := g.k.setIfInBounds i.toNat (x &&& g.full) }).testJoin i.toNat).settle
  | .x i => { g with x := g.x.setIfInBounds i.toNat (x.setWidth 8) }

/-- SGETP (R316). -/
def execSgetp (d : BitVec 6) (r : Pkx) (s : State) : Out :=
  .next (withRegs [d] (fun s => (s.setS d (s.g.pkx r)).advance) s)

/-- SPUTP (R316). -/
def execSputp (r : Pkx) (a : BitVec 6) (s : State) : Out :=
  .next (withRegs [a] (fun s => (s.setG fun g => g.setPkx r (g.sreg a)).advance) s)

/-- SGETN (R317): n[i] exists when q[i] does (R10). -/
def execSgetn (d : BitVec 6) (n : BitVec 4) (s : State) : Out :=
  .next (withRegs [d] (fun s =>
    if n.toNat < s.g.qAllot then (s.setS d (s.g.n[n.toNat].signExtend 64)).advance else s.scalarFault .regbound) s)

/-- SPUTN (R317). -/
def execSputn (n : BitVec 4) (a : BitVec 6) (s : State) : Out :=
  .next (withRegs [a] (fun s =>
    if n.toNat < s.g.qAllot then
      (s.setG fun g => { g with n := g.n.setIfInBounds n.toNat ((g.sreg a).setWidth 32) }).advance
    else s.scalarFault .regbound) s)

end Sys2Proof.Machine
end

