-- ==== Sys2Proof/WellFormed.lean ====
section
/-! DEFINITION. Well-formed instructions: those some word of the manual encodes. -/
namespace Sys2Proof

/-- Whether an instruction is one that the manual assigns (R23 to R47). The events of the engines and of the outside world
have no word and no rule that shuts one out. -/
def Instr.wf (i : Instr) : Bool :=
  match i.lane? with
  | some ow => laneLegal ow.1 ow.2
  | none =>
    match i with
    | .clauseStart h => headerLegal h
    | _ => scalarLegal i

end Sys2Proof
end

