-- ==== Sys2Proof/Decode.lean ====
section
/-! DEFINITION. Decoding of scalar words (R22 to R28), lane words (R31), clause headers (R40) and repeat prefixes (R44),
total on any bytes and rejecting by name (R47), and after it the encoder, written from the same tables. -/
namespace Sys2Proof

/-- Why bytes are no instruction; each of them traps ILLEGAL (R47). -/
inductive DecodeError
  /-- Fewer or more bytes than a word has (R20). -/
  | length
  /-- A reserved OP of the scalar stream (R25). -/
  | reservedScalarOp
  /-- A reserved OP of the lane stream, or an unassigned function of `fexp` or `vote` (R39, R203, R227). -/
  | reservedLaneOp
  /-- A field that must be zero is not (R23, R47). -/
  | unusedField
  /-- A function, condition, scope or ordering code that is not assigned (R24 to R28). -/
  | function
  /-- A register number that names no register of its class (R23). -/
  | register
  /-- An immediate outside its range (R25). -/
  | immediate
  /-- A type code above 19 (R33). -/
  | typeCode
  /-- A combination of fields that the instruction's description does not assign. -/
  | combination
deriving DecidableEq, Repr

/-- Goes on when `b` holds, and rejects with `e` otherwise. -/
def require (b : Bool) (e : DecodeError) (k : Except DecodeError Instr) : Except DecodeError Instr :=
  if b then k else .error e

/-- The scope that a code names (R28). -/
def Scope.ofCode (c : BitVec 3) : Option Scope :=
  match c.toNat with
  | 0 => some .grp | 1 => some .wg | 2 => some .quad | 3 => some .die | 4 => some .pkg | 5 => some .dom | 6 => some .sys | _ => none

/-- The code of a scope (R28). -/
def Scope.code : Scope → BitVec 3
  | .grp => 0 | .wg => 1 | .quad => 2 | .die => 3 | .pkg => 4 | .dom => 5 | .sys => 6

/-- The ordering modifier that a code names (R162). -/
def Ord.ofCode (c : BitVec 2) : Ord :=
  match c.toNat with
  | 0 => .plain | 1 => .acq | 2 => .rel | _ => .ar

/-- The code of an ordering modifier (R162). -/
def Ord.code : Ord → BitVec 2
  | .plain => 0 | .acq => 1 | .rel => 2 | .ar => 3

/-- The condition that a COND names (R25). -/
def Cond.ofCode (c : BitVec 3) : Option Cond :=
  match c.toNat with
  | 0 => some .eq | 1 => some .ne | 2 => some .lt | 3 => some .ge | 4 => some .ltn | 5 => some .gen | _ => none

/-- The COND of a condition (R25). -/
def Cond.code : Cond → BitVec 3
  | .eq => 0 | .ne => 1 | .lt => 2 | .ge => 3 | .ltn => 4 | .gen => 5

/-- The register that a class code and a field name in `sgetp` and `sputp` (R27). -/
def Pkx.ofCode (fn : BitVec 8) (x : BitVec 6) : Except DecodeError Pkx :=
  match fn.toNat with
  | 0 => if x.toNat < 8 then .ok (.p (x.extractLsb' 0 3)) else .error .register
  | 1 => if x.toNat < 8 then .ok (.k (x.extractLsb' 0 3)) else .error .register
  | 2 => if x.toNat < 4 then .ok (.x (x.extractLsb' 0 2)) else .error .register
  | _ => .error .function

/-- The class code of R27. -/
def Pkx.fn : Pkx → BitVec 8
  | .p _ => 0 | .k _ => 1 | .x _ => 2

/-- The register field of a predicate, rejoin mask or index register. -/
def Pkx.field : Pkx → BitVec 6
  | .p i => i.setWidth 6
  | .k i => i.setWidth 6
  | .x i => i.setWidth 6

/-- The completion flag that the D field of `lrun` names (R23): 0 to 11, or none for 63. -/
def lrunFlag (d : BitVec 6) : Option (Option (Fin 12)) :=
  if h : d.toNat < 12 then some (some ⟨d.toNat, h⟩) else if d = 63#6 then some none else none

/-- Bits of a scalar word at `lo`, `n` wide. -/
def fld (w : BitVec 32) (lo n : Nat) : BitVec n := w.extractLsb' lo n

/-- The functions of `salu` (R26). -/
def decodeSalu (d a b : BitVec 6) (fn : BitVec 8) : Except DecodeError Instr :=
  let w := fn.getLsbD 7
  require (fn.extractLsb' 5 2 = 0#2) .function <|
  match (fn.extractLsb' 0 5).toNat with
  | 0x00 => .ok (.sadd d a b w)
  | 0x01 => .ok (.ssub d a b w)
  | 0x02 => .ok (.smul d a b w)
  | 0x03 => .ok (.smulh d a b w)
  | 0x04 => .ok (.sdiv d a b w)
  | 0x05 => .ok (.srem d a b w)
  | 0x06 => .ok (.sand d a b w)
  | 0x07 => .ok (.sor d a b w)
  | 0x08 => .ok (.sxor d a b w)
  | 0x09 => .ok (.sshl d a b w)
  | 0x0A => .ok (.sshr d a b w)
  | 0x0B => .ok (.ssra d a b w)
  | 0x0C => .ok (.smin d a b w)
  | 0x0D => .ok (.smax d a b w)
  | 0x0E => require (b = 0#6) .unusedField (.ok (.sclz d a w))
  | 0x0F => require (b = 0#6) .unusedField (.ok (.spop d a w))
  | 0x10 => require (b = 0#6) .unusedField (.ok (.smov d a w))
  | 0x11 => .ok (.ssel d a b w)
  | 0x12 => .ok (.ssetEq d a b w)
  | 0x13 => .ok (.ssetNe d a b w)
  | 0x14 => .ok (.ssetLt d a b w)
  | 0x15 => .ok (.ssetGe d a b w)
  | 0x16 => .ok (.ssetLtn d a b w)
  | 0x17 => .ok (.ssetGen d a b w)
  | 0x18 => .ok (.sbfx d a b w)
  | 0x19 => .ok (.sbfi d a b w)
  | _ => .error .function

/-- `satom` (R162): OPF selects the operation. -/
def decodeSatom (d a b : BitVec 6) (fn : BitVec 8) : Except DecodeError Instr :=
  let o := Ord.ofCode (fn.extractLsb' 3 2)
  let w := fn.getLsbD 2
  match Scope.ofCode (fn.extractLsb' 5 3) with
  | none => .error .function
  | some sc =>
    match (fn.extractLsb' 0 2).toNat with
    | 0 => require (b = 0#6) .unusedField (.ok (.satomLd d a o sc w))
    | 1 => require (d = 0#6) .unusedField (.ok (.satomSt a b o sc w))
    | 2 => .ok (.satomSwap d a b o sc w)
    | _ => .ok (.satomAdd d a b o sc w)

/-- `scas` (R162). -/
def decodeScas (d a b : BitVec 6) (fn : BitVec 8) : Except DecodeError Instr :=
  match Scope.ofCode (fn.extractLsb' 5 3) with
  | none => .error .function
  | some sc =>
    require (fn.extractLsb' 0 2 = 0#2) .function (.ok (.scas d a b (Ord.ofCode (fn.extractLsb' 3 2)) sc (fn.getLsbD 2)))

/-- The Porter commands (R184, R185). -/
def decodePorter (op : Nat) (p a b : BitVec 6) (fn : BitVec 8) : Except DecodeError Instr :=
  let v := fn.getLsbD 0
  require (fn.extractLsb' 1 7 = 0#7) .function <|
  match op with
  | 0x28 => .ok (.pcopy p a b v)
  | 0x29 => .ok (.pgather p a b v)
  | 0x2A => .ok (.pscatter p a b v)
  | 0x2B => require (!v) .function (.ok (.pfill p a b))
  | 0x2C => require (!v) .function (.ok (.plodge p a b))
  | 0x2D => require (!v) .function (.ok (.ppush p a b))
  | _ => require (b = 0#6) .unusedField (.ok (.pcancel p a v))

/-- A field of class m, p or a: eight registers (R23). -/
def reg3 (x : BitVec 6) (k : BitVec 3 → Except DecodeError Instr) : Except DecodeError Instr :=
  if x.toNat < 8 then k (x.extractLsb' 0 3) else .error .register

/-- A field of class h or n: sixteen registers (R23). -/
def reg4 (x : BitVec 6) (k : BitVec 4 → Except DecodeError Instr) : Except DecodeError Instr :=
  if x.toNat < 16 then k (x.extractLsb' 0 4) else .error .register

/-- The functions of OP 0x35 (R27). -/
def decodeMma (d a b : BitVec 6) (fn : BitVec 8) : Except DecodeError Instr :=
  reg3 d fun m => reg4 a fun x => reg4 b fun y =>
  match fn.toNat with
  | 0 => .ok (.mma m x y)
  | 1 => .ok (.mmab m x y)
  | 2 => .ok (.mmas m x y)
  | 3 => .ok (.mmac m x y)
  | _ => .error .function

/-- The functions of OP 0x3B (R27). -/
def decodeSync (d a b : BitVec 6) (fn : BitVec 8) : Except DecodeError Instr :=
  let zd := require (d = 0#6) .unusedField
  let za := require (a = 0#6) .unusedField
  let zb := require (b = 0#6) .unusedField
  match fn.toNat with
  | 0x00 => zd (.ok (.bini a b))
  | 0x01 => .ok (.bara d a b)
  | 0x02 => .ok (.barw d a b)
  | 0x03 => .ok (.barx d a b)
  | 0x04 => .ok (.wword d a b)
  | 0x05 => zd (za (zb (.ok .yield)))
  | 0x06 => zd (.ok (.dqinit a b))
  | 0x07 => .ok (.dqpush d a b)
  | 0x08 => zb (.ok (.dqpop d a))
  | 0x09 => zb (.ok (.dqsteal d a))
  | 0x0A => zd (zb (.ok (.rbeg a)))
  | 0x0B => za (zb (.ok (.rend d)))
  | 0x0C => zd (zb (.ok (.rabort a)))
  | 0x0D => zb (.ok (.rstat d a))
  | 0x0E => .ok (.tdecl d a b)
  | 0x0F => .ok (.bkmode d a b)
  | _ => .error .function

/-- The functions of OP 0x3C (R27). -/
def decodeLaunch (d a b : BitVec 6) (fn : BitVec 8) : Except DecodeError Instr :=
  match fn.toNat with
  | 0 => require (b = 0#6) .unusedField (.ok (.launch d a))
  | 1 => .ok (.evsig d a b)
  | 2 => .ok (.evwait d a b)
  | _ => .error .function

/-- The functions of OP 0x3D (R27). -/
def decodeSys (d a b : BitVec 6) (fn : BitVec 8) : Except DecodeError Instr :=
  let zd := require (d = 0#6) .unusedField
  let za := require (a = 0#6) .unusedField
  let zb := require (b = 0#6) .unusedField
  match fn.toNat with
  | 0 => zd (zb (.ok (.trap a)))
  | 1 => zd (zb (.ok (.sysret a)))
  | 2 => zd (za (zb (.ok .brk)))
  | 3 => zb (.ok (.sysrd d a))
  | 4 => zd (.ok (.syswr a b))
  | 5 => zb (.ok (.pgmap d a))
  | 6 => .ok (.tlbi d a b)
  | _ => .error .function

/-- The instruction of a scalar word by its fields alone (R22 to R28). -/
def decodeScalarFields (w : BitVec 32) : Except DecodeError Instr :=
  let d := fld w 20 6
  let a := fld w 14 6
  let b := fld w 8 6
  let fn := fld w 0 8
  let i14 := fld w 0 14
  let i20 := fld w 0 20
  let zd := require (d = 0#6) .unusedField
  let za := require (a = 0#6) .unusedField
  let zb := require (b = 0#6) .unusedField
  let zf := require (fn = 0#8) .function
  let shift := fun k : Except DecodeError Instr => require (i14.extractLsb' 6 8 = 0#8) .immediate k
  let i6 := i14.extractLsb' 0 6
  match (fld w 26 6).toNat with
  | 0x01 => decodeSalu d a b fn
  | 0x02 => .ok (.saddi d a i14)
  | 0x03 => .ok (.sandi d a i14)
  | 0x04 => .ok (.sori d a i14)
  | 0x05 => .ok (.sxori d a i14)
  | 0x06 => shift (.ok (.sshli d a i6))
  | 0x07 => shift (.ok (.sshri d a i6))
  | 0x08 => shift (.ok (.ssrai d a i6))
  | 0x09 => .ok (.smuli d a i14)
  | 0x0A => .ok (.slo d i20)
  | 0x0B => .ok (.shi d i20)
  | 0x0C => .ok (.shx d i20)
  | 0x10 => zd (.ok (.sbr i20))
  | 0x11 => .ok (.scall d i20)
  | 0x12 => zd (zb (zf (.ok (.sret a))))
  | 0x13 =>
    match Cond.ofCode (fld w 23 3) with
    | some c => .ok (.sbc c (fld w 17 6) (fld w 11 6) (fld w 0 11))
    | none => .error .function
  | 0x14 =>
    require (fld w 23 3 = 0#3) .function (require (fld w 11 6 = 0#6) .unusedField (.ok (.sloop (fld w 17 6) (fld w 0 11))))
  | 0x15 => zd (za (zb (zf (.ok .sexit))))
  | 0x16 => zd (zb (zf (reg3 a fun p => .ok (.regroup p))))
  | 0x18 =>
    match lrunFlag d with
    | some c => .ok (.lrun c i20)
    | none => .error .register
  | 0x19 => zd (require (fld w 12 8 = 0#8) .unusedField (.ok (.cwait (fld w 0 12))))
  | 0x1A => zb (.ok (.sget d a fn))
  | 0x1B =>
    zb (match Pkx.ofCode fn a with
        | .ok r => .ok (.sgetp d r)
        | .error e => .error e)
  | 0x1C =>
    zb (match Pkx.ofCode fn d with
        | .ok r => .ok (.sputp r a)
        | .error e => .error e)
  | 0x1D => zb (zf (reg4 a fun n => .ok (.sgetn d n)))
  | 0x1E => zb (zf (reg4 d fun n => .ok (.sputn n a)))
  | 0x20 => .ok (.sld d a (fld w 12 2) (fld w 0 12))
  | 0x21 => .ok (.sst d a (fld w 12 2) (fld w 0 12))
  | 0x22 => decodeSatom d a b fn
  | 0x23 => decodeScas d a b fn
  | 0x24 => zf (reg3 d fun n => .ok (.aset n a b))
  | 0x25 => za (zb (zf (reg3 d fun n => .ok (.aclr n))))
  | 0x26 =>
    zd (za (zb (require (fld w 3 5 = 0#5) .function
      (match Scope.ofCode (fld w 0 3) with
       | some sc => .ok (.fence sc)
       | none => .error .function))))
  | 0x27 => zd (za (zb (zf (.ok .orf))))
  | 0x28 => decodePorter 0x28 d a b fn
  | 0x29 => decodePorter 0x29 d a b fn
  | 0x2A => decodePorter 0x2A d a b fn
  | 0x2B => decodePorter 0x2B d a b fn
  | 0x2C => decodePorter 0x2C d a b fn
  | 0x2D => decodePorter 0x2D d a b fn
  | 0x2E => decodePorter 0x2E d a b fn
  | 0x30 => zb (zf (reg3 d fun m => .ok (.mtake m a)))
  | 0x31 => zb (zf (reg3 d fun m => .ok (.mgive m a)))
  | 0x32 => za (zb (zf (reg3 d fun m => .ok (.mfree m))))
  | 0x33 => za (zb (zf (reg3 d fun m => .ok (.mzero m))))
  | 0x34 => zb (zf (reg4 d fun h => .ok (.mth h a)))
  | 0x35 => decodeMma d a b fn
  | 0x36 => za (zb (zf (.ok (.mfence d))))
  | 0x37 => zd (zb (zf (.ok (.mwait a))))
  | 0x38 =>
    require (fld w 1 2 = 0#2) .function (reg3 d fun m => reg4 b fun h =>
      .ok (.mdrain m a h (fld w 4 4) (w.getLsbD 3) (w.getLsbD 0)))
  | 0x39 => zb (reg3 d fun m => .ok (.mrd m a fn))
  | 0x3A => zb (reg3 d fun m => .ok (.mwr m a fn))
  | 0x3B => decodeSync d a b fn
  | 0x3C => decodeLaunch d a b fn
  | 0x3D => decodeSys d a b fn
  | _ => .error .reservedScalarOp

/-- Rejects an instruction whose fields combine in a way its description does not assign. -/
def checked : Except DecodeError Instr → Except DecodeError Instr
  | .ok i => if i.wf then .ok i else .error .combination
  | .error e => .error e

/-- The instruction of a scalar word (R22 to R28). -/
def decodeScalar (w : BitVec 32) : Except DecodeError Instr := checked (decodeScalarFields w)

/-- The fields of a lane word other than OP (R31), with its type. -/
def laneFields (w : BitVec 96) (t : Ty) : LaneWord :=
  { neg := w.getLsbD 87, pred := w.extractLsb' 84 3, ty := t, fn := w.extractLsb' 73 6, d := w.extractLsb' 63 10,
    a := w.extractLsb' 53 10, b := w.extractLsb' 43 10, c := w.extractLsb' 33 10, xi := w.getLsbD 32,
    imm := w.extractLsb' 0 32 }

/-- The clause header of a word (R40). -/
def headerFields (w : BitVec 96) : ClauseHeader :=
  { wait := w.extractLsb' 76 12, s0v := w.getLsbD 75, s0f := w.extractLsb' 71 4, s1v := w.getLsbD 70,
    s1f := w.extractLsb' 66 4, len := w.extractLsb' 62 4, yh := w.getLsbD 61 }

/-- The repeat prefix of a word (R44). -/
def prefixFields (w : BitVec 96) : Prefix :=
  { cnt := w.extractLsb' 82 6, sd := w.extractLsb' 79 3, sa := w.extractLsb' 76 3, sb := w.extractLsb' 73 3,
    sc := w.extractLsb' 70 3 }

/-- The instruction of a lane word by its fields alone (R31 to R44). -/
def decodeLaneFields (w : BitVec 96) : Except DecodeError Instr :=
  let op : BitVec 8 := w.extractLsb' 88 8
  match op.toNat with
  | 0xFF => require (w.extractLsb' 0 61 = 0#61) .unusedField (.ok (.clauseStart (headerFields w)))
  | 0xFE => require (w.extractLsb' 0 70 = 0#70) .unusedField (.ok (.repeatPrefix (prefixFields w)))
  | _ =>
    match LaneOp.ofCode op (w.extractLsb' 73 6) with
    | none => .error .reservedLaneOp
    | some o =>
      match Ty.ofCode (w.extractLsb' 79 5).toNat with
      | none => .error .typeCode
      | some t => .ok (o.instr (laneFields w t))

/-- The instruction of a lane word (R31 to R44). -/
def decodeLane (w : BitVec 96) : Except DecodeError Instr := checked (decodeLaneFields w)

/-- The number that bytes stand for, the first byte least significant (R3). -/
def bytesToNat : List Byte → Nat
  | [] => 0
  | b :: bs => b.toNat + 256 * bytesToNat bs

/-- The `n` bytes of a number, the least significant first (R3). -/
def natToBytes : Nat → Nat → List Byte
  | 0, _ => []
  | n + 1, x => BitVec.ofNat 8 x :: natToBytes n (x / 256)

/-- The instruction of the bytes of one word: four bytes of the scalar section or twelve of the lane section (R20). -/
def decodeBytes (bs : List Byte) : Except DecodeError Instr :=
  if bs.length = 4 then decodeScalar (BitVec.ofNat 32 (bytesToNat bs))
  else if bs.length = 12 then decodeLane (BitVec.ofNat 96 (bytesToNat bs))
  else .error .length

/-- The instruction that the decoder reads from a word of `nbits` bits `w`, laid out as the hardware stores it: a scalar
word of 4 bytes or a lane word of 12 (R20). -/
def decodeTableWord (nbits w : Nat) : Option Instr :=
  match decodeBytes (natToBytes (nbits / 8) w) with
  | .ok i => some i
  | .error _ => none

/-- Format S-R (R22). -/
def sR (op d a b : BitVec 6) (fn : BitVec 8) : BitVec 32 := op ++ d ++ a ++ b ++ fn
/-- Format S-I (R22). -/
def sI (op d a : BitVec 6) (imm : BitVec 14) : BitVec 32 := op ++ d ++ a ++ imm
/-- Format S-W (R22). -/
def sW (op d : BitVec 6) (imm : BitVec 20) : BitVec 32 := op ++ d ++ imm
/-- Format S-B (R22). -/
def sB (op : BitVec 6) (c : BitVec 3) (a b : BitVec 6) (off : BitVec 11) : BitVec 32 := op ++ c ++ a ++ b ++ off
/-- Format S-M (R22). -/
def sM (op d a : BitVec 6) (z : BitVec 2) (off : BitVec 12) : BitVec 32 := op ++ d ++ a ++ z ++ off

/-- FN of `salu`: the width and the function (R26). -/
def saluFn (w : Bool) (f : BitVec 5) : BitVec 8 := BitVec.ofBool w ++ 0#2 ++ f

/-- FN of `satom` and `scas` (R162). -/
def satomFn (o : Ord) (sc : Scope) (w64 : Bool) (opf : BitVec 2) : BitVec 8 := sc.code ++ o.code ++ BitVec.ofBool w64 ++ opf

/-- The word of a scalar instruction (R22 to R28); none for every other instruction. -/
def encodeScalar : Instr → Option (BitVec 32)
  | .sadd d a b w => some (sR 0x01 d a b (saluFn w 0x00))
  | .ssub d a b w => some (sR 0x01 d a b (saluFn w 0x01))
  | .smul d a b w => some (sR 0x01 d a b (saluFn w 0x02))
  | .smulh d a b w => some (sR 0x01 d a b (saluFn w 0x03))
  | .sdiv d a b w => some (sR 0x01 d a b (saluFn w 0x04))
  | .srem d a b w => some (sR 0x01 d a b (saluFn w 0x05))
  | .sand d a b w => some (sR 0x01 d a b (saluFn w 0x06))
  | .sor d a b w => some (sR 0x01 d a b (saluFn w 0x07))
  | .sxor d a b w => some (sR 0x01 d a b (saluFn w 0x08))
  | .sshl d a b w => some (sR 0x01 d a b (saluFn w 0x09))
  | .sshr d a b w => some (sR 0x01 d a b (saluFn w 0x0A))
  | .ssra d a b w => some (sR 0x01 d a b (saluFn w 0x0B))
  | .smin d a b w => some (sR 0x01 d a b (saluFn w 0x0C))
  | .smax d a b w => some (sR 0x01 d a b (saluFn w 0x0D))
  | .sclz d a w => some (sR 0x01 d a 0 (saluFn w 0x0E))
  | .spop d a w => some (sR 0x01 d a 0 (saluFn w 0x0F))
  | .smov d a w => some (sR 0x01 d a 0 (saluFn w 0x10))
  | .ssel d a b w => some (sR 0x01 d a b (saluFn w 0x11))
  | .ssetEq d a b w => some (sR 0x01 d a b (saluFn w 0x12))
  | .ssetNe d a b w => some (sR 0x01 d a b (saluFn w 0x13))
  | .ssetLt d a b w => some (sR 0x01 d a b (saluFn w 0x14))
  | .ssetGe d a b w => some (sR 0x01 d a b (saluFn w 0x15))
  | .ssetLtn d a b w => some (sR 0x01 d a b (saluFn w 0x16))
  | .ssetGen d a b w => some (sR 0x01 d a b (saluFn w 0x17))
  | .sbfx d a b w => some (sR 0x01 d a b (saluFn w 0x18))
  | .sbfi d a b w => some (sR 0x01 d a b (saluFn w 0x19))
  | .saddi d a imm => some (sI 0x02 d a imm)
  | .sandi d a imm => some (sI 0x03 d a imm)
  | .sori d a imm => some (sI 0x04 d a imm)
  | .sxori d a imm => some (sI 0x05 d a imm)
  | .sshli d a imm => some (sI 0x06 d a (0#8 ++ imm))
  | .sshri d a imm => some (sI 0x07 d a (0#8 ++ imm))
  | .ssrai d a imm => some (sI 0x08 d a (0#8 ++ imm))
  | .smuli d a imm => some (sI 0x09 d a imm)
  | .slo d imm => some (sW 0x0A d imm)
  | .shi d imm => some (sW 0x0B d imm)
  | .shx d imm => some (sW 0x0C d imm)
  | .sbr off => some (sW 0x10 0 off)
  | .scall d off => some (sW 0x11 d off)
  | .sret a => some (sR 0x12 0 a 0 0)
  | .sbc c a b off => some (sB 0x13 c.code a b off)
  | .sloop a off => some (sB 0x14 0 a 0 off)
  | .sexit => some (sR 0x15 0 0 0 0)
  | .regroup p => some (sR 0x16 0 (0#3 ++ p) 0 0)
  | .lrun c idx => some (sW 0x18 (match c with | some f => BitVec.ofNat 6 f.val | none => 63#6) idx)
  | .cwait m => some (sW 0x19 0 (0#8 ++ m))
  | .sget d a f => some (sR 0x1A d a 0 f)
  | .sgetp d r => some (sR 0x1B d r.field 0 r.fn)
  | .sputp r a => some (sR 0x1C r.field a 0 r.fn)
  | .sgetn d n => some (sR 0x1D d (0#2 ++ n) 0 0)
  | .sputn n a => some (sR 0x1E (0#2 ++ n) a 0 0)
  | .sld d a z off => some (sM 0x20 d a z off)
  | .sst d a z off => some (sM 0x21 d a z off)
  | .satomLd d a o sc w => some (sR 0x22 d a 0 (satomFn o sc w 0))
  | .satomSt a b o sc w => some (sR 0x22 0 a b (satomFn o sc w 1))
  | .satomSwap d a b o sc w => some (sR 0x22 d a b (satomFn o sc w 2))
  | .satomAdd d a b o sc w => some (sR 0x22 d a b (satomFn o sc w 3))
  | .scas d a b o sc w => some (sR 0x23 d a b (satomFn o sc w 0))
  | .aset n a b => some (sR 0x24 (0#3 ++ n) a b 0)
  | .aclr n => some (sR 0x25 (0#3 ++ n) 0 0 0)
  | .fence sc => some (sR 0x26 0 0 0 (0#5 ++ sc.code))
  | .orf => some (sR 0x27 0 0 0 0)
  | .pcopy p a b v => some (sR 0x28 p a b (0#7 ++ BitVec.ofBool v))
  | .pgather p a b v => some (sR 0x29 p a b (0#7 ++ BitVec.ofBool v))
  | .pscatter p a b v => some (sR 0x2A p a b (0#7 ++ BitVec.ofBool v))
  | .pfill p a b => some (sR 0x2B p a b 0)
  | .plodge p a b => some (sR 0x2C p a b 0)
  | .ppush p a b => some (sR 0x2D p a b 0)
  | .pcancel d a l => some (sR 0x2E d a 0 (0#7 ++ BitVec.ofBool l))
  | .mtake m a => some (sR 0x30 (0#3 ++ m) a 0 0)
  | .mgive m a => some (sR 0x31 (0#3 ++ m) a 0 0)
  | .mfree m => some (sR 0x32 (0#3 ++ m) 0 0 0)
  | .mzero m => some (sR 0x33 (0#3 ++ m) 0 0 0)
  | .mth h a => some (sR 0x34 (0#2 ++ h) a 0 0)
  | .mma m a b => some (sR 0x35 (0#3 ++ m) (0#2 ++ a) (0#2 ++ b) 0)
  | .mmab m a b => some (sR 0x35 (0#3 ++ m) (0#2 ++ a) (0#2 ++ b) 1)
  | .mmas m a b => some (sR 0x35 (0#3 ++ m) (0#2 ++ a) (0#2 ++ b) 2)
  | .mmac m a b => some (sR 0x35 (0#3 ++ m) (0#2 ++ a) (0#2 ++ b) 3)
  | .mfence d => some (sR 0x36 d 0 0 0)
  | .mwait a => some (sR 0x37 0 a 0 0)
  | .mdrain m a h t b u => some (sR 0x38 (0#3 ++ m) a (0#2 ++ h) (t ++ BitVec.ofBool b ++ 0#2 ++ BitVec.ofBool u))
  | .mrd m a f => some (sR 0x39 (0#3 ++ m) a 0 f)
  | .mwr m a f => some (sR 0x3A (0#3 ++ m) a 0 f)
  | .bini a b => some (sR 0x3B 0 a b 0x00)
  | .bara d a b => some (sR 0x3B d a b 0x01)
  | .barw d a b => some (sR 0x3B d a b 0x02)
  | .barx d a b => some (sR 0x3B d a b 0x03)
  | .wword d a b => some (sR 0x3B d a b 0x04)
  | .yield => some (sR 0x3B 0 0 0 0x05)
  | .dqinit a b => some (sR 0x3B 0 a b 0x06)
  | .dqpush d a b => some (sR 0x3B d a b 0x07)
  | .dqpop d a => some (sR 0x3B d a 0 0x08)
  | .dqsteal d a => some (sR 0x3B d a 0 0x09)
  | .rbeg a => some (sR 0x3B 0 a 0 0x0A)
  | .rend d => some (sR 0x3B d 0 0 0x0B)
  | .rabort a => some (sR 0x3B 0 a 0 0x0C)
  | .rstat d a => some (sR 0x3B d a 0 0x0D)
  | .tdecl d a b => some (sR 0x3B d a b 0x0E)
  | .bkmode d a b => some (sR 0x3B d a b 0x0F)
  | .launch d a => some (sR 0x3C d a 0 0)
  | .evsig d a b => some (sR 0x3C d a b 1)
  | .evwait d a b => some (sR 0x3C d a b 2)
  | .trap a => some (sR 0x3D 0 a 0 0)
  | .sysret a => some (sR 0x3D 0 a 0 1)
  | .brk => some (sR 0x3D 0 0 0 2)
  | .sysrd d a => some (sR 0x3D d a 0 3)
  | .syswr a b => some (sR 0x3D 0 a b 4)
  | .pgmap d a => some (sR 0x3D d a 0 5)
  | .tlbi d a b => some (sR 0x3D d a b 6)
  | _ => none

/-- The word of a lane operation (R31). -/
def laneBits (op : LaneOp) (w : LaneWord) : BitVec 96 :=
  op.code ++ BitVec.ofBool w.neg ++ w.pred ++ w.ty.code ++ w.fn ++ w.d ++ w.a ++ w.b ++ w.c ++ BitVec.ofBool w.xi ++ w.imm

/-- The word of a clause header (R40). -/
def headerBits (h : ClauseHeader) : BitVec 96 :=
  0xFF#8 ++ h.wait ++ BitVec.ofBool h.s0v ++ h.s0f ++ BitVec.ofBool h.s1v ++ h.s1f ++ h.len ++ BitVec.ofBool h.yh ++ 0#61

/-- The word of a repeat prefix (R44). -/
def prefixBits (p : Prefix) : BitVec 96 := 0xFE#8 ++ p.cnt ++ p.sd ++ p.sa ++ p.sb ++ p.sc ++ 0#70

/-- The word of a lane instruction, a clause header or a repeat prefix; none for every other instruction. -/
def encodeLane : Instr → Option (BitVec 96)
  | .clauseStart h => some (headerBits h)
  | .repeatPrefix p => some (prefixBits p)
  | i => i.lane?.map fun ow => laneBits ow.1 ow.2

/-- The bytes of an instruction's word as memory holds them (R20); none for an event, which has no word. -/
def encode (i : Instr) : Option (List Byte) :=
  match encodeScalar i with
  | some w => some (natToBytes 4 w.toNat)
  | none => (encodeLane i).map fun w => natToBytes 12 w.toNat

end Sys2Proof
end

