-- ==== Sys2Proof/Machine/ScalarMem.lean ====
section
/-! DEFINITION. Scalar loads, stores and atomics, translation registers and fences (R119, R120, R161 to R164). -/
namespace Sys2Proof.Machine

/-- A translation fault of the scalar word that issues (R113). -/
def State.transFault (s : State) (f : TransFault) (va : Word64) : State := s.scalarFault f.cause f.info va

/-- Whether a watch register covers an access (R373). -/
def watches (w va : Word64) (n : Nat) (store : Bool) : Bool :=
  let len := min (w.extractLsb' 56 5).toNat 16
  let lo := w.toNat % 2 ^ 55 / 2 ^ len * 2 ^ len
  let a := va.toNat % 2 ^ 55
  w.getLsbD 63 && (if store then w.getLsbD 62 else w.getLsbD 61) && a < lo + 2 ^ len && lo < a + n

/-- Whether an access of the group raises WATCH (R369, R373). -/
def Group.watched (g : Group) (va : Word64) (n : Nat) (store : Bool) : Bool :=
  !g.hmode && !g.noWatch && (watches g.watch0 va n store || watches g.watch1 va n store)

/-- Goes on unless the access is watched (R373). -/
def State.unwatched (s : State) (va : Word64) (n : Nat) (store : Bool) (k : State) : State :=
  if s.g.watched va n store then s.scalarFault .watch {} va else k

/-- A load of the group's region waits: the region keeps the writers that it waits for (R340). -/
def State.keepStall (s s1 : State) : State :=
  match s1.region with
  | none => s
  | some r => { s with regions := s.regions.map fun x => if x.die = r.die && x.e = r.e then { x with stall := r.stall } else x }

/-- Takes what a scalar load answered (R161, R340). -/
def State.takeLoad (s : State) (r : State × LoadRes) (k : State → Nat → State) : State :=
  match r with
  | (s1, .ok bs) => k s1 (leNat bs)
  | (s1, .fault c) => s1.scalarFault c
  | (_, .abort c) => match s.region with
    | some g => s.abortRegion g c 0 0 false true
    | none => s
  | (s1, .wait) => s.keepStall s1

/-- A scalar load of `n` bytes whose address is aligned (R161): `k` takes the value. -/
def State.scalarLoad (s : State) (va : Word64) (n : Nat) (k : State → Nat → State) : State :=
  if inWindow va then
    match s.window s.g.caravan va n false with
    | .scratch b o =>
      s.unwatched va n false (s.unheld [.inl (scratchKey b o / 128)]
        (s.afterOps [.inl (scratchKey b o / 128)] (s.takeLoad (s, s.scratchAnswer b o n) k)))
    | .head b o =>
      s.unwatched va n false (s.fifoTurn b 1 0 fun s =>
        s.takeLoad (s, s.headAnswer b o n) k)
    | .fill b => s.unwatched va n false (k s (s.bank b).fill)
    | .free b => s.unwatched va n false (k s (s.bank b).free)
    | _ => s.scalarFault .nomap {} va
  else
    s.afterWalk va .load <| match s.place s.g va .load with
    | .error f => s.transFault f va
    | .ok p =>
      s.unwatched va n false
        (s.unheld [.inr (p.pa / 128)]
          (s.afterOps [.inr (p.pa / 128)] (s.takeLoad ((s.notePlace p .load).memLoad p n) k)))

/-- SLD (R161). -/
def execSld (d a : BitVec 6) (z : BitVec 2) (off : BitVec 12) (s : State) : Out :=
  .next (withRegs [d, a] (fun s =>
    let n := 2 ^ z.toNat
    let va := s.sreg a + off.signExtend 64 * BitVec.ofNat 64 n
    if va.toNat % n ≠ 0 then s.scalarFault .align {} va
    else s.scalarLoad va n fun s v => (s.setS d (BitVec.ofNat 64 v)).advance) s)

/-- A store of the group in focus that enters the store buffer, or stalls for want of room (R148). -/
def State.buffered (s : State) (bs : List (Target × Byte)) : State :=
  if s.g.sbRoom (bs.map fun x => x.1.line) 1 && !s.lineHeld (bs.map fun x => x.1.line) then
    (s.setG fun g => g.enqueue (.store bs) 1 (fpcScalar g.spc) 0).advance else s

/-- A scalar store of `n` bytes whose address is aligned (R161). `before` is what the instruction does before the store. -/
def State.scalarStore (s : State) (va : Word64) (n : Nat) (x : Word64) (before : State → State) : State :=
  let bs := leBytes n x.toNat
  if inWindow va then
    match s.window s.g.caravan va n true with
    | .scratch b o => s.unwatched va n true ((before s).buffered (bankTargets b o bs))
    | .tail b o =>
      s.unwatched va n true (s.fifoTurn b 0 1 fun s =>
        ((before s).setBankBytes b ((s.bank b).tail * (s.bank b).slotSize + o) bs).advance)
    | .pop b => s.unwatched va n true (s.fifoTurn b 1 0 fun s => ((before s).setBank (s.bank b).pop).advance)
    | .push b => s.unwatched va n true (s.fifoTurn b 0 1 fun s => ((before s).setBank (s.bank b).push).advance)
    | _ => s.scalarFault .nomap {} va
  else
    s.afterWalk va .store <| match s.place s.g va .store with
    | .error f => s.transFault f va
    | .ok p =>
      s.unwatched va n true
        (match s.region with
        | some r =>
          if p.coh ≠ .dir then s.abortRegion r .mode 0 0 false true
          else
            if !s.mem.keyServes p.pa p.enc p.key then s.deferFault ⟨.key, fpcScalar s.g.spc, 0, 0, 0, none⟩ s.g.hmode
            else
              match (s.notePlace p .store).regionStore r p bs with
              | .ok s1 => (s1.fit p.pa).advance
              | .error c => s.abortRegion r c 0 0 false true
        | none => ((before s).notePlace p .store).buffered (p.targets bs))

/-- SST (R161). -/
def execSst (d a : BitVec 6) (z : BitVec 2) (off : BitVec 12) (s : State) : Out :=
  .next (withRegs [d, a] (fun s =>
    let n := 2 ^ z.toNat
    let va := s.sreg a + off.signExtend 64 * BitVec.ofNat 64 n
    if va.toNat % n ≠ 0 then s.scalarFault .align {} va else s.scalarStore va n (s.sreg d) id) s)

/-- Whether an ordering modifier releases or acquires (R152). -/
def Ord.releases : Ord → Bool
  | .rel | .ar => true
  | _ => false
/-- Whether an ordering modifier acquires. -/
def Ord.acquires : Ord → Bool
  | .acq | .ar => true
  | _ => false

/-- Bytes of a scalar atomic (R163). -/
def atomSize (w64 : Bool) : Nat := if w64 then 8 else 4

/-- Whether an access takes its ordering modifier (R152, R337): in a live region one that is part of it, `part`, has none. -/
def State.ordered (s : State) (part : Bool) : Bool := s.region.isNone || !part

/-- The steps of an acquire after a value (R152, R337). -/
def State.acquireIf (s : State) (o : Ord) (sc : Scope) (part : Bool) : State :=
  if Ord.acquires o && s.ordered part then s.acquire sc else s

/-- Goes on once the fence of a release need not wait (R152, R337). -/
def State.afterRelease (s : State) (o : Ord) (sc : Scope) (part : Bool) (k : State) : State :=
  if Ord.releases o && s.ordered part && !s.fenceReady sc then s else k

/-- The fence of a release (R152). -/
def State.releaseIf (s : State) (o : Ord) (sc : Scope) (part : Bool) : State :=
  if Ord.releases o && s.ordered part then s.fence sc else s

/-- Whether a window access reaches a bank in FIFO mode, where no scalar atomic goes (R132, R163). -/
def State.atFifo (s : State) (va : Word64) (n : Nat) (store : Bool) : Bool :=
  inWindow va && !(s.window s.g.caravan va n store matches .scratch ..)

/-- SATOM_LD (R163). -/
def execSatomLd (d a : BitVec 6) (o : Ord) (sc : Scope) (w64 : Bool) (s : State) : Out :=
  .next (withRegs [d, a] (fun s =>
    let n := atomSize w64
    let va := s.sreg a
    if va.toNat % n ≠ 0 then s.scalarFault .align {} va
    else if s.atFifo va n false then s.scalarFault .nomap {} va
    else s.scalarLoad va n fun s v => ((s.setS d (BitVec.ofNat 64 v)).acquireIf o sc (!inWindow va)).advance) s)

/-- Whether a store or atomic to an address passes its checks (R163): nothing else is decided before the release's fence. -/
def State.addressFault (s : State) (va : Word64) (n : Nat) (store : Bool) (k : AccessKind) : Bool :=
  if inWindow va then
    match s.window s.g.caravan va n store with
    | .scratch .. => false
    | _ => true
  else
    match s.place s.g va k with
    | .error _ => true
    | .ok _ => false

/-- SATOM_ST (R163). -/
def execSatomSt (a b : BitVec 6) (o : Ord) (sc : Scope) (w64 : Bool) (s : State) : Out :=
  .next (withRegs [a, b] (fun s =>
    let n := atomSize w64
    let va := s.sreg a
    if va.toNat % n ≠ 0 then s.scalarFault .align {} va
    else if s.atFifo va n true then s.scalarFault .nomap {} va
    else if s.addressFault va n true .store || s.g.watched va n true then s.scalarStore va n (s.sreg b) id
    else s.afterRelease o sc (!inWindow va) (s.scalarStore va n (s.sreg b) fun s => s.releaseIf o sc (!inWindow va))) s)

/-- The result of an indivisible scalar access that has been acknowledged (R149, R163): `k` takes the old value; none where it met KEY
or POISON, which is deferred and leaves the destination as it was (R82, R169, R363). -/
def State.tookAtomic (s : State) (r : State × Except Cause (Nat × Stamp)) (k : State → Option Nat → State) : State :=
  match r with
  | (s1, .ok (old, st)) => k (s1.ackStamp st (s.acks s1)) (some old)
  | (s1, .error c) => k (s1.deferFault ⟨c, fpcScalar s.g.spc, 0, 0, 0, none⟩ s.g.hmode) none

/-- An indivisible scalar access (R163): the old value goes to s[d]. It takes its place in the store buffer, is performed and is
acknowledged in one step, since the scalar stream waits for it (R148, R155). -/
def State.scalarAtomic (s : State) (d : BitVec 6) (va : Word64) (o : Ord) (sc : Scope) (n : Nat) (f : Nat → Nat) : State :=
  let finish (note : State → State) (t : Target) : State :=
    s.unwatched va n true
      (s.unheld [t.line] (s.afterEntries [t.line] (s.afterRelease o sc false
        (if !s.g.sbRoom [t.line] 1 then s
         else
           let s1 := (note s).releaseIf o sc false
           s.tookAtomic (s1.indivisible t n s1.g.pts fun x => some (f x)) fun s v =>
             ((v.elim s fun x => s.setS d (BitVec.ofNat 64 x)).acquireIf o sc false).advance))))
  if va.toNat % n ≠ 0 then s.scalarFault .align {} va
  else if inWindow va then
    match s.window s.g.caravan va n true with
    | .scratch b off => finish id (.bank b off)
    | _ => s.scalarFault .nomap {} va
  else
    s.afterWalk va .atomic <| match s.place s.g va .atomic with
    | .error e => s.transFault e va
    | .ok p => finish (fun s => s.notePlace p .atomic) (.mem p.pa p.coh p.grain p.enc p.key)

/-- SATOM_SWAP (R163). -/
def execSatomSwap (d a b : BitVec 6) (o : Ord) (sc : Scope) (w64 : Bool) (s : State) : Out :=
  .next (withRegs [d, a, b] (outsideRegion fun s =>
    s.scalarAtomic d (s.sreg a) o sc (atomSize w64) fun _ => (s.sreg b).toNat % 2 ^ (8 * atomSize w64)) s)

/-- SATOM_ADD (R163). -/
def execSatomAdd (d a b : BitVec 6) (o : Ord) (sc : Scope) (w64 : Bool) (s : State) : Out :=
  .next (withRegs [d, a, b] (outsideRegion fun s =>
    s.scalarAtomic d (s.sreg a) o sc (atomSize w64) fun old => (old + (s.sreg b).toNat) % 2 ^ (8 * atomSize w64)) s)

/-- SCAS (R163). -/
def execScas (d a b : BitVec 6) (o : Ord) (sc : Scope) (w64 : Bool) (s : State) : Out :=
  .next (withRegs [d, a, b] (outsideRegion fun s =>
    let m := 2 ^ (8 * atomSize w64)
    s.scalarAtomic d (s.sreg a) o sc (atomSize w64) fun old => if old = (s.sreg d).toNat % m then (s.sreg b).toNat % m else old) s)

/-- ASET (R119). -/
def execAset (n : BitVec 3) (a b : BitVec 6) (s : State) : Out :=
  .next (withRegs [a, b] (fun s =>
    let va := s.sreg a
    let req := min (s.sreg b).toNat (2 ^ 29)
    let put (s : State) (r : TransReg) : State := (s.setG fun g => { g with a := g.a.setIfInBounds n.toNat r }).advance
    if req = 0 then put s { s.g.a[n.toNat] with v := false }
    else if inWindow va then s.scalarFault .nomap { detail := 1 } va
    else
      if s.formHeld s.g va then s else match s.formReg s.g.asn va req with
      | .error f => s.transFault f va
      | .ok r => put s r) s)

/-- ACLR (R120). -/
def execAclr (n : BitVec 3) (s : State) : Out :=
  .next ((s.setG fun g => { g with a := g.a.setIfInBounds n.toNat { g.a[n.toNat] with v := false, stale := false } }).advance)

/-- FENCE (R151, R164). -/
def execFence (sc : Scope) (s : State) : Out := .next (if s.fenceReady sc then (s.fence sc).advance else s)

/-- Whether a target is a byte of a bank. -/
def Target.bankByte : Target → Bool
  | .bank .. => true
  | .mem .. => false

/-- Whether an entry writes a bank. -/
def SbEntry.toBank (e : SbEntry) : Bool :=
  match e.op with
  | .store bs => bs.any fun x => x.1.bankByte
  | .op t _ => t.bankByte

/-- Whether every scratch write of the group has been performed at its port (R157). -/
def Group.orfReady (g : Group) : Bool := !g.sb.any fun e => !e.performed && e.toBank

/-- ORF (R157, R164): it waits for the group's own writes to banks. Every write that a bank port has performed by then is covered, whoever
made it (log 41). -/
def execOrf (s : State) : Out := .next (if s.g.orfReady then (s.setG fun g => { g with seen := s.mem.scratch }).advance else s)

end Sys2Proof.Machine
end

