-- ==== Sys2Proof/Machine/Fetch.lean ====
section
/-! DEFINITION. Fetching scalar words and lane words through translation (R20, R21). -/
namespace Sys2Proof.Machine

/-- What a fetch of one page answers: its place, or the cause. -/
def State.fetchPlace (s : State) (va : Word64) : Except TransFault Place :=
  if inWindow va then .error ⟨.nomap, 1, 0⟩ else s.place s.g va .fetch

/-- A fetch of `n` bytes for the group in focus, at most two pages (R21). A stopped key gives KEY and a failed check POISON (R82, R80).
Where the second page faults FADDR is the address of the last byte, which R113 leaves open (log 42). -/
def State.fetch (s : State) (va : Word64) (n : Nat) : State × Except (TransFault × Word64) (List Byte) :=
  let last := va + BitVec.ofNat 64 (n - 1)
  match s.fetchPlace va with
  | .error f => (s, .error (f, va))
  | .ok p =>
    match s.fetchPlace last with
    | .error f => (s, .error (f, last))
    | .ok q =>
      if !s.mem.keyServes p.pa p.enc p.key || !s.mem.keyServes q.pa q.enc q.key then (s, .error (⟨.key, 0, 0⟩, 0))
      else
        let s1 := (s.notePlace p .fetch).notePlace q .fetch
        let held (m : Mem) (r : Place) : Mem := if isOwn r.pa then m.reach (r.pa / 128) r.enc r.key false else m
        let m := held (held s1.mem p) q
        let s2 : State := { s1 with mem := m }
        let addrs := (List.range n).map fun i =>
          if va.toNat % 65536 + i < 65536 then p.pa + i else q.pa - (n - 1 - i)
        if addrs.any (s.poisoned m) then (s2, .error (⟨.poison, 0, 0⟩, 0)) else (s2, .ok (addrs.map m.byte))

/-- The lane base in force: the handler's in handler mode (R366). -/
def Group.laneBaseAddr (g : Group) : Word64 := if g.hmode then g.hbase else g.lbase

/-- The address of a lane word (R20). -/
def Group.laneAddr (g : Group) (i : BitVec 20) : Word64 := g.laneBaseAddr + 12 * i.setWidth 64

/-- Fetches and decodes the scalar word at the pc. -/
def State.fetchScalar (s : State) : State × Except (TransFault × Word64) (Except DecodeError Instr) :=
  match s.fetch s.g.spc 4 with
  | (s1, .ok bs) => (s1, .ok (decodeBytes bs))
  | (s1, .error f) => (s1, .error f)

/-- Fetches and decodes a lane word. -/
def State.fetchLane (s : State) (i : BitVec 20) : State × Except (TransFault × Word64) (Except DecodeError Instr) :=
  match s.fetch (s.g.laneAddr i) 12 with
  | (s1, .ok bs) => (s1, .ok (decodeBytes bs))
  | (s1, .error f) => (s1, .error f)

end Sys2Proof.Machine
end

