-- ==== Sys2Proof/Machine/Operands.lean ====
section
/-! DEFINITION. Lane operands (R34 to R37, R44, R45), who participates (R208), and how a lane instruction issues, commits and
moves on (R43, R48, R200, R202). -/
namespace Sys2Proof.Machine

/-- What a lane instruction sees when it issues: the group as it stands, the snapshot of its run (R14, rule 5), its place, its
word, the repetition and the steps of its prefix, and the participating lanes. -/
structure LaneCtx where
  g : Group
  run : LaneRun
  place : IssuePlace
  w : LaneWord
  j : Nat
  p : Prefix
  m : Mask

/-- The snapshot that lane instructions read (R14, rule 5). -/
def Group.snapshot (g : Group) : LaneRun := g.runs.head?.getD (g.newRun none 0)

/-- The lanes of a mask whose governing predicate is true (R32). -/
def Group.governed (g : Group) (w : LaneWord) (m : Mask) : Mask := m &&& (if w.neg then ~~~ g.preg w.pred else g.preg w.pred)

/-- The context of a lane word at a place (R208). -/
def Group.laneCtx (g : Group) (pl : IssuePlace) (w : LaneWord) : LaneCtx :=
  { g := g, run := g.snapshot, place := pl, w := w, j := (pl.rep.map (·.1)).getD 0,
    p := (pl.rep.map (·.2)).getD ⟨0, 0, 0, 0, 0⟩, m := g.governed w pl.mask &&& ~~~ g.fmask }

/-- The v register that a field of class v names, before a step (R34, R35). -/
def regIdx (r : LaneRun) (x : BitVec 10) : Nat :=
  let low := x.toNat % 256
  if x.toNat / 256 = 1 then low / 4 * 4 + (r.x[low % 4]?.getD 0).toNat else low

/-- A special operand (R36). -/
def Group.special (g : Group) (t : Ty) (code l : Nat) : Nat :=
  match code with
  | 0x00 => 0
  | 0x01 => 1
  | 0x02 => typedOne t
  | 0x10 => l
  | 0x11 => g.width
  | 0x12 => g.gidx
  | _ => g.wg % 2 ^ 32

/-- The exact binary64 code of binary32 bits, a NaN with its payload. -/
def widenF32 (x : Nat) : Nat :=
  match unpack .f32 x with
  | .nan s _ f => withSign .f64 s (infCode .f64 + f * 2 ^ 29)
  | .inf s => withSign .f64 s (infCode .f64)
  | .fin s m e => (roundExact .f64 1 false s m e).1

/-- IMM32 as an operand of a type (R37). -/
def immVal (t : Ty) (imm : Word32) : Nat :=
  match t with
  | .i64 => (imm.signExtend 64).toNat
  | .f64 => widenF32 imm.toNat
  | _ => imm.toNat

/-- An operand field of type `t`, moved by a step, in lane `l` (R34 to R37, R207). -/
def Group.operand (g : Group) (r : LaneRun) (t : Ty) (x : BitVec 10) (step l : Nat) : Nat :=
  let low := x.toNat % 256
  match x.toNat / 256 with
  | 2 => (r.s[low]?.getD 0).toNat % 2 ^ (if t.wide then 64 else 32)
  | 3 => g.special t low l
  | _ =>
    let k := regIdx r x + step
    (g.vreg k l).toNat + if t.wide then 2 ^ 32 * (g.vreg (k + 1) l).toNat else 0

/-- The step of a field in this repetition (R45). -/
def LaneCtx.stepOf (k : LaneCtx) (s : BitVec 3) : Nat := k.j * s.toNat

/-- Operand A in lane `l`. -/
def LaneCtx.a (k : LaneCtx) (t : Ty) (l : Nat) : Nat := k.g.operand k.run t k.w.a (k.stepOf k.p.sa) l
/-- Operand B, or IMM32 in its place, in lane `l`. -/
def LaneCtx.b (k : LaneCtx) (t : Ty) (l : Nat) : Nat :=
  if k.w.xi then immVal t k.w.imm else k.g.operand k.run t k.w.b (k.stepOf k.p.sb) l
/-- Operand C in lane `l`. -/
def LaneCtx.c (k : LaneCtx) (t : Ty) (l : Nat) : Nat := k.g.operand k.run t k.w.c (k.stepOf k.p.sc) l
/-- D read as an operand. -/
def LaneCtx.dSrc (k : LaneCtx) (t : Ty) (l : Nat) : Nat := k.g.operand k.run t k.w.d (k.stepOf k.p.sd) l
/-- The v register that D names. -/
def LaneCtx.dReg (k : LaneCtx) : Nat := regIdx k.run k.w.d + k.stepOf k.p.sd
/-- The v register that A names. -/
def LaneCtx.aReg (k : LaneCtx) : Nat := regIdx k.run k.w.a + k.stepOf k.p.sa
/-- The q register that D names. -/
def LaneCtx.dDir (k : LaneCtx) : Nat := k.w.d.toNat + k.stepOf k.p.sd
/-- The q register that A names. -/
def LaneCtx.aDir (k : LaneCtx) : Nat := k.w.a.toNat + k.stepOf k.p.sa
/-- The q register that B names. -/
def LaneCtx.bDir (k : LaneCtx) : Nat := k.w.b.toNat + k.stepOf k.p.sb

/-- The rounding mode of the instruction for a destination format (R38, R197). -/
def LaneCtx.mode (k : LaneCtx) (t : Ty) (rm : Nat) : Nat := modeOf k.g.cvm t rm
/-- The saturation of the instruction for a destination format (R38, R197). -/
def LaneCtx.sat (k : LaneCtx) (t : Ty) (sm : Nat) : Bool := satOf k.g.cvm t sm

/-! Checks at issue (R34, R35, R45, R47, R48) -/

/-- Whether a v indirect field names a register that its operand may not start at (R34, R35). -/
def fieldOdd (r : LaneRun) (f : Fld) (x : BitVec 10) : Bool :=
  match f with
  | .opnd o => x.toNat / 256 = 1 && regIdx r x % o.al ≠ 0
  | _ => false

/-- Whether a field stays within the allotment up to repetition `n` (R10, R45). -/
def Group.fieldIn (g : Group) (r : LaneRun) (f : Fld) (span : Nat) (x : BitVec 10) (last : Nat) : Bool :=
  match f with
  | .opnd o =>
    match x.toNat / 256 with
    | 2 => g.hasS (BitVec.ofNat 6 x.toNat)
    | 3 => true
    | _ => regIdx r x + last + o.span ≤ min 256 g.vAllot
  | .dir => x.toNat + last + span ≤ min 16 g.qAllot
  | _ => true

/-- The fields of a word with their uses and steps. -/
def laneFields (op : LaneOp) (w : LaneWord) (p : Prefix) : List (Fld × BitVec 10 × Nat) :=
  let h := laneShape op w
  [(h.d, w.d, p.sd.toNat), (h.a, w.a, p.sa.toNat), (if w.xi then .zero else h.b, w.b, p.sb.toNat), (h.c, w.c, p.sc.toNat)]

/-- The cause of R48 that keeps a lane word from issuing, before CONVERGE. -/
def LaneCtx.bars (k : LaneCtx) (op : LaneOp) : Option Cause :=
  let fs := laneFields op k.w k.p
  let h := laneShape op k.w
  let len := ((k.g.entry k.place.entry).map (·.len)).getD k.place.slot
  if !laneLegal op k.w || (LaneOp.lastOnly op && k.place.slot ≠ len) ||
      (k.place.rep.isSome && !prefixLegal k.p op k.w) || fs.any (fun f => fieldOdd k.run f.1 f.2.1) then some .illegal
  else if fs.any fun f => !k.g.fieldIn k.run f.1 h.span f.2.1 (k.p.cnt.toNat * f.2.2) then some .regbound
  else none

/-- Issues a lane instruction: the causes of R48, then its own meaning. Nothing happens where none issues. -/
def laneOp (op : LaneOp) (w : LaneWord) (body : LaneCtx → State → State) (s : State) : State :=
  match s.g.iss with
  | none => s
  | some pl =>
    let k := s.g.laneCtx pl w
    match k.bars op with
    | some c => s.laneFault c pl.mask
    | none => body k s

/-! Completion (R43, R200, R202) -/

/-- Writes everything that a lane instruction writes (R202). -/
def Group.commit (g : Group) (c : Commit) : Group :=
  let g1 := c.v.foldl (fun (g : Group) w => g.setV w.reg w.lane w.val) g
  let g2 := c.q.foldl (fun (g : Group) x => g.setQ x.1 x.2.1 x.2.2.1 x.2.2.2) g1
  let g3 := match c.n with
    | some (r, x) => { g2 with n := g2.n.setIfInBounds r x }
    | none => g2
  let g4 := match c.p with
    | some (r, m, x) => g3.setP r m x
    | none => g3
  g4.raiseFlags c.xf

/-- The group moves on after the lane instruction at a place has issued. -/
def Group.passed (g : Group) (pl : IssuePlace) : Group :=
  let g1 := g.popRedo
  if pl.redo then g1 else g1.laneNext pl.pslot

/-- The lanes of a commit that raise an enabled flag (R200). -/
def Group.trapLanes (g : Group) (c : Commit) : Mask :=
  c.xf.foldl (fun m x => if x.2 &&& g.xe = 0 then m else m ||| Mask.one x.1) 0

/-- The enabled flags that a commit raises (R200). -/
def Group.trapFlags (g : Group) (c : Commit) : Flags := c.xf.foldl (fun m x => m ||| (x.2 &&& g.xe)) 0

/-- A long-latency lane instruction goes into flight (R42, R43). -/
def Group.launchLong (g : Group) (pl : IssuePlace) (c : Commit) (waits : List Nat) (dst : Option Nat) (wide : Bool)
    (pred : Option (BitVec 3)) (late : Bool := false) : Group :=
  let f : InFlight := ⟨g.nextId, pl, c, waits, dst, wide, pred, g.xe, late, g.hmode⟩
  let g1 : Group := { g with inflight := g.inflight ++ [f], nextId := g.nextId + 1 }
  let g2 := if pl.redo then g1 else g1.joinEntry pl
  if f.holds then g2.popRedo else g2.passed pl

/-- The end of an arithmetic lane instruction (R200, R202, R43): FPX where an enabled flag is raised, else the writes, at once or at
completion. -/
def State.laneResult (s : State) (k : LaneCtx) (long : Bool) (c : Commit) : State :=
  let t := s.g.trapLanes c
  if t ≠ 0 then s.laneFault .fpx t { flags := s.g.trapFlags c }
  else s.setG fun g => if long then g.launchLong k.place c [] none false none else (g.commit c).passed k.place

/-- A lane instruction that computes its writes from the context (R202). -/
def laneAlu (op : LaneOp) (w : LaneWord) (body : LaneCtx → Commit) (s : State) : Out :=
  .next (laneOp op w (fun k s => s.laneResult k (LaneOp.long op) (body k)) s)

/-! Results -/

/-- The writes of one value of a type to a register of a lane (R34). -/
def vWrite (wide : Bool) (reg l x : Nat) : List VWrite :=
  VWrite.mk reg l (BitVec.ofNat 32 x) :: if wide then [VWrite.mk (reg + 1) l (BitVec.ofNat 32 (x / 2 ^ 32))] else []

/-- The commit of a value and flags in every participating lane. -/
def LaneCtx.each (k : LaneCtx) (wide : Bool) (f : Nat → Nat × Flags) : Commit :=
  let rs := k.m.lanes.map fun l => (l, f l)
  { v := rs.flatMap fun x => vWrite wide k.dReg x.1 x.2.1, xf := rs.map fun x => (x.1, x.2.2) }

/-- The commit of a predicate bit and flags in every participating lane. -/
def LaneCtx.eachBit (k : LaneCtx) (pd : Nat) (f : Nat → Bool × Flags) : Commit :=
  let rs := k.m.lanes.map fun l => (l, f l)
  { p := some (BitVec.ofNat 3 pd, k.m, rs.foldl (fun m x => if x.2.1 then m ||| Mask.one x.1 else m) 0),
    xf := rs.map fun x => (x.1, x.2.2) }

/-- A predicate of a field, negated by its bit 3, in lane `l` (R223, R224, R227). -/
def LaneCtx.predOf (k : LaneCtx) (x : BitVec 10) (l : Nat) : Bool :=
  (k.g.preg (x.extractLsb' 0 3)).getLsbD l != x.getLsbD 3

end Sys2Proof.Machine
end

