-- ==== Sys2Proof/Machine/LaneInt.lean ====
section
/-! DEFINITION. The integer family of the lane stream (R210 to R213). -/
namespace Sys2Proof.Machine

/-- A stored result as a register holds it: narrow signed types sign-extended to 32 bits (R207). -/
def widenInt (t : Ty) (x : Nat) : Nat := if t = .i8 || t = .i16 then wrapInt .i32 (toInt t x) else x

/-- The low bits of an operand that its type reads (R207). -/
def low (t : Ty) (x : Nat) : Nat := x % 2 ^ tyBits t

/-- An exact integer stored under clamp or wrap (R196, R211). -/
def intStore (t : Ty) (clamp : Bool) (r : Int) : Nat := widenInt t (storeInt t clamp r)

/-- A lane instruction whose exact integer result may be clamped (R211): `f` of A, B and C as integers. -/
def laneInt (op : LaneOp) (w : LaneWord) (f : Int → Int → Int → Int) (s : State) : Out :=
  laneAlu op w (fun k => k.each w.ty.wide fun l =>
    let x (v : Nat) : Int := toInt w.ty v
    (intStore w.ty (!w.ty.bits && k.sat w.ty w.sm) (f (x (k.a w.ty l)) (x (k.b w.ty l)) (x (k.c w.ty l))), 0)) s

/-- A lane instruction on bit patterns of N bits: `f` of N and the low bits of A, B and C (R211). -/
def laneBits (op : LaneOp) (w : LaneWord) (f : Nat → Nat → Nat → Nat → Nat) (s : State) : Out :=
  laneAlu op w (fun k => k.each w.ty.wide fun l =>
    (widenInt w.ty (low w.ty (f (tyBits w.ty) (low w.ty (k.a w.ty l)) (low w.ty (k.b w.ty l)) (low w.ty (k.c w.ty l)))), 0)) s

/-- A quotient or remainder with its flag (R212). -/
def laneDiv (op : LaneOp) (w : LaneWord) (zero : Int → Int) (f : Int → Int → Int) (s : State) : Out :=
  laneAlu op w (fun k => k.each w.ty.wide fun l =>
    let a := toInt w.ty (k.a w.ty l)
    let b := toInt w.ty (k.b w.ty l)
    if b = 0 then (intStore w.ty false (zero a), Flags.dz) else (intStore w.ty false (f a b), 0)) s

/-- pos and len of a field's control word (R212). -/
def fieldPos (b : Nat) : Nat := b % 256
/-- The length of a field, at most N (R212). -/
def fieldLen (n b : Nat) : Nat := min (b / 256 % 256) n

/-- `ibfx` (R212). -/
def ibfxVal (t : Ty) (a b : Nat) : Int :=
  let len := fieldLen (tyBits t) b
  let y := toInt t a / 2 ^ fieldPos b % 2 ^ len
  if t.signed && len ≠ 0 && y ≥ 2 ^ (len - 1) then y - 2 ^ len else y

/-- `ibfi` (R212). -/
def ibfiVal (n a b c : Nat) : Nat :=
  let len := fieldLen n b
  let pos := fieldPos b
  c % 2 ^ pos + 2 ^ pos * (a % 2 ^ len) + c / 2 ^ (pos + len) * 2 ^ (pos + len)

/-- One bits of a pattern. -/
def popCount (n x : Nat) : Nat := ((List.range n).filter x.testBit).length
/-- Leading zero bits in `n`. -/
def clz (n x : Nat) : Nat := if x = 0 then n else n - 1 - Nat.log2 x
/-- Bits in the opposite order. -/
def bitRev (n x : Nat) : Nat := (List.range n).foldl (fun r i => if x.testBit i then r + 2 ^ (n - 1 - i) else r) 0

/-- The conditions of `icmp` (R213). -/
def intCond (c : Nat) (a b : Int) : Bool :=
  match c with
  | 0 => a = b
  | 1 => a ≠ b
  | 2 => a < b
  | 3 => a ≤ b
  | 4 => a > b
  | _ => a ≥ b

/-- IADD (R211). -/
def execIadd (w : LaneWord) (s : State) : Out :=
  laneInt .iadd w (fun a b _ => a + b) s

/-- ISUB (R211). -/
def execIsub (w : LaneWord) (s : State) : Out :=
  laneInt .isub w (fun a b _ => a - b) s

/-- IMUL (R211). -/
def execImul (w : LaneWord) (s : State) : Out :=
  laneInt .imul w (fun a b _ => a * b) s

/-- IMULH (R211). -/
def execImulh (w : LaneWord) (s : State) : Out :=
  laneAlu .imulh w (fun k => k.each w.ty.wide fun l =>
    (intStore w.ty false (toInt w.ty (k.a w.ty l) * toInt w.ty (k.b w.ty l) / 2 ^ tyBits w.ty), 0)) s

/-- IMAD (R211). -/
def execImad (w : LaneWord) (s : State) : Out :=
  laneInt .imad w (fun a b c => a * b + c) s

/-- IDIV (R212). -/
def execIdiv (w : LaneWord) (s : State) : Out :=
  laneDiv .idiv w (fun a => if a < 0 then intMin w.ty else intMax w.ty) Int.tdiv s

/-- IREM (R212). -/
def execIrem (w : LaneWord) (s : State) : Out :=
  laneDiv .irem w id Int.tmod s

/-- IABS (R211). -/
def execIabs (w : LaneWord) (s : State) : Out :=
  laneInt .iabs w (fun a _ _ => (a.natAbs : Int)) s

/-- INEG (R211). -/
def execIneg (w : LaneWord) (s : State) : Out :=
  laneInt .ineg w (fun a _ _ => -a) s

/-- IMIN (R211). -/
def execImin (w : LaneWord) (s : State) : Out :=
  laneAlu .imin w (fun k => k.each w.ty.wide fun l =>
    (intStore w.ty false (min (toInt w.ty (k.a w.ty l)) (toInt w.ty (k.b w.ty l))), 0)) s

/-- IMAX (R211). -/
def execImax (w : LaneWord) (s : State) : Out :=
  laneAlu .imax w (fun k => k.each w.ty.wide fun l =>
    (intStore w.ty false (max (toInt w.ty (k.a w.ty l)) (toInt w.ty (k.b w.ty l))), 0)) s

/-- IAND (R211). -/
def execIand (w : LaneWord) (s : State) : Out :=
  laneBits .iand w (fun _ a b _ => a &&& b) s

/-- IOR (R211). -/
def execIor (w : LaneWord) (s : State) : Out :=
  laneBits .ior w (fun _ a b _ => a ||| b) s

/-- IXOR (R211). -/
def execIxor (w : LaneWord) (s : State) : Out :=
  laneBits .ixor w (fun _ a b _ => a ^^^ b) s

/-- INOT (R211). -/
def execInot (w : LaneWord) (s : State) : Out :=
  laneBits .inot w (fun n a _ _ => 2 ^ n - 1 - a) s

/-- ISHL (R210, R211). -/
def execIshl (w : LaneWord) (s : State) : Out :=
  laneInt .ishl w (fun a b _ => a * 2 ^ (b % tyBits w.ty).toNat) s

/-- ISHR (R211). -/
def execIshr (w : LaneWord) (s : State) : Out :=
  laneBits .ishr w (fun n a b _ => a / 2 ^ (b % n)) s

/-- ISRA (R211). -/
def execIsra (w : LaneWord) (s : State) : Out :=
  laneBits .isra w (fun n a b _ => a / 2 ^ (b % n) + if a.testBit (n - 1) then 2 ^ n - 2 ^ (n - b % n) else 0) s

/-- IROT (R211). -/
def execIrot (w : LaneWord) (s : State) : Out :=
  laneBits .irot w (fun n a b _ => a * 2 ^ (b % n) % 2 ^ n + a / 2 ^ (n - b % n)) s

/-- IBFX (R212). -/
def execIbfx (w : LaneWord) (s : State) : Out :=
  laneAlu .ibfx w (fun k => k.each w.ty.wide fun l =>
    (intStore w.ty false (ibfxVal w.ty (k.a w.ty l) (k.b w.ty l)), 0)) s

/-- IBFI (R212). -/
def execIbfi (w : LaneWord) (s : State) : Out :=
  laneAlu .ibfi w (fun k => k.each w.ty.wide fun l =>
    (widenInt w.ty (low w.ty (ibfiVal (tyBits w.ty) (low w.ty (k.a w.ty l)) (k.b w.ty l) (low w.ty (k.c w.ty l)))), 0)) s

/-- IPOP (R211). -/
def execIpop (w : LaneWord) (s : State) : Out :=
  laneBits .ipop w (fun n a _ _ => popCount n a) s

/-- ICLZ (R211). -/
def execIclz (w : LaneWord) (s : State) : Out :=
  laneBits .iclz w (fun n a _ _ => clz n a) s

/-- IBREV (R211). -/
def execIbrev (w : LaneWord) (s : State) : Out :=
  laneBits .ibrev w (fun n a _ _ => bitRev n a) s

/-- ICMP (R213). -/
def execIcmp (w : LaneWord) (s : State) : Out :=
  laneAlu .icmp w (fun k => k.eachBit (w.fn.toNat / 8) fun l =>
    (intCond (w.fn.toNat % 8) (toInt w.ty (k.a w.ty l)) (toInt w.ty (k.b w.ty l)), 0)) s

end Sys2Proof.Machine
end

