-- ==== Sys2Proof/Machine/LaneFloat.lean ====
section
/-! DEFINITION. The floating family and `fexp` of the lane stream (R197 to R204, R214 to R218). -/
namespace Sys2Proof.Machine

/-- Whether a type is packed in halves (R207). -/
def halved (t : Ty) : Bool := t = .f16 || t = .bf16

/-- Applies a floating operation to a value, or to both halves of a packed register with the flags ORed (R207). -/
def perElem (t : Ty) (f : Nat → Nat → Nat → Nat × Flags) (a b c : Nat) : Nat × Flags :=
  if halved t then
    let lo := f (a % 65536) (b % 65536) (c % 65536)
    let hi := f (a / 65536 % 65536) (b / 65536 % 65536) (c / 65536 % 65536)
    (lo.1 + 65536 * hi.1, lo.2 ||| hi.2)
  else f a b c

/-- A floating lane instruction: `f` of the mode, the saturation and the operands (R214). -/
def laneFloat (op : LaneOp) (w : LaneWord) (f : Nat → Bool → Nat → Nat → Nat → Nat × Flags) (s : State) : Out :=
  laneAlu op w (fun k => k.each w.ty.wide fun l =>
    perElem w.ty (f (k.mode w.ty w.rm) (k.sat w.ty w.sm)) (k.a w.ty l) (k.b w.ty l) (k.c w.ty l)) s

/-- FADD (R214). -/
def execFadd (w : LaneWord) (s : State) : Out := laneFloat .fadd w (fun rm sat a b _ => fAdd w.ty rm sat a b) s

/-- FSUB (R214). -/
def execFsub (w : LaneWord) (s : State) : Out := laneFloat .fsub w (fun rm sat a b _ => fSub w.ty rm sat a b) s

/-- FMUL (R214). -/
def execFmul (w : LaneWord) (s : State) : Out := laneFloat .fmul w (fun rm sat a b _ => fMul w.ty rm sat a b) s

/-- FFMA (R214). -/
def execFfma (w : LaneWord) (s : State) : Out := laneFloat .ffma w (fun rm sat a b c => fFma w.ty rm sat a b c) s

/-- FDIV (R214). -/
def execFdiv (w : LaneWord) (s : State) : Out := laneFloat .fdiv w (fun rm sat a b _ => fDiv w.ty rm sat a b) s

/-- FSQRT (R214). -/
def execFsqrt (w : LaneWord) (s : State) : Out := laneFloat .fsqrt w (fun rm sat a _ _ => fSqrt w.ty rm sat a) s

/-- FMIN (R215). -/
def execFmin (w : LaneWord) (s : State) : Out := laneFloat .fmin w (fun _ _ a b _ => fMinMax w.ty false w.var a b) s

/-- FMAX (R215). -/
def execFmax (w : LaneWord) (s : State) : Out := laneFloat .fmax w (fun _ _ a b _ => fMinMax w.ty true w.var a b) s

/-- FABS (R214). -/
def execFabs (w : LaneWord) (s : State) : Out := laneFloat .fabs w (fun _ _ a _ _ => (a % signBit w.ty, 0)) s

/-- FNEG (R214). -/
def execFneg (w : LaneWord) (s : State) : Out :=
  laneFloat .fneg w (fun _ _ a _ _ => (if a / signBit w.ty % 2 = 1 then a - signBit w.ty else a + signBit w.ty, 0)) s

/-- FCMP (R216): the low half alone under f16 and bf16. -/
def execFcmp (w : LaneWord) (s : State) : Out :=
  laneAlu .fcmp w (fun k => k.eachBit (w.fn.toNat / 8) fun l =>
    fCmp w.ty (w.fn.toNat % 8) (k.a w.ty l % 2 ^ tyBits w.ty) (k.b w.ty l % 2 ^ tyBits w.ty)) s

/-- FCLASS (R217): one register even under f64. -/
def execFclass (w : LaneWord) (s : State) : Out :=
  laneAlu .fclass w (fun k => k.each false fun l => perElem w.ty (fun a _ _ => (fClass w.ty a, 0)) (k.a w.ty l) 0 0) s

/-- FRND (R218). -/
def execFrnd (w : LaneWord) (s : State) : Out := laneFloat .frnd w (fun rm _ a _ _ => fRnd w.ty rm w.var a) s

/-- FSC (R218). -/
def execFsc (w : LaneWord) (s : State) : Out :=
  laneAlu .fsc w (fun k => k.each w.ty.wide fun l =>
    perElem w.ty (fun a _ _ => fSc w.ty (k.mode w.ty w.rm) (k.sat w.ty w.sm) a (toInt .i32 (k.b .i32 l))) (k.a w.ty l) 0 0) s

/-! fexp (R203) -/

/-- FEXP_GET (R203). -/
def execFexpGet (w : LaneWord) (s : State) : Out :=
  laneAlu .fexpGet w (fun k => k.each false fun l => ((k.g.xf[l]?.getD 0).toNat, 0)) s

/-- FEXP_PUT (R203). -/
def execFexpPut (w : LaneWord) (s : State) : Out :=
  .next (laneOp .fexpPut w (fun k s => s.setG fun g =>
    ({ g with xf := k.m.lanes.foldl (fun (x : Vector (BitVec 6) 64) l => x.setIfInBounds l (BitVec.ofNat 6 (k.a .b32 l))) g.xf }).passed
      k.place) s)

/-- FEXP_CVMGET (R203). -/
def execFexpCvmget (w : LaneWord) (s : State) : Out :=
  laneAlu .fexpCvmget w (fun k => k.each true fun _ => (k.g.cvm.toNat, 0)) s

/-- A group-wide write, made when at least one lane runs the instruction (R203). -/
def LaneCtx.groupWrite (k : LaneCtx) (f : Group → Group) (s : State) : State :=
  s.setG fun g => (if k.m = 0 then g else f g).passed k.place

/-- FEXP_CVMPUT (R197, R203). -/
def execFexpCvmput (w : LaneWord) (s : State) : Out :=
  .next (laneOp .fexpCvmput w (fun k => k.groupWrite fun g => { g with cvm := cvmWrite g.cvm (BitVec.ofNat 64 (k.a .b64 0)) }) s)

/-- FEXP_XEGET (R203). -/
def execFexpXeget (w : LaneWord) (s : State) : Out :=
  laneAlu .fexpXeget w (fun k => k.each false fun _ => (k.g.xe.toNat, 0)) s

/-- FEXP_XEPUT (R203). -/
def execFexpXeput (w : LaneWord) (s : State) : Out :=
  .next (laneOp .fexpXeput w (fun k => k.groupWrite fun g => { g with xe := BitVec.ofNat 6 (k.a .b32 0) }) s)

end Sys2Proof.Machine
end

