-- ==== Sys2Proof/Machine/LaneMove.lean ====
section
/-! DEFINITION. Conversion, moves and predicate logic of the lane stream (R219 to R224). -/
namespace Sys2Proof.Machine

/-- The source type of a conversion. -/
def LaneWord.from (w : LaneWord) : Ty := w.srcTy.getD .b32

/-- One element converted in the instruction's mode (R219). -/
def LaneCtx.conv (k : LaneCtx) (x : Nat) : Nat × Flags :=
  convert (LaneWord.from k.w) k.w.ty (k.mode k.w.ty k.w.rm) k.w.rm (k.sat k.w.ty k.w.sm) x

/-- CVT (R219). -/
def execCvt (w : LaneWord) (s : State) : Out :=
  laneAlu .cvt w (fun k => k.each w.ty.wide fun l => k.conv (k.a (LaneWord.from w) l)) s

/-- The value of v[r], or of a pair, in lane `l`. -/
def Group.velem (g : Group) (wide : Bool) (r l : Nat) : Nat :=
  (g.vreg r l).toNat + if wide then 2 ^ 32 * (g.vreg (r + 1) l).toNat else 0

/-- Element `j` of the span at A (R220). -/
def LaneCtx.aElem (k : LaneCtx) (t : Ty) (j l : Nat) : Nat := k.g.velem t.wide (k.aReg + (if t.wide then 2 * j else j)) l

/-- Eight FP6 codes in their two planes (R191, R220). -/
def packFp6 (xs : List Nat) : Nat × Nat :=
  (xs.zipIdx.foldl (fun n p => n + p.1 / 4 % 16 * 2 ^ (4 * p.2)) 0, xs.zipIdx.foldl (fun n p => n + p.1 % 4 * 2 ^ (2 * p.2)) 0)

/-- CPACK (R220). -/
def execCpack (w : LaneWord) (s : State) : Out :=
  laneAlu .cpack w (fun k =>
    let rs := k.m.lanes.map fun l => (l, (List.range w.ty.packCount).map fun j => k.conv (k.aElem (LaneWord.from w) j l))
    { v := rs.flatMap fun x =>
        let xs := x.2.map (·.1)
        if w.ty.packRegs = 2 then
          [⟨k.dReg, x.1, BitVec.ofNat 32 (packFp6 xs).1⟩, ⟨k.dReg + 1, x.1, BitVec.ofNat 32 (packFp6 xs).2⟩]
        else [⟨k.dReg, x.1, BitVec.ofNat 32 (xs.zipIdx.foldl (fun n p => n + p.1 * 2 ^ (tyBits w.ty * p.2)) 0)⟩],
      xf := rs.map fun x => (x.1, x.2.foldl (fun f p => f ||| p.2) 0) }) s

/-- Element `j` of the packed source of `cunpk` in lane `l` (R221). -/
def LaneCtx.packedElem (k : LaneCtx) (t : Ty) (j l : Nat) : Nat :=
  let x := (k.g.vreg k.aReg l).toNat
  if t.packRegs = 2 then x / 2 ^ (4 * j) % 16 * 4 + (k.g.vreg (k.aReg + 1) l).toNat / 2 ^ (2 * j) % 4
  else x / 2 ^ (tyBits t * j) % 2 ^ tyBits t

/-- CUNPK (R221): every value converts exactly. -/
def execCunpk (w : LaneWord) (s : State) : Out :=
  laneAlu .cunpk w (fun k =>
    let t := LaneWord.from w
    let rs := k.m.lanes.map fun l => (l, (List.range t.packCount).map fun j => convert t w.ty 1 1 false (k.packedElem t j l))
    { v := rs.flatMap fun x => x.2.zipIdx.flatMap fun p => vWrite w.ty.wide (k.dReg + (if w.ty.wide then 2 else 1) * p.2) x.1 p.1.1,
      xf := rs.map fun x => (x.1, x.2.foldl (fun f p => f ||| p.2) 0) }) s

/-- MOV (R222). -/
def execMov (w : LaneWord) (s : State) : Out := laneAlu .mov w (fun k => k.each w.ty.wide fun l => (k.b w.ty l, 0)) s

/-- SEL (R223). -/
def execSel (w : LaneWord) (s : State) : Out :=
  laneAlu .sel w (fun k => k.each w.ty.wide fun l => (if k.predOf w.c l then k.a w.ty l else k.b w.ty l, 0)) s

/-- The operations of `plog` (R224). -/
def plogOp (f : Nat) (a b : Bool) : Bool :=
  match f with
  | 0 => a && b
  | 1 => a || b
  | 2 => a != b
  | 3 => a && !b
  | 4 => a || !b
  | 5 => !(a && b)
  | 6 => !(a || b)
  | _ => a == b

/-- PLOG (R224). -/
def execPlog (w : LaneWord) (s : State) : Out :=
  laneAlu .plog w (fun k => k.eachBit (w.fn.toNat / 8) fun l =>
    (plogOp (w.fn.toNat % 8) (k.predOf w.a l) (k.predOf w.b l), 0)) s

end Sys2Proof.Machine
end

