-- ==== Sys2Proof/Machine/Real.lean ====
section
/-! DEFINITION. Square roots, logarithms and exponentials to many bits, the special functions (R249 to R252), and the
fixed-point arithmetic of directions (R234 to R248). -/
namespace Sys2Proof.Machine

/-- The fractional bits of the fixed-point numbers here; far more than any rounding below reads (log 9). -/
def fixBits : Nat := 320

/-- ln 2 in fixed point. -/
def ln2Fix : Nat := 0xb17217f7d1cf79abc9e3b39803f2f6af40f343267298b62d8a0d175b8baafa2be7b876206debac98
/-- π in fixed point. -/
def piFix : Nat := 0x3243f6a8885a308d313198a2e03707344a4093822299f31d0082efa98ec4e6c89452821e638d01377

/-- The product of two fixed-point numbers. -/
def fixMul (x y : Nat) : Nat := x * y / 2 ^ fixBits

/-- The tail of the exponential series of `x` from term `k` on. -/
def expGo (x : Nat) : Nat → Nat → Nat → Nat → Nat
  | 0, _, _, acc => acc
  | n + 1, k, term, acc => let t := fixMul term x / k; expGo x n (k + 1) t (acc + t)

/-- `2^f` for a fixed-point `f` below 1. -/
def exp2Fix (f : Nat) : Nat := expGo (fixMul f ln2Fix) 90 1 (2 ^ fixBits) (2 ^ fixBits)

/-- The fractional bits of a logarithm kept. -/
def logBits : Nat := 120

/-- The bits of the logarithm of a fixed-point number in [1, 2), by squaring. -/
def log2Go : Nat → Nat → Nat → Nat
  | 0, _, acc => acc
  | n + 1, x, acc =>
    let y := fixMul x x
    if y ≥ 2 ^ (fixBits + 1) then log2Go n (y / 2) (2 * acc + 1) else log2Go n y (2 * acc)

/-- log2 of `m × 2^e` for `m` above 0, rounded down to a multiple of `2^-logBits`, and whether it is exact. -/
def log2Fix (m : Nat) (e : Int) : Int × Bool :=
  let l := Nat.log2 m
  ((e + l) * 2 ^ logBits + log2Go logBits (m * 2 ^ fixBits / 2 ^ l) 0, m = 2 ^ l)

/-- An integer divided by `2^k`, rounded to nearest, ties to even; `exact` says that nothing lies below its last bit. -/
def roundDiv (x : Int) (exact : Bool) (k : Nat) : Int :=
  let y := 2 * x + if exact then 0 else 1
  let q := y / 2 ^ (k + 1)
  let r := y % 2 ^ (k + 1)
  if r > 2 ^ k || (r = 2 ^ k && q % 2 = 1) then q + 1 else q

/-- A finite real: sign, magnitude `m × 2^e`, and whether that is exact or only close to `2^-200` relatively. -/
structure RealV where
  s : Bool
  m : Nat
  e : Int
  exact : Bool
deriving DecidableEq, Repr

/-- The alternating series of sine (`k` starts at 1) or cosine (`k` starts at 0) of a fixed-point number, `x2` its square. -/
def trigGo (x2 : Nat) : Nat → Nat → Nat → Bool → Int → Int
  | 0, _, _, _, acc => acc
  | n + 1, k, term, neg, acc =>
    let t := fixMul term x2 / ((k + 1) * (k + 2))
    trigGo x2 n (k + 2) t (!neg) (if neg then acc + t else acc - t)

/-- The sine of a fixed-point number of magnitude below 1. -/
def sinFix (x : Nat) : Int := trigGo (fixMul x x) 50 1 x false x
/-- The cosine of a fixed-point number of magnitude below 1. -/
def cosFix (x : Nat) : Int := trigGo (fixMul x x) 50 0 (2 ^ fixBits) false (2 ^ fixBits)

/-- The sine (`quarter` 0) or cosine (`quarter` 1) of a magnitude in fixed point. -/
def trig (quarter : Nat) (x : Nat) : Int :=
  let h := piFix / 2
  let k := (x + h / 2) / h
  let r : Int := (x : Int) - k * h
  let a := r.natAbs
  match (k + quarter) % 4 with
  | 0 => if r < 0 then -sinFix a else sinFix a
  | 1 => cosFix a
  | 2 => if r < 0 then sinFix a else -sinFix a
  | _ => -cosFix a

/-- The magnitude `m × 2^e` of a binary32 value in fixed point. -/
def toFix (m : Nat) (e : Int) : Nat := m * 2 ^ (e + fixBits).toNat

/-- An integer count of `2^-fixBits` as a real that is not exact. -/
def ofFix (x : Int) : RealV := ⟨x < 0, x.natAbs, -fixBits, false⟩

/-- `2^x` for a fixed-point `x`. -/
def exp2Real (x : Int) : RealV :=
  let i := x / 2 ^ fixBits
  let f := (x % 2 ^ fixBits).toNat
  if f = 0 then ⟨false, 1, i, true⟩ else ⟨false, exp2Fix f, i - fixBits, false⟩

/-- The exact value of the special functions at a finite input other than zero that R251 does not single out, in the order of
R249: sin, cos, ex2, lg2, rcp, rsq, tanh. -/
def sfuReal (f : Nat) (s : Bool) (m : Nat) (e : Int) : RealV :=
  match f with
  | 0 => let v := trig 0 (toFix m e); ofFix (if s then -v else v)
  | 1 => ofFix (trig 1 (toFix m e))
  | 2 =>
    if e + Nat.log2 m ≥ 9 then ⟨false, 1, if s then -600 else 600, true⟩
    else exp2Real (if s then -(toFix m e : Int) else toFix m e)
  | 3 => let r := log2Fix m e; ⟨r.1 < 0, r.1.natAbs, -logBits, r.2⟩
  | 4 => let d := divBits 1 0 m e; ⟨s, d.1, d.2.1, !d.2.2⟩
  | 5 =>
    let odd := e % 2 = 1
    let n := if odd then 2 * m else m
    let r := isqrt (2 ^ 320 / n)
    ⟨false, r, -160 - (if odd then e - 1 else e) / 2, r * r * n = 2 ^ 320⟩
  | _ =>
    if e + Nat.log2 m ≥ 6 then ⟨s, 2 ^ fixBits - 2 ^ 200, -fixBits, false⟩
    else
      let x := exp2Real (2 * toFix m e * 2 ^ fixBits / ln2Fix)
      let y := if x.e + fixBits ≥ 0 then x.m * 2 ^ (x.e + fixBits).toNat else x.m
      ⟨s, (y - 2 ^ fixBits) * 2 ^ fixBits / (y + 2 ^ fixBits), -fixBits, false⟩

/-- The error bound of R250 in halves of an ulp. -/
def sfuHalfUlps (f : Nat) : Nat :=
  match f with
  | 0 | 1 => 3
  | 6 => 4
  | _ => 2

/-- The absolute bound of R250 as a power of two, where the magnitude is below a power of two. -/
def sfuAbs (f : Nat) : Option (Int × Int) :=
  match f with
  | 0 | 1 => some (-30, -22)
  | 3 => some (-40, -16)
  | _ => none

/-- `m × 2^e` as a multiple of `2^-400`, rounded down. -/
def scale400 (m : Nat) (e : Int) : Nat := if e ≥ -400 then m * 2 ^ (e + 400).toNat else m / 2 ^ (-400 - e).toNat

/-- Whether binary32 bits lie within the error of R250 of a real, what the real itself is off by taken from the error (log 9). -/
def sfuWithin (f : Nat) (v : RealV) (r : Word32) : Bool :=
  match unpack .f32 r.toNat with
  | .fin s m e =>
    let x : Int := if s then -(scale400 m e : Int) else scale400 m e
    let y : Int := if v.s then -(scale400 v.m v.e : Int) else scale400 v.m v.e
    let top := v.e + Nat.log2 v.m
    let ulp := max top (-126) - 23
    let off := (x - y).natAbs + y.natAbs / 2 ^ 79 + 2
    off ≤ sfuHalfUlps f * 2 ^ (ulp + 399).toNat ||
      (match sfuAbs f with
       | some b => top < b.2 && off ≤ 2 ^ (b.1 + 400).toNat
       | none => false)
  | _ => false

/-- A special function away from the special inputs: an exactly representable value is returned exactly; elsewhere the result
is `Config.sfuBits` where that lies within the error, and the nearest value otherwise (R249, R250), for tiny results too, where R195 and
R251 can be read to fix the value (log 9). -/
def sfuRound (f : Nat) (sat : Bool) (x : Word32) (v : RealV) : Word32 × Flags :=
  let near := roundSticky .f32 1 sat v.s v.m v.e (!v.exact)
  if near.2 = 0#6 || near.2 = Flags.overflow || v.exact then (BitVec.ofNat 32 near.1, near.2)
  else
    let r := Config.sfuBits f x
    (if sfuWithin f v r then r else BitVec.ofNat 32 near.1, near.2)

/-- The special functions on one lane (R249 to R252). -/
def sfu (f : Nat) (sat : Bool) (x : Word32) : Word32 × Flags :=
  let nv : Word32 × Flags := (0x7FC00000#32, Flags.nv)
  match unpack .f32 x.toNat with
  | .nan .. => match nanOf .f32 [x.toNat] with
    | some r => (BitVec.ofNat 32 r.1, r.2)
    | none => nv
  | .inf s =>
    match f with
    | 0 | 1 => nv
    | 2 => (if s then 0#32 else x, 0#6)
    | 3 => if s then nv else (x, 0#6)
    | 4 => (if s then 0x80000000#32 else 0#32, 0#6)
    | 5 => if s then nv else (0#32, 0#6)
    | _ => (if s then 0xBF800000#32 else 0x3F800000#32, 0#6)
  | .fin s m e =>
    if m = 0 then
      match f with
      | 0 | 6 => (x, 0#6)
      | 1 | 2 => (0x3F800000#32, 0#6)
      | 3 => (0xFF800000#32, Flags.dz)
      | _ => (if s then 0xFF800000#32 else 0x7F800000#32, Flags.dz)
    else if f ≤ 1 && e + Nat.log2 m ≥ 23 then (0x7FC00000#32, Flags.rg)
    else if (f = 3 || f = 5) && s then nv
    else if f = 3 && x = 0x3F800000#32 then (0#32, 0#6)
    else sfuRound f sat x (sfuReal f s m e)

/-! Directions -/

/-- The zero code of a norm (R235). -/
def zeroCode : Word32 := 0x80000000#32
/-- The invalid code of a norm (R235). -/
def invalidCode : Word32 := 0x7FFFFFFF#32

/-- A direction: its components as multiples of 2^-30 and its norm code (R234, R235). -/
structure Dirn where
  comp : List Int
  code : Word32
deriving DecidableEq, Repr

/-- The direction with the zero code. -/
def Dirn.zero (d : Dirn) : Dirn := ⟨d.comp.map fun _ => 0, zeroCode⟩
/-- The direction with the invalid code. -/
def Dirn.invalid (d : Dirn) : Dirn := ⟨d.comp.map fun _ => 0, invalidCode⟩

/-- A direction as an instruction reads it: the zero and invalid codes make every component 0 (R235). -/
def Dirn.read (d : Dirn) : Dirn :=
  if d.code = zeroCode || d.code = invalidCode then ⟨d.comp.map fun _ => 0, d.code⟩ else d

/-- An exact value `x × 2^-k` rounded to an integer, ties to even (RoundS of R236). -/
def roundS (x : Int) (k : Nat) : Int := roundDiv x true k

/-- CheckRange of R236 on a norm in units of 2^-23. -/
def checkRange (comp : List Int) (x : Int) : Dirn × Flags :=
  if x > 0x7FFFFFFE then (Dirn.invalid ⟨comp, 0#32⟩, Flags.of)
  else if x < -0x7FFFFFFF then (Dirn.zero ⟨comp, 0#32⟩, Flags.uf)
  else (⟨comp, BitVec.ofInt 32 x⟩, 0#6)

/-- The sum of the products of two lists of components, a multiple of 2^-60. -/
def dot (x y : List Int) : Int := (List.zipWith (· * ·) x y).foldl (· + ·) 0

/-- Rsqrt40 of R236: 1/√(sig × 2^-60) as `r × 2^q`, `r` of 40 significant bits. -/
def rsqrt40 (sig : Nat) : Nat × Int :=
  let t := isqrt (2 ^ 240 / sig)
  let q : Int := Nat.log2 t - 39
  let r := (roundAt 1 false (4 * t + if t * t * sig = 2 ^ 240 then 0 else 1) (-2) q).1
  (r, q - 120 + 30)

/-- Renorm of R236; `nu` in units of 2^-23. -/
def renorm (w : List Int) (nu : Int) : Dirn × Flags :=
  let sig := (dot w w).toNat
  if sig = 0 then (Dirn.zero ⟨w, 0#32⟩, 0#6)
  else
    let r := rsqrt40 sig
    let k := (-r.2).toNat
    let u := w.map fun (x : Int) => if r.2 ≥ 0 then x * (r.1 : Int) * 2 ^ r.2.toNat else roundS (x * (r.1 : Int)) k
    let l := log2Fix sig (-60)
    checkRange u (nu + roundDiv l.1 l.2 (logBits - 22))

/-- ν of a norm code, in units of 2^-23. -/
def nuOf (code : Word32) : Int := code.toInt

/-- `qpack` (R240) of elements of a floating type. -/
def qpackDir (t : Ty) (xs : List Nat) : Dirn × Flags :=
  let vs := xs.map (unpack t)
  let z : List Int := xs.map fun _ => 0
  if vs.any fun v => v.isNan || v.isInf then (⟨z, invalidCode⟩, Flags.nv)
  else
    let tops := vs.filterMap fun v => match v with
      | .fin _ m e => if m = 0 then none else some (e + Nat.log2 m)
      | _ => none
    match tops with
    | [] => (⟨z, zeroCode⟩, 0#6)
    | h :: rest =>
      let top := rest.foldl max h
      let comp := vs.map fun v => match v with
        | .fin s m e =>
          let r := (roundAt 1 s m (e - (top + 1)) (-30)).1
          if s then -(r : Int) else r
        | _ => 0
      renorm comp ((top + 1) * 2 ^ 23)

/-- `2^x` for a norm `x` in units of 2^-23, its fraction rounded to 40 significant bits: an integer and a power of two (R241). -/
def exp2Norm40 (x : Int) : Nat × Int :=
  let i := x / 2 ^ 23
  let f := (x % 2 ^ 23).toNat
  if f = 0 then (1, i)
  else ((roundAt 1 false (4 * exp2Fix (f * 2 ^ (fixBits - 23)) + 1) (-fixBits - 2) (-39)).1, i - 39)

/-- One element of `qunpk` (R241), for a direction whose code is neither zero nor invalid. -/
def qunpkElem (t : Ty) (rm : Nat) (sat unit : Bool) (code : Word32) (u : Int) : Nat × Flags :=
  if unit then roundExact t rm sat (u < 0) u.natAbs (-30)
  else
    let g := exp2Norm40 (nuOf code)
    roundExact t rm sat (u < 0) (u.natAbs * g.1) (g.2 - 30)

/-- `qdot` (R242), operands as read. -/
def qdotVal (rm : Nat) (sat : Bool) (a b : Dirn) : Nat × Flags :=
  if a.code = invalidCode || b.code = invalidCode then ((fmt .f32).nan, 0#6)
  else if a.code = zeroCode || b.code = zeroCode then (0, 0#6)
  else
    let v := dot a.comp b.comp
    if v = 0 then
      (withSign .f32 (rm = 4 && (List.zipWith (· * ·) a.comp b.comp).any (· ≠ 0)) 0, 0#6)
    else roundExact .f32 rm sat (v < 0) v.natAbs (-60)

/-- `qsc` (R243), the operand as read; `b` in units of 2^-23. -/
def qscDir (neg : Bool) (a : Dirn) (b : Int) : Dirn × Flags :=
  if a.code = zeroCode || a.code = invalidCode then (a, 0#6)
  else checkRange (a.comp.map fun x => if neg then -x else x) (nuOf a.code + b)

/-- `2^-d` rounded to 40 fractional bits, in units of 2^-40, for `d` in units of 2^-23 (R244). -/
def exp2Neg40 (d : Nat) : Int :=
  let v := exp2Real (-((d * 2 ^ (fixBits - 23) : Nat) : Int))
  (roundAt 1 false (4 * v.m + if v.exact then 0 else 1) (v.e - 2) (-40)).1

/-- `qadd` (R244), operands as read; `sub` negates B. -/
def qaddDir (sub : Bool) (a b0 : Dirn) : Dirn × Flags :=
  let b : Dirn := ⟨b0.comp.map fun x => if sub then -x else x, b0.code⟩
  if a.code = invalidCode || b.code = invalidCode then (a.invalid, 0#6)
  else if a.code = zeroCode then (b, 0#6)
  else if b.code = zeroCode then (a, 0#6)
  else
    let l := if nuOf a.code ≥ nuOf b.code then a else b
    let t := if nuOf a.code ≥ nuOf b.code then b else a
    let f := exp2Neg40 (nuOf l.code - nuOf t.code).toNat
    renorm (List.zipWith (fun x y => x + roundS (f * y) 40) l.comp t.comp) (nuOf l.code)

/-- `qproj` and `qrot` (R245), operands as read: `k` is 1 for the projection, 2 for the reflection. -/
def qprojDir (k : Int) (par : Bool) (a b : Dirn) : Dirn × Flags :=
  if a.code = invalidCode || b.code = invalidCode then (a.invalid, 0#6)
  else if a.code = zeroCode then (a, 0#6)
  else if b.code = zeroCode then (if par then a.zero else a, 0#6)
  else
    let c := roundS (dot a.comp b.comp) 30
    if par then
      if c = 0 then (a.zero, 0#6)
      else
        let l := log2Fix c.natAbs (-30)
        checkRange (b.comp.map fun x => if c < 0 then -x else x) (nuOf a.code + roundDiv l.1 l.2 (logBits - 23))
    else renorm (List.zipWith (fun x y => x - k * roundS (c * y) 30) a.comp b.comp) (nuOf a.code)

/-- `qnorm` (R247). -/
def qnormVal (rm : Nat) (sat log : Bool) (code : Word32) : Nat × Flags :=
  if code = invalidCode then ((fmt .f32).nan, 0#6)
  else if code = zeroCode then (if log then 0xFF800000 else 0, 0#6)
  else
    let x := nuOf code
    if log then roundExact .f32 rm sat (x < 0) x.natAbs (-23)
    else
      let v := exp2Real (x * 2 ^ (fixBits - 23))
      roundSticky .f32 rm sat false v.m v.e (!v.exact)

/-- What `qld` makes of loaded components and their code (R248). -/
def qldDir (m : List Int) (k : Word32) : Dirn × Flags :=
  if k = zeroCode || k = invalidCode then (⟨m.map fun _ => 0, k⟩, 0#6)
  else
    let sig := dot m m
    if sig = 0 then (⟨m, zeroCode⟩, 0#6)
    else if (sig - 2 ^ 60).natAbs ≤ 2 ^ 36 then (⟨m, k⟩, 0#6)
    else renorm m (nuOf k)

end Sys2Proof.Machine
end

