-- ==== Sys2Proof/Machine/LaneCross.lean ====
section
/-! DEFINITION. The cross-lane instructions (R225 to R233) and the special functions of the lane stream (R249 to R252). -/
namespace Sys2Proof.Machine

/-! Shuffles and broadcast (R226) -/

/-- A shuffle: `f` of the lane and the distance or index names the source lane, read in every lane (R225, R226). -/
def laneShuffle (op : LaneOp) (w : LaneWord) (f : Nat → Nat → Nat → Nat) (s : State) : Out :=
  laneAlu op w (fun k => k.each w.ty.wide fun l => (k.a w.ty (f k.g.width l (k.b .b32 l)), 0)) s

/-- SHFL (R226). -/
def execShfl (w : LaneWord) (s : State) : Out := laneShuffle .shfl w (fun n l u => if u < n then u else l) s

/-- SHUP (R226). -/
def execShup (w : LaneWord) (s : State) : Out := laneShuffle .shup w (fun _ l u => if u ≤ l then l - u else l) s

/-- SHDN (R226). -/
def execShdn (w : LaneWord) (s : State) : Out := laneShuffle .shdn w (fun n l u => if l + u < n then l + u else l) s

/-- BCAST (R226). -/
def execBcast (w : LaneWord) (s : State) : Out := laneShuffle .bcast w (fun n _ u => u % n) s

/-! Votes (R227) -/

/-- The participating lanes whose source predicate is 1. -/
def LaneCtx.votes (k : LaneCtx) : Mask := k.m.lanes.foldl (fun m l => if k.predOf k.w.a l then m ||| Mask.one l else m) 0

/-- VOTE_ANY (R227). -/
def execVoteAny (w : LaneWord) (s : State) : Out :=
  laneAlu .voteAny w (fun k => k.eachBit (w.fn.toNat / 8) fun _ => (k.votes ≠ 0, 0)) s

/-- VOTE_ALL (R227). -/
def execVoteAll (w : LaneWord) (s : State) : Out :=
  laneAlu .voteAll w (fun k => k.eachBit (w.fn.toNat / 8) fun _ => (k.votes = k.m, 0)) s

/-- VOTE_BALLOT (R227). -/
def execVoteBallot (w : LaneWord) (s : State) : Out :=
  laneAlu .voteBallot w (fun k => k.each w.ty.wide fun _ => (k.votes.toNat, 0)) s

/-! Reductions and scans (R205, R228, R229) -/

/-- Op of a reduction with the flags of both sides (R228). -/
def laneRed (f : Nat) (t : Ty) (rm : Nat) (sat : Bool) (a b : Nat × Flags) : Nat × Flags :=
  let r : Nat × Flags :=
    match f with
    | 1 => (a.1 &&& b.1, 0)
    | 2 => (a.1 ||| b.1, 0)
    | 3 => (a.1 ^^^ b.1, 0)
    | 0 => if t.float then fAdd t rm sat a.1 b.1 else (wrapInt t (a.1 + b.1), 0)
    | 4 => if t.float then fMinMax t false false a.1 b.1 else (if toInt t b.1 < toInt t a.1 then b.1 else a.1, 0)
    | _ => if t.float then fMinMax t true false a.1 b.1 else (if toInt t a.1 < toInt t b.1 then b.1 else a.1, 0)
  (r.1, r.2 ||| a.2 ||| b.2)

/-- The identity of a reduction (R176, R229). -/
def laneIdentity (f : Nat) (t : Ty) : Nat :=
  match f with
  | 1 => 2 ^ tyBits t - 1
  | 2 | 3 => 0
  | _ => redIdentity f t

/-- The leaves of a reduction (R229). -/
def LaneCtx.leaf (k : LaneCtx) (l : Nat) : Nat × Flags :=
  (if k.m.getLsbD l then k.a k.w.ty l else laneIdentity (k.w.fn.toNat % 8) k.w.ty, 0)

/-- Op of the instruction. -/
def LaneCtx.redStep (k : LaneCtx) : Nat × Flags → Nat × Flags → Nat × Flags :=
  laneRed (k.w.fn.toNat % 8) k.w.ty (k.mode k.w.ty k.w.rm) (k.sat k.w.ty 0)

/-- The tree node that covers `2 ^ n` lanes from `base` (R177, R205). -/
def LaneCtx.node (k : LaneCtx) (base n : Nat) : Nat × Flags :=
  (pairTree k.redStep n ((List.range (2 ^ n)).map fun i => k.leaf (base + i))).headD (0, 0)

/-- REDG (R229). -/
def execRedg (w : LaneWord) (s : State) : Out :=
  laneAlu .redg w (fun k => let r := k.node 0 (Nat.log2 k.g.width); k.each w.ty.wide fun _ => r) s

/-- The scan value over `n` lanes from `base`: nodes of falling powers of two, combined from left to right (R205). -/
def LaneCtx.scan (k : LaneCtx) : Nat → Nat → Nat → Option (Nat × Flags) → Nat × Flags
  | 0, _, _, acc => acc.getD (0, 0)
  | f + 1, base, n, acc =>
    if n = 0 then acc.getD (0, 0)
    else
      let p := Nat.log2 n
      let x := k.node base p
      k.scan f (base + 2 ^ p) (n - 2 ^ p) (some (match acc with
        | some y => k.redStep y x
        | none => x))

/-- SCANG (R205, R229). -/
def execScang (w : LaneWord) (s : State) : Out :=
  laneAlu .scang w (fun k => k.each w.ty.wide fun l => k.scan 7 0 (l + 1) none) s

/-! Ordering keys (R230 to R233) -/

/-- Whether key `a` comes before key `b` (R230). -/
def ranksBefore (t : Ty) (desc : Bool) (a b : Nat) : Bool :=
  if t.float then
    let x := unpack t a
    let y := unpack t b
    if x.isNan then false
    else if y.isNan then true
    else if desc then x.cmp y = .gt else x.cmp y = .lt
  else if desc then toInt t b < toInt t a else toInt t a < toInt t b

/-- Stable insertion by rank: after every key that does not come after it. -/
def rankInsert (t : Ty) (desc : Bool) (x : Nat × Nat) : List (Nat × Nat) → List (Nat × Nat)
  | [] => [x]
  | y :: ys => if ranksBefore t desc x.1 y.1 then x :: y :: ys else y :: rankInsert t desc x ys

/-- The keys of the participating lanes with their lanes, by rank, ties in lane order (R231, R232). -/
def LaneCtx.ranked (k : LaneCtx) (desc : Bool) : List (Nat × Nat) :=
  k.m.lanes.foldl (fun acc l => rankInsert k.w.ty desc (k.a k.w.ty l, l) acc) []

/-- The register after the key's. -/
def LaneCtx.nextReg (k : LaneCtx) : Nat := k.dReg + if k.w.ty.wide then 2 else 1

/-- GSORT (R231). -/
def execGsort (w : LaneWord) (s : State) : Out :=
  laneAlu .gsort w (fun k =>
    { v := (k.m.lanes.zip (k.ranked w.var)).flatMap fun x =>
        vWrite w.ty.wide k.dReg x.1 x.2.1 ++
          if w.fn.getLsbD 1 then [⟨k.nextReg, x.1, BitVec.ofNat 32 (k.b .b32 x.2.2)⟩] else [] }) s

/-- GTOPK (R232). -/
def execGtopk (w : LaneWord) (s : State) : Out :=
  laneAlu .gtopk w (fun k =>
    { v := (k.m.lanes.zip ((k.ranked (!w.var)).take (k.b .n32 0))).flatMap fun x =>
        vWrite w.ty.wide k.dReg x.1 x.2.1 ++ [⟨k.nextReg, x.1, BitVec.ofNat 32 x.2.2⟩] }) s

/-- The merge of two runs, ties from the first (R233). -/
def mergeRuns (t : Ty) (desc : Bool) : Nat → List Nat → List Nat → List Nat
  | 0, _, _ => []
  | _ + 1, [], ys => ys
  | _ + 1, xs, [] => xs
  | n + 1, x :: xs, y :: ys =>
    if ranksBefore t desc y x then y :: mergeRuns t desc n (x :: xs) ys else x :: mergeRuns t desc n xs (y :: ys)

/-- GMERGE (R233). -/
def execGmerge (w : LaneWord) (s : State) : Out :=
  laneAlu .gmerge w (fun k =>
    let ls := k.m.lanes
    let z := mergeRuns w.ty w.var (2 * ls.length) (ls.map (k.a w.ty)) (ls.map (k.b w.ty))
    { v := (ls.zip z).flatMap (fun x => vWrite w.ty.wide k.dReg x.1 x.2) ++
        (ls.zip (z.drop ls.length)).flatMap fun x => vWrite w.ty.wide k.nextReg x.1 x.2 }) s

/-! Special functions (R249 to R252) -/

/-- A special function, numbered in the order of R249. -/
def laneSfu (op : LaneOp) (f : Nat) (w : LaneWord) (s : State) : Out :=
  laneAlu op w (fun k => k.each false fun l =>
    let r := sfu f (k.sat .f32 0) (BitVec.ofNat 32 (k.a .f32 l))
    (r.1.toNat, r.2)) s

/-- SIN (R249, R251). -/
def execSin (w : LaneWord) (s : State) : Out := laneSfu .sin 0 w s
/-- COS (R249, R251). -/
def execCos (w : LaneWord) (s : State) : Out := laneSfu .cos 1 w s
/-- EX2 (R249, R251). -/
def execEx2 (w : LaneWord) (s : State) : Out := laneSfu .ex2 2 w s
/-- LG2 (R249, R251). -/
def execLg2 (w : LaneWord) (s : State) : Out := laneSfu .lg2 3 w s
/-- RCP (R249, R251). -/
def execRcp (w : LaneWord) (s : State) : Out := laneSfu .rcp 4 w s
/-- RSQ (R249, R251). -/
def execRsq (w : LaneWord) (s : State) : Out := laneSfu .rsq 5 w s
/-- TANH (R249, R251). -/
def execTanh (w : LaneWord) (s : State) : Out := laneSfu .tanh 6 w s

end Sys2Proof.Machine
end

