-- ==== Sys2Proof/Machine/LaneDir.lean ====
section
/-! DEFINITION. The directional instructions of the lane stream, loads and stores apart (R234 to R247). -/
namespace Sys2Proof.Machine

/-- Register, lane and component of every component of a direction, in order of the component index (R234). -/
def dirPlaces (width k span : Nat) : List (Nat × Nat × Nat) :=
  (List.range span).flatMap fun j => (List.range width).flatMap fun l => (List.range 8).map fun c => (k + j, l, c)

/-- The direction in q[k] with a span (R234, R235). -/
def Group.direction (g : Group) (k span : Nat) : Dirn :=
  ⟨(dirPlaces g.width k span).map fun p => (g.qreg p.1 p.2.1 p.2.2).toInt, g.n[k]?.getD 0⟩

/-- Everything that writing a direction to q[k] writes (R237). -/
def Group.dirWrites (g : Group) (k span : Nat) (d : Dirn) : List (Nat × Nat × Nat × Word32) :=
  ((dirPlaces g.width k span).zip d.comp).map fun x => (x.1.1, x.1.2.1, x.1.2.2, BitVec.ofInt 32 x.2)

/-- Flags set in every participating lane. -/
def LaneCtx.allFlags (k : LaneCtx) (f : Flags) : List (Nat × Flags) := k.m.lanes.map fun l => (l, f)

/-- The commit of a whole-direction instruction: nothing where no lane participates (R237). -/
def LaneCtx.dirCommit (k : LaneCtx) (r : Dirn × Flags) : Commit :=
  if k.m = 0 then {}
  else { q := k.g.dirWrites k.dDir k.w.qspan r.1, n := some (k.dDir, r.1.code), xf := k.allFlags r.2 }

/-- A whole-direction instruction (R237). -/
def laneDir (op : LaneOp) (w : LaneWord) (body : LaneCtx → Dirn × Flags) (s : State) : Out :=
  laneAlu op w (fun k => k.dirCommit (body k)) s

/-- Direction A as it reads (R235). -/
def LaneCtx.dirA (k : LaneCtx) : Dirn := (k.g.direction k.aDir k.w.qspan).read
/-- Direction B as it reads (R235). -/
def LaneCtx.dirB (k : LaneCtx) : Dirn := (k.g.direction k.bDir k.w.qspan).read
/-- RM of a directional instruction (R239). -/
def LaneWord.qrm (w : LaneWord) : Nat := w.fn.toNat / 2 % 8

/-- Source elements of `qpack` in order of the component index (R240). -/
def LaneCtx.packElems (k : LaneCtx) : List Nat :=
  let t := LaneWord.from k.w
  (dirPlaces k.g.width 0 k.w.qspan).map fun p =>
    let (j, l, c) := p
    if t = .bf16 then (k.g.vreg (k.aReg + 4 * j + c / 2) l).toNat / 2 ^ (16 * (c % 2)) % 65536
    else if t = .f64 then k.g.velem true (k.aReg + 16 * j + 2 * c) l
    else k.g.velem false (k.aReg + 8 * j + c) l

/-- QPACK (R240). -/
def execQpack (w : LaneWord) (s : State) : Out := laneDir .qpack w (fun k => qpackDir (LaneWord.from w) k.packElems) s

/-- QUNPK (R241). -/
def execQunpk (w : LaneWord) (s : State) : Out :=
  laneAlu .qunpk w (fun k =>
    let a := k.g.direction k.aDir w.qspan
    let t := w.ty
    let elem (u : Int) : Nat × Flags :=
      if a.code = zeroCode then (0, 0)
      else if a.code = invalidCode then ((fmt t).nan, 0)
      else qunpkElem t (k.mode t (LaneWord.qrm w)) (k.sat t 0) w.var a.code u
    let rs := k.m.lanes.map fun l =>
      (l, (List.range w.qspan).flatMap fun j => (List.range 8).map fun c => (8 * j + c, elem (k.g.qreg (k.aDir + j) l c).toInt))
    { v := rs.flatMap fun x => x.2.flatMap fun e => vWrite t.wide (k.dReg + (if t.wide then 2 else 1) * e.1) x.1 e.2.1,
      xf := rs.map fun x => (x.1, x.2.foldl (fun f e => f ||| e.2.2) 0) }) s

/-- QDOT (R237, R242): collective. -/
def execQdot (w : LaneWord) (s : State) : Out :=
  .next (laneOp .qdot w (fun k s =>
    if k.m ≠ s.g.full then s.laneFault .converge (s.g.full &&& ~~~ k.m)
    else
      let r := qdotVal (k.mode .f32 (LaneWord.qrm w)) (k.sat .f32 0) k.dirA k.dirB
      s.laneResult k false (k.each false fun _ => r)) s)

/-- QSC (R243). -/
def execQsc (w : LaneWord) (s : State) : Out :=
  laneDir .qsc w (fun k => qscDir w.var k.dirA (toInt .i32 (k.b .q 0))) s

/-- QADD (R244). -/
def execQadd (w : LaneWord) (s : State) : Out := laneDir .qadd w (fun k => qaddDir w.var k.dirA k.dirB) s

/-- QPROJ (R245). -/
def execQproj (w : LaneWord) (s : State) : Out := laneDir .qproj w (fun k => qprojDir 1 w.var k.dirA k.dirB) s

/-- QROT (R245). -/
def execQrot (w : LaneWord) (s : State) : Out := laneDir .qrot w (fun k => qprojDir 2 false k.dirA k.dirB) s

/-- QMOV (R246). -/
def execQmov (w : LaneWord) (s : State) : Out := laneDir .qmov w (fun k => (k.dirA, 0)) s

/-- QNORM (R247). -/
def execQnorm (w : LaneWord) (s : State) : Out :=
  laneAlu .qnorm w (fun k => k.each false fun _ =>
    qnormVal (k.mode .f32 (LaneWord.qrm w)) (k.sat .f32 0) w.var (k.g.n[k.aDir]?.getD 0)) s

end Sys2Proof.Machine
end

