-- ==== Sys2Proof/Machine/LaneMem.lean ====
section
/-! DEFINITION. Lane loads, stores, atomics, reductions, top-k insertion and bulk deque operations, and `qld` and `qst` (R165 to R183,
R248). -/
namespace Sys2Proof.Machine

/-! Addresses (R167) -/

/-- The offset of an access of lane `l` (R167). -/
def LaneCtx.offset (k : LaneCtx) (es l : Nat) : Word64 :=
  let b := (BitVec.ofNat 32 (k.b .i32 l)).signExtend 64
  (if k.w.sc then b * BitVec.ofNat 64 es else b) + k.w.imm.signExtend 64

/-- The translation register that BK 0 names, of the run's snapshot (R14, R167). -/
def LaneCtx.treg (k : LaneCtx) : TransReg := k.run.a[k.w.a.toNat % 8]?.getD {}

/-- An address from the base kind and an offset in lane `l` (R167). -/
def LaneCtx.address (k : LaneCtx) (bk : Nat) (o : Word64) (l : Nat) : Word64 :=
  match bk with
  | 0 => k.treg.base + o
  | 1 | 2 => BitVec.ofNat 64 (k.a .b64 l) + o
  | _ => 0xFFFFF00000000000#64 + BitVec.ofNat 64 ((k.a .n32 l + o.toNat) % 2 ^ 24)

/-- What an address reaches. -/
inductive Reach
  | mem (p : Place)
  | win (w : Window)
deriving DecidableEq, Repr

/-- One access of a lane instruction: its number (the lane, but for `qld` and `qst`), its address and what it reaches. -/
structure LaneAcc where
  lane : Nat
  va : Word64
  reach : Reach
deriving DecidableEq, Repr

/-- The lines that an access of `n` bytes covers. -/
def LaneAcc.lines (n : Nat) (a : LaneAcc) : List (Nat ⊕ Nat) :=
  match a.reach with
  | .mem p => [.inr (p.pa / 128), .inr ((p.pa + n - 1) / 128)]
  | .win (.scratch b o) => [.inl (scratchKey b o / 128), .inl ((scratchKey b o + n - 1) / 128)]
  | .win _ => []

/-- What is asked of the accesses of an instruction: bytes, alignment, whether a store, the kind for translation, and whether host
memory is refused (R175, R182, R183). -/
structure AccessForm where
  n : Nat
  al : Nat
  store : Bool
  kind : AccessKind
  noHost : Bool := false
deriving DecidableEq, Repr

/-- PERM with detail 6 for host memory where the instruction takes none. -/
def hostCheck (f : AccessForm) (p : Place) : Except TransFault Reach :=
  if f.noHost && isHost p.pa then .error ⟨.perm, 6, 0⟩ else .ok (.mem p)

/-- What an address reaches outside a translation register (R16). -/
def State.reachVa (s : State) (f : AccessForm) (va : Word64) : Except TransFault Reach :=
  if inWindow va then .ok (.win (s.window s.g.caravan va f.n f.store))
  else
    match s.place s.g va f.kind with
    | .error e => .error e
    | .ok p => hostCheck f p

/-- What an access through a translation register reaches (R118). Past LIMIT its address counts as any other, the scratch window included
(R16; log 42). -/
def State.reachReg (s : State) (f : AccessForm) (r : TransReg) (o : Word64) : Except TransFault Reach :=
  if o.toNat < r.limit.toNat then
    match s.placeReg s.g r o f.kind with
    | .error e => .error e
    | .ok p => hostCheck f p
  else s.reachVa f (r.base + o)

/-- The first cause of a list of accesses, in ascending order, with the accesses that share it (R114). -/
def firstFault {α : Type} (l : List (Nat × Word64 × Except TransFault α)) : Option (TransFault × Word64 × List Nat) :=
  l.findSome? fun x =>
    match x.2.2 with
    | .ok _ => none
    | .error f => some (f, x.2.1, l.filterMap fun y =>
        match y.2.2 with
        | .error e => if e.cause = f.cause then some y.1 else none
        | .ok _ => none)

/-- The mask of lanes. -/
def maskOf (l : List Nat) : Mask := l.foldl (fun m x => m ||| Mask.one x) 0

/-- A fresh copy of the register that BK 0 names, kept in the run's snapshot (R118). -/
def State.freshSnap (s : State) (k : LaneCtx) (r : TransReg) : State :=
  s.setG fun g => { g with runs := match g.runs with
    | [] => []
    | x :: xs => { x with a := x.a.setIfInBounds (k.w.a.toNat % 8) r } :: xs }

/-- Whether the walks for accesses of the lane instruction that issues wait (R70, R76, R383): the one that forms a stale register, and those of
addresses outside its range (R118). -/
def State.laneHeld (s : State) (k : LaneCtx) (bk : Nat) (f : AccessForm) (l : List (Nat × Word64 × Word64)) : Bool :=
  (bk = 0 && k.treg.v && k.treg.stale && s.formHeld s.g k.treg.base) ||
    l.any fun x => !(bk = 0 && x.2.2.toNat < k.treg.limit.toNat) && s.walkHeld s.g x.2.1 f.kind

/-- Resolves the accesses of an instruction: lane, address and offset; ALIGN first, then translation, then WATCH (R114, R168, R373).
`lanes` maps an access to the lanes that a fault of it names. A stale register that cannot be formed afresh faults at its VBASE (R113,
R118), an empty one at the address that its left-over VBASE gives (log 42). -/
def State.laneAccesses (s : State) (k : LaneCtx) (bk : Nat) (f : AccessForm) (l : List (Nat × Word64 × Word64))
    (lanes : List Nat → Mask) (body : State → List LaneAcc → State) : State :=
  let bad := l.filter fun x => x.2.1.toNat % f.al ≠ 0
  match bad with
  | x :: _ => s.laneFault .align (lanes (bad.map (·.1))) {} x.2.1
  | [] =>
    if s.laneHeld k bk f l then s
    else
    let reg : Except TransFault TransReg := if bk = 0 then s.freshReg s.g k.treg else .ok {}
    match reg with
    | .error e =>
      match l with
      | [] => body s []
      | x :: _ => s.laneFault e.cause (lanes (l.map (·.1))) e.info (if k.treg.v then k.treg.base else x.2.1)
    | .ok r =>
      let s1 := if bk = 0 && k.treg.stale then s.freshSnap k r else s
      let rs := l.map fun x => (x.1, x.2.1, if bk = 0 then s1.reachReg f r x.2.2 else s1.reachVa f x.2.1)
      match firstFault rs with
      | some (e, va, ls) => s.laneFault e.cause (lanes ls) e.info va
      | none =>
        let accs := rs.filterMap fun x =>
          match x.2.2 with
          | .ok a => some (LaneAcc.mk x.1 x.2.1 a)
          | .error _ => none
        let w := accs.filter fun a => !s.g.hmode && !s.g.noWatchLane &&
          (watches s.g.watch0 a.va f.n f.store || watches s.g.watch1 a.va f.n f.store)
        match w with
        | a :: _ => s.laneFault .watch (lanes (w.map (·.lane))) {} a.va
        | [] =>
          let ls := accs.flatMap (LaneAcc.lines f.n)
          if s.lineHeld ls then s
          else
            (if f.store then id else s.afterOps ls) (body (accs.foldl (fun (s : State) a =>
              match a.reach with
              | .mem p => s.notePlace p f.kind
              | .win _ => s) s1) accs)

/-- Address and offset of every participating lane. -/
def LaneCtx.laneAddrs (k : LaneCtx) (es : Nat) : List (Nat × Word64 × Word64) :=
  k.m.lanes.map fun l => (l, k.address k.w.bk (k.offset es l) l, k.offset es l)

/-- Whether a memory instruction that a region may not hold stops here (R337): a live region aborts with MODE. -/
def State.unlessRegion (s : State) (body : State) : State :=
  match s.region with
  | some r => s.abortRegion r .mode 0 0 false true
  | none => body

/-! Waiting at FIFO banks (R133) -/

/-- The turn of an instruction's accesses at several FIFO banks: bank, filled and free slots that it needs there. -/
def State.fifoTurns (s : State) (needs : List (Nat × Nat × Nat)) (serve : State → State) : State :=
  let slot := (s.g.iss.map (·.pslot)).getD 0
  let mine (w : FifoWait) : Bool := w.cmd.isNone && w.tag = s.g.tag && w.lane = some slot
  let ready := needs.all fun x =>
    (s.bank x.1).serves mine x.2.1 x.2.2
  if ready then
    serve (needs.foldl (fun (s : State) x =>
      s.setBank { s.bank x.1 with waiters := (s.bank x.1).waiters.filter fun w => !mine w }) s)
  else
    needs.foldl (fun (s : State) x =>
      let b := s.bank x.1
      if b.waiters.any mine then s else s.setBank { b with waiters := b.waiters ++ [⟨s.g.tag, some slot, x.2.1, x.2.2, false, none⟩] }) s

/-- The FIFO bank of an access, with the change of FILL that it makes: none of a load, +1 of a push, -1 of a pop. -/
def LaneAcc.fifo (a : LaneAcc) : Option (Nat × Int × Bool × Bool) :=
  match a.reach with
  | .win (.head b _) => some (b, 0, true, false)
  | .win (.tail b _) => some (b, 0, false, true)
  | .win (.pop b) => some (b, -1, true, false)
  | .win (.push b) => some (b, 1, false, true)
  | _ => none

/-- What accesses served in order need of each FIFO bank (R133). -/
def fifoNeeds (accs : List LaneAcc) : List (Nat × Nat × Nat) :=
  let fs := accs.filterMap LaneAcc.fifo
  ((fs.map (·.1)).eraseDups).map fun b =>
    let r := fs.foldl (fun (acc : Int × Int × Int) x =>
      if x.1 ≠ b then acc
      else
        (acc.1 + x.2.1, (if x.2.2.1 then max acc.2.1 (1 - acc.1) else acc.2.1), (if x.2.2.2 then max acc.2.2 (1 + acc.1) else acc.2.2)))
      (0, 0, 0)
    (b, r.2.1.toNat, r.2.2.toNat)

/-- Whether an access at 0x8000 or 0x8004 belongs to an instruction with more than N pops, or more than N pushes, at its bank (R133). -/
def State.overFifo (s : State) (accs : List LaneAcc) (a : LaneAcc) : Bool :=
  let n (w : Window) : Nat := (accs.filter fun x => x.reach = .win w).length
  match a.reach with
  | .win (.pop b) | .win (.push b) => n (.pop b) > (s.bank b).count || n (.push b) > (s.bank b).count
  | _ => false

/-- Whether an access is a scratch violation (R18, R132, R133). -/
def State.violates (s : State) (accs : List LaneAcc) (a : LaneAcc) : Bool := a.reach = .win .violation || s.overFifo accs a

/-- Whether an access is one of memory. -/
def LaneAcc.isMem (a : LaneAcc) : Bool :=
  match a.reach with
  | .mem _ => true
  | .win _ => false

/-! Loads -/

/-- What one access loads (R168). -/
def State.accessLoad (s : State) (a : LaneAcc) (n : Nat) (keep : Bool) : State × LoadRes :=
  match a.reach with
  | .mem p => s.memLoad p n keep
  | .win (.scratch b o) => (s, s.scratchAnswer b o n)
  | .win (.head b o) => (s, s.headAnswer b o n)
  | .win (.fill b) => (s, .ok (leBytes n (s.bank b).fill))
  | .win (.free b) => (s, .ok (leBytes n (s.bank b).free))
  | .win _ => (s, .ok (List.replicate n 0))

/-- The loads of an instruction in ascending order, with what each answered. -/
def State.accessLoads (s : State) (n : Nat) (keep : Bool) : List LaneAcc → State × List (Nat × LoadRes)
  | [] => (s, [])
  | a :: as =>
    let (s1, r) := s.accessLoad a n keep
    let (s2, rs) := s1.accessLoads n keep as
    (s2, (a.lane, r) :: rs)

/-- A line that a core holds becomes the least recently used of its set, or one to be kept in preference (R171). -/
def Mem.hinted (m : Mem) (core hint line : Nat) : Mem :=
  match hint with
  | 1 => { m with qlines := m.qlines.map (fun l => if l.quad = core / 4 && !l.victim && l.meets (line * 128) 128 then { l with used := 0 } else l),
                  copies := m.copies.map (fun c => if c.core = core && c.line = line then { c with used := 0 } else c),
                  nones := m.nones.map fun x => if x.core = core && x.line = line then { x with used := 0 } else x }
  | 2 => { m with kept := (core, line) :: m.kept.filter fun x => x ≠ (core, line) }
  | _ => m

/-- The loads of an instruction under its HINT (R171). -/
def State.hintedLoads (s : State) (n hint : Nat) (accs : List LaneAcc) : State × List (Nat × LoadRes) :=
  let r := s.accessLoads n (hint ≠ 3) accs
  let lines := accs.filterMap fun a => match a.reach with
    | .mem p => some (p.pa / 128)
    | .win _ => none
  ({ r.1 with mem := lines.foldl (fun (m : Mem) l => m.hinted s.g.coreNo hint l) r.1.mem }, r.2)

/-- The bytes that a load answered. -/
def LoadRes.bytes : LoadRes → List Byte
  | .ok bs => bs
  | _ => []

/-- The first answer that is no value. -/
def firstBad : List (Nat × LoadRes) → Option LoadRes
  | [] => none
  | (_, .ok _) :: l => firstBad l
  | (_, r) :: _ => some r

/-- What becomes of the loads of an instruction that started at `s` (R169, R340): `k` takes the bytes. -/
def State.takeLoads (s : State) (r : State × List (Nat × LoadRes)) (lanes : List Nat → Mask)
    (k : State → List (Nat × List Byte) → State) : State :=
  match firstBad r.2 with
  | none => k r.1 (r.2.map fun x => (x.1, x.2.bytes))
  | some (.fault c) => r.1.laneFault c (lanes ((r.2.filter fun x => x.2 = .fault c).map (·.1)))
  | some (.abort c) => match s.region with
    | some g => s.abortRegion g c 0 0 false true
    | none => s
  | some _ => s.keepStall r.1

/-- The end of a lane memory instruction: it goes into flight, and violating lanes are switched off (R134, R168). -/
def State.endMem (s : State) (k : LaneCtx) (c : Commit) (waits : List Nat) (dst : Option Nat) (wide : Bool)
    (pred : Option (BitVec 3)) (viol : Mask) : State :=
  let late := pred.isSome || s.g.sb.any fun e => waits.contains e.id && e.peerAtomic
  s.setG fun g => (g.launchLong k.place c waits dst wide pred late).switchOff viol

/-- The scope of a lane memory instruction (R28, R165). -/
def LaneWord.scope (w : LaneWord) : Scope := (Scope.ofCode (BitVec.ofNat 3 w.scopeCode)).getD .grp
/-- The ordering of a lane memory instruction (R165). -/
def LaneWord.order (w : LaneWord) : Ord := Ord.ofCode (BitVec.ofNat 2 w.ordCode)

/-- Element `i` of loaded bytes, extended to its register (R170). -/
def loadedElem (t : Ty) (i : Nat) (bs : List Byte) : Nat :=
  widenInt t (leNat ((bs.drop (i * t.esize)).take t.esize))

/-- LD (R168 to R172). -/
def execLd (w : LaneWord) (s : State) : Out :=
  .next (laneOp .ld w (fun k s =>
    let t := w.ty
    let cnt := if w.var then 4 else 1
    let n := cnt * t.esize
    s.laneAccesses k w.bk { n := n, al := n, store := false, kind := .load } (k.laneAddrs t.esize) maskOf fun s accs =>
      let viol := maskOf ((accs.filter (s.violates accs)).map (·.lane))
      let good := accs.filter fun a => !s.violates accs a
      s.fifoTurns (fifoNeeds good) fun s =>
        s.takeLoads (s.hintedLoads n w.hint good) maskOf fun s rs =>
          let c : Commit :=
            { v := rs.flatMap fun x => (List.range cnt).flatMap fun i =>
                vWrite t.wide (k.dReg + (if t.wide then 2 else 1) * i) x.1 (loadedElem t i x.2) }
          (s.acquireIf (LaneWord.order w) (LaneWord.scope w) (good.all LaneAcc.isMem)).endMem k c [] none false none viol) s)

/-! Stores -/

/-- A target without its place in its line: stores of one entry share it. -/
def Target.attr : Target → Target
  | .bank b o => .bank b (o / 128)
  | .mem pa c g e k => .mem (pa / 128) c g e k

/-- The bytes of stores, a later one of the same byte in place of an earlier one. -/
def lastWins (bs : List (Target × Byte)) : List (Target × Byte) :=
  bs.foldr (fun x acc => if acc.any fun y => y.1 = x.1 then acc else x :: acc) []

/-- Whether two lists of bytes share a byte. -/
def overlaps (a b : List (Target × Byte)) : Bool := a.any fun x => b.any fun y => x.1 = y.1

/-- The permutation of a list that numbers choose, each the place of the element that comes next among those left. -/
def permute {α : Type} (f : Nat → Nat) : Nat → List α → List α
  | 0, l => l
  | n + 1, l =>
    let i := f n % l.length
    match l[i]? with
    | some x => x :: permute f n (l.eraseIdx i)
    | none => l

/-- An order of lanes that free values choose, where the manual gives none (R145, R172, R174; log 2); `i` tells several orders of one
occasion apart. -/
def State.freeOrder {α : Type} (s : State) (l : List α) (i : Nat := 0) : List α :=
  permute (fun n => (s.freeVal (64 * i + n)).toNat) l.length l

/-- The bytes of an access of `n` bytes that are written at once (R146, R170): all of up to 8, each element of four, an atom of a record's
part. -/
def storeUnit (n : Nat) : Nat := if n ≤ 8 then max n 1 else if n ≤ 32 then n / 4 else 4

/-- The bytes of stores of several lanes in the order in which free values let them be performed, each access of `n` bytes whole or part by
part (R145, R146, R172). -/
def State.raceOrder (s : State) (n : Nat) (l : List (Nat × List (Target × Byte))) : List (Nat × List (Target × Byte)) :=
  let unit : Target → Nat ⊕ Nat
    | .bank b o => .inl ((b * 65536 + o) / storeUnit n)
    | .mem pa .. => .inr (pa / storeUnit n)
  let units := ((l.flatMap fun x => x.2.map fun y => unit y.1)).eraseDups
  units.zipIdx.flatMap fun u => s.freeOrder (l.filterMap fun x =>
    let mine := x.2.filter fun y => unit y.1 = u.1
    if mine.isEmpty then none else some (x.1, mine)) u.2

/-- Whether stores of several lanes meet in a byte. -/
def anyOverlap : List (Nat × List (Target × Byte)) → Bool
  | [] => false
  | x :: xs => xs.any (fun y => overlaps x.2 y.2) || anyOverlap xs

/-- The entries that stores of several lanes make: one for each line under one mapping, with its lanes (R148). -/
def storeEntries (l : List (Nat × List (Target × Byte))) : List (List Nat × List (Target × Byte)) :=
  let attrs := ((l.flatMap fun x => x.2.map fun y => y.1.attr)).eraseDups
  attrs.map fun a =>
    let mine := l.filter fun x => x.2.any fun y => y.1.attr = a
    ((mine.map (·.1)).eraseDups, lastWins (mine.flatMap fun x => x.2.filter fun y => y.1.attr = a))

/-- The targets of a buffered store access. -/
def LaneAcc.storeBytes (a : LaneAcc) (bs : List Byte) : List (Target × Byte) :=
  match a.reach with
  | .mem p => p.targets bs
  | .win (.scratch b o) => bankTargets b o bs
  | .win _ => []

/-- What a store access does at a FIFO bank (R132). -/
def State.fifoStore (s : State) (a : LaneAcc) (bs : List Byte) : State :=
  match a.reach with
  | .win (.tail b o) => s.setBankBytes b ((s.bank b).tail * (s.bank b).slotSize + o) bs
  | .win (.pop b) => s.setBank (s.bank b).pop
  | .win (.push b) => s.setBank (s.bank b).push
  | _ => s

/-- The mode of the page of a memory access is DIR. -/
def LaneAcc.inDir (a : LaneAcc) : Bool :=
  match a.reach with
  | .mem p => p.coh = .dir
  | .win _ => true

/-- The stores of a region, in order: places with their bytes (R127, R340). -/
def State.regionStores (s : State) : List (Place × List Byte) → Except AbortCause State
  | [] => .ok s
  | (p, bs) :: rest =>
    match s.region with
    | some r =>
      match s.regionStore r p bs with
      | .ok s1 => (s1.fit p.pa).regionStores rest
      | .error c => .error c
    | none => .ok s

/-- The place of the first of some consecutive bytes, with them. -/
def placeBytes (bs : List (Target × Byte)) : Option (Place × List Byte) :=
  match bs with
  | (.mem pa coh grain enc key, _) :: _ => some (⟨0, pa, coh, grain, enc, key, none⟩, bs.map (·.2))
  | _ => none

/-- The memory stores of several lanes of a region, in a free order where they meet (R145, R172). -/
def State.regionPieces (s : State) (accs : List (LaneAcc × List Byte)) : List (Place × List Byte) :=
  let l := (accs.filter fun x => x.1.isMem).map fun x => (x.1.lane, x.1.storeBytes x.2)
  (if anyOverlap l then s.raceOrder ((accs.head?.map fun x => x.2.length).getD 0) l else l).filterMap fun x => placeBytes x.2

/-- Accesses of the group's live region through a key that does not serve are deferred KEY faults (R81, R82, R343). -/
def State.regionKey (s : State) (accs : List LaneAcc) (lanes : List Nat → Mask) (fpc : Word64) : Option State :=
  let bad := accs.filter fun a => match a.reach with
    | .mem p => !s.mem.keyServes p.pa p.enc p.key
    | .win _ => false
  if bad.isEmpty || s.region.isNone then none
  else some (s.deferFault ⟨.key, fpc, 0, lanes (bad.map (·.lane)), 0, none⟩ s.g.hmode)

/-- Stores of resolved accesses by a lane instruction that passes its checks: region stores, buffered stores, FIFO stores. `whole`: they
are one access (R248). -/
def State.laneStores (s : State) (k : LaneCtx) (accs : List (LaneAcc × List Byte)) (lanes : List Nat → Mask) (viol : Mask)
    (whole : Bool := false) : State :=
  let inRegion := s.region.isSome
  let buf := (accs.filter fun x => !(inRegion && x.1.isMem)).filterMap fun x =>
    let t := x.1.storeBytes x.2
    if t.isEmpty then none else some (x.1.lane, t)
  let many := anyOverlap (accs.map fun x => (x.1.lane, x.1.storeBytes x.2))
  let entries := storeEntries (if many then s.raceOrder ((accs.head?.map fun x => x.2.length).getD 0) buf else buf)
  let counts := entries.zipIdx.map fun e => if whole then (if e.2 = 0 then 1 else 0) else e.1.1.length
  if !s.g.sbRoom (entries.flatMap fun e => e.2.map fun y => y.1.line) (counts.foldl (· + ·) 0) then s
  else
    s.fifoTurns (fifoNeeds (accs.map (·.1))) fun s0 =>
      match s0.region.map fun r => (r, s0.regionStores (s0.regionPieces accs)) with
      | some (r, .error c) => s0.abortRegion r c 0 0 false true
      | other =>
        let s1 := match other with
          | some (_, .ok s1) => s1
          | _ => s0
        let s2 := accs.foldl (fun (s : State) x => s.fifoStore x.1 x.2) (if many then s1.useFree else s1)
        let ins := some s2.g.nextId
        (s2.setG fun g => (entries.zip counts).foldl (fun (g : Group) e =>
          g.enqueue (.store e.1.2) e.2 (fpcLane k.place false) (lanes e.1.1) ins) g).endMem k {} [] none false none viol

/-- Elements that a lane stores, as bytes (R170). -/
def LaneCtx.storeData (k : LaneCtx) (l : Nat) : List Byte :=
  let t := k.w.ty
  (List.range (if k.w.var then 4 else 1)).flatMap fun i =>
    leBytes t.esize (k.g.operand k.run t k.w.d (k.stepOf k.p.sd + (if t.wide then 2 else 1) * i) l)

/-- ST (R168 to R172). -/
def execSt (w : LaneWord) (s : State) : Out :=
  .next (laneOp .st w (fun k s =>
    let n := (if w.var then 4 else 1) * w.ty.esize
    s.laneAccesses k w.bk { n := n, al := n, store := true, kind := .store } (k.laneAddrs w.ty.esize) maskOf fun s accs =>
      let viol := maskOf ((accs.filter (s.violates accs)).map (·.lane))
      let good := accs.filter fun a => !s.violates accs a
      match s.region with
      | some r =>
        if !good.all LaneAcc.inDir then s.abortRegion r .mode 0 0 false true
        else if let some s1 := s.regionKey good maskOf (fpcLane k.place false) then s1
        else
          let part := good.all LaneAcc.isMem
          s.afterRelease (LaneWord.order w) (LaneWord.scope w) part
            ((s.releaseIf (LaneWord.order w) (LaneWord.scope w) part).laneStores k (good.map fun a => (a, k.storeData a.lane)) maskOf viol)
      | none =>
        s.afterRelease (LaneWord.order w) (LaneWord.scope w) true
          ((s.releaseIf (LaneWord.order w) (LaneWord.scope w) true).laneStores k (good.map fun a => (a, k.storeData a.lane)) maskOf viol)) s)

/-! Atomics and memory-side operations -/

/-- The target of a memory-side operation. -/
def LaneAcc.target (a : LaneAcc) : Option Target :=
  match a.reach with
  | .mem p => some (.mem p.pa p.coh p.grain p.enc p.key)
  | .win (.scratch b o) => some (.bank b o)
  | .win _ => none

/-- Operations that wait in the store buffer: lane, accesses counted, target, operation. -/
abbrev LaneOps := List (Nat × Nat × Target × MemOp)

/-- Sends the operations of a lane instruction, or stalls for want of room (R148); with an acquire they are performed, acknowledged
and followed by its steps before anything later issues (R152). -/
def State.sendOps (s : State) (k : LaneCtx) (ops : LaneOps) (mask : Nat → Mask) (rel acq : Bool)
    (fin : State → List Nat → State) : State :=
  let sc := LaneWord.scope k.w
  if !s.g.sbRoom (ops.map fun x => x.2.2.1.line) (ops.foldl (fun n x => n + x.2.1) 0) then s
  else if rel && !s.fenceReady sc then s
  else
    let s1 := if rel then s.fence sc else s
    let ins := some s1.g.nextId
    let first := s1.g.nextId
    let s2 := s1.setG fun g => ops.foldl (fun (g : Group) x =>
      g.enqueue (.op x.2.2.1 x.2.2.2) x.2.1 (fpcLane k.place false) (mask x.1) ins) g
    let ids := (List.range ops.length).map (first + ·)
    let s3 := fin s2 ids
    if acq then (ids.foldl State.acknowledge s3).acquire sc else s3

/-- The accesses whose bank takes atomics: SCRATCH mode alone (R132, R174). -/
def LaneAcc.atomic (a : LaneAcc) : Bool :=
  match a.reach with
  | .mem _ => true
  | .win (.scratch ..) => true
  | .win _ => false

/-- Whether two lanes meet in a target. -/
def sameTargets : LaneOps → Bool
  | [] => false
  | x :: xs => xs.any (fun y => y.2.2.1.attr = x.2.2.1.attr) || sameTargets xs

/-- An `atom` or `cas`: `f` gives the operation of a lane (R173, R174). -/
def laneAtomic (op : LaneOp) (w : LaneWord) (nr : Bool) (f : LaneCtx → Nat → MemOp) (s : State) : Out :=
  .next (laneOp op w (fun k s => s.unlessRegion
    (s.laneAccesses k w.bk { n := w.ty.esize, al := w.ty.esize, store := true, kind := .atomic } (k.laneAddrs w.ty.esize) maskOf
      fun s accs =>
        let viol := maskOf ((accs.filter fun a => !a.atomic).map (·.lane))
        let ops : LaneOps := (accs.filter LaneAcc.atomic).filterMap fun a => a.target.map fun t => (a.lane, 1, t, f k a.lane)
        let many := sameTargets ops
        (if many then s.useFree else s).sendOps k (if many then s.freeOrder ops else ops) Mask.one
          (Ord.releases (LaneWord.order w)) (Ord.acquires (LaneWord.order w)) fun s ids =>
            s.endMem k {} ids (if nr then none else some k.dReg) w.ty.wide none viol)) s)

/-- ATOM (R173, R174). -/
def execAtom (w : LaneWord) (s : State) : Out :=
  laneAtomic .atom w w.var (fun k l => .rmw w.opc w.ty w.ty.esize (BitVec.ofNat 64 (k.dSrc w.ty l)) 0 k.g.cvm) s

/-- CAS (R173, R174). -/
def execCas (w : LaneWord) (s : State) : Out :=
  laneAtomic .cas w false (fun k l =>
    .rmw 8 w.ty w.ty.esize (BitVec.ofNat 64 (k.dSrc w.ty l))
      (BitVec.ofNat 64 (k.g.velem w.ty.wide (k.dReg + (if w.ty.wide then 2 else 1)) l)) 0) s

/-- The one address of an instruction whose target is uniform (R175, R183), under the number 0. -/
def LaneCtx.oneAddr (k : LaneCtx) (es : Nat) : List (Nat × Word64 × Word64) :=
  [(0, k.address k.w.bk (k.offset es 0) 0, k.offset es 0)]

/-- RED (R175 to R179). -/
def execRed (w : LaneWord) (s : State) : Out :=
  .next (laneOp .red w (fun k s => s.unlessRegion
    (s.laneAccesses k w.bk { n := w.ty.esize, al := w.ty.esize, store := true, kind := .atomic, noHost := true } (k.oneAddr w.ty.esize)
      (fun _ => k.m) fun s accs =>
        match (accs.filter LaneAcc.isMem).filterMap LaneAcc.target with
        | [] => s.endMem k {} [] none false none k.m
        | t :: _ =>
          let leaf (l : Nat) : Nat × Flags := (if k.m.getLsbD l then k.dSrc w.ty l else redIdentity w.opc w.ty, 0)
          let r := redTree w.opc w.ty (Nat.log2 s.g.width) ((List.range s.g.width).map leaf)
          let low := Mask.first k.m
          let c : Commit := { xf := if k.m = 0 then [] else [(low, r.2)] }
          if s.g.trapLanes c ≠ 0 then s.laneFault .fpx (s.g.trapLanes c) { flags := s.g.trapFlags c }
          else
            s.sendOps k [(low, 1, t, .red w.opc w.ty (BitVec.ofNat 64 r.1) s.g.die (4 * s.g.quad + s.g.core) s.g.slot low)]
              (fun _ => k.m) (Ord.releases (LaneWord.order w)) false fun s _ => s.endMem k c [] none false none 0)) s)

/-- Whether an entry of `tki` is refused at issue (R181). -/
def tkiInvalid (e : Nat) : Bool := e / 65536 % 65536 = 0xFFFF || (unpack .bf16 (e % 65536)).isNan

/-- The histogram register of `tki` (R165, R181). -/
def LaneCtx.hist (k : LaneCtx) : TransReg := k.run.a[k.w.c.toNat / 128]?.getD {}

/-- The cause of a histogram register (R118, R182). -/
def State.histFault (s : State) (r : TransReg) : Except TransFault TransReg :=
  match s.freshReg s.g r with
  | .error e => .error e
  | .ok x => match permCheck x.xwr x.coh x.pbase .atomic with
    | some f => .error f
    | none => .ok x

/-- TKI (R180 to R182). -/
def execTki (w : LaneWord) (s : State) : Out :=
  .next (laneOp .tki w (fun k s => s.unlessRegion
    (if w.var && k.m ≠ 0 && k.hist.v && k.hist.stale && s.formHeld s.g k.hist.base then s else
      s.laneAccesses k w.bk { n := 16, al := 16, store := true, kind := .atomic, noHost := true } (k.laneAddrs 2) maskOf fun s accs =>
        let h : Except TransFault (Option TransReg) :=
          if w.var && k.m ≠ 0 then (s.histFault k.hist).map some else .ok none
        match h with
        | .error e => s.laneFault e.cause k.m e.info k.hist.base
        | .ok hist =>
          let viol := maskOf ((accs.filter fun a => !a.isMem).map (·.lane))
          let mine := accs.filter LaneAcc.isMem
          let bad := (mine.map (·.lane)).filter fun l => tkiInvalid (k.dSrc .bf16 l)
          let c : Commit := { xf := bad.map fun l => (l, Flags.nv) }
          if s.g.trapLanes c ≠ 0 then s.laneFault .fpx (s.g.trapLanes c) { flags := s.g.trapFlags c }
          else
            let ops : LaneOps := (mine.filter fun a => !tkiInvalid (k.dSrc .bf16 a.lane)).filterMap fun a =>
              a.target.map fun t => (a.lane, 1, t, .tki (w.c.toNat / 32 % 4 + 1) (BitVec.ofNat 32 (k.dSrc .bf16 a.lane)) hist)
            s.sendOps k ops Mask.one (Ord.releases (LaneWord.order w)) false fun s _ => s.endMem k c [] none false none viol)) s)

/-- A bulk deque operation (R183). -/
def laneBulk (op : LaneOp) (push : Bool) (w : LaneWord) (s : State) : Out :=
  .next (laneOp op w (fun k s => s.unlessRegion
    (s.laneAccesses k w.bk { n := 64, al := 64, store := true, kind := .atomic, noHost := true } (k.oneAddr 8) (fun _ => k.m) fun s accs =>
        match (accs.filter LaneAcc.isMem).filterMap LaneAcc.target with
        | [] => s.endMem k {} [] none false none k.m
        | t :: _ =>
          let vals := k.m.lanes.map fun l => (l, if push then BitVec.ofNat 64 (k.dSrc .b64 l) else 0)
          s.sendOps k [(0, vals.length, t, .bulk push vals)] (fun _ => k.m) (Ord.releases (LaneWord.order w))
            (Ord.acquires (LaneWord.order w)) fun s ids =>
              s.endMem k {} ids (if push then none else some k.dReg) true (some (BitVec.ofNat 3 (w.c.toNat / 32 % 8))) 0)) s)

/-- BPUSH (R183). -/
def execBpush (w : LaneWord) (s : State) : Out := laneBulk .bpush true w s

/-- BPOP (R183). -/
def execBpop (w : LaneWord) (s : State) : Out := laneBulk .bpop false w s

/-! qld and qst (R248) -/

/-- The 64-byte parts of a direction record: number, address, offset. -/
def LaneCtx.recordAddrs (k : LaneCtx) : List (Nat × Word64 × Word64) :=
  let o := k.w.imm.signExtend 64
  (List.range (1 + k.g.width * k.w.qspan / 2)).map fun i =>
    (i, k.address k.w.qbk o 0 + BitVec.ofNat 64 (64 * i), o + BitVec.ofNat 64 (64 * i))

/-- Signed 32-bit words of bytes. -/
def words32 (bs : List Byte) (n : Nat) : List Int := (List.range n).map fun i => toInt .i32 (leNat ((bs.drop (4 * i)).take 4))

/-- QLD (R237, R248). -/
def execQld (w : LaneWord) (s : State) : Out :=
  .next (laneOp .qld w (fun k s =>
    if k.m = 0 then s.endMem k {} [] none false none 0
    else
      s.laneAccesses k w.qbk { n := 64, al := 64, store := false, kind := .load } k.recordAddrs (fun _ => k.m) fun s accs =>
        if accs.any (s.violates accs) then s.endMem k {} [] none false none k.m
        else
          s.fifoTurns (fifoNeeds accs) fun s =>
            s.takeLoads (s.hintedLoads 64 w.hint accs) (fun _ => k.m) fun s1 rs =>
              let bs := rs.flatMap (·.2)
              let r := qldDir (words32 (bs.drop 64) (8 * k.g.width * w.qspan)) (BitVec.ofNat 32 (leNat (bs.take 4)))
              let c := k.dirCommit r
              if s.g.trapLanes c ≠ 0 then s.laneFault .fpx (s.g.trapLanes c) { flags := s.g.trapFlags c }
              else s1.endMem k c [] none false none 0) s)

/-- The bytes of a direction record (R248). -/
def recordBytes (d : Dirn) : List Byte :=
  leBytes 4 d.code.toNat ++ List.replicate 60 0 ++ d.comp.flatMap fun x => leBytes 4 (wrapInt .i32 x)

/-- QST (R237, R248). -/
def execQst (w : LaneWord) (s : State) : Out :=
  .next (laneOp .qst w (fun k s =>
    if k.m = 0 then s.endMem k {} [] none false none 0
    else
      s.laneAccesses k w.qbk { n := 64, al := 64, store := true, kind := .store } k.recordAddrs (fun _ => k.m) fun s accs =>
        if accs.any (s.violates accs) then s.endMem k {} [] none false none k.m
        else
          let bs := recordBytes (k.g.direction k.dDir w.qspan).read
          let parts := accs.map fun a => (a, (bs.drop (64 * a.lane)).take 64)
          match s.region with
          | some r =>
            if !accs.all LaneAcc.inDir then s.abortRegion r .mode 0 0 false true
            else (s.regionKey accs (fun _ => k.m) (fpcLane k.place false)).getD (s.laneStores k parts (fun _ => k.m) 0 true)
          | none => s.laneStores k parts (fun _ => k.m) 0 true) s)

end Sys2Proof.Machine
end

