-- ==== Sys2Proof/Machine/LaneControl.lean ====
section
/-! DEFINITION. Clauses, the repeat prefix and the lane control instructions (R40 to R46, R318 to R322), the ends of clauses and
long-latency instructions, lane runs and `regroup` (R14, R42, R43, R292, R301). -/
namespace Sys2Proof.Machine

/-- The clause that follows the clause of a path (R41). -/
def Group.after (g : Group) (p : Path) : Path := .start (fallThrough p.clause (g.lenOf p)) p.mask

/-- A lane control instruction: `f` acts on the slot and its path. -/
def laneControl (op : LaneOp) (w : LaneWord) (f : LaneCtx → Group → Path → Group) (s : State) : Out :=
  .next (laneOp op w (fun k s => s.setG fun g =>
    match g.path k.place.pslot with
    | none => g.popRedo
    | some p => f k g.popRedo p) s)

/-- LBRA (R295, R319). -/
def execLbra (w : LaneWord) (s : State) : Out :=
  laneControl .lbra w (fun k g p =>
    let i := k.place.pslot
    let t := g.governed w p.mask
    let n := p.mask &&& ~~~ t
    let ft : Path := { g.after p with mask := n }
    let tk : Path := .start (w.imm.setWidth 20) t
    let g1 := g.closeEntry p.entry
    (if t = 0 then g1.setSlot i (some ft)
     else if n = 0 then g1.setSlot i (some tk)
     else if (g.path (1 - i)).isNone then (g1.setSlot i (some ft)).setSlot (1 - i) (some tk)
     else (g1.push ft).setSlot i (some tk)).settle) s

/-- LJMP (R295, R319). -/
def execLjmp (w : LaneWord) (s : State) : Out :=
  laneControl .ljmp w (fun k g p =>
    ((g.closeEntry p.entry).setSlot k.place.pslot (some (.start (w.imm.setWidth 20) p.mask))).settle) s

/-- The value that `lsetk` writes (R320). -/
def LaneCtx.setkValue (k : LaneCtx) : Mask :=
  match k.w.fn.toNat % 4 with
  | 0 => BitVec.ofNat 64 (k.a .b64 0)
  | 1 =>
    let p := k.g.preg (k.w.a.extractLsb' 0 3)
    if k.w.a.getLsbD 3 then ~~~ p else p
  | _ => k.w.imm.setWidth 64

/-- LSETK (R320). -/
def execLsetk (w : LaneWord) (s : State) : Out :=
  .next (laneOp .lsetk w (fun k s => s.setG fun g =>
    let n := w.fn.toNat / 8
    let g1 := if k.m = 0 then g else ({ g with k := g.k.setIfInBounds n (k.setkValue &&& g.full) }).testJoin n
    (g1.passed k.place).settle) s)

/-- LJOIN (R298, R321). -/
def execLjoin (w : LaneWord) (s : State) : Out :=
  laneControl .ljoin w (fun k g p =>
    let i := w.fn.toNat % 8
    let b : Batch := if p.slot < g.lenOf p then ⟨g.nextId, p.mask, p.clause, p.slot + 1⟩
      else ⟨g.nextId, p.mask, fallThrough p.clause (g.lenOf p), 0⟩
    let g1 := (g.closeEntry p.entry).setSlot k.place.pslot none
    (({ g1 with nextId := g1.nextId + 1, joins := g1.joins.setIfInBounds i (g1.join i ++ [b]) }).testJoin i).settle) s

/-- Lanes leave a slot and the others go on at the clause that follows (R322). -/
def Group.leaveSlot (g : Group) (i : Nat) (p : Path) (m : Mask) : Group :=
  let rest := p.mask &&& ~~~ m
  (g.closeEntry p.entry).setSlot i (if rest = 0 then none else some { g.after p with mask := rest })

/-- LEND (R292, R322). -/
def execLend (w : LaneWord) (s : State) : Out :=
  laneControl .lend w (fun k g p =>
    let m := g.governed w p.mask
    let g1 := g.leaveSlot k.place.pslot p m
    ({ g1 with parked := g1.parked ||| m }).settle) s

/-- LEXIT (R292, R322). -/
def execLexit (w : LaneWord) (s : State) : Out :=
  laneControl .lexit w (fun k g p =>
    let m := g.governed w p.mask
    let g1 := g.leaveSlot k.place.pslot p m
    ({ g1 with exited := g1.exited ||| m }).testJoins.settle) s

/-- LNOP (R322). -/
def execLnop (w : LaneWord) (s : State) : Out := .next (laneOp .lnop w (fun k s => s.setG fun g => g.passed k.place) s)

/-! The repeat prefix and the clause header -/

/-- Takes a lane fetch fault (R21) in the lanes of the place that issues. -/
def State.fetchFault (s : State) (f : TransFault × Word64) (m : Mask) : State := s.laneFault f.1.cause m f.1.info f.2

/-- REPEAT_PREFIX (R44, R45): the repeat begins; its repetitions issue as steps of their own. -/
def execRepeatPrefix (p : Prefix) (s : State) : Out :=
  .next (match s.g.iss with
    | none => s
    | some pl =>
      if pl.slot ≥ ((s.g.entry pl.entry).map (·.len)).getD 0 then s.laneFault .illegal pl.mask
      else
        match s.fetchLane (pl.clause + BitVec.ofNat 20 (pl.slot + 2)) with
        | (_, .error f) => s.fetchFault f pl.mask
        | (_, .ok (.error _)) => s.laneFault .illegal pl.mask
        | (s1, .ok (.ok i)) =>
          match i.lane? with
          | some ow =>
            if prefixLegal p ow.1 ow.2 then
              s1.setG fun g => { g.popRedo with rep := some ⟨pl.pslot, p, 0⟩, rip := true, rc := p.cnt }
            else s.laneFault .illegal pl.mask
          | none => s.laneFault .illegal pl.mask)

/-- The SET flags of a header (R40). -/
def ClauseHeader.sets (h : ClauseHeader) : List (Fin 12) :=
  (if h.s0v then [Fin.ofNat 12 h.s0f.toNat] else []) ++ if h.s1v then [Fin.ofNat 12 h.s1f.toNat] else []

/-- Whether the clause of a header may start (R42). -/
def Group.clauseReady (g : Group) (h : ClauseHeader) : Bool := g.clear h.wait && (ClauseHeader.sets h).all fun f => g.c[f].toNat < 63

/-- CLAUSE_START (R41, R42): stalls until the clause may start. -/
def execClauseStart (h : ClauseHeader) (s : State) : Out :=
  .next (match s.g.iss with
    | none => s
    | some pl =>
      if !headerLegal h then s.laneFault .illegal pl.mask
      else if !s.g.clauseReady h then s
      else
        s.setG fun g =>
          match g.path pl.pslot with
          | none => g.popRedo
          | some p =>
            let g1 := (ClauseHeader.sets h).foldl Group.incC g.popRedo
            let e : ClauseEntry := { id := g.nextId, len := h.len.toNat, sets := ClauseHeader.sets h, inFlight := 0, closed := false }
            let old := g1.entries.map fun x => if p.also.contains x.id then { x with closed := true, upon := some e.id } else x
            ({ g1 with entries := old ++ [e], nextId := g.nextId + 1 }).setSlot pl.pslot
              (some { p with entry := some e.id, lone := false, also := [] }))

/-! Ends of clauses and of long-latency instructions -/

/-- CLAUSE_END (R42). -/
def execClauseEnd (t e : Nat) (s : State) : Out :=
  .next (s.onGroup t fun g =>
    match g.entries.find? fun x => x.id = e && x.closed && x.inFlight = 0 && x.upon.all fun u => !g.entries.any fun y => y.id = u with
    | none => g
    | some x => { x.sets.foldl Group.decC g with entries := g.entries.filter fun y => y.id ≠ e })

/-- Whether an instruction in flight may complete: its answers are there, and no earlier repetition is in flight (R46, R368). -/
def Group.mayComplete (g : Group) (f : InFlight) : Bool :=
  f.waits.isEmpty &&
    !(f.place.rep.isSome && (g.inflight.takeWhile fun x => x.id ≠ f.id).any fun x =>
      x.place.rep.isSome && x.place.entry = f.place.entry && x.place.slot = f.place.slot && x.place.pslot = f.place.pslot)

/-- A long-latency instruction completes: its writes, its clause entry, and its slot where it held it (R42, R43, R202). -/
def Group.complete (g : Group) (f : InFlight) : Group :=
  let g1 := (g.commit f.commit).leaveEntry f.place
  let g2 : Group := { g1 with inflight := g1.inflight.filter fun x => x.id ≠ f.id }
  if f.holds && g2.rep.any (fun r => r.pslot = f.place.pslot && some r.j = f.place.rep.map (·.1)) then g2.laneNext f.place.pslot else g2

/-- A long-latency instruction of the group in focus completes, where it may (R43, R202), with the deferred FPX of `atom` (R174). -/
def State.finishLong (s : State) (e : Nat) : State :=
  match s.g.inflight.find? fun x => x.id = e with
  | none => s
  | some f =>
    if !s.g.mayComplete f then s
    else
      let g0 : Group := { s.g with xe := f.xe }
      let s1 := s.setG fun g => g.complete f
      if g0.trapLanes f.commit = 0 then s1
      else s1.deferFault
        ⟨.fpx, fpcLane f.place false, Info.word { flags := g0.trapFlags f.commit }, g0.trapLanes f.commit, 0, none⟩ f.inHandler

/-- LONG_LATENCY_COMPLETION (R43, R202). -/
def execLongLatencyCompletion (t e : Nat) (s : State) : Out := .next (s.forGroup t fun s => s.finishLong e)

/-! Lane runs -/

/-- Whether a group's lanes may go on: it is resident or retiring, not standing still and not stopped for a handler. -/
def Group.lanesRun (g : Group) : Bool :=
  g.present && !g.halted && !g.paused && g.stopped.isNone && (g.state = .resident || g.state = .retiring)

/-- LANE_RUN_START (R292). -/
def execLaneRunStart (t : Nat) (s : State) : Out :=
  .next (s.onGroup t fun g => if g.lanesRun && !g.running && !g.runs.isEmpty then g.startRun else g)

/-- LANE_RUN_END (R14, R42). -/
def execLaneRunEnd (t : Nat) (s : State) : Out :=
  .next (s.onGroup t fun g => if g.lanesRun && g.runOver then g.endRun else g)

/-! regroup (R301) -/

/-- The groups of a workgroup that have not retired, by their index in it. -/
def State.workgroup (s : State) (g : Group) : List Group :=
  (List.range 64).filterMap fun i => s.groups.find? fun h => h.caravan = g.caravan && h.wg = g.wg && h.gidx = i && h.state ≠ .retired

/-- Whether a group waits at `regroup` with every run ended (R301, step 1). -/
def Group.atRegroup (g : Group) : Bool := g.regroupAt.isSome && g.runs.isEmpty && !g.running && g.inflight.isEmpty && !g.hmode

/-- Where every position's lane comes from: selected lanes first, then the others (R301, steps 2 and 3). -/
def regroupSources (gs : List Group) : List (Nat × Nat) :=
  let all := gs.zipIdx.flatMap fun x => (List.range x.1.width).map fun l => (x.1, x.2, l)
  let sel (x : Group × Nat × Nat) : Bool := !(x.1.gone.getLsbD x.2.2) && (x.1.preg (x.1.regroupAt.getD 0)).getLsbD x.2.2
  ((all.filter sel) ++ all.filter fun x => !sel x).map (·.2)

/-- The group at index `j` after the move: lane `l` holds the lane state of its source (R301, step 4). -/
def regroupOne (gs : List Group) (src : List (Nat × Nat)) (j : Nat) (g : Group) : Group :=
  let from_ (l : Nat) : Group × Nat :=
    let x := (src[j * g.width + l]?).getD (j, l)
    (gs[x.1]?.getD g, x.2)
  let bits (f : Group → Mask) : Mask := Mask.ofFn g.width fun l => (f (from_ l).1).getLsbD (from_ l).2
  { g with
    v := Vector.ofFn fun r : Fin 256 => Vector.ofFn fun l : Fin 64 =>
      if l.val < g.width then (from_ l).1.vreg r (from_ l).2 else g.vreg r l,
    q := Vector.ofFn fun r : Fin 16 => Vector.ofFn fun l : Fin 64 => Vector.ofFn fun c : Fin 8 =>
      if l.val < g.width then (from_ l).1.qreg r (from_ l).2 c else g.qreg r l c,
    xf := Vector.ofFn fun l : Fin 64 => if l.val < g.width then (from_ l).1.xf[(from_ l).2]?.getD 0 else g.xf[l],
    p := Vector.ofFn fun i : Fin 8 => bits fun h => h.p[i],
    k := Vector.ofFn fun i : Fin 8 => bits fun h => h.k[i],
    fmask := bits (·.fmask), exited := bits (·.exited), regroupAt := none, spc := g.spc + 4 }

/-- REGROUP_MOVE (R301): once every group of the workgroup waits. -/
def execRegroupMove (t : Nat) (s : State) : Out :=
  .next (match s.group t with
    | none => s
    | some g =>
      let gs := s.workgroup g
      if gs.isEmpty || !gs.all Group.atRegroup then s
      else
        let src := regroupSources gs
        gs.zipIdx.foldl (fun s x => s.onGroup x.1.tag fun h => regroupOne gs src x.2 h) s)

end Sys2Proof.Machine
end

