-- ==== Sys2Proof/Machine/Porter.lean ====
section
/-! DEFINITION. Porters and the Lodge (R135 to R142, R184 to R186). -/
namespace Sys2Proof.Machine

/-! Issue -/

/-- s[P + n]. -/
def Group.param (g : Group) (p : BitVec 6) (n : Nat) : Word64 := g.sreg (p + BitVec.ofNat 6 n)

/-- The Porter commands of a core. -/
def State.commands (s : State) (core : Nat) : List PorterCmd := s.porters.filter fun c => c.core = core

/-- The first free slot of a core's Porter (R135). -/
def State.porterSlot (s : State) (core : Nat) : Option Nat :=
  (List.range 8).find? fun i => !(s.commands core).any fun c => c.slot = i

/-- Whether an issuer on the same core has waited longer for a slot (R135). -/
def State.olderIssuer (s : State) : Bool :=
  let since := (s.g.wait.map (·.since)).getD s.now
  s.others.any fun h => h.coreNo = s.g.coreNo && h.state = .resident && h.wait.any fun w => w.porter && w.since < since

/-- A wait of the scalar word that issues, from now on and without a limit. -/
def State.newWait (s : State) : Wait := { spc := s.g.spc, since := s.now, arrived := false, watch := none, woken := false, limit := none }

/-- A scalar instruction that waits without a limit stands at its word (R304). -/
def State.stall (s : State) : State := s.setG fun g => if g.wait.isSome then g else { g with wait := some s.newWait }

/-- A Porter command waits for a slot (R135). -/
def State.porterStall (s : State) : State :=
  s.setG fun g => if g.wait.isSome then g else { g with wait := some { s.newWait with porter := true } }

/-- The commands of a core that a restore has brought beyond its Porter's eight slots: they take freed slots before any issuer (R135,
R138; log 18). -/
def State.slotless (s : State) (core : Nat) : List PorterCmd := (s.commands core).filter fun c => 8 ≤ c.slot

/-- Issues a Porter command that moves bytes (R135, R184). -/
def State.porterIssue (s : State) (c : PorterCmd) : State :=
  if c.arrival.toNat % 8 ≠ 0 then s.scalarFault .align {} c.arrival
  else if c.rowLen = 0 then s.advance
  else
    match s.porterSlot s.g.coreNo with
    | none => s.porterStall
    | some i =>
      if s.olderIssuer || !(s.slotless s.g.coreNo).isEmpty then s.porterStall
      else { s with porters := s.porters ++ [{ c with slot := i }] }.advance

/-- A command of the group in focus with nothing moved yet (R184, R185). -/
def State.newCmd (s : State) (kind : Nat) (p a b : BitVec 6) : PorterCmd :=
  { core := s.g.coreNo, slot := 0, tag := s.g.tag, kind := kind, spc := s.g.spc, inHandler := s.g.hmode, pts := s.g.pts,
    arrival := s.g.param p 1, dst := s.sreg a, src := s.sreg b, pattern := s.sreg b, rowLen := (s.g.param p 0).toNat % 2 ^ 32,
    rows := 1, dstStride := 0, srcStride := 0, index := 0, row := 0, done := 0, delivered := 0, enc := false, key := 0,
    looked := true, barred := false, lodge := none, filling := false }

/-- COUNT (R185). -/
def State.rowCount (s : State) (p : BitVec 6) : Nat := (s.g.param p 0).toNat / 2 ^ 32 % 65536 + 1

/-- The s registers that a command reads: P to P + n, A and B. -/
def porterRegs (p a b : BitVec 6) (n : Nat) : List (BitVec 6) := a :: b :: (List.range (n + 1)).map fun i => p + BitVec.ofNat 6 i

/-- A Porter command (R184, R337). -/
def porterCmd (p a b : BitVec 6) (n : Nat) (cmd : State → PorterCmd) (s : State) : Out :=
  .next (withRegs (porterRegs p a b n) (outsideRegion fun s => s.porterIssue (cmd s)) s)

/-- PCOPY (R185). -/
def execPcopy (p a b : BitVec 6) (var : Bool) (s : State) : Out :=
  porterCmd p a b (if var then 2 else 1) (fun s =>
    let c := s.newCmd 0 p a b
    if var then
      { c with rows := s.rowCount p, dstStride := (s.g.param p 2).toNat % 2 ^ 32, srcStride := (s.g.param p 2).toNat / 2 ^ 32 }
    else c) s

/-- PGATHER (R185). -/
def execPgather (p a b : BitVec 6) (var : Bool) (s : State) : Out :=
  porterCmd p a b (if var then 3 else 2) (fun s =>
    let c := s.newCmd 1 p a b
    { c with rows := s.rowCount p, dstStride := c.rowLen, srcStride := if var then (s.g.param p 3).toNat else c.rowLen,
             index := s.g.param p 2 }) s

/-- PSCATTER (R185). -/
def execPscatter (p a b : BitVec 6) (var : Bool) (s : State) : Out :=
  porterCmd p a b (if var then 3 else 2) (fun s =>
    let c := s.newCmd 2 p a b
    { c with rows := s.rowCount p, srcStride := c.rowLen, dstStride := if var then (s.g.param p 3).toNat else c.rowLen,
             index := s.g.param p 2 }) s

/-- PFILL (R185). -/
def execPfill (p a b : BitVec 6) (s : State) : Out := porterCmd p a b 1 (fun s => s.newCmd 3 p a b) s

/-- PPUSH (R185). -/
def execPpush (p a b : BitVec 6) (s : State) : Out := porterCmd p a b 1 (fun s => s.newCmd 5 p a b) s

/-- A deferred cause of a Porter command (R138): `delivered` bytes, at an address. -/
def State.porterFault (s : State) (c : PorterCmd) (f : TransFault) (addr : Word64) : State :=
  s.forGroup c.tag fun s =>
    s.deferFault ⟨f.cause, fpcScalar c.spc, Info.word { f.info with arg := c.delivered }, 0, addr, none⟩ c.inHandler

/-- PLODGE (R141, R185): the source is translated at issue. -/
def execPlodge (p a b : BitVec 6) (s : State) : Out :=
  .next (withRegs (porterRegs p a b 2) (outsideRegion fun s =>
    let c : PorterCmd := { s.newCmd 4 p a b with
      pattern := s.g.param p 0, index := s.g.param p 2, rowLen := 262144, looked := false,
      barred := s.lodges[s.g.die]?.any (·.flush) }
    if c.arrival.toNat % 8 ≠ 0 then s.scalarFault .align {} c.arrival
    else if inWindow c.src then s.porterIssue c
    else
      s.afterWalk c.src .load <| match s.place s.g c.src .load with
      | .error f => s.advance.porterFault c f c.src
      | .ok pl => (s.notePlace pl .load).porterIssue { c with enc := pl.enc, key := pl.key }) s)

/-! Pieces -/

/-- The target bytes of a part of a piece: the cause and the address where it is found. -/
def State.porterReach (s : State) (cv : Nat) (va : Word64) (n : Nat) (store : Bool) (k : AccessKind) :
    Except (TransFault × Word64) Reach :=
  if inWindow va then
    match s.window cv va n store with
    | .violation => .error (⟨.nomap, 0, 0⟩, va)
    | w => .ok (.win w)
  else
    match s.place s.g va k with
    | .error f => .error (f, va)
    | .ok p => .ok (.mem p)

/-- Splits a byte range at 128-byte lines. -/
def vaParts (va : Word64) : Nat → Nat → List (Word64 × Nat)
  | 0, _ => []
  | f + 1, n =>
    if n = 0 then []
    else
      let k := min n (128 - va.toNat % 128)
      (va, k) :: vaParts (va + BitVec.ofNat 64 k) f (n - k)

/-- Where a command stands at a FIFO bank (R133). -/
abbrev PorterId := Nat × Nat

/-- Whether a command's access at a FIFO bank is served (R132, R133). -/
def State.porterTurn (s : State) (who : PorterId) (bank needFill needFree : Nat) : Bool :=
  (s.bank bank).serves (fun w => w.cmd = some who) needFill needFree

/-- A command's access takes its place at a FIFO bank, in order of arrival (R133). -/
def State.porterJoin (s : State) (who : PorterId) (bank needFill needFree : Nat) : State :=
  let b := s.bank bank
  if b.waiters.any fun w => w.cmd = some who then s
  else s.setBank { b with waiters := b.waiters ++ [⟨s.g.tag, none, needFill, needFree, false, some who⟩] }

/-- A command's access that is served leaves the queue of its bank. -/
def State.porterLeave (s : State) (who : PorterId) (bank : Nat) : State :=
  let b := s.bank bank
  s.setBank { b with waiters := b.waiters.filter fun w => w.cmd ≠ some who }

/-- What a Porter read answers. -/
inductive PorterRead
  | ok (bs : List Byte)
  | fault (f : TransFault) (addr : Word64)
  | wait
deriving DecidableEq, Repr

/-- A read by a Porter command of the group in focus (R89, R96, R133, R136): its own earlier stores to the lines are performed first. -/
def State.porterRead (s : State) (who : PorterId) (va : Word64) (n : Nat) : State × PorterRead :=
  (vaParts va 3 n).foldl (fun (acc : State × PorterRead) part =>
    match acc with
    | (s, .ok bs) =>
      if s.walkHeld s.g part.1 then (s, .wait)
      else
      match s.porterReach s.g.caravan part.1 part.2 false .load with
      | .error (f, a) => (s, .fault f a)
      | .ok (.mem p) =>
        if s.lineHeld [.inr (p.pa / 128)] then (s, .wait)
        else
        let s1 := (s.notePlace p .load).performLines [.inr (p.pa / 128)]
        match s1.plainLoad p part.2 false true with
        | (s2, .ok cs) => (s2, .ok (bs ++ cs))
        | (s2, .fault c) => (s2, .fault ⟨c, 0, 0⟩ part.1)
        | (s2, _) => (s2, .wait)
      | .ok (.win (.scratch b o)) =>
        if s.lineHeld [.inl (scratchKey b o / 128)] then (s, .wait)
        else
        let s1 := s.performLines [.inl (scratchKey b o / 128)]
        if s1.bankPoisoned b o part.2 then (s1, .fault ⟨.poison, 0, 0⟩ part.1) else (s1, .ok (bs ++ s1.bankBytes b o part.2))
      | .ok (.win (.head b o)) =>
        if !s.porterTurn who b 1 0 then (s.porterJoin who b 1 0, .wait)
        else
          match s.headAnswer b o part.2 with
          | .ok cs => (s.porterLeave who b, .ok (bs ++ cs))
          | _ => (s.porterLeave who b, .fault ⟨.poison, 0, 0⟩ part.1)
      | .ok (.win (.fill b)) => (s, .ok (bs ++ leBytes part.2 (s.bank b).fill))
      | .ok (.win (.free b)) => (s, .ok (bs ++ leBytes part.2 (s.bank b).free))
      | .ok (.win _) => (s, .fault ⟨.nomap, 0, 0⟩ part.1)
    | r => r) (s, .ok [])

/-- A Porter's write to a LEASE line takes the writer's jump, which its acknowledgement brings to the group; RSTAMP takes it too, so that who
acquires an arrival word that counts the piece reads its bytes (R97, R137, R156; log 18). -/
def State.pieceJump (s : State) (line : Nat) (pts : Stamp) : State :=
  let j := s.leaseJump line pts
  let s1 := j.1.ackStamp j.2 (s.acks j.1)
  { s1 with mem := { s1.mem with rstamp := maxS s1.mem.rstamp j.2 } }

/-- A write performed at its ordering point below the caches (R75, R89, R97, R136). -/
def State.deepWrite (s : State) (p : Place) (bs : List Byte) (pts : Stamp) : State :=
  let line := p.pa / 128
  let s1 := s.conflictWrite line
  let m0 := if isOwn p.pa then s1.mem.reach line p.enc p.key (bs.length ≥ 128) else s1.mem
  let m1 := if p.coh = .dir then m0.sliceWriteBytes p.pa bs else (m0.hostAside line).plainBytes p.pa bs
  let s2 : State := { s1 with mem := if bs.length ≥ 128 then m1.setPoison line false else m1 }
  let s3 := if p.coh = .lease then s2.pieceJump line pts else s2
  s3.wrote ((Target.mem p.pa p.coh p.grain p.enc p.key).meets bs.length)

/-- A place of package memory by its physical address, plain (R89). -/
def physPlace (a : Nat) : Place := ⟨0, a, .dir, 1, false, 0, none⟩

/-- A write by physical address, performed at its home line by line (R89, R341). -/
def State.physWrite (s : State) (a : Nat) (bs : List Byte) : State :=
  (lineParts a bs.length).foldl (fun s x => s.deepWrite (physPlace (a + x.1)) ((bs.drop x.1).take x.2) 0) s

/-- What a Porter write comes to: it is performed, or it waits, in the queue of a FIFO bank where it stands at one. -/
inductive PorterWrite
  | done (s : State)
  | wait (s : State)
deriving DecidableEq, Repr

/-- A Porter write at a FIFO bank in its turn (R132, R133). -/
def State.porterFifo (s : State) (who : PorterId) (bank needFill needFree : Nat) (serve : State → State) : PorterWrite :=
  if s.porterTurn who bank needFill needFree then .done (serve (s.porterLeave who bank)) else .wait (s.porterJoin who bank needFill needFree)

/-- A Porter write of a piece within one line (R133, R136). -/
def State.porterWrite (s : State) (who : PorterId) (r : Reach) (bs : List Byte) (pts : Stamp) : PorterWrite :=
  match r with
  | .mem p => if s.lineHeld [.inr (p.pa / 128)] then .wait s else .done (s.deepWrite p bs pts)
  | .win (.scratch b o) =>
    if s.lineHeld [.inl (scratchKey b o / 128)] then .wait s
    else .done (s.setBankBytes b o bs)
  | .win (.tail b o) => s.porterFifo who b 0 1 fun s => s.setBankBytes b ((s.bank b).tail * (s.bank b).slotSize + o) bs
  | .win (.pop b) => s.porterFifo who b 1 0 fun s => s.setBank (s.bank b).pop
  | .win (.push b) => s.porterFifo who b 0 1 fun s => s.setBank (s.bank b).push
  | .win _ => .done s

/-- Replaces a command at its place. -/
def State.setCmd (s : State) (c : PorterCmd) : State :=
  { s with porters := s.porters.map fun x => if x.core = c.core && x.slot = c.slot then c else x }

/-- Changes a Lodge entry. -/
def State.onEntry (s : State) (die id : Nat) (f : LodgeEntry → LodgeEntry) : State :=
  { s with lodgeEntries := s.lodgeEntries.map fun x => if x.die = die && x.id = id then f x else x }

/-- Drops a Lodge entry. -/
def State.dropEntry (s : State) (die id : Nat) : State :=
  { s with lodgeEntries := s.lodgeEntries.filter fun x => !(x.die = die && x.id = id) }

/-- Changes the control of a die's Lodge. -/
def State.onLodge (s : State) (die : Nat) (f : Lodge → Lodge) : State :=
  match s.lodges[die]? with
  | some l => { s with lodges := s.lodges.setIfInBounds die (f l) }
  | none => s

/-- Drops the Lodge entry that a command was filling. -/
def State.dropFill (s : State) (c : PorterCmd) : State :=
  match c.lodge with
  | some id => if c.filling then s.dropEntry (c.core / 64) id else s
  | none => s

/-- The place of a command on a Porter. -/
def PorterCmd.who (c : PorterCmd) : PorterId := (c.core, c.slot)

/-- Takes a command off its Porter, and its access out of the queue of a FIFO bank. -/
def State.endCmd (s : State) (c : PorterCmd) : State :=
  { s with porters := s.porters.filter fun x => !(x.core = c.core && x.slot = c.slot),
           banks := s.banks.map fun b => { b with waiters := b.waiters.filter fun w => w.cmd ≠ some c.who } }

/-- Stops a command at a piece that it cannot perform (R138). -/
def State.stopCmd (s : State) (c : PorterCmd) (f : TransFault) (addr : Word64) : State :=
  ((s.dropFill c).endCmd c).porterFault c f addr

/-- The arrival word of a command (R137): where it lies, or the cause. -/
def State.arrivalTarget (s : State) (c : PorterCmd) : Except (TransFault × Word64) (Option Target) :=
  if c.arrival = 0 then .ok none
  else
    match s.porterReach s.g.caravan c.arrival 8 true .atomic with
    | .error e => .error e
    | .ok (.mem p) =>
      if s.mem.keyServes p.pa p.enc p.key then .ok (some (.mem p.pa p.coh p.grain p.enc p.key)) else .error (⟨.key, 0, 0⟩, c.arrival)
    | .ok (.win (.scratch b o)) => .ok (some (.bank b o))
    | .ok (.win _) => .error (⟨.nomap, 0, 0⟩, c.arrival)

/-- Adds to bits 39:0 of a word. -/
def addArrival (old n : Nat) : Nat := old / 2 ^ 40 * 2 ^ 40 + (old + n) % 2 ^ 40

/-- Notes the translation of a command's arrival word (R115, R121). -/
def State.noteArrival (s : State) (c : PorterCmd) : State :=
  match s.porterReach s.g.caravan c.arrival 8 true .atomic with
  | .ok (.mem p) => s.notePlace p .atomic
  | _ => s

/-- Counts a performed piece in the arrival word (R137, R156). Where the word gives poison the piece stands uncounted (log 42). -/
def State.countPiece (s : State) (c : PorterCmd) (t : Option Target) (n : Nat) : State :=
  match t with
  | none => s
  | some t =>
    let s0 := s.noteArrival c
    let s1 : State := { s0 with mem := ({ s0.mem with rstamp := maxS s0.mem.rstamp c.pts } : Mem).seen c.pts }
    match s1.indivisible t 8 c.pts (fun old => some (addArrival old n)) with
    | (s2, .ok _) => s2
    | (s2, .error _) => s2

/-- idx of the row of a gather or scatter, read once for the row (R185). -/
def State.rowIndex (s : State) (c : PorterCmd) : State × PorterRead :=
  if c.kind = 1 || c.kind = 2 then
    match c.idx with
    | some i => (s, .ok (leBytes 4 i))
    | none =>
      let a := c.index + BitVec.ofNat 64 (4 * c.row)
      match s.porterRead c.who a 4 with
      | (s1, .fault f _) => (s1, .fault f a)
      | r => r
  else (s, .ok (leBytes 4 c.row))

/-- Source and destination of the bytes that a command moves next, for an index (R185). -/
def PorterCmd.addrs (c : PorterCmd) (idx : Nat) : Word64 × Word64 :=
  let src := if c.kind = 2 then c.row * c.srcStride else idx * c.srcStride
  let dst := if c.kind = 1 then c.row * c.dstStride else idx * c.dstStride
  (c.src + BitVec.ofNat 64 (src + c.done), c.dst + BitVec.ofNat 64 (dst + c.done))

/-- A command after a piece of `n` bytes. -/
def PorterCmd.moved (c : PorterCmd) (n : Nat) : PorterCmd :=
  if c.done + n ≥ c.rowLen then { c with row := c.row + 1, done := 0, delivered := c.delivered + n, idx := none }
  else { c with done := c.done + n, delivered := c.delivered + n }

/-- The bytes that a hit copies: those of its entry, or what it has kept of it (R141). -/
def State.hitData (s : State) (c : PorterCmd) : Option Cells :=
  c.hit.orElse fun _ =>
    (s.lodgeEntries.find? fun e => e.die = c.core / 64 && some e.id = c.lodge && !c.filling).map (·.data)

/-- The bytes that a piece moves: a pattern, a Lodge entry, or a Porter read (R141, R185). -/
def State.pieceBytes (s : State) (c : PorterCmd) (src : Word64) (n : Nat) : State × PorterRead :=
  if c.kind = 3 then (s, .ok ((List.range n).map fun i => BitVec.ofNat 8 (c.pattern.toNat / 2 ^ (8 * ((c.done + i) % 8)))))
  else
    match s.hitData c with
    | some d => (s, .ok (readBytes d.get c.done n))
    | none => s.porterRead c.who src n

/-- A fill keeps the bytes of a piece in its entry (R141). -/
def State.fillEntry (s : State) (c : PorterCmd) (bs : List Byte) : State :=
  match c.lodge with
  | some id => if c.filling then s.onEntry (c.core / 64) id fun e => { e with data := e.data.setBytes c.done bs } else s
  | none => s

/-- Whether the arrival word of a command waits: its walk, or its line (R70, R76, R383). -/
def State.arrivalHeld (s : State) (c : PorterCmd) : Bool :=
  c.arrival ≠ 0 && (s.walkHeld s.g c.arrival .atomic ||
    match s.arrivalTarget c with
    | .ok (some t) => s.lineHeld [t.line]
    | _ => false)

/-- One piece to a destination (R135 to R138). -/
def State.movePiece (s : State) (c : PorterCmd) : State :=
  match s.rowIndex c with
  | (_, .fault f a) => s.stopCmd c f a
  | (s1, .wait) => { s with banks := s1.banks }
  | (s1, .ok ix) =>
    let (src, dst) := c.addrs (leNat ix)
    let n := min (c.rowLen - c.done) (128 - dst.toNat % 128)
    match s1.pieceBytes c src n with
    | (_, .fault f a) => s.stopCmd c f a
    | (s2, .wait) => { s with banks := s2.banks }
    | (s2, .ok bs) =>
      if s2.walkHeld s2.g dst .store || s2.arrivalHeld c then s else
      match s2.porterReach s2.g.caravan dst n true .store with
      | .error (f, a) => s.stopCmd c f a
      | .ok r =>
        let key : Bool := match r with
          | .mem p => s2.mem.keyServes p.pa p.enc p.key
          | .win _ => true
        let routed : Bool := match r with
          | .mem p => !s2.unrouted p.pa
          | .win _ => true
        if !key then s.stopCmd c ⟨.key, 0, 0⟩ dst
        else if !routed then ({ s with mem := s.mem.note 5 0 } : State).stopCmd c ⟨.poison, 0, 0⟩ dst
        else
          match s2.arrivalTarget c with
          | .error (f, a) => s.stopCmd c f a
          | .ok t =>
            let s3 := match r with
              | .mem p => s2.notePlace p .store
              | .win _ => s2
            match s3.porterWrite c.who r bs c.pts with
            | .wait s4 => { s with banks := s4.banks }
            | .done s4 => ((s4.countPiece c t n).fillEntry c bs).setCmd ({ c with idx := some (leNat ix) }.moved n)

/-- A Porter read of any length, 128 bytes at a time. -/
def State.porterReadAll (s : State) (who : PorterId) (src : Word64) (n : Nat) : State × PorterRead :=
  (List.range ((n + 127) / 128)).foldl (fun (acc : State × PorterRead) i =>
    match acc with
    | (s, .ok bs) =>
      match s.porterRead who (src + BitVec.ofNat 64 (128 * i)) (min 128 (n - 128 * i)) with
      | (s1, .ok cs) => (s1, .ok (bs ++ cs))
      | r => r
    | r => r) (s, .ok [])

/-- One slot of a `ppush` (R132, R185). -/
def State.pushPiece (s : State) (c : PorterCmd) : State :=
  let w := c.dst.toNat % 2 ^ 24
  match s.bankOf s.g.caravan (w / 65536) with
  | none => s.stopCmd c ⟨.nomap, 0, 0⟩ c.dst
  | some k =>
    let b := s.bank k
    if !inWindow c.dst || b.mode ≠ .fifo then s.stopCmd c ⟨.nomap, 0, 0⟩ c.dst
    else if !s.porterTurn c.who k 0 1 then s.porterJoin c.who k 0 1
    else if s.arrivalHeld c then s
    else
      let n := min (c.rowLen - c.done) b.slotSize
      match s.porterReadAll c.who (c.src + BitVec.ofNat 64 c.done) n with
      | (_, .fault f a) => s.stopCmd c f a
      | (s1, .wait) => { s with banks := s1.banks }
      | (s1, .ok bs) =>
        match s1.arrivalTarget c with
        | .error (f, a) => s.stopCmd c f a
        | .ok t =>
          let s2 := (s1.porterLeave c.who k).setBankBytes k (b.tail * b.slotSize) (bs ++ List.replicate (b.slotSize - n) 0)
          ((s2.setBank (s2.bank k).push).countPiece c t n).setCmd (c.moved n)

/-! The Lodge -/

/-- The Lodge entries of a die. -/
def State.lodgeOf (s : State) (die : Nat) : List LodgeEntry := s.lodgeEntries.filter fun e => e.die = die

/-- The commands that read an entry. -/
def State.lodgeRead (s : State) (e : LodgeEntry) : Bool :=
  s.porters.any fun c => c.core / 64 = e.die && c.lodge = some e.id && !c.filling

/-- The entry with the least recent use. -/
def oldestFirst (l : List LodgeEntry) : List LodgeEntry :=
  l.foldl (fun acc e => (acc.takeWhile fun x => x.used ≤ e.used) ++ e :: acc.dropWhile fun x => x.used ≤ e.used) []

/-- The count of an entry (R142, R181). -/
def State.lodgeCount (s : State) (e : LodgeEntry) : Int := (BitVec.ofNat 32 (s.mem.peek e.haddr 4)).toInt

/-- The victim of a fill (R142): of the 8 least recently used entries that no copy reads, the lowest count, ties to the less recent; none
while there is no candidate or the read of a count waits. -/
def State.lodgeVictim (s : State) (die : Nat) : Option LodgeEntry :=
  let cands := (oldestFirst ((s.lodgeOf die).filter fun e => e.valid && !s.lodgeRead e)).take 8
  if cands.any fun e => s.hostWaits (e.haddr / 128) then none
  else cands.foldl (fun best e =>
    match best with
    | none => some e
    | some b => if s.lodgeCount e < s.lodgeCount b then some e else some b) none

/-- The lookup of a `plodge` (R140, R141): a hit, a fill, a plain copy, or nothing yet. A histogram address in the scratch window stops the
command with NOMAP and detail 1, which R185 leaves open (log 42). -/
def State.lodgeLookup (s : State) (c : PorterCmd) : State :=
  let die := c.core / 64
  let ctl := s.lodges[die]?.getD ⟨0, 0, false, none, []⟩
  let id := (s.lodgeOf die).foldl (fun n e => max n (e.id + 1)) 0
  if c.barred && ctl.flush then s
  else if ctl.nent = 0 then s.setCmd { c with looked := true, barred := false }
  else
    match (s.lodgeOf die).find? fun e => e.asn = s.g.asn && e.tag = c.pattern.setWidth 32 with
    | some e =>
      if !e.valid then s
      else if e.enc = c.enc && e.key = c.key then
        (s.onEntry die e.id fun x => { x with used := s.now }).setCmd { c with looked := true, barred := false, lodge := some e.id }
      else if s.lodgeRead e then s
      else fill (s.dropEntry die e.id) die id
    | none =>
      if (s.lodgeOf die).length < ctl.nent then fill s die id
      else
        match s.lodgeVictim die with
        | none => s
        | some v => fill (s.dropEntry die v.id) die id
where
  fill (s : State) (die id : Nat) : State :=
    s.afterWalk c.index .load <| match s.porterReach s.g.caravan c.index 4 false .load with
    | .ok (.mem p) =>
      let e : LodgeEntry := ⟨die, id, s.g.asn, c.pattern.setWidth 32, p.pa, c.enc, c.key, false, s.now, []⟩
      ({ s with lodgeEntries := s.lodgeEntries ++ [e] }.notePlace p .load).setCmd
        { c with looked := true, barred := false, lodge := some id, filling := true }
    | .ok (.win _) => s.stopCmd c ⟨.nomap, 1, 0⟩ c.index
    | .error (f, a) => s.stopCmd c f a

/-- The command at a place of a Porter. -/
def State.command (s : State) (core slot : Nat) : Option PorterCmd := s.porters.find? fun c => c.core = core && c.slot = slot

/-- A restored command takes a free slot of its Porter, the oldest one first (R135, R138). -/
def State.takeSlot (s : State) (c : PorterCmd) : State :=
  match s.porterSlot c.core with
  | some i =>
    if (s.slotless c.core).head? = some c then
      { s with porters := s.porters.map fun x => if x.core = c.core && x.slot = c.slot then { c with slot := i } else x }
    else s
  | none => s

/-- PORTER_PIECE (R135 to R138, R141, R185). -/
def execPorterPiece (core slot : Nat) (s : State) : Out :=
  .next (match s.command core slot with
    | none => s
    | some c => s.forGroup c.tag fun s =>
      if c.row ≥ c.rows || s.g.state = .saved then s
      else if 8 ≤ c.slot then s.takeSlot c
      else if c.kind = 4 && !c.looked then s.lodgeLookup c
      else if c.kind = 5 then s.pushPiece c
      else s.movePiece c)

/-- PORTER_COMMAND_END (R135, R141): a fill becomes valid. -/
def execPorterCommandEnd (core slot : Nat) (s : State) : Out :=
  .next (match s.command core slot with
    | none => s
    | some c =>
      if c.row < c.rows then s
      else
        let s1 := s.endCmd c
        match c.lodge with
        | some id => if c.filling then s1.onEntry (c.core / 64) id fun e => { e with valid := true, used := s.now } else s1
        | none => s1)

/-- PCANCEL (R186): the commands of the group that it selects stop at a piece boundary. -/
def execPcancel (d a : BitVec 6) (all : Bool) (s : State) : Out :=
  .next (withRegs (if all then [d] else [d, a]) (fun s =>
    let mine := s.porters.filter fun c => c.tag = s.g.tag && (all || c.arrival = s.sreg a)
    let n := (mine.filter fun c => c.row < c.rows).length
    let s1 := mine.foldl (fun (s : State) c => if c.row < c.rows then (s.dropFill c).endCmd c else s) s
    (s1.setS d (BitVec.ofNat 64 n)).advance) s)

/-! Lodge control (R139) -/

/-- Begins a change or flush for a value written to LODGECTL. -/
def Lodge.begin (l : Lodge) (v : Word64) : Lodge :=
  let w := v.toNat % 16
  let change := w ≤ 8 && w ≠ l.lway
  if change then { l with lway := w, flush := true, newWay := some w }
  else if v.getLsbD 16 then { l with flush := true } else l

/-- A write of LODGECTL (R139): it waits while a change or flush runs. -/
def State.lodgeWrite (s : State) (die : Nat) (v : Word64) : State :=
  s.onLodge die fun l => if l.flush then { l with queued := l.queued ++ [v] } else l.begin v

/-- LODGE_WAY_CHANGE (R139). -/
def execLodgeWayChange (die : Nat) (val : Word64) (s : State) : Out := .next (s.lodgeWrite die val)

/-- LODGE_FLUSH (R139). -/
def execLodgeFlush (die : Nat) (val : Word64) (s : State) : Out := .next (s.lodgeWrite die (val ||| 0x10000#64))

/-- The Lodge after its running change or flush, with the writes that waited (R139). -/
def Lodge.finish (l : Lodge) : Lodge :=
  let l1 : Lodge := { l with flush := false, newWay := none, nent := match l.newWay with
    | some w => 24 * w
    | none => l.nent }
  go l1.queued.length l1
where
  go : Nat → Lodge → Lodge
    | 0, l => l
    | n + 1, l =>
      if l.flush then l
      else
        match l.queued with
        | [] => l
        | v :: vs => go n ({ l with queued := vs }.begin v)

/-- A command whose entry leaves the Lodge: a hit keeps the entry's bytes, a fill installs nothing (R139, R141). -/
def State.withoutEntry (s : State) (c : PorterCmd) : PorterCmd := { c with hit := s.hitData c, lodge := none, filling := false }

/-- LODGE_CHANGE_END (R139): a change waits for the `plodge` commands in flight; every entry is invalidated. -/
def execLodgeChangeEnd (die : Nat) (s : State) : Out :=
  .next (match s.lodges[die]? with
    | none => s
    | some l =>
      let busy := s.porters.any fun c => c.kind = 4 && c.core / 64 = die && !c.barred
      if !l.flush || (l.newWay.isSome && busy) then s
      else
        let s1 := s.onLodge die Lodge.finish
        { s1 with lodgeEntries := s.lodgeEntries.filter fun e => e.die ≠ die,
                  porters := s.porters.map fun c =>
                    if c.kind = 4 && c.core / 64 = die then { s.withoutEntry c with barred := false } else c })

end Sys2Proof.Machine
end

