-- ==== Sys2Proof/Machine/Hall.lean ====
section
/-! DEFINITION. The Hall, its Rooms and the Innkeeper (R253 to R272, R282, R285): queues, grants, streams, commits, the work of the
Room port, batches and the ownership of Rooms. -/
namespace Sys2Proof.Machine

/-! Queues (R264, R267, R270) -/

/-- Whether a work item is an `mma`-family operation. -/
def WorkItem.isMma (i : WorkItem) : Bool :=
  match i.op with
  | .mma _ => true
  | _ => false

/-- The groups that have work on a Hall. -/
def State.hallGroups (s : State) (hall : Nat) : List Group := s.groups.filter fun g => g.quadNo = hall && g.state ≠ .saved

/-- PEND of a Room (R264). -/
def State.pend (s : State) (hall room : Nat) : Nat :=
  ((s.hallGroups hall).flatMap fun g => g.work.filter fun i => i.room = room).length

/-- The items of a queue before one of them. -/
def Group.before (g : Group) (id : Nat) : List WorkItem := g.work.takeWhile fun i => i.id ≠ id

/-- Whether nothing before an item keeps it from starting: work on its Room, or a drain whose flags are reported (R267, R268, R282). -/
def Group.clearFor (g : Group) (i : WorkItem) : Bool := (g.before i.id).all fun x => x.room ≠ i.room && x.stage ≠ .trapped

/-- Changes a work item. -/
def Group.onWork (g : Group) (id : Nat) (f : WorkItem → WorkItem) : Group :=
  { g with work := g.work.map fun i => if i.id = id then f i else i }

/-- The head of a group's queue for the grant (R267). -/
def Group.head (g : Group) : Option WorkItem := g.work.find? fun i => i.isMma && i.stage = .queued

/-- Dates the head of a queue that has just become one (R267). -/
def Group.dateHead (g : Group) (now : Nat) : Group :=
  match g.head with
  | some i => if i.headSince.isNone then g.onWork i.id fun x => { x with headSince := some now } else g
  | none => g

/-- A work item enters the queue and the open batch (R270). -/
def State.enqueueWork (s : State) (room : Nat) (op : RoomOp) : State :=
  s.setG fun g =>
    let i : WorkItem :=
      { id := g.nextId, room := room, op := op, stage := .queued, batch := none, issued := s.now, headSince := none, aged := false,
        hitA := [], hitB := [], seen := g.seen, fpc := fpcScalar g.spc, inHandler := g.hmode }
    ({ g with work := g.work ++ [i], nextId := g.nextId + 1 }).dateHead s.now

/-- A work item completes. A product is performed at its commit for `mwait`, `mrd`, `mdrain` and R158 (R269; log 41). -/
def Group.endWork (g : Group) (i : WorkItem) : Group := { g with work := g.work.filter fun x => x.id ≠ i.id }

/-- A Hall; in its reset state unless listed. -/
def State.hall (s : State) (n : Nat) : Hall := (s.halls.find? fun h => h.num = n).getD ⟨n, 0, 0, none, none, [], [], [], 0⟩

/-- Replaces a Hall. -/
def State.setHall (s : State) (h : Hall) : State := { s with halls := h :: s.halls.filter fun x => x.num ≠ h.num }

/-- A work item by owner tag and number, with its group. -/
def State.workOf (s : State) (x : Nat × Nat) : Option (Group × WorkItem) :=
  match s.group x.1 with
  | none => none
  | some g => (g.work.find? fun i => i.id = x.2).map fun i => (g, i)

/-! The grant (R267) -/

/-- The priority of a head: 7 once it has waited 65,536 cycles. -/
def headPrio (now : Nat) (g : Group) (i : WorkItem) : Nat :=
  if i.aged || i.headSince.any (fun n => n + 65536 ≤ now) then 7 else g.prio

/-- How recently a group was granted: 0 for never, higher for later. -/
def Hall.recency (h : Hall) (tag : Nat) : Nat :=
  if h.granted.contains tag then (h.granted.takeWhile fun t => t ≠ tag).length + 1 else 0

/-- Whether head `x` is granted before head `y` (R267). -/
def Hall.prefers (h : Hall) (now : Nat) (x y : Group × WorkItem) : Bool :=
  let px := headPrio now x.1 x.2
  let py := headPrio now y.1 y.2
  let rx := h.recency x.1.tag
  let ry := h.recency y.1.tag
  px > py || (px = py && (rx < ry || (rx = ry && x.2.issued < y.2.issued)))

/-- The head that a grant chooses. -/
def State.chooseHead (s : State) (hall : Nat) : Option (Group × WorkItem) :=
  let heads := ((s.hallGroups hall).filter fun g => !g.paused).filterMap fun g =>
    match g.head with
    | some i => if (g.before i.id).any fun x => x.stage = .trapped then none else some (g, i)
    | none => none
  heads.foldl (fun best x =>
    match best with
    | none => some x
    | some b => if (s.hall hall).prefers s.now x b then some x else some b) none

/-- INNKEEPER_GRANT (R267). -/
def execInnkeeperGrant (hall : Nat) (s : State) : Out :=
  .next (match (s.hall hall).shadow, s.chooseHead hall with
    | none, some (g, i) =>
      let h := s.hall hall
      let s1 := s.setHall { h with shadow := some (g.tag, i.id), granted := (h.granted.filter fun t => t ≠ g.tag) ++ [g.tag] }
      s1.onGroup g.tag fun x => (x.onWork i.id fun j => { j with stage := .granted }).dateHead s.now
    | _, _ => s)

/-- HEAD_AGEING (R267): the head of a group has waited 65,536 cycles. -/
def execHeadAgeing (t : Nat) (s : State) : Out :=
  .next (s.onGroup t fun g =>
    match g.head with
    | some i => if i.headSince.any (fun n => n + 65536 ≤ s.now) then g.onWork i.id fun x => { x with aged := true } else g
    | none => g)

/-! The array (R254, R256) -/

/-- Sets the stage of the work item that a Hall holds. -/
def State.setStage (s : State) (x : Nat × Nat) (st : WorkStage) : State :=
  s.onGroup x.1 fun g => g.onWork x.2 fun i => { i with stage := st }

/-- B_LOAD_COMPLETE (R254, R256). -/
def execBLoadComplete (hall : Nat) (s : State) : Out :=
  .next (match (s.hall hall).shadow with
    | some x =>
      match s.workOf x with
      | some (_, i) => if i.stage = .granted then s.setStage x .loaded else s
      | none => s
    | none => s)

/-- The cycles for which an operation streams; the members of a batched one stream together (R255, R256, R263). -/
def MatOp.streamCycles (o : MatOp) : Nat := o.m * if o.wide then 8 else 1

/-- The cycles that an operation has still to stream. -/
def State.streamLeft (s : State) (hall : Nat) (i : WorkItem) : Nat :=
  match i.op, i.stage with
  | .mma o, .streaming => (s.hall hall).streamAt + o.streamCycles - s.now
  | .mma o, .loaded => o.streamCycles + match (s.hall hall).stream.bind s.workOf with
    | some (_, x) => match x.op with
      | .mma p => (s.hall hall).streamAt + p.streamCycles - s.now
      | _ => 0
    | none => 0
  | _, _ => 0

/-- Whether an item of the Hall completes within 564 cycles (R269): its B load is complete, and it commits 288 cycles after its stream
(R256; log 34). -/
def State.nearEnd (s : State) (g : Group) (i : WorkItem) : Bool :=
  match i.stage with
  | .loaded | .streaming | .streamed => i.isMma && s.streamLeft g.quadNo i + 288 ≤ 564
  | _ => false

/-- STREAM_START (R254, R267): every earlier item of the queue on the same Room has completed. An operation that a halt will cancel does not
start (R269, R377). -/
def execStreamStart (hall : Nat) (s : State) : Out :=
  let h := s.hall hall
  .next (match h.shadow, h.stream with
    | some x, none =>
      match s.workOf x with
      | some (g, i) =>
        if i.stage = .loaded && g.clearFor i && !((s.caravan g.caravan).any (·.preempt) && !s.nearEnd g i) then
          (s.setHall { h with shadow := none, stream := some x, streamAt := s.now }).setStage x .streaming
        else s
      | none => s
    | _, _ => s)

/-- STREAM_END (R256): the tile boundary. -/
def execStreamEnd (hall : Nat) (s : State) : Out :=
  let h := s.hall hall
  .next (match h.stream with
    | some x => (s.setHall { h with stream := none, ended := h.ended ++ [x] }).setStage x .streamed
    | none => s)

/-- Whether some byte ranges lie in allotted banks in SCRATCH mode (R259). -/
def State.spanIn (s : State) (cv : Nat) (x : Nat × Nat) : Bool :=
  x.2 = 0 || (x.1 + x.2 ≤ 2 ^ 24 &&
    (List.range ((x.1 + x.2 - 1) / 65536 - x.1 / 65536 + 1)).all fun i => s.tileBank cv (x.1 / 65536 + i))

/-- Whether a byte range of a Caravan's window meets a line that ECC cannot correct (R389). -/
def State.spanPoisoned (s : State) (cv : Nat) (x : Nat × Nat) : Bool :=
  !s.mem.bankPoison.isEmpty && x.2 ≠ 0 && (List.range ((x.1 + x.2 - 1) / 65536 - x.1 / 65536 + 1)).any fun i =>
    let w := x.1 / 65536 + i
    s.mem.bankPoison.any fun l => s.bankOf cv w = some (l / 512) && w * 65536 + l % 512 * 128 < x.1 + x.2 &&
      x.1 < w * 65536 + l % 512 * 128 + 128

/-- Whether an operation reads such a line. -/
def State.opPoisoned (s : State) (cv : Nat) (o : MatOp) : Bool :=
  (List.range o.members).any fun mem =>
    ((List.range o.a.vrows).any fun i => (o.aSpans (s.tileByte cv) mem i).any (s.spanPoisoned cv)) ||
      (List.range o.n).any fun i => (o.bSpans mem i).any (s.spanPoisoned cv)

/-- Rows of A and columns of B, by member, that a bank out of SCRATCH mode leaves unreadable (R259), or an error in a bank (R389). -/
def State.unread (s : State) (cv : Nat) (o : MatOp) : List (Nat × Nat) × List (Nat × Nat) :=
  let bad (n : Nat) (spans : Nat → Nat → List (Nat × Nat)) : List (Nat × Nat) :=
    (List.range o.members).flatMap fun mem =>
      ((List.range n).filter fun i => (spans mem i).any fun x => !s.spanIn cv x || s.spanPoisoned cv x).map fun i => (mem, i)
  (bad o.a.vrows (o.aSpans (s.tileByte cv)), bad o.n o.bSpans)

/-- The Room after a product of a group (R206, R254, R260 to R263, R201): written operands and unreadable ones leave unspecified
values (R158, R259), which set no flag (R2). -/
def State.product (s : State) (g : Group) (i : WorkItem) (o : MatOp) (r : Room) : Room :=
  let f := s.hallByte g.caravan i.seen
  let bad := s.unread g.caravan o
  let es := (o.frame.filter fun x => !inHits (bad.1 ++ i.hitA) (bad.2 ++ i.hitB) x).map fun x =>
    let p := o.place x.1 x.2.1 x.2.2
    let e := o.element f x.1 x.2.1 x.2.2 (r.element o.wide p.1 p.2)
    (elementSlots o.wide p.1 p.2 e.1, e.2)
  let r1 := (r.write (es.flatMap (·.1))).write (o.openSlots s.freeCtr (bad.1 ++ i.hitA) (bad.2 ++ i.hitB))
  { r1 with flags := r.flags ||| (es.foldl (fun f e => f ||| e.2) 0 &&& 0x17#6) }

/-- OPERATION_COMMIT (R256, R267, R269): the Room is updated as one unit; one that has read a poisoned line reports POISON (R389; log 42). -/
def execOperationCommit (hall : Nat) (s : State) : Out :=
  let h := s.hall hall
  .next (match h.ended.findSome? fun x =>
      (s.workOf x).bind fun w => if (w.1.before w.2.id).isEmpty && w.2.stage = .streamed then some w else none with
    | none => s
    | some (g, i) =>
      let s1 := s.setHall { h with ended := h.ended.filter fun x => x ≠ (g.tag, i.id) }
      let s2 := match i.op, s1.roomAt hall i.room with
        | .mma o, some r => (s1.setRoom (s1.product g i o r)).useFree
        | _, _ => s1
      let s3 := match i.op with
        | .mma o => if s1.opPoisoned g.caravan o then s2.forGroup g.tag fun s =>
            s.deferFault ⟨.poison, i.fpc, Info.word { roomw := true }, s.g.full, 0, none⟩ i.inHandler else s2
        | _ => s2
      s3.onGroup g.tag fun x => x.endWork i)

/-! The Room port (R268, R275, R282, R285) -/

/-- A Room element converted for `mrd` or `mdrain` (R282, R284). -/
def roomConvert (ty : Ty) (cvm : Word64) (x : Nat) : Nat × Flags :=
  if ty = .f32 || ty = .f64 then (x, 0) else convert .f32 ty (modeOf cvm ty 0) 0 (satOf cvm ty 0) x

/-- Gives a drain's entry its values (R282). -/
def SbEntry.fill (e : SbEntry) (vals : List Nat) : SbEntry :=
  match e.op with
  | .op t (.drain _ add ty es) =>
    { e with op := .op t (.drain true add ty ((es.zip vals).map fun x => (x.1.1, BitVec.ofNat 64 x.2))) }
  | _ => e

/-- Takes an entry out of the store buffer without performing it. -/
def Group.dropEntry (g : Group) (id : Nat) : Group :=
  match g.sb.find? fun e => e.id = id with
  | some e => { g with sb := g.sb.filter fun x => x.id ≠ id, uac := g.uac - BitVec.ofNat 16 e.count }
  | none => g

/-- Flags in every lane. -/
def Group.allFlags (g : Group) (f : Flags) : Group := g.raiseFlags (g.full.lanes.map fun l => (l, f))

/-- A drain at its turn, for the group in focus. It reads what the products before it on the Room have committed, awaited or not (R269;
log 41). -/
def State.drainTurn (s : State) (i : WorkItem) (r : Room) (row col rows cols : Nat) (ty : Ty) (entry : Option Nat) (cvm : Word64)
    (xe : BitVec 6) : State :=
  let ys := (List.range rows).flatMap fun a => (List.range cols).map fun b =>
    roomConvert ty cvm (r.element (ty = .f64) (row + a) (col + b))
  let fl := ys.foldl (fun f y => f ||| y.2) r.flags
  if fl &&& xe ≠ 0 then
    let s1 := s.setG fun g =>
      let g1 := match entry with
        | some e => g.dropEntry e
        | none => g
      g1.onWork i.id fun x => { x with stage := .trapped }
    s1.deferFault ⟨.fpx, i.fpc, Info.word { flags := fl &&& xe, roomw := true }, s.g.full, 0, none⟩ i.inHandler
  else
    (s.setRoom { r with flags := 0 }).setG fun g =>
      let g1 : Group := { g with sb := g.sb.map fun e => if some e.id = entry then e.fill (ys.map (·.1)) else e }
      (g1.allFlags fl).onWork i.id fun x => { x with stage := .port }

/-- The work of the Room port on one item of the group in focus. -/
def State.portWork (s : State) (i : WorkItem) : State :=
  match s.roomAt s.g.quadNo i.room with
  | none => s.setG fun g => g.onWork i.id fun x => { x with stage := .port }
  | some r =>
    let here (s : State) : State := s.setG fun g => g.onWork i.id fun x => { x with stage := .port }
    match i.op with
    | .mma _ => s
    | .zero => here (s.setRoom { r with flags := 0, base := none, slots := [] })
    | .write wide row col vals =>
      here (s.setRoom (r.write (vals.zipIdx.flatMap fun a => a.1.zipIdx.flatMap fun b =>
        elementSlots wide (row + a.2) (col + b.2) b.1.toNat)))
    | .drain row col rows cols ty entry cvm xe => s.drainTurn i r row col rows cols ty entry cvm xe

/-- ROOM_PORT_WORK (R268): the oldest item of the port that nothing before keeps from starting. -/
def execRoomPortWork (t : Nat) (s : State) : Out :=
  .next (s.forGroup t fun s =>
    if s.g.state = .saved || s.g.paused then s
    else
      match s.g.work.find? fun i => !i.isMma && i.stage = .queued && s.g.clearFor i with
      | some i => s.portWork i
      | none => s)

/-- Whether an item of the port has completed (R270, R282). -/
def Group.portOver (g : Group) (i : WorkItem) : Bool :=
  match i.stage with
  | .port =>
    match i.op with
    | .drain _ _ _ _ _ (some e) .. => !g.sb.any fun x => x.id = e
    | _ => true
  | .trapped => !g.hmode && g.pending.isEmpty
  | _ => false

/-- ROOM_PORT_WORK_END (R270): items complete in issue order. -/
def execRoomPortWorkEnd (t : Nat) (s : State) : Out :=
  .next (s.onGroup t fun g =>
    match g.work with
    | i :: _ => if !i.isMma && g.portOver i then g.endWork i else g
    | [] => g)

/-- Whether a closed batch still has an item that has not completed (R279). -/
def Group.batchOpen (g : Group) (n : Nat) : Bool := g.work.any fun i => i.batch = some n

/-- BATCH_COMPLETE (R270): the oldest closed batch. -/
def execBatchComplete (t : Nat) (s : State) : Out :=
  .next (s.onGroup t fun g =>
    match g.closedBatches with
    | n :: rest => if g.batchOpen n then g else { g with closedBatches := rest }
    | [] => g)

/-! The phases of an add-on-store (R76, R268) -/

/-- The slice of a place, or 512 + bank. -/
def State.pieceSlice (s : State) : Target → Nat
  | .bank b _ => 512 + b
  | .mem pa .. => if isOwn pa then s.mem.slice pa else 512 + 2048 + pa / 128

/-- The lines of a drain at a slice. -/
def State.pieceLines (s : State) (e : SbEntry) (slice : Nat) : List (Nat ⊕ Nat) :=
  match e.op with
  | .op _ (.drain _ _ _ es) => ((es.filter fun x => s.pieceSlice x.1 = slice).map fun x => x.1.line).eraseDups
  | _ => []

/-- The slices of a drain. -/
def State.pieceSlices (s : State) (e : SbEntry) : List Nat :=
  match e.op with
  | .op _ (.drain _ _ _ es) => (es.map fun x => s.pieceSlice x.1).eraseDups
  | _ => []

/-- Whether an entry is an add-on-store whose Room has been read. -/
def SbEntry.adds (e : SbEntry) : Bool :=
  match e.op with
  | .op _ (.drain true true _ _) => !e.performed
  | _ => false

/-- DRAIN_PREPARE (R76): a slice stages its piece, unless another drain has staged a line that this one covers; the group's own earlier
accesses to the tile's lines come first (R147, rule 4). -/
def execDrainPrepare (t e slice : Nat) (s : State) : Out :=
  .next (s.forGroup t fun s =>
    match s.g.sb.find? fun x => x.id = e with
    | none => s
    | some x =>
      let first := s.sbBefore e
      let other := s.mem.staged.any fun p => !(p.tag = t && p.e = e) && p.lines.any fun l => x.lines.contains l
      let mine := s.mem.staged.any fun p => p.tag = t && p.e = e && p.slice = slice
      if !x.adds || other || mine || (s.pieceLines x slice).isEmpty then s
      else if first.any fun y => !y.performed then s.performAll (first.map (·.id))
      else { s with mem := { s.mem with staged := ⟨t, e, slice, s.pieceLines x slice⟩ :: s.mem.staged } })

/-- DRAIN_COMMIT (R76): once every slice has staged its piece, all of them add. -/
def execDrainCommit (t e : Nat) (s : State) : Out :=
  .next (s.forGroup t fun s =>
    match s.g.sb.find? fun x => x.id = e with
    | none => s
    | some x =>
      let mine := s.mem.staged.filter fun p => p.tag = t && p.e = e
      if !x.adds || !(s.pieceSlices x).all fun n => mine.any fun p => p.slice = n then s
      else
        let s1 : State := { s with mem := { s.mem with staged := s.mem.staged.filter fun p => !(p.tag = t && p.e = e) } }
        s1.performOne x)

/-! Ownership (R264, R265, R271, R272) -/

/-- The FREE Rooms of a Hall. -/
def State.freeRooms (s : State) (hall : Nat) : List Nat := (List.range 8).filter fun n => (s.roomAt hall n).isNone

/-- The Room that a request takes, where one fits (R271, step 3). -/
def State.fitting (s : State) (hall req : Nat) : Option Nat :=
  (s.freeRooms hall).find? fun n => req ≥ 8 || n = req

/-- The group in focus takes a FREE Room: unspecified contents, flags clear (R265, R271). -/
def State.takeRoom (s : State) (d : BitVec 3) (room : Nat) : State :=
  let r : Room := { hall := s.g.quadNo, num := room, owner := s.g.tag, flags := 0, base := some s.freeCtr, slots := [] }
  ({ s with rooms := s.rooms ++ [r] }.useFree).setG fun g => { g with m := g.m.setIfInBounds d.toNat (some (BitVec.ofNat 3 room)) }

/-- Takes a waiting `mtake` off its queue. -/
def State.untake (s : State) (hall tag : Nat) : State :=
  let h := s.hall hall
  s.setHall { h with takers := h.takers.filter fun x => x.1 ≠ tag }

/-- MTAKE_GRANT (R271): the request issued earliest that fits a FREE Room takes it. -/
def execMtakeGrant (hall room : Nat) (s : State) : Out :=
  .next (match (s.hall hall).takers.find? fun x => s.fitting hall x.2.1 = some room with
    | some (tag, _, d) => (s.untake hall tag).forGroup tag fun s => (s.takeRoom d room).advance
    | none => s)

/-- MTAKE_TIMEOUT (R271, step 5). -/
def execMtakeTimeout (t : Nat) (s : State) : Out :=
  .next (s.forGroup t fun s =>
    let mine := (s.hall s.g.quadNo).takers.any fun x => x.1 = t
    if mine && s.g.wait.any (fun w => w.since + 1048576 ≤ s.now) then (s.untake s.g.quadNo t).scalarFault .timeout else s)

/-- A Room becomes FREE (R265). -/
def State.freeRoom (s : State) (r : Room) : State :=
  { s with rooms := s.rooms.filter fun x => !(x.hall = r.hall && x.num = r.num) }

/-- Whether the owner of a Room has given it up: by `mfree`, or by its exit (R265, R274). -/
def State.givenUp (s : State) (r : Room) : Bool :=
  match s.group r.owner with
  | none => true
  | some g => !g.m.toList.contains (some (BitVec.ofNat 3 r.num)) || g.state = .retired || (g.state = .retiring && !g.hmode)

/-- ROOM_RELEASE (R265): once PEND is 0. -/
def execRoomRelease (hall room : Nat) (s : State) : Out :=
  .next (match s.roomAt hall room with
    | some r => if s.givenUp r && s.pend hall room = 0 then s.freeRoom r else s
    | none => s)

end Sys2Proof.Machine
end

