-- ==== Sys2Proof/Machine/Matrix.lean ====
section
/-! DEFINITION. The matrix instructions (R270 to R285). -/
namespace Sys2Proof.Machine

/-- A collective instruction (R270): CONVERGE unless every lane is live. -/
def collective (body : State → State) (s : State) : State :=
  if s.g.liveLanes = s.g.full then body s else s.scalarFault .converge {} 0 (s.g.gone &&& s.g.full)

/-- An instruction that names a Room through m (R264): ROOM unless m is valid and the group owns the Room. -/
def withRoom (m : BitVec 3) (body : Room → State → State) (s : State) : State :=
  match s.g.m[m.toNat] with
  | none => s.scalarFault .room
  | some n =>
    match s.roomAt s.g.quadNo n.toNat with
    | some r => if r.owner = s.g.tag then body r s else s.scalarFault .room
    | none => s.scalarFault .room

/-- Tile handles within the allotment (R10). -/
def withHandles (hs : List (BitVec 4)) (body : State → State) (s : State) : State :=
  if hs.all fun h => h.toNat < s.g.hAllot then body s else s.scalarFault .regbound

/-- Whether a queue has room for an item (R270). -/
def Group.queueRoom (g : Group) : Bool := g.work.length < 16

/-- Room work that passes its checks enters the queue, or stalls (R270). -/
def State.issueWork (s : State) (room : Nat) (op : RoomOp) : State :=
  if s.g.queueRoom then (s.enqueueWork room op).advance else s.stall

/-! Rooms -/

/-- MTAKE (R271): takes a Room that fits, or waits in order of issue; one issued earlier that fits a FREE Room goes first. -/
def execMtake (m : BitVec 3) (a : BitVec 6) (s : State) : Out :=
  .next (withRegs [a] (outsideRegion fun s =>
    let req := (s.sreg a).toNat % 16
    let q := s.g.quadNo
    let h := s.hall q
    if s.g.m[m.toNat].isSome || (req < 8 && (s.roomAt q req).any fun r => r.owner = s.g.tag) then s.scalarFault .room
    else if h.takers.any fun x => x.1 = s.g.tag then s
    else
      match (if h.takers.any fun x => (s.fitting q x.2.1).isSome then none else s.fitting q req) with
      | some n => (s.takeRoom m n).advance
      | none =>
        (s.setHall { h with takers := h.takers ++ [(s.g.tag, req, m)] }).setG fun g =>
          { g with wait := some { s.newWait with limit := some 1048576 } }) s)

/-- The group that `mgive` may hand a Room to (R272): resident on the same quad, another one, with m[j] invalid. -/
def State.giveTarget (s : State) (x : Word64) : Option Group :=
  s.groups.find? fun t => t.number = x.setWidth 12 && t.state = .resident && t.quadNo = s.g.quadNo && t.tag ≠ s.g.tag &&
    (t.m[(x.extractLsb' 12 3).toNat]?.getD none).isNone

/-- The hand-over of a Room (R272). -/
def State.handOver (s : State) (m : BitVec 3) (x : Word64) (r : Room) : State :=
  match s.giveTarget x with
  | none => s.scalarFault .room
  | some t =>
    let s1 := (s.setRoom { r with owner := t.tag }).onGroup t.tag fun g =>
      { g with m := g.m.setIfInBounds (x.extractLsb' 12 3).toNat (some (BitVec.ofNat 3 r.num)) }
    (s1.setG fun g => { g with m := g.m.setIfInBounds m.toNat none }).advance

/-- `mgive` once it has its registers (R272): it stalls until PEND is 0. -/
def State.give (s : State) (m : BitVec 3) (a : BitVec 6) : State :=
  withRoom m (fun r s =>
    if s.pend r.hall r.num = 0 then s.handOver m (s.sreg a) r
    else s.setG fun g =>
      if g.wait.isSome then g
      else { g with wait := some { s.newWait with give := some (m, a) } }) s

/-- MGIVE (R272). -/
def execMgive (m : BitVec 3) (a : BitVec 6) (s : State) : Out := .next (withRegs [a] (fun s => s.give m a) s)

/-- ROOM_HANDOVER (R272): an `mgive` that waited makes its hand-over. -/
def execRoomHandover (t : Nat) (s : State) : Out :=
  .next (s.forGroup t fun s =>
    match s.g.wait.bind fun w => w.give with
    | some (m, a) => s.give m a
    | none => s)

/-- MFREE (R274). -/
def execMfree (m : BitVec 3) (s : State) : Out :=
  .next (withRoom m (fun r s =>
    let s1 := s.setG fun g => { g with m := g.m.setIfInBounds m.toNat none }
    (if s.pend r.hall r.num = 0 then s1.freeRoom r else s1).advance) s)

/-- MZERO (R275). -/
def execMzero (m : BitVec 3) (s : State) : Out := .next (outsideRegion (withRoom m fun r s => s.issueWork r.num .zero) s)

/-! Handles (R276) -/

/-- Whether a handle meets the conditions of R276. -/
def Handle.good (h : Handle) : Bool :=
  h.base % 64 = 0 && h.fmtb % 16 = 0 && h.pitch % 16 = 0 && 16 ≤ h.pitch && h.vrows ≤ h.rows

/-- MTH (R276). -/
def execMth (h : BitVec 4) (a : BitVec 6) (s : State) : Out :=
  .next (withRegs [a, a + 1] (withHandles [h] fun s =>
    let lo := s.sreg a
    let hi := s.sreg (a + 1)
    let x : Handle := ⟨true, hi.extractLsb' 0 54 ++ lo⟩
    let put (s : State) (x : Handle) : State := (s.setG fun g => { g with h := g.h.setIfInBounds h.toNat x }).advance
    if lo = 0 && hi = 0 then put s { s.g.h[h.toNat] with v := false }
    else if hi.extractLsb' 54 10 ≠ 0 || !x.good then s.scalarFault .handle
    else put s x) s)

/-! Products (R277, R278) -/

/-- A format block in scratch (R258). -/
def State.formatBlock (s : State) (h : Handle) : BitVec 128 := BitVec.ofNat 128 (leNat (readBytes (s.tileByte s.g.caravan) h.fmtb 16))

/-- Step 2 of R277: HANDLE before the formats are known. -/
def State.handleEarly (s : State) (o : MatOp) : Bool :=
  !o.a.v || !o.b.v || 256 < o.m || o.a.cols ≠ o.b.rows || !s.spanIn s.g.caravan (o.a.fmtb, 16) || !s.spanIn s.g.caravan (o.b.fmtb, 16) ||
    (o.kind = 1 && (o.a.bstride % 64 ≠ 0 || o.b.bstride % 64 ≠ 0 || 64 < o.m || 64 < o.n))

/-- Step 3 of R277: FORMAT (R255, R258, R261 to R263). -/
def MatOp.badFormat (o : MatOp) : Bool :=
  let scaled (f : BitVec 128) : Bool := sce f && (efmt f = .f64 || efmt f = .t2)
  fmtReserved o.fa || fmtReserved o.fb || sfmt o.fa ≠ 0 || sfmt o.fb ≠ 0 || (pairLimits o.ta o.tb).isNone || scaled o.fa || scaled o.fb ||
    (o.ta = .f64 && (o.kind = 1 || 128 < o.n)) ||
    (match o.kind with
     | 2 => o.ta = .f64 || o.tb = .t2
     | 3 => !bme o.fa || sce o.fa || bme o.fb || o.ta ≠ o.tb ||
            !(o.ta = .bf16 || o.ta = .f16 || o.ta = .e4m3 || o.ta = .e5m2 || o.ta = .i8)
     | _ => bme o.fa || bme o.fb)

/-- Whether the pitch of a dense operand covers a row, and for FP6 is a power of two (R191, R259). -/
def Handle.pitchOk (h : Handle) (t : Ty) : Bool :=
  rowBytes t h.cols ≤ h.pitch && (!fp6 t || h.pitch = 2 ^ Nat.log2 h.pitch)

/-- Step 4 of R277: HANDLE where the formats decide. -/
def State.handleLate (s : State) (o : MatOp) : Bool :=
  let lim := (pairLimits o.ta o.tb).getD (0, 0)
  (if o.kind = 1 then lim.1 / 4 else lim.1) < o.k || lim.2 < o.n || !o.a.pitchOk o.ta || !o.b.pitchOk o.tb ||
    (o.allSpans (s.tileByte s.g.caravan)).any fun x => !s.spanIn s.g.caravan x

/-- An `mma`-family instruction (R277, R278). -/
def State.product? (kind : Nat) (m : BitVec 3) (a b : BitVec 4) (s : State) : State :=
  withHandles [a, b] (collective (outsideRegion (withRoom m fun r s =>
    let ha := s.g.h[a.toNat]
    let hb := s.g.h[b.toNat]
    let o : MatOp := ⟨kind, ha, hb, s.formatBlock ha, s.formatBlock hb⟩
    if s.handleEarly o then s.scalarFault .handle
    else if o.badFormat then s.scalarFault .format
    else if s.handleLate o then s.scalarFault .handle
    else s.issueWork r.num (.mma o)))) s

/-- MMA (R278). -/
def execMma (m : BitVec 3) (a b : BitVec 4) (s : State) : Out := .next (s.product? 0 m a b)

/-- MMAB (R263, R278). -/
def execMmab (m : BitVec 3) (a b : BitVec 4) (s : State) : Out := .next (s.product? 1 m a b)

/-- MMAS (R261, R278). -/
def execMmas (m : BitVec 3) (a b : BitVec 4) (s : State) : Out := .next (s.product? 2 m a b)

/-- MMAC (R262, R278). -/
def execMmac (m : BitVec 3) (a b : BitVec 4) (s : State) : Out := .next (s.product? 3 m a b)

/-! Batches (R279, R280) -/

/-- Closes the open batch (R279); an empty one is complete at once. -/
def Group.closeBatch (g : Group) : Group :=
  let some_ := g.work.any fun i => i.batch.isNone
  { g with batches := g.batches + 1, closedBatches := if some_ then g.closedBatches ++ [g.batches] else g.closedBatches,
           work := g.work.map fun i => if i.batch.isNone then { i with batch := some g.batches } else i }

/-- MFENCE (R279). -/
def execMfence (d : BitVec 6) (s : State) : Out :=
  .next (withRegs [d] (fun s =>
    if s.g.closedBatches.length ≥ 128 then s.stall
    else ((s.setS d (BitVec.ofNat 64 (s.g.batches % 256))).setG Group.closeBatch).advance) s)

/-- Whether `mwait` on `n` awaits closed batch number `k` (R280). -/
def Group.awaits (g : Group) (n k : Nat) : Bool :=
  let d := (g.batches % 256 + 256 - n) % 256
  d = 0 || (d ≤ 128 && k + d ≤ g.batches)

/-- MWAIT (R280). -/
def execMwait (a : BitVec 6) (s : State) : Out :=
  .next (withRegs [a] (fun s =>
    let n := (s.sreg a).toNat % 256
    if s.g.closedBatches.any fun k => s.g.awaits n k then s.stall
    else s.advance) s)

/-! Drains (R281, R282) -/

/-- The element types that a drain may write (R281). -/
def drainTy (t : Ty) : Bool := t = .f32 || t = .bf16 || t = .f16 || t = .e4m3 || t = .e5m2 || t = .i32 || t = .f64

/-- Step 1 of R281: HANDLE; a type without whole bytes to an element has no row of N × esize. -/
def State.drainHandle (s : State) (h : Handle) (ty : Ty) (bat : Bool) : Bool :=
  let lim := if bat then 64 else 256
  !h.v || !s.spanIn s.g.caravan (h.fmtb, 16) || lim < h.rows || lim < h.cols || (!bat && ty = .f64 && 128 < h.cols) ||
    (ty ≠ .q && tyBits ty % 8 = 0 && h.pitch < h.cols * ty.esize)

/-- Step 2 of R281: FORMAT, with SFMT (R258). -/
def drainFormat (f : BitVec 128) (bat add : Bool) : Bool :=
  let ty := efmt f
  !drainTy ty || (bat && ty = .f64) || (add && ty ≠ .f32 && ty ≠ .f64) || sce f || bme f || sfmt f ≠ 0 || fmtReserved f

/-- The place of one element of a drain (R18, R112, R281). -/
def State.drainPlace (s : State) (va : Word64) (n : Nat) (add : Bool) : Except TransFault Target :=
  if inWindow va then
    match s.window s.g.caravan va n true with
    | .scratch b o => .ok (.bank b o)
    | _ => .error ⟨.nomap, 0, 0⟩
  else
    match s.place s.g va (if add then .atomic else .store) with
    | .error f => .error f
    | .ok p => if add && isHost p.pa then .error ⟨.perm, 6, 0⟩ else .ok (.mem p.pa p.coh p.grain p.enc p.key)

/-- The places of a drain's elements in order, or the first cause with its address. -/
def State.drainPlaces (s : State) (n : Nat) (add : Bool) : List Word64 → Except (TransFault × Word64) (List Target)
  | [] => .ok []
  | va :: vas =>
    match s.drainPlace va n add with
    | .error f => .error (f, va)
    | .ok t =>
      match s.drainPlaces n add vas with
      | .ok ts => .ok (t :: ts)
      | e => e

/-- The addresses of a drain's elements, row by row (R281). -/
def drainAddrs (h : Handle) (dest : Word64) (n : Nat) : List Word64 :=
  (List.range h.vrows).flatMap fun i => (List.range h.cols).map fun j => dest + BitVec.ofNat 64 (i * h.pitch + j * n)

/-- What the translations of a drain leave behind (R115, R121). -/
def State.noteDrain (s : State) (vas : List Word64) (add : Bool) : State :=
  let k : AccessKind := if add then .atomic else .store
  vas.foldl (fun s va =>
    if inWindow va then s
    else
      match s.place s.g va k with
      | .ok p => s.notePlace p k
      | .error _ => s) s

/-- A drain that passes its checks: an entry of the store buffer and an item of the queue (R270, R282). -/
def State.issueDrain (s : State) (r : Room) (h : Handle) (ty : Ty) (bat add : Bool) (subt : Nat) (ts : List Target) : State :=
  let op (e : Option Nat) : RoomOp :=
    .drain (if bat then 64 * (subt / 4) else 0) (if bat then 64 * (subt % 4) else 0) h.vrows h.cols ty e s.g.cvm s.g.xe
  match ts with
  | [] => s.issueWork r.num (op none)
  | t :: _ =>
    if !s.g.queueRoom || !s.g.sbRoom [t.line] 1 then s.stall
    else
      let s1 := s.setG fun g => g.enqueue (.op t (.drain false add ty (ts.map fun x => (x, 0)))) 1 (fpcScalar g.spc) g.full
      (s1.enqueueWork r.num (op (some s.g.nextId))).advance

/-- MDRAIN (R281, R282): it waits while the walk of one of its addresses does. -/
def execMdrain (m : BitVec 3) (a : BitVec 6) (h : BitVec 4) (subt : BitVec 4) (bat add : Bool) (s : State) : Out :=
  .next (withRegs [a] (withHandles [h] (collective (outsideRegion (withRoom m fun r s =>
    let x := s.g.h[h.toNat]
    let f := s.formatBlock x
    let ty := efmt f
    let dest := s.sreg a
    let vas := drainAddrs x dest ty.esize
    if s.drainHandle x ty bat then s.scalarFault .handle
    else if drainFormat f bat add then s.scalarFault .format
    else if dest.toNat % ty.esize ≠ 0 then s.scalarFault .align {} dest
    else
      if vas.any fun va => s.walkHeld s.g va (if add then .atomic else .store) then s else
      match s.drainPlaces ty.esize add vas with
      | .error (f, va) => s.scalarFault f.cause f.info va
      | .ok ts =>
        let s1 := s.noteDrain vas add
        s1.issueDrain r x ty bat add subt.toNat ts)))) s)

/-! Room rows (R283 to R285) -/

/-- The control word of `mrd` and `mwr` (R283). -/
structure RoomCtl where
  ty : Option Ty
  nreg : Nat
  col : Nat
  row : Nat
deriving DecidableEq, Repr

/-- Reads a control word. -/
def RoomCtl.of (x : Word64) : RoomCtl :=
  ⟨Ty.ofCode (x.extractLsb' 24 5).toNat, (x.extractLsb' 16 6).toNat, (x.extractLsb' 8 8).toNat, (x.extractLsb' 0 8).toNat⟩

/-- Whether rows move in binary64. -/
def RoomCtl.wide (c : RoomCtl) : Bool := c.ty = some .f64

/-- The v register of row `j` (R283). -/
def RoomCtl.reg (c : RoomCtl) (f j : Nat) : Nat := f + (if c.wide then 2 * j else j)

/-- The cause of an access to Room rows, in the order of R283. -/
def Group.rowCause (g : Group) (c : RoomCtl) (f : Nat) (allowed : Ty → Bool) : Option Cause :=
  let last := if c.wide then f + 2 * c.nreg + 1 else f + c.nreg
  if c.wide && f % 2 = 1 then some .illegal
  else if 255 < last || g.vAllot ≤ last then some .regbound
  else if !c.ty.any allowed then some .format
  else if 255 < c.row + c.nreg || (if c.wide then 127 else 255) < c.col + g.width - 1 then some .handle
  else none

/-- MRD (R284). It reads what the products before it on the Room have committed, although their batch has not been awaited: R158 calls
the elements unspecified there, but R269 has a product performed for `mrd` and R158 at its commit (log 41). -/
def execMrd (m : BitVec 3) (a : BitVec 6) (f : BitVec 8) (s : State) : Out :=
  .next (withRegs [a] (collective (withRoom m fun r s =>
    let c := RoomCtl.of (s.sreg a)
    match s.g.rowCause c f.toNat drainTy with
    | some x => s.scalarFault x
    | none =>
      if s.g.work.any fun i => i.room = r.num then s.stall
      else
        let ty := c.ty.getD .f32
        let ys := (List.range (c.nreg + 1)).flatMap fun j => (List.range s.g.width).map fun l =>
          (j, l, roomConvert ty s.g.cvm (r.element c.wide (c.row + j) (c.col + l)))
        let fl := ys.foldl (fun x y => x ||| y.2.2.2) r.flags
        if fl &&& s.g.xe ≠ 0 then s.scalarFault .fpx { flags := fl &&& s.g.xe } 0 s.g.full
        else
          let w := ys.flatMap fun y =>
            VWrite.mk (c.reg f.toNat y.1) y.2.1 (BitVec.ofNat 32 y.2.2.1) ::
              if c.wide then [VWrite.mk (c.reg f.toNat y.1 + 1) y.2.1 (BitVec.ofNat 32 (y.2.2.1 / 2 ^ 32))] else []
          ((s.setRoom { r with flags := 0 }).setG fun g =>
            (w.foldl (fun (g : Group) x => g.setV x.reg x.lane x.val) g).allFlags fl).advance)) s)

/-- MWR (R285): the registers are read at issue. -/
def execMwr (m : BitVec 3) (a : BitVec 6) (f : BitVec 8) (s : State) : Out :=
  .next (withRegs [a] (collective (outsideRegion (withRoom m fun r s =>
    let c := RoomCtl.of (s.sreg a)
    match s.g.rowCause c f.toNat fun t => t = .f32 || t = .f64 with
    | some x => s.scalarFault x
    | none =>
      let vals := (List.range (c.nreg + 1)).map fun j => (List.range s.g.width).map fun l =>
        let lo := s.g.vreg (c.reg f.toNat j) l
        if c.wide then s.g.vreg (c.reg f.toNat j + 1) l ++ lo else lo.setWidth 64
      s.issueWork r.num (.write c.wide c.row c.col vals)))) s)

end Sys2Proof.Machine
end

