-- ==== Sys2Proof/Machine/Sync.lean ====
section
/-! DEFINITION. Barriers, waits on words, deques, reduction declarations, bank modes and forwarding atomic regions (R323 to R346), with
the mode switch (R128, R129). -/
namespace Sys2Proof.Machine

/-! Addresses and control words (R323, R324) -/

/-- Where `n` bytes at an address of a sync function lie (R18, R112, R323). -/
def State.syncTarget (s : State) (va : Word64) (n : Nat) (k : AccessKind) : Except TransFault Target :=
  if inWindow va then
    match s.window s.g.caravan va n true with
    | .scratch b o => .ok (.bank b o)
    | _ => .error ⟨.nomap, 0, 0⟩
  else
    match s.place s.g va k with
    | .error f => .error f
    | .ok p => if isHost p.pa then .error ⟨.perm, 6, 0⟩ else .ok (.mem p.pa p.coh p.grain p.enc p.key)

/-- Notes the translation of an address (R115, R121). -/
def State.noteVa (s : State) (va : Word64) (k : AccessKind) : State :=
  if inWindow va then s
  else
    match s.place s.g va k with
    | .ok p => s.notePlace p k
    | .error _ => s

/-- Resolves an address with its alignment, its translation and the watch registers (R323, R373). -/
def State.syncAddr (s : State) (va : Word64) (n al : Nat) (k : AccessKind) (body : Target → State → State) : State :=
  if va.toNat % al ≠ 0 then s.scalarFault .align {} va
  else
    s.afterWalk va k <| match s.syncTarget va n k with
    | .error f => s.transFault f va
    | .ok t => s.unwatched va n (needsW k) (s.unheld [t.line] (s.afterEntries [t.line] (body t (s.noteVa va k))))

/-- The control word of a wait (R324). -/
structure WaitCtl where
  timeout : Nat
  scope : Scope
  tc : Nat
deriving DecidableEq, Repr

/-- Reads a wait control word; none where SCOPE is reserved. -/
def WaitCtl.of (x : Word64) : Option WaitCtl :=
  (Scope.ofCode (x.extractLsb' 16 3)).map fun sc => ⟨(x.extractLsb' 32 32).toNat, sc, (x.extractLsb' 0 16).toNat⟩

/-- A function with a wait control word in s[b], which a reserved field makes ILLEGAL (R323). -/
def withCtl (d a b : BitVec 6) (more : List (BitVec 6)) (ok : WaitCtl → Bool) (body : WaitCtl → State → State) (s : State) : State :=
  withRegs [b] (fun s =>
    match WaitCtl.of (s.sreg b) with
    | none => s.controlFault
    | some c => if ok c then withRegs (d :: a :: more) (outsideRegion (body c)) s else s.controlFault) s

/-! Barriers and waits (R325 to R329) -/

/-- An access of the scalar stream at an ordering point, performed and acknowledged in one step since the scalar stream waits for it
(R148, R149, R155): `k` takes the old value, none where KEY or POISON is deferred (R169). -/
def State.atPoint (s : State) (t : Target) (n : Nat) (f : Nat → Nat) (k : State → Option Nat → State) : State :=
  s.tookAtomic (s.indivisible t n s.g.pts fun x => some (f x)) k

/-- Goes on once the store buffer has room for an access (R148). -/
def State.afterRoom (s : State) (t : Target) (k : State) : State := if s.g.sbRoom [t.line] 1 then k else s

/-- An access at an ordering point whose causes are precise. -/
def State.atPointPrecise (s : State) (t : Target) (n : Nat) (f : Nat → Nat) (k : State → Nat → State) : State :=
  match s.indivisible t n s.g.pts fun x => some (f x) with
  | (s1, .ok (old, st)) => k (s1.ackStamp st (s.acks s1)) old
  | (s1, .error c) => s1.scalarFault c

/-- BINI (R325). -/
def execBini (a b : BitVec 6) (s : State) : Out :=
  .next (withRegs [a, b] (outsideRegion fun s =>
    s.syncAddr (s.sreg a) 16 16 .store fun t s =>
      s.afterRoom t (s.atPoint t 16 (fun _ => (s.sreg b).toNat * 2 ^ 64) fun s _ => s.advance)) s)

/-- The threads that an arrival adds (R324). -/
def State.threads (s : State) (c : WaitCtl) : Nat := if c.tc = 0 then s.g.liveLanes.count else c.tc

/-- COUNT after an arrival of `n` threads (R326). -/
def arrive (n old : Nat) : Nat := (old + n * 2 ^ 40) % 2 ^ 64

/-- BARA (R326): a release of SCOPE. -/
def execBara (d a b : BitVec 6) (s : State) : Out :=
  .next (withCtl d a b [] (fun _ => true) (fun c s =>
    s.syncAddr (s.sreg a) 16 16 .atomic fun t s =>
      s.afterRelease .rel c.scope false (s.afterRoom t
        ((s.releaseIf .rel c.scope false).atPoint t 8 (arrive (s.threads c)) fun s old =>
          (old.elim s fun x => s.setS d (BitVec.ofNat 64 x)).advance))) s)

/-- The value that a waiting read returns now (R89, R96, R326). -/
def State.currentRead (s : State) (t : Target) (n : Nat) : State × Except Cause Nat :=
  let s1 := s.performLines [t.line]
  match t with
  | .bank b o => (s1, if s1.bankPoisoned b o n then .error .poison else .ok (leNat (s1.bankBytes b o n)))
  | .mem pa coh _ enc key =>
    if !s1.mem.keyServes pa enc key then (s1, .error .key)
    else
      let s2 := if coh = .none then s1.dropNone pa else s1
      let m0 := if isOwn pa then s2.mem.reach (pa / 128) enc key false else s2.mem
      let m := if coh = .dir then m0 else m0.hostAside (pa / 128)
      if (List.range n).any fun i => s.poisoned m (pa + i) then ({ s2 with mem := s2.notePoison m pa }, .error .poison)
      else
        match coh with
        | .lease =>
          let (m1, c) := m.renew s2.g.coreNo (pa / 128) s2.g.pts s2.svc.lease
          (({ s2 with mem := m1, g := { s2.g with pts := maxS s2.g.pts c.wts } } : State).advanceFloor, .ok (leNat (readBytes c.data.get pa n)))
        | _ => ({ s2 with mem := m }, .ok (m.peek pa n))

/-- Whether a watch is free at a place (R327). -/
def State.watchFree (s : State) (t : Target) : Bool :=
  let held := s.groups.filterMap fun g => (g.wait.bind fun w => w.watch).map s.pieceSlice
  (held.filter fun x => x = s.pieceSlice t).length < match t with
    | .bank .. => 16
    | .mem .. => 64

/-- The group in focus has read a word of `n` bytes and parks, holding a watch where one is free (R327); a wait that is taken up again
after a handler or a pre-emption counts its time afresh (R326). The watch stays on the word that was read when a `tlbi` removes its
translation: R123 and R327 say nothing of that (log 42). -/
def State.park (s : State) (t : Target) (n : Nat) (c : WaitCtl) (arrived : Bool) : State :=
  let limit := if c.timeout = 0 then none else some (c.timeout * 1024)
  let w : Wait := match s.g.wait with
    | some w => if w.parked then w else { w with since := s.now, limit := limit }
    | none => { s.newWait with limit := limit }
  let held := if w.watch.isSome then w.watch else if s.watchFree t then some t else none
  s.setG fun g => { g with wait := some { w with
    parked := true, woken := false, watch := held, arrived := arrived, size := n, written := false, polled := s.now } }

/-- A wait at a word (R326, R327, R329): it completes when `ok` holds of the value read, `pick` of which goes to s[d]. -/
def State.waitOn (s : State) (t : Target) (n : Nat) (c : WaitCtl) (d : BitVec 6) (arrived : Bool) (ok : Nat → Bool) (pick : Nat → Nat) :
    State :=
  match s.currentRead t n with
  | (_, .error e) => s.scalarFault e
  | (s1, .ok x) =>
    if ok x then ((s1.setS d (BitVec.ofNat 64 (pick x))).acquireIf .acq c.scope false).advance else s1.park t n c arrived

/-- Whether a barrier is complete (R324). -/
def barrierDone (x : Nat) : Bool :=
  bits x 104 24 ≤ bits x 40 24 && bits x 64 40 ≤ bits x 0 40

/-- BARW (R326). -/
def execBarw (d a b : BitVec 6) (s : State) : Out :=
  .next (withCtl d a b [] (fun _ => true) (fun c s =>
    s.syncAddr (s.sreg a) 16 16 .load fun t s => s.waitOn t 16 c d false barrierDone fun x => x % 2 ^ 64) s)

/-- Whether the arrival of the `barx` that issues, or the change of its `bkmode`, stands already (R326, R336). -/
def Group.hasArrived (g : Group) : Bool := g.wait.any fun w => w.arrived && w.spc = g.spc

/-- BARX (R326): an arrival, then a wait. -/
def execBarx (d a b : BitVec 6) (s : State) : Out :=
  .next (withCtl d a b [] (fun _ => true) (fun c s =>
    s.syncAddr (s.sreg a) 16 16 .atomic fun t s =>
      let wait_ (s : State) : State := s.waitOn t 16 c d true barrierDone fun x => x % 2 ^ 64
      if s.g.hasArrived then wait_ s
      else s.afterRelease .rel c.scope false (s.afterRoom t
        ((s.releaseIf .rel c.scope false).atPoint t 8 (arrive (s.threads c)) fun s _ => wait_ s))) s)

/-- WWORD (R329). -/
def execWword (d a b : BitVec 6) (s : State) : Out :=
  .next (withCtl d a b [b + 1] (fun c => c.tc % 8 < 6) (fun c s =>
    s.syncAddr (s.sreg a) 8 8 .load fun t s =>
      let cond := (Cond.ofCode (BitVec.ofNat 3 c.tc)).getD .eq
      s.waitOn t 8 c d false (fun x => condHolds cond (BitVec.ofNat 64 x) (s.sreg (b + 1))) id) s)

/-- WATCH_WAKE (R327): a group whose watched word has been written reads it again. -/
def execWatchWake (t : Nat) (s : State) : Out :=
  .next (s.onGroup t fun g =>
    { g with wait := g.wait.map fun w => if w.parked && w.watch.isSome && w.written then { w with woken := true } else w })

/-- WATCH_POLL (R327): a group without a watch reads its word again every 1,024 cycles. -/
def execWatchPoll (t : Nat) (s : State) : Out :=
  .next (s.onGroup t fun g =>
    { g with wait := g.wait.map fun w => if w.parked && w.watch.isNone && w.polled + 1024 ≤ s.now then { w with woken := true } else w })

/-- WAIT_TIMEOUT (R326): precise, or deferred after the arrival of a `barx`. -/
def execWaitTimeout (t : Nat) (s : State) : Out :=
  .next (s.forGroup t fun s =>
    match s.g.wait with
    | some w =>
      if w.parked && w.limit.any (fun n => w.since + n ≤ s.now) then
        if w.arrived then
          s.advance.deferFault ⟨.timeout, fpcScalar s.g.spc, Info.word { arrived := true }, 0, 0, none⟩ s.g.hmode
        else s.scalarFault .timeout
      else s
    | none => s)

/-- YIELD (R330). -/
def execYield (s : State) : Out := .next ((s.setG fun g => { g with scalarIssued := s.now, laneIssued := s.now }).advance)

/-! Deques (R332) -/

/-- A scalar deque instruction: an access-release and access-acquire of scope dom; `k` takes the answer. -/
def State.deque (s : State) (va : Word64) (op : DequeOp) (k : State → Word64 → State) : State :=
  if va.toNat % 64 ≠ 0 then s.scalarFault .align {} va
  else if inWindow va then s.scalarFault .nomap {} va
  else
    s.afterWalk va .atomic <| match s.syncTarget va 64 .atomic with
    | .error f => s.transFault f va
    | .ok t =>
      let lines : List (Nat ⊕ Nat) := match t with
        | .mem pa .. => (List.range 16).map fun i => .inr (pa / 128 + i)
        | .bank .. => []
      s.unwatched va 64 true (s.unheld lines (s.afterEntries lines (s.afterRelease .ar .dom false (s.afterRoom t
        (let s1 := (s.noteVa va .atomic).releaseIf .ar .dom false
         match s1.dequeAt t s1.g.pts op with
         | (s2, .error c) => s2.scalarFault c
         | (s2, .ok (v, st)) => k ((s2.ackStamp st (s1.acks s2)).acquireIf .ar .dom false) v)))))

/-- DQINIT (R332). -/
def execDqinit (a b : BitVec 6) (s : State) : Out :=
  .next (withRegs [a, b] (outsideRegion fun s =>
    s.deque (s.sreg a) (.init ((s.sreg b).toNat % 256)) fun s _ => s.advance) s)

/-- DQPUSH (R332). -/
def execDqpush (d a b : BitVec 6) (s : State) : Out :=
  .next (withRegs [d, a, b] (outsideRegion fun s =>
    s.deque (s.sreg a) (.push (s.sreg b)) fun s v => (s.setS d v).advance) s)

/-- DQPOP (R332). -/
def execDqpop (d a : BitVec 6) (s : State) : Out :=
  .next (withRegs [d, a] (outsideRegion fun s => s.deque (s.sreg a) .pop fun s v => (s.setS d v).advance) s)

/-- DQSTEAL (R332). -/
def execDqsteal (d a : BitVec 6) (s : State) : Out :=
  .next (withRegs [d, a] (outsideRegion fun s => s.deque (s.sreg a) .steal fun s v => (s.setS d v).advance) s)

/-! Reduction declarations (R334, R335) -/

/-- Whether a part of a declaration block waits: its walk, or its line. -/
def State.blockHeld (s : State) (va : Word64) (n : Nat) : Bool :=
  s.walkHeld s.g va ||
    match s.syncTarget va n .load with
    | .ok t => s.lineHeld [t.line]
    | .error _ => false

/-- The first cause that translating the parts of a declaration block finds, with its address. -/
def State.blockFault (s : State) (parts : List (Word64 × Nat)) : Option (TransFault × Word64) :=
  parts.findSome? fun x => match s.syncTarget x.1 x.2 .load with
    | .error f => some (f, x.1)
    | .ok _ => none

/-- The bytes of a declaration block as they read now, part by part at lines, or the first cause and its address. -/
def State.readBlock (s : State) : List (Word64 × Nat) → State × Except (TransFault × Word64) (List Byte)
  | [] => (s, .ok [])
  | (va, n) :: rest =>
    match s.syncTarget va n .load with
    | .error f => (s, .error (f, va))
    | .ok t =>
      match (s.noteVa va .load).currentRead t n with
      | (s1, .error c) => (s1, .error (⟨c, 0, 0⟩, 0))
      | (s1, .ok x) =>
        match s1.readBlock rest with
        | (s2, .ok bs) => (s2, .ok (leBytes n x ++ bs))
        | r => r

/-- The alignment that TY of a declaration block asks of its target (R335); 1 where TY is not allowed. -/
def declAlign (bs : List Byte) : Nat :=
  let ty := (Ty.ofCode (bits (leNat (bs.take 8)) 0 5)).getD .q
  if ty = .i32 || ty = .n32 || ty = .i64 || ty = .n64 || ty = .f32 || ty = .f64 then ty.esize else 1

/-- A record made from a declaration block; none for a block that is refused (R334, R335). -/
def RedRecord.of (pa : Nat) (bs : List Byte) : Option RedRecord :=
  let head := leNat (bs.take 8)
  let counts := (List.range 2).map fun d => ((bs.drop (16 + 64 * d)).take 64).map (·.toNat)
  let ty := (Ty.ofCode (bits head 0 5)).getD .q
  let opc := bits head 8 4
  let okTy := ty = .i32 || ty = .n32 || ty = .i64 || ty = .n64 || ty = .f32 || ty = .f64
  if okTy && (opc = 0 || opc = 4 || opc = 5) && bits head 5 3 = 0 && bits head 12 52 = 0 && leNat ((bs.drop 8).take 8) = 0 &&
      counts.flatten.all (· ≤ 32) && counts.flatten.any (· ≠ 0) then
    some { target := pa, ty := ty, opc := opc, counts := counts, got := [], seen := [], flags := 0, late := [] }
  else none

/-- The answer of a slice to a declaration (R335). -/
def Mem.declare (m : Mem) (pa : Nat) (r : Option RedRecord) : Mem × Nat :=
  match r with
  | none => (m, 3)
  | some r =>
    if (m.redRecord pa).isSome then (m, 1)
    else if (m.reds.filter fun x => m.leaseSlice x.target = m.leaseSlice pa).length ≥ 16 then (m, 2)
    else ({ m with reds := m.reds ++ [r] }, 0)

/-- The target of a declaration (R335): `al` its alignment. -/
def State.declTarget (s : State) (va : Word64) (al : Nat) (k : Nat → State → State) : State :=
  if va.toNat % al ≠ 0 then s.scalarFault .align {} va
  else if inWindow va then s.scalarFault .nomap {} va
  else
    s.afterWalk va .atomic <| match s.syncTarget va al .atomic with
    | .error f => s.transFault f va
    | .ok t =>
      match t with
      | .mem pa _ _ enc key =>
        s.unwatched va al true (s.unheld [t.line] (s.afterEntries [t.line] (s.afterRoom t
          (if s.mem.keyServes pa enc key then k pa (s.noteVa va .atomic) else s.scalarFault .key))))
      | .bank .. => s.scalarFault .nomap {} va

/-- TDECL (R334, R335). -/
def execTdecl (d a b : BitVec 6) (s : State) : Out :=
  .next (withRegs [d, a, b] (outsideRegion fun s =>
    let blk := s.sreg b
    let done (s : State) (m : Mem × Nat) : State := ({ s with mem := m.1 }.setS d (BitVec.ofNat 64 m.2)).advance
    if blk = 0 then
      s.declTarget (s.sreg a) 1 fun pa s =>
        done s (match s.mem.redRecord pa with
          | some _ => ({ s.mem with reds := s.mem.reds.filter fun r => r.target ≠ pa }, 0)
          | none => (s.mem, 4))
    else if blk.toNat % 16 ≠ 0 then s.scalarFault .align {} blk
    else if (vaParts blk 3 144).any fun x => s.blockHeld x.1 x.2 then s
    else
      match s.blockFault (vaParts blk 3 144) with
      | some (f, va) => s.transFault f va
      | none =>
        s.unwatched blk 144 false <| match s.readBlock (vaParts blk 3 144) with
        | (_, .error (f, va)) => s.transFault f va
        | (s1, .ok bs) => s1.declTarget (s1.sreg a) (declAlign bs) fun pa s => done s (s.mem.declare pa (RedRecord.of pa bs))) s)

/-! Bank modes (R128, R129, R336) -/

/-- The bytes of a bank become 0 or are discarded. -/
def State.clearBank (s : State) (n : Nat) : State :=
  { s with mem := { s.mem with scratch := s.mem.scratch.dropRange (scratchKey n 0) 65536 } }

/-- The victim buffer of a quad is emptied: each Put is served to its end (R92). -/
def Mem.releaseVictims (m : Mem) (quad : Nat) : Mem :=
  (m.qlines.filter fun l => l.quad = quad && l.victim).foldl (fun (m : Mem) l =>
    let m1 := m.settleTxns l.addr l.size
    if m1.qlines.contains l then m1.putWhole l else m1) m

/-- What the change of a bank out of CACHE mode does to the lines of its core (R128): dirty lines are written back, units are released
with a Put. The manual does not say which lines the bank's ways hold; every line of the core leaves (log 23). -/
def State.emptyCache (s : State) (quad core : Nat) : State :=
  let m := (((s.mem.cached (quad * 4 + core)).map (·.1)).eraseDups).foldl (fun (m : Mem) l => m.evictCached (quad * 4 + core) l) s.mem
  ({ s with mem := m.releaseVictims quad } : State).wrote (bytesMeet (s.mem.noneDirty (quad * 4 + core) fun _ => true))

/-- A region whose pinned line finds no room aborts with CAPACITY, one after another until the rest fit (R128). -/
def State.unfit (s : State) (quad core : Nat) : State :=
  (s.regions.filter fun r => (s.group r.owner).any fun g => g.coreNo = quad * 4 + core).foldl (fun s r =>
    match s.regionOf r.owner with
    | some x =>
      let crowded (l : Nat) : Bool := s.cacheWays quad core < ((s.pinned (quad * 4 + core)).filter fun y => y % 128 = l % 128).length
      if x.bytes.any fun y => crowded (y.1 / 128) then s.abortRegion x .capacity 0 0 false true else s
    | none => s) s

/-- The mode change of a bank to a mode that is not its own; none: refused (R128). -/
def State.changeBank (s : State) (n : Nat) (mode : BankMode) (z : Nat) : Option State :=
  let b := s.bank n
  let fresh : Bank := { b with mode := mode, slotExp := z, fill := 0, head := 0, tail := 0, waiters := [] }
  if b.mode = .fifo && b.fill ≠ 0 then none
  else if b.mode = .cache then
    let s1 := ((s.setBank fresh).emptyCache (n / 64) (n / 16 % 4)).unfit (n / 64) (n / 16 % 4)
    some ((s1.clearBank n).setBank { fresh with switching := true })
  else some (if mode = .cache then (s.setBank fresh).clearBank n else s.setBank fresh)

/-- MODE of a `bkmode` control word; none for a reserved one (R336). -/
def bankModeOf (x : Word64) : Option (BankMode × Nat) :=
  let z := (x.extractLsb' 4 4).toNat
  match (x.extractLsb' 0 2).toNat with
  | 0 => if z = 0 then some (.cache, 0) else none
  | 1 => if z = 0 then some (.scratch, 0) else none
  | 2 => if z ≤ 10 then some (.fifo, z) else none
  | _ => none

/-- Whether an entry has still to write a bank. -/
def SbEntry.writesBank (n : Nat) (e : SbEntry) : Bool :=
  let here (t : Target) : Bool := match t with
    | .bank b _ => b = n
    | .mem .. => false
  !e.performed && match e.op with
    | .store bs => bs.any fun x => here x.1
    | .op t (.drain _ _ _ es) => here t || es.any fun x => here x.1
    | .op t _ => here t

/-- Whether accesses that have reached a bank's port, or are on their way to it, are still to be served: a change of its mode comes after
them (R129; log 42). -/
def State.bankBusy (s : State) (n : Nat) : Bool :=
  !(s.bank n).waiters.isEmpty || s.groups.any fun g => g.sb.any (SbEntry.writesBank n)

/-- The stores on their way to a bank are performed, those that may be. -/
def State.flushBank (s : State) (n : Nat) : State :=
  ((s.groups.filter fun g => g.sb.any (SbEntry.writesBank n)).foldl (fun (s : State) g => s.forGroup g.tag fun s =>
    ((s.g.sb.filter (SbEntry.writesBank n)).map (·.id)).foldl State.performEntry s) s).focus s.g.tag

/-- The `bkmode` that issues has made its change and waits for the write-backs (R129, R336). -/
def State.changed (s : State) : State := s.setG fun g => { g with wait := some { s.newWait with arrived := true } }

/-- BKMODE (R336): waits until the change completes. -/
def execBkmode (d a b : BitVec 6) (s : State) : Out :=
  .next (withRegs [b] (fun s =>
    match bankModeOf (s.sreg b) with
    | none => s.controlFault
    | some (mode, z) =>
      withRegs [d, a] (outsideRegion fun s =>
        let win := (s.sreg a).toNat % 64
        match s.bankOf s.g.caravan win with
        | none => s.scalarFault .nomap {} (0xFFFFF00000000000#64 + BitVec.ofNat 64 (65536 * win))
        | some n =>
          if s.g.hasArrived then if (s.bank n).switching then s else (s.setS d 0).advance
          else if (s.bank n).switching then s.stall
          else if (s.bank n).mode = mode then (s.setS d 0).advance
          else if s.bankBusy n then (s.flushBank n).stall
          else
            match s.changeBank n mode z with
            | none => (s.setS d 1).advance
            | some s1 => if (s1.bank n).switching then s1.changed else (s1.setS d 0).advance) s) s)

/-- MODE_SWITCH_COMPLETE (R129): the write-backs of a switch have been granted. -/
def execModeSwitchComplete (quad bank : Nat) (s : State) : Out :=
  .next (if (s.bank (quad * 64 + bank)).switching then s.setBank { s.bank (quad * 64 + bank) with switching := false } else s)

/-- FIFO_ACCESS_SERVED (R133): the access of group `t` that waits longest of those that FIFO bank `e` serves may go on. -/
def execFifoAccessServed (t e : Nat) (s : State) : Out :=
  .next (let b := s.bank e
    match b.waiters.find? fun w => w.tag = t && !w.granted && b.serves (fun x => x = w) w.needFill w.needFree with
    | some w => s.setBank { b with waiters := b.waiters.map fun x => if x = w then { x with granted := true } else x }
    | none => s)

/-! Regions (R338, R345, R346) -/

/-- Whether every lane run of a group has ended. -/
def Group.runsOver (g : Group) : Bool := g.runs.isEmpty && !g.running && g.inflight.isEmpty

/-- The first FREE entry of a die's region table (R338). -/
def State.freeRegion (s : State) (die : Nat) : Option Nat :=
  (List.range 64).find? fun e => !s.regions.any fun r => r.die = die && r.e = e

/-- A region at its start (R338). -/
def Region.new (die e owner : Nat) (implicit : Bool) : Region :=
  { die := die, e := e, owner := owner, st := .run, bytes := [], attrs := [], read := [], sources := [], depth := 0, stall := [],
    implicit := implicit }

/-- RBEG (R338, R346). -/
def execRbeg (a : BitVec 6) (s : State) : Out :=
  .next (withRegs [a] (fun s =>
    match s.region with
    | some r =>
      if r.implicit then s.abortRegion r .mode 0 0 false true
      else if (s.sreg a).toNat % 4 ≠ 0 then s.scalarFault .align {} (s.sreg a)
      else s.abortRegion r .explicit 0 0 true true
    | none =>
      if (s.sreg a).toNat % 4 ≠ 0 then s.scalarFault .align {} (s.sreg a)
      else if !s.g.runsOver || s.g.uac ≠ 0 then s.stall
      else
        match s.freeRegion s.g.die with
        | none => s.stall
        | some e =>
          (({ s with regions := s.regions ++ [Region.new s.g.die e s.g.tag false] } : State).setG fun g =>
            { g with rgid := BitVec.ofNat 6 e, rgst := 0x80, rgAbort := g.sreg a }).advance) s)

/-- REND (R345, R346): ENDED, then the wait for the commit. -/
def execRend (d : BitVec 6) (s : State) : Out :=
  .next (withRegs [d] (fun s =>
    match s.region with
    | none => (s.setS d (BitVec.ofNat 64 (s.g.rgst.toNat % 16))).advance
    | some r =>
      if r.implicit then s.abortRegion r .mode 0 0 false true
      else if !s.g.runsOver then s.stall
      else (s.setRegion { r with st := .ended }).stall) s)

/-- RABORT (R345, R346). -/
def execRabort (a : BitVec 6) (s : State) : Out :=
  .next (withRegs [a] (fun s =>
    match s.region with
    | none => s.advance
    | some r => s.abortRegion r .explicit 0 ((s.sreg a).setWidth 8) false true) s)

/-- RGST as it reads: with the live region's DEPTH, LIVE and ENDED (R344). -/
def State.rgstNow (s : State) : BitVec 32 :=
  match s.region with
  | none => s.g.rgst
  | some r => s.g.rgst ||| BitVec.ofNat 32 (r.depth * 256 + 128 + if r.st = .ended then 64 else 0)

/-- RSTAT (R345). -/
def execRstat (d a : BitVec 6) (s : State) : Out :=
  .next (withRegs [d, a] (fun s =>
    let x : Word64 := match (s.sreg a).toNat % 4 with
      | 0 => s.rgstNow.setWidth 64
      | 1 => s.g.rgpred
      | 2 => s.g.rgid.setWidth 64
      | _ => 0
    (s.setS d x).advance) s)

/-- REGION_COMMIT (R337, R342): a release of scope pkg, by the fence that comes before it (R151, R152). -/
def execRegionCommit (die e : Nat) (s : State) : Out :=
  .next (match s.regions.find? fun r => r.die = die && r.e = e with
    | some r =>
      if !s.mayCommit r || s.commitWaits r then s
      else s.forGroup r.owner fun s => if s.fenceReady .pkg then (s.fence .pkg).commitRegion r else s
    | none => s)

end Sys2Proof.Machine
end

