-- ==== Sys2Proof/Machine/Sys.lean ====
section
/-! DEFINITION. The sys instructions (R371 to R374). -/
namespace Sys2Proof.Machine

/-- TRAP (R371): in handler mode the group halts (R369). -/
def execTrap (a : BitVec 6) (s : State) : Out :=
  .next (withRegs [a] (outsideRegion fun s => s.scalarFault .trap { arg := (s.sreg a).toNat % 65536 }) s)

/-- BRK (R371). -/
def execBrk (s : State) : Out := .next (outsideRegion (fun s => s.scalarFault .brk) s)

/-- SYSRET (R372). -/
def execSysret (a : BitVec 6) (s : State) : Out :=
  .next (withControl [a] (fun s => (s.sreg a).toNat % 4 = 3)
    (privileged (withRegs [a] (outsideRegion fun s => s.sysret ((s.sreg a).toNat % 4)))) s)

/-! System registers (R373) -/

/-- RC as `sysrd` and `syswr` reach it: the value in the handler frame (R373). -/
def Group.savedRc (g : Group) : BitVec 6 :=
  match g.frame with
  | some fr => fr.rc
  | none => g.rc

/-- Writes the RC of the handler frame (R373). -/
def Group.setSavedRc (g : Group) (x : BitVec 6) : Group :=
  match g.frame with
  | some fr => { g with frame := some { fr with rc := x } }
  | none => { g with rc := x }

/-- The lane that a system register number names for XF (R373). -/
def Group.xfLane (g : Group) (n : Word64) : Nat := n.toNat / 256 % 256 % g.width

/-- A system register by its number word; none for a number that is not listed (R373). -/
def State.sysReg (s : State) (n : Word64) : Option Word64 :=
  let g := s.g
  match n.toNat % 256 with
  | 0 => some (g.pts.setWidth 64)
  | 1 => some (g.lct.setWidth 64)
  | 2 => some (g.uac.setWidth 64)
  | 3 => some g.cvm
  | 4 => some ((g.xf[g.xfLane n]?.getD 0).setWidth 64)
  | 5 => some (g.xe.setWidth 64)
  | 6 => some (g.gstat.setWidth 64)
  | 7 => some g.fmask
  | 8 => some (g.savedRc.setWidth 64)
  | 9 => some (g.rgid.setWidth 64)
  | 10 => some (s.rgstNow.setWidth 64)
  | 11 => some g.rgpred
  | 12 => some (g.fcause.setWidth 64)
  | 13 => some g.fpc
  | 14 => some g.finfo
  | 15 => some g.faddr
  | 16 => some g.finfoMask
  | 17 => some g.hmask
  | 18 => some g.hrpc
  | 19 => some g.watch0
  | 20 => some g.watch1
  | 21 => some (BitVec.ofNat 64 (g.batches % 256))
  | 22 => some (BitVec.ofNat 64 g.tag)
  | _ => none

/-- GSTAT after a write of its W1C bits (R300). -/
def gstatWrite (old : BitVec 32) (x : Word64) : BitVec 32 := old &&& ~~~ (x.setWidth 32 &&& 0x19#32)

/-- FPC without its reserved bits (R364, R5). -/
def fpcWrite (x : Word64) : Word64 := if x.getLsbD 62 then x &&& ~~~ 0x1FFFFFFF00000#64 else x

/-- The group after a write of a listed system register; read-only ones ignore it (R373, R5). -/
def Group.setSysReg (g : Group) (n x : Word64) : Group :=
  match n.toNat % 256 with
  | 3 => { g with cvm := cvmWrite g.cvm x }
  | 4 => { g with xf := g.xf.setIfInBounds (g.xfLane n) (x.setWidth 6) }
  | 5 => { g with xe := x.setWidth 6 }
  | 6 => { g with gstat := gstatWrite g.gstat x }
  | 8 => g.setSavedRc (x.setWidth 6)
  | 12 => { g with fcause := x.setWidth 8 }
  | 13 => { g with fpc := fpcWrite x }
  | 14 => { g with finfo := x &&& ~~~ 0xFF#64 }
  | 15 => { g with faddr := x }
  | 16 => { g with finfoMask := x &&& g.full }
  | 17 => { g with hmask := x &&& g.full }
  | 18 => { g with hrpc := x, frame := g.frame.map fun fr => { fr with hrpc := x } }
  | 19 => { g with watch0 := x &&& ~~~ 0x80000000000000#64 }
  | 20 => { g with watch1 := x &&& ~~~ 0x80000000000000#64 }
  | _ => g

/-- SYSRD (R373). -/
def execSysrd (d a : BitVec 6) (s : State) : Out :=
  .next (withControl [a] (fun s => (s.sysReg (s.sreg a)).isNone)
    (privileged (withRegs [d, a] (outsideRegion fun s => (s.setS d ((s.sysReg (s.sreg a)).getD 0)).advance))) s)

/-- SYSWR (R373). -/
def execSyswr (a b : BitVec 6) (s : State) : Out :=
  .next (withControl [a] (fun s => (s.sysReg (s.sreg a)).isNone)
    (privileged (withRegs [a, b] (outsideRegion fun s => (s.setG fun g => g.setSysReg (g.sreg a) (g.sreg b)).advance))) s)

/-! First touch (R374) -/

/-- The leaf of an address for `pgmap` (R374): the address of its entry, its level, and whether it is malformed or invalid; NOMAP
above the leaf. -/
def State.leafOf (s : State) (asn : BitVec 12) (va : Word64) : Except TransFault (Nat × Nat × Bool) :=
  if !canonical va then .error ⟨.nomap, 1, 0⟩
  else if s.walkPoisoned asn va then .error ⟨.poison, 0, 0⟩
  else
    let dw := s.mem.peek (s.svc.astb.toNat + 32 * asn.toNat) 8
    if dw % 2 = 0 then .error ⟨.nomap, 2, 0⟩
    else
      let v := va.toNat % 2 ^ 55
      let e1 := s.mem.peek (bits dw 16 36 * 2 ^ 16 + 8 * bits v 42 13) 8
      if bits e1 52 1 = 0 then .error ⟨.nomap, 2, 1⟩
      else if !s.isPointer (e1 - 2 ^ 52) then .error ⟨.nomap, 3, 1⟩
      else
        let a2 := s.frameAddr (bits e1 16 36) + 8 * bits v 29 13
        let e2 := s.mem.peek a2 8
        if bits e2 52 1 = 0 then .error ⟨.nomap, 2, 2⟩
        else if e2 % 8 ≠ 0 then
          .ok (a2, 2, bits e2 16 13 ≠ 0 || bits e2 58 1 = 1 || bits e2 53 2 = 3 || bits e2 55 2 = 3)
        else if !s.isPointer (e2 - 2 ^ 52) then .error ⟨.nomap, 3, 2⟩
        else
          let i3 := bits v 16 13
          let t3 := s.frameAddr (bits e2 16 36)
          let e3 := s.mem.peek (t3 + 8 * i3) 8
          let base := t3 + 8 * (i3 / 32 * 32)
          if bits e3 52 1 = 1 && bits e3 58 1 = 1 then
            .ok (base, 3, bits e3 53 2 = 3 || bits e3 55 2 = 3 || !s.runOk base)
          else .ok (t3 + 8 * i3, 3, bits e3 52 1 = 0 || bits e3 53 2 = 3 || bits e3 55 2 = 3)

/-- A page entry with a frame, and in the leaf itself with FT clear (R111, R374). -/
def mapEntry (e frame : Nat) (leaf : Bool) : Nat :=
  e - bits e 16 36 * 2 ^ 16 - (if leaf then bits e 59 1 * 2 ^ 59 else 0) + frame % 2 ^ 36 * 2 ^ 16

/-- The pool descriptor's physical address (R107). -/
def State.pool (s : State) (asn : BitVec 12) : Nat := s.mem.peek (s.svc.astb.toNat + 32 * asn.toNat + 8) 8 % 2 ^ 52

/-- `pgmap` on a first-touch leaf, with its pool and LIST at addresses that exist (R374): the state and the answer. -/
def State.firstTouch (s : State) (leaf level pool list : Nat) : State × Nat :=
  let e := s.mem.peek leaf 8
  let i := s.mem.peek pool 8
  let frame := s.mem.peek (list + 8 * i) 8 % 2 ^ 36
  let run := level = 3 && bits e 58 1 = 1
  let bump (s : State) : State := s.physWrite pool (leBytes 8 (i + 1))
  if i ≥ s.mem.peek (pool + 8) 8 then (bump s, 2)
  else if (level = 2 && frame % 2 ^ 13 ≠ 0) || (run && frame % 32 ≠ 0) then (s, 3)
  else
    let put (s : State) (j : Nat) : State :=
      let a := leaf + 8 * j
      s.physWrite a (leBytes 8 (mapEntry (s.mem.peek a 8) (frame + j) (j = 0)))
    ((List.range (if run then 32 else 1)).foldl put (bump s), 0)

/-- Whether `pgmap` would read or write a physical address that R64 reserves. -/
def State.poolAbsent (s : State) (pool : Nat) : Bool :=
  let list := s.mem.peek (pool + 16) 8 % 2 ^ 52
  let i := s.mem.peek pool 8
  isAbsent pool || isAbsent (pool + 23) ||
    (i < s.mem.peek (pool + 8) 8 && (isAbsent (list + 8 * i) || isAbsent (list + 8 * i + 7)))

/-- Whether `pgmap` waits for a line that it reads: a block that moves, a stack that is not ready or a staged piece (R70, R76, R383). -/
def State.pgmapHeld (s : State) (pool : Nat) (va : Word64) : Bool :=
  ((s.walkLines s.g.asn va) ++ [pool / 128, (s.mem.peek (pool + 16) 8 % 2 ^ 52 + 8 * s.mem.peek pool 8) / 128]).any s.hostWaits

/-- PGMAP (R122, R374). -/
def execPgmap (d a : BitVec 6) (s : State) : Out :=
  let go : Bool := s.g.hmode && s.g.hasS d && s.g.hasS a && s.region.isNone
  let pool := s.pool s.g.asn
  match s.leafOf s.g.asn (s.sreg a) with
  | .ok (leaf, level, bad) =>
    let ft : Bool := !bad && bits (s.mem.peek leaf 8) 59 1 = 1
    if go && ft && s.poolAbsent pool then .fault .absentPhysical
    else
      .next (privileged (withRegs [d, a] (outsideRegion fun s =>
        if s.pgmapHeld pool (s.sreg a) then s else
        let r : State × Nat :=
          if bad then (s, 3)
          else if ft then s.firstTouch leaf level pool (s.mem.peek (pool + 16) 8 % 2 ^ 52)
          else (s, 1)
        (r.1.setS d (BitVec.ofNat 64 r.2)).advance)) s)
  | .error f => .next (privileged (withRegs [d, a] (outsideRegion fun s =>
      if s.pgmapHeld pool (s.sreg a) then s else s.transFault f (s.sreg a))) s)

end Sys2Proof.Machine
end

