-- ==== Sys2Proof/Machine/Seats.lean ====
section
/-! DEFINITION. Launch records field by field, what a Caravan needs of a place, and the choice of places (R11, R126, R347, R356 to
R358). -/
namespace Sys2Proof.Machine

/-! The record (R347) -/

/-- A field of a launch record. -/
def recField (r : BitVec 512) (lo n : Nat) : Nat := (r.extractLsb' lo n).toNat

/-- WIDTH in lanes. -/
def Launch.width (l : Launch) : Nat := 16 * 2 ^ recField l.record 128 2
/-- Groups per workgroup. -/
def Launch.groups (l : Launch) : Nat := recField l.record 130 6 + 1
/-- Whether workgroups span a core pair. -/
def Launch.pair (l : Launch) : Bool := recField l.record 136 1 = 1
/-- Workgroups per Caravan. -/
def Launch.wgs (l : Launch) : Nat := recField l.record 137 2 + 1
/-- Scratch banks per Caravan. -/
def Launch.nbanks (l : Launch) : Nat := recField l.record 139 7
/-- PRIO. -/
def Launch.prio (l : Launch) : Nat := recField l.record 146 3
/-- COS. -/
def Launch.wantsCos (l : Launch) : Bool := recField l.record 149 1 = 1
/-- IMPL. -/
def Launch.implicit (l : Launch) : Bool := recField l.record 150 1 = 1
/-- GPTR. -/
def Launch.gridPtr (l : Launch) : Bool := recField l.record 151 1 = 1
/-- ASN. -/
def Launch.asn (l : Launch) : BitVec 12 := l.record.extractLsb' 152 12
/-- v allotment. -/
def Launch.vregs (l : Launch) : Nat := 8 * (recField l.record 164 5 + 1)
/-- s allotment. -/
def Launch.sregs (l : Launch) : Nat := recField l.record 169 6 + 1
/-- h allotment. -/
def Launch.hregs (l : Launch) : Nat := recField l.record 175 5
/-- q allotment. -/
def Launch.qregs (l : Launch) : Nat := recField l.record 180 5
/-- SENTRY. -/
def Launch.sentry (l : Launch) : Word64 := l.record.extractLsb' 0 64
/-- LBASE. -/
def Launch.lbase (l : Launch) : Word64 := l.record.extractLsb' 64 64
/-- GRID. -/
def Launch.grid (l : Launch) : Word64 := l.record.extractLsb' 192 64
/-- DONE. -/
def Launch.done (l : Launch) : Word64 := l.record.extractLsb' 256 64
/-- TGT of a dependence. -/
def Launch.tgt (l : Launch) (i : Nat) : Nat := recField l.record (320 + 48 * i) 16
/-- The address of a dependence's event word. -/
def Launch.depVa (l : Launch) (i : Nat) : Word64 := l.done + 8 * (l.record.extractLsb' (336 + 48 * i) 32).signExtend 64
/-- The cores that a Caravan occupies (R7). -/
def Launch.ncores (l : Launch) : Nat := l.wgs * if l.pair then 2 else 1
/-- The groups on the `j`-th core of a Caravan (R356). -/
def Launch.groupsOn (l : Launch) (j : Nat) : Nat :=
  if l.pair then if j % 2 = 0 then (l.groups + 1) / 2 else l.groups / 2 else l.groups

/-- Bytes of a core's vector register file, and of its directional register file (R11). -/
def vFile : Nat := 524288
/-- Bytes of a core's directional register file (R11). -/
def qFile : Nat := 131072

/-- A launch from its record as handed over. -/
def Launch.of (die : Nat) (record : BitVec 512) (s2 : Word64) (pts : Stamp) : Launch :=
  { id := 0, die := die, record := record, s2 := s2, words := [], deps := [], ready := false, readyAt := 0, pts := pts, n := 0, placed := 0,
    retired := 0, cos := false, maxStamp := pts, status := 0, headSince := none, aged := false }

/-! What a Caravan needs and what is free (R11, R126, R356) -/

/-- Group slots, banks and bytes of the two register files on one core. -/
structure Need where
  slots : Nat
  banks : Nat
  v : Nat
  q : Nat
deriving DecidableEq, Repr

/-- What one core lacks: slots and banks count each, a register file once (R357). -/
def Need.short (n free : Need) : Nat :=
  (n.slots - free.slots) + (n.banks - free.banks) + (if free.v < n.v then 1 else 0) + (if free.q < n.q then 1 else 0)

/-- What is left. -/
def Need.minus (a b : Need) : Need := ⟨a.slots - b.slots, a.banks - b.banks, a.v - b.v, a.q - b.q⟩

/-- Banks that core `j` of `n` gives (R126). -/
def bankShare (b n j : Nat) : Nat := b / n + if j < b % n then 1 else 0

/-- What a Caravan needs on its cores. -/
def Launch.needs (l : Launch) : List Need :=
  (List.range l.ncores).map fun j =>
    let g := l.groupsOn j
    ⟨g, bankShare l.nbanks l.ncores j, g * l.width * l.vregs * 4, g * l.width * l.qregs * 32⟩

/-- A Caravan's wants: its needs core by core, whether its first core is even, and its Rooms. -/
structure Wants where
  needs : List Need
  pair : Bool
  rooms : Nat
deriving DecidableEq, Repr

/-- The groups that hold slots of a core. -/
def State.onCore (s : State) (quad core : Nat) : List Group :=
  s.groups.filter fun g => g.quadNo = quad && g.core = core && (g.state = .resident || g.state = .retiring)

/-- What is free on a core. -/
def State.coreFree (s : State) (quad core : Nat) : Need :=
  let gs := s.onCore quad core
  ⟨32 - gs.length, ((List.range 16).filter fun b => (s.bank (quad * 64 + core * 16 + b)).owner.isNone).length,
    vFile - gs.foldl (fun n g => n + g.width * g.vAllot * 4) 0, qFile - gs.foldl (fun n g => n + g.width * g.qAllot * 32) 0⟩

/-- What is held for other Caravans: a place with its wants. -/
abbrev Held := List (Seat × Wants)

/-- What is held on a core. -/
def heldOn (h : Held) (quad core : Nat) : Need :=
  h.foldl (fun (n : Need) x =>
    match if x.1.quad = quad && x.1.core ≤ core then x.2.needs[core - x.1.core]? else none with
    | some m => ⟨n.slots + m.slots, n.banks + m.banks, n.v + m.v, n.q + m.q⟩
    | none => n) ⟨0, 0, 0, 0⟩

/-- Rooms held on a quad. -/
def heldRooms (h : Held) (quad : Nat) : Nat := h.foldl (fun n x => if x.1.quad = quad then n + x.2.rooms else n) 0

/-- The shortfall of a place (R357); `empty`: as if the package were empty (R358). -/
def State.shortfall (s : State) (empty : Bool) (h : Held) (w : Wants) (x : Seat) : Nat :=
  let free (c : Nat) : Need := if empty then ⟨32, 16, vFile, qFile⟩ else s.coreFree x.quad c
  let rooms := (if empty then 8 else (s.freeRooms x.quad).length) - heldRooms h x.quad
  w.needs.zipIdx.foldl (fun n p => n + p.1.short ((free (x.core + p.2)).minus (heldOn h x.quad (x.core + p.2)))) 0 + (w.rooms - rooms)

/-- The places that a Caravan may take: consecutive cores of one ready quad (R7, R356, R383). -/
def State.seats (s : State) (w : Wants) : List Seat :=
  ((List.range 32).filter fun q => s.svc.rdymap.getLsbD (64 + q)).flatMap fun q =>
    ((List.range (5 - w.needs.length)).filter fun c => !w.pair || c % 2 = 0).map fun c => ⟨q, c⟩

/-- The groups that a quad holds. -/
def State.quadLoad (s : State) (quad : Nat) : Nat := ((List.range 4).flatMap fun c => s.onCore quad c).length

/-- The place for one Caravan: the quad with the fewest groups among the places that fit, else the least shortfall (R356, R357); `h`:
held for others; `mine`: chosen before for Caravans of the same grid. -/
def State.pickSeat (s : State) (empty : Bool) (h mine : Held) (w : Wants) : Option (Seat × Bool) :=
  let all := s.seats w
  let load (x : Seat) : Nat := (if empty then 0 else s.quadLoad x.quad) +
    (mine.filter fun y => y.1.quad = x.quad).foldl (fun n y => n + y.2.needs.foldl (fun m z => m + z.slots) 0) 0
  match leastBy load (all.filter fun x => s.shortfall empty (mine ++ h) w x = 0) with
  | some x => some (x, true)
  | none => (leastBy (s.shortfall empty (mine ++ h) w) all).map fun x => (x, false)

/-- Places for Caravans one after the other, and whether all of them fit. -/
def State.plan (s : State) (empty : Bool) (h : Held) : List Wants → Held → Option (List Seat × Bool)
  | [], _ => some ([], true)
  | w :: ws, mine =>
    match s.pickSeat empty h mine w with
    | none => none
    | some (x, ok) =>
      match s.plan empty h ws ((x, w) :: mine) with
      | none => none
      | some (xs, oks) => some (x :: xs, ok && oks)

/-- What a Caravan of a launch wants at its first placement. -/
def Launch.wants (l : Launch) : Wants := ⟨l.needs, l.pair, 0⟩

/-- Whether co-scheduling is granted for `n` Caravans: all of them fit an otherwise empty package (R358). -/
def State.cosGranted (s : State) (l : Launch) (n : Nat) : Bool :=
  l.wantsCos && 0 < n && n ≤ 4096 &&
    match s.plan true [] (List.replicate n l.wants) [] with
    | some (_, ok) => ok
    | none => false

end Sys2Proof.Machine
end

