-- ==== Sys2Proof/Machine/Launch.lean ====
section
/-! DEFINITION. Launch records, refusals, `launch`, `evsig` and `evwait`, dependences, grids and completion (R347 to R355, R360 to
R362, R414), and `tlbi` (R123, R375). -/
namespace Sys2Proof.Machine

/-! Translation by the Dispatcher, through the die's TLB (R115, R352) -/

/-- A translation for the Dispatcher of a die. -/
def State.dieLookup (s : State) (die : Nat) (asn : BitVec 12) (va : Word64) (k : AccessKind) : Except TransFault Mapping :=
  if !canonical va || inWindow va then .error ⟨.nomap, 1, 0⟩
  else
    match s.mem.dieTlb.find? fun x => x.1 = die && x.2.hits asn va with
    | some x => s.checked x.2.map false k
    | none =>
      match s.walk asn va with
      | .error f => .error f
      | .ok (m, ft) => s.checked m ft k

/-- Whether the walk for a Dispatcher waits, for a block that moves, a stack that is not ready or a staged piece (R70, R76, R383). -/
def State.dieWalkHeld (s : State) (die : Nat) (asn : BitVec 12) (va : Word64) : Bool :=
  (s.mem.dieTlb.find? fun x => x.1 = die && x.2.hits asn va).isNone && (s.walkLines asn va).any s.hostWaits

/-- Keeps a translation of the Dispatcher in the die's TLB, with the heat of its fill or of its first write (R115, R121). -/
def State.dieNote (s : State) (die : Nat) (asn : BitVec 12) (va : Word64) (m : Mapping) (k : AccessKind) : State :=
  let keep (m1 : Mem) (e : TlbEntry) : State := { s with mem := m1.fillDieTlb die e }
  match s.mem.dieTlb.find? fun x => x.1 = die && x.2.hits asn va with
  | some x => if needsW k && !x.2.written then keep (s.mem.heat x.2.map.entry 62) { x.2 with written := true } else s
  | none =>
    let m0 := ((s.walkLines asn va).filter fun l => isOwn (l * 128)).foldl (fun (m : Mem) l => m.reach l false 0 false) s.mem
    keep (m0.heat m.entry (if needsW k then 62 else 60)) ⟨asn, m, needsW k⟩

/-- The target of an 8-byte word of a completion block or event; none where R348 refuses it with EVENT. -/
def State.eventWord (s : State) (l : Launch) (va : Word64) : Option Target :=
  match s.dieLookup l.die l.asn va .atomic with
  | .error _ => none
  | .ok m =>
    if va.toNat % 8 = 0 && isOwn (m.addr va) && m.coh ≠ .none then some (.mem (m.addr va) m.coh m.grain m.enc m.key) else none

/-- The words of the completion block (R362). -/
def Launch.blockVas (l : Launch) : List Word64 :=
  if l.done = 0 then [] else (List.range (8 + l.groups)).map fun i => l.done + BitVec.ofNat 64 (8 * i)

/-- The dependences in use (R347). -/
def Launch.depsUsed (l : Launch) : List Nat := (List.range 4).filter fun i => l.tgt i ≠ 0

/-! Refusals (R348) -/

/-- Whether a Dispatcher is ready (R382). -/
def State.dispatcherReady (s : State) (die : Nat) : Bool := s.svc.rdymap.getLsbD (128 + die)

/-- FORMAT. -/
def Launch.badFormat (l : Launch) : Bool :=
  recField l.record 188 4 ≠ 1 || recField l.record 185 3 ≠ 0 || (!l.gridPtr && l.grid.toNat / 2 ^ 32 ≠ 0) ||
    recField l.record 128 2 = 3 || l.qregs > 16 || l.hregs > 16 || (if l.pair then l.groups < 2 else l.groups > 32) || l.ncores > 4 ||
    l.nbanks > 16 * l.ncores || (!l.depsUsed.isEmpty && l.done = 0)

/-- ADDRESS. -/
def Launch.badAddress (l : Launch) : Bool :=
  !canonical l.sentry || !canonical l.lbase || l.sentry.toNat % 4 ≠ 0 || l.lbase.toNat % 4 ≠ 0 ||
    !canonical l.done || l.done.toNat % 64 ≠ 0 || (l.gridPtr && (!canonical l.grid || l.grid.toNat % 8 ≠ 0))

/-- FIT. -/
def Launch.noFit (l : Launch) : Bool :=
  (List.range l.ncores).any fun j =>
    32 < l.groupsOn j || vFile < l.groupsOn j * l.width * l.vregs * 4 || qFile < l.groupsOn j * l.width * l.qregs * 32

/-- The refusal code of a launch; 0 where it is accepted (R348). -/
def State.refusal (s : State) (l : Launch) : Nat :=
  if l.badFormat then 1
  else if l.badAddress then 2
  else if s.mem.peek (s.svc.astb.toNat + 32 * l.asn.toNat) 8 % 2 = 0 then 3
  else if l.noFit then 4
  else if l.implicit && (l.groups ≠ 1 || l.wgs ≠ 1 || l.pair) then 5
  else if 512 ≤ (s.disp.launches.filter fun x => x.die = l.die).length || !s.dispatcherReady l.die then 6
  else if l.blockVas.any (fun va => (s.eventWord l va).isNone) || l.depsUsed.any fun i => (s.eventWord l (l.depVa i)).isNone then 7
  else 0

/-! Dependences and readiness (R353 to R355, R360) -/

/-- Changes a launch. -/
def State.onLaunch (s : State) (id : Nat) (f : Launch → Launch) : State :=
  { s with disp := { s.disp with launches := s.disp.launches.map fun l => if l.id = id then f l else l } }

/-- The line of a word comes to its slice for a read of the Dispatcher. -/
def State.reachWord (s : State) : Target → State
  | .bank .. => s
  | .mem pa coh _ enc key =>
    if !isOwn pa || !s.mem.keyServes pa enc key then s
    else
      let m := s.mem.reach (pa / 128) enc key false
      { s with mem := if coh = .dir then m else m.hostAside (pa / 128) }

/-- Whether an access to a word waits at its die (R70, R76, R383). -/
def State.wordWaits (s : State) : Target → Bool
  | .bank .. => false
  | .mem pa .. => s.hostWaits (pa / 128)

/-- Whether an update of the completion block of a launch waits: at its lines, or for translations that a `tlbi` removed and that no walk
gives yet (R123; log 31). -/
def State.blockWaits (s : State) (l : Launch) : Bool := l.stale || l.words.any s.wordWaits

/-- The words of a launch whose translations a `tlbi` removed are translated again (R123; log 31). -/
def State.retranslate (s : State) (id : Nat) : State :=
  match s.launch? id with
  | none => s
  | some l =>
    let vas := l.blockVas ++ l.depsUsed.map l.depVa
    if !l.stale || vas.any (fun va => s.dieWalkHeld l.die l.asn va || (s.eventWord l va).isNone) then s
    else
      let s1 := (vas.take 1 ++ l.depsUsed.map l.depVa).foldl (fun (s : State) va =>
        match s.dieLookup l.die l.asn va .atomic with
        | .ok m => s.dieNote l.die l.asn va m .atomic
        | .error _ => s) s
      s1.onLaunch id fun x => { x with
        stale := false, words := l.blockVas.filterMap (s.eventWord l ·),
        deps := (x.deps.zip (l.depsUsed.map l.depVa)).map fun d => ((s.eventWord l d.2).getD d.1.1, d.1.2) }

/-- A memory-side operation of the Dispatcher on word `k` of a completion block (R75, R362). -/
def State.blockOp (s : State) (l : Launch) (k : Nat) (f : Nat → Nat) : State :=
  match l.words[k]? with
  | none => s
  | some t => (s.indivisible t 8 l.maxStamp fun old => some (f old)).1

/-- Whether the Dispatcher's read of a grid word waits (R70, R76, R383). -/
def State.gridWaits (s : State) (l : Launch) : Bool :=
  l.gridPtr && (s.dieWalkHeld l.die l.asn l.grid ||
    match s.dieLookup l.die l.asn l.grid .load with
    | .ok m => s.hostWaits (m.addr l.grid / 128)
    | .error _ => false)

/-- What the Dispatcher reads at GRID, as a Porter read does (R89, R96, R360): N, or the cause of the fault. -/
def State.readGrid (s : State) (l : Launch) : State × Except Cause Nat :=
  if !l.gridPtr then (s, .ok (l.grid.toNat % 2 ^ 32))
  else
    match s.dieLookup l.die l.asn l.grid .load with
    | .error f => (s, .error f.cause)
    | .ok m =>
      let pa := m.addr l.grid
      let s1 := s.dieNote l.die l.asn l.grid m .load
      if !s1.mem.keyServes pa m.enc m.key then (s1, .error .key)
      else
        let s2 := s1.reachWord (.mem pa m.coh m.grain m.enc m.key)
        if (List.range 8).any fun i => s2.poisoned s2.mem (pa + i) then ({ s2 with mem := s2.notePoison s2.mem pa }, .error .poison)
        else
          match m.coh with
          | .lease =>
            let (m2, c) := s2.mem.renew 0 (pa / 128) l.pts s2.svc.lease
            (({ s2 with mem := m2 } : State).advanceFloor, .ok (leNat (readBytes c.data.get pa 8) % 2 ^ 32))
          | _ => (s2, .ok (s2.mem.peek pa 8 % 2 ^ 32))

/-- A launch whose dependences are met becomes ready: its record is zeroed but for the event word, and its grid is resolved (R354,
R360, R362). -/
def State.becomeReady (s : State) (id : Nat) : State :=
  match s.launch? id with
  | none => s
  | some l =>
    if l.ready || !l.deps.all (·.2.2) || s.blockWaits l || s.gridWaits l then s
    else
      let s1 := ((List.range l.words.length).drop 1).foldl (fun (s : State) k => s.blockOp l k fun _ => 0) s
      let put (s : State) (n st : Nat) : State :=
        s.onLaunch id fun x => { x with ready := true, readyAt := s.now, n := n, status := st, cos := s.cosGranted l n }
      match s1.readGrid l with
      | (s2, .ok n) => put s2 n 0
      | (s2, .error c) => put s2 0 (1 + 256 * c.code.toNat)

/-- Tests a dependence (R353): once met it stays met, and with the last one the launch becomes ready; one without dependences waits for its
block and its grid alone. -/
def State.testDep (s : State) (id i : Nat) : State :=
  let s := s.retranslate id
  match (s.launch? id).bind fun l => l.deps[i]? with
  | none => s.becomeReady id
  | some (t, _, met) =>
    if met then s.becomeReady id
    else if s.wordWaits t || (s.launch? id).any (·.stale) then s
    else
      let s1 := s.reachWord t
      (s1.onLaunch id fun l => s1.metDeps (fun w _ => w = t) l).becomeReady id

/-- DEPENDENCE_MET (R353): not due while the test leaves the launch as it is. -/
def execDependenceMet (l dep : Nat) (s : State) : Out :=
  let t := s.testDep l dep
  .next (if t.launch? l = s.launch? l then s else t)

/-- An accepted launch joins the queue, its dependences tested (R353, R354). -/
def State.accept (s : State) (l : Launch) : State :=
  let id := s.disp.nextLaunch
  let l1 : Launch := { l with id := id, words := l.blockVas.filterMap fun va => s.eventWord l va,
                              deps := l.depsUsed.filterMap fun i => (s.eventWord l (l.depVa i)).map fun t => (t, l.tgt i, false) }
  let s1 := (l.blockVas.take 1 ++ l.depsUsed.map l.depVa).foldl (fun (s : State) va =>
    match s.dieLookup l.die l.asn va .atomic with
    | .ok m => s.dieNote l.die l.asn va m .atomic
    | .error _ => s) s
  let s2 : State := { s1 with disp := { s1.disp with launches := s1.disp.launches ++ [l1], nextLaunch := id + 1 } }
  ((List.range l1.deps.length).foldl (fun (s : State) i => s.testDep id i) s2).becomeReady id

/-- The hand-over of a record to a Dispatcher (R348, R349, R351): the answer's code. -/
def State.handRecord (s : State) (die : Nat) (rec : List Byte) (s2 : Word64) (pts : Stamp) : State × Nat :=
  let l := Launch.of die (BitVec.ofNat 512 (leNat rec)) s2 pts
  let c := s.refusal l
  (if c = 0 then s.accept l else s, c)

/-- Whether what a Dispatcher reads of die memory to judge a record waits there (R70, R76, R383): the descriptor of its address space and
the walks of its words. -/
def State.recordWaits (s : State) (die : Nat) (rec : List Byte) : Bool :=
  let l := Launch.of die (BitVec.ofNat 512 (leNat rec)) 0 0
  !l.badFormat && (s.hostWaits ((s.svc.astb.toNat + 32 * l.asn.toNat) / 128) ||
    (l.blockVas ++ l.depsUsed.map l.depVa).any (s.dieWalkHeld die l.asn))

/-- LAUNCH (R349). -/
def execLaunch (d a : BitVec 6) (s : State) : Out :=
  .next (withRegs [d, a] (outsideRegion fun s =>
    let va := s.sreg a
    if va.toNat % 64 ≠ 0 then s.scalarFault .align {} va
    else if inWindow va then s.scalarFault .nomap {} va
    else
      s.afterWalk va .load <| match s.place s.g va .load with
      | .error f => s.transFault f va
      | .ok _ =>
        s.unwatched va 64 false
          (if !s.fenceReady .pkg then s
           else
            match (s.fence .pkg).porterRead (s.g.coreNo, 1024) va 64 with
            | (s1, .ok bs) =>
              if s.recordWaits s.g.die bs then s
              else
                let r := s1.handRecord s1.g.die bs va s1.g.pts
                (r.1.setS d (BitVec.ofNat 64 r.2)).advance
            | (_, .fault f _) => s.scalarFault f.cause f.info
            | (_, .wait) => s)) s)

/-- HOST_LAUNCH (R351): the west die's Dispatcher, with the adapter's HR; the response carries the tag and the code. -/
def execHostLaunch (rec : List Byte) (tag : BitVec 16) (s : State) : Out :=
  if s.recordWaits 0 (rec.take 64) then .next s else
  let r := s.handRecord 0 (rec.take 64) (0x8000000000000000#64 ||| tag.setWidth 64) s.mem.hr
  .next { r.1 with disp := { r.1.disp with replies := r.1.disp.replies ++ [(tag, r.2)] } }

/-! Events (R350) -/

/-- The word of `evsig` or `evwait` (R350). -/
def State.eventAddr (s : State) (va : Word64) (k : AccessKind) (body : Target → State → State) : State :=
  if va.toNat % 8 = 0 && inWindow va then s.scalarFault .nomap {} va else s.syncAddr va 8 8 k body

/-- EVSIG (R350). -/
def execEvsig (d a b : BitVec 6) (s : State) : Out :=
  .next (withRegs [d, a, b] (outsideRegion fun s =>
    s.eventAddr (s.sreg a) .atomic fun t s =>
      s.afterRelease .rel .sys false
        ((s.releaseIf .rel .sys false).atPointPrecise t 8 (fun old => (old + (s.sreg b).toNat) % 2 ^ 64) fun s old =>
          (s.setS d (BitVec.ofNat 64 old)).advance)) s)

/-- EVWAIT (R350): without a limit. -/
def execEvwait (d a b : BitVec 6) (s : State) : Out :=
  .next (withRegs [d, a, b] (outsideRegion fun s =>
    s.eventAddr (s.sreg a) .load fun t s =>
      s.waitOn t 8 ⟨0, .sys, 0⟩ d false (fun x => (s.sreg b).toNat ≤ x) id) s)

/-! Completion (R361) -/

/-- LAUNCH_COMPLETE (R361): its final fields, then the event as a release of scope sys; the slot is free. -/
def execLaunchComplete (l : Nat) (s : State) : Out :=
  let s := s.retranslate l
  .next (match s.launch? l with
    | none => s
    | some x =>
      if !x.ready || x.retired < x.n || s.blockWaits x then s
      else
        let s1 := (s.blockOp x 1 fun _ => x.status).blockOp x 6 fun _ => x.n
        let s2 : State := if x.words.isEmpty then s1
          else { s1 with mem := ({ s1.mem with rstamp := maxS s1.mem.rstamp x.maxStamp } : Mem).seen x.maxStamp }
        let s3 := s2.blockOp x 0 fun old => (old + 1) % 2 ^ 64
        { s3 with disp := { s3.disp with launches := s3.disp.launches.filter fun y => y.id ≠ l } })

/-! Invalidation (R123, R375) -/

/-- What `tlbi` covers: the address space, the die or the whole package, and a range or everything (R375). -/
structure Cover where
  asn : BitVec 12
  die : Option Nat
  lo : Nat
  /-- Bytes; 0 for the whole address space. -/
  n : Nat
deriving DecidableEq, Repr

/-- The control word of `tlbi` with s[A]; none for a reserved SCOPE (R375). -/
def Cover.of (die : Nat) (va ctl : Word64) : Option Cover :=
  let c : Cover := ⟨ctl.extractLsb' 16 12, none, va.toNat / 65536 * 65536, ctl.toNat % 65536 * 65536⟩
  match (ctl.extractLsb' 28 3).toNat with
  | 3 => some { c with die := some die }
  | 4 => some c
  | _ => none

/-- The 64-bit address that the low 55 bits of a canonical one stand for (R108). -/
def canonicalOf (v : Nat) : Nat := if v < 2 ^ 54 then v else v + 2 ^ 64 - 2 ^ 55

/-- Whether a range of an address space is covered in part. -/
def Cover.meets (c : Cover) (asn : BitVec 12) (va n : Nat) : Bool :=
  asn = c.asn && (c.n = 0 || (canonicalOf va < c.lo + c.n && c.lo < canonicalOf va + n))

/-- Whether a die is in scope. -/
def Cover.onDie (c : Cover) (die : Nat) : Bool := c.die.all (· = die)

/-- A translation register after an invalidation (R117, R123). -/
def TransReg.invalidate (r : TransReg) (c : Cover) (asn : BitVec 12) : TransReg :=
  if r.v && c.meets asn r.vbase.toNat r.limit.toNat then { r with stale := true } else r

/-- The registers of a group and of its enqueued runs after an invalidation (R123, R293). -/
def Group.invalidate (g : Group) (c : Cover) : Group :=
  let regs (v : Vector TransReg 8) : Vector TransReg 8 := v.map fun r => r.invalidate c g.asn
  let run (r : LaneRun) : LaneRun := { r with a := regs r.a }
  if g.state ≠ .retired && g.state ≠ .saved && c.onDie g.die then
    { g with a := regs g.a, runs := g.runs.map run, frame := g.frame.map fun f => { f with runs := f.runs.map run } }
  else g

/-- Removes the translations that are covered and makes the registers stale (R123, conditions 1 and 2); the Dispatchers translate the words
of the address space's launches again (log 31). -/
def State.invalidate (s : State) (c : Cover) : State :=
  let keep (die : Nat) (e : TlbEntry) : Bool := !(c.onDie die && c.meets e.asn e.map.va e.map.size)
  { s with g := s.g.invalidate c, others := s.others.map fun g => g.invalidate c,
           disp := { s.disp with launches := s.disp.launches.map fun l =>
             { l with stale := l.stale || (c.onDie l.die && l.record.extractLsb' 152 12 = c.asn) } },
           mem := { s.mem with coreTlb := s.mem.coreTlb.filter fun x => keep (x.1 / 64) x.2,
                               dieTlb := s.mem.dieTlb.filter fun x => keep x.1 x.2 } }

/-- Whether a `plodge` holds what the translation of its source gave it at issue, on a range that is covered (R123, condition 4; R140). -/
def State.plodgePending (s : State) (c : Cover) : Bool :=
  s.porters.any fun p => p.kind = 4 && p.row < p.rows && !inWindow p.src &&
    (s.group p.tag).any fun g => c.onDie g.die && c.meets g.asn (p.src.toNat % 2 ^ 55) 262144

/-- Whether an access of the address space that has been translated is still to be performed (R123, condition 3). -/
def State.translatedPending (s : State) (c : Cover) : Bool :=
  s.groups.any fun g => g.asn = c.asn && c.onDie g.die &&
    (g.sb.any (fun e => !e.performed && !e.toBank) || s.regions.any fun r => r.owner = g.tag && !r.bytes.isEmpty)

/-- The launches whose translations have gone are translated again, as far as the tables give them, so that no write to a dependence's word
goes untested (R353). -/
def State.retranslateAll (s : State) : State := (s.disp.launches.map (·.id)).foldl State.retranslate s

/-- The NONE lines of the cores in scope are written back to the homes that their translations named and discarded (R102, R123, condition
3). -/
def State.settleNones (s : State) (c : Cover) : State :=
  (((s.mem.nones.map (·.core)).eraseDups).filter fun k => c.onDie (k / 64)).foldl State.discardNones s

/-- TLBI (R123, R375). -/
def execTlbi (d a b : BitVec 6) (s : State) : Out :=
  .next (withControl [b] (fun s => (Cover.of s.g.die 0 (s.sreg b)).isNone)
    (privileged (withRegs [d, a, b] (outsideRegion fun s =>
      match Cover.of s.g.die (s.sreg a) (s.sreg b) with
      | none => s
      | some c =>
        let s1 := (s.invalidate c).retranslateAll
        if s1.translatedPending c || s1.plodgePending c then s1.stall else ((s1.settleNones c).setS d 0).advance))) s)

end Sys2Proof.Machine
end

