-- ==== Sys2Proof/Machine/Place.lean ====
section
/-! DEFINITION. Placement of Caravans, group start, re-runs and retirement (R126, R130, R131, R286 to R288, R302, R303, R356 to R359). -/
namespace Sys2Proof.Machine

/-! The order of placement (R357) -/

/-- A Caravan, or a whole co-scheduled grid, that waits for a place: the Caravans where they have been placed before, their launch, and
what each of them wants. -/
structure Cand where
  caravans : List Nat
  launch : Launch
  wants : List Wants
deriving DecidableEq, Repr

/-- Whether a Caravan's image may be restored (R369, R376, R379). -/
def Caravan.restorable (c : Caravan) : Bool := c.st = .saved && c.saved && !c.halt && !c.hold

/-- Caravans that wait after a pre-emption or for a re-run, of one Dispatcher: those of a co-scheduled launch together (R291, R303, R357). -/
def State.again (s : State) (die : Nat) : List Cand :=
  s.disp.caravans.filterMap fun c =>
    match s.launch? c.launch with
    | none => none
    | some l =>
      if l.die ≠ die then none
      else
        let w (c : Caravan) : Wants := { l.wants with rooms := c.rooms.length }
        let back (c : Caravan) : Bool := c.st = .queued || c.restorable
        if !l.cos then if back c then some ⟨[c.id], l, [w c]⟩ else none
        else
          let all := s.disp.caravans.filter fun x => x.launch = l.id
          let unit := all.filter fun x => x.st ≠ .resident
          if unit.head?.map (·.id) = some c.id && unit.all back && !all.any fun x => x.st = .resident && (x.preempt || x.rerun) then
            some ⟨unit.map (·.id), l, unit.map w⟩ else none

/-- Whether ready launch `x` comes before `y` (R354). -/
def Launch.before (x y : Launch) : Bool :=
  x.prio > y.prio || (x.prio = y.prio && (x.readyAt < y.readyAt || (x.readyAt = y.readyAt && x.id < y.id)))

/-- Insertion in ready order. -/
def Launch.insert (x : Launch) : List Launch → List Launch
  | [] => [x]
  | y :: ys => if x.before y then x :: y :: ys else y :: Launch.insert x ys

/-- The unplaced Caravans of ready launches in ready order, the next of each launch (R357). -/
def State.fresh (s : State) (die : Nat) : List Cand :=
  let ls := s.disp.launches.filter fun l => l.die = die && l.ready && l.placed < l.n
  (ls.foldr Launch.insert []).map fun l => ⟨[], l, List.replicate (if l.cos then l.n else 1) l.wants⟩

/-- The placement order of a Dispatcher. -/
def State.order (s : State) (die : Nat) : List Cand := s.again die ++ s.fresh die

/-- Whether a reservation is for a candidate. -/
def Reservation.isFor (r : Reservation) (c : Cand) : Bool := r.launch = c.launch.id && r.caravan = c.caravans.head?

/-- What the reservations of the Dispatchers hold, one candidate's own apart (R357). -/
def State.held (s : State) (c : Cand) : Held :=
  s.disp.reserved.toList.flatMap fun r =>
    match r with
    | none => []
    | some r =>
      if r.isFor c then []
      else
        match s.launch? r.launch with
        | none => []
        | some l =>
          let rooms := ((r.caravan.bind s.caravan).map fun v => v.rooms.length).getD 0
          r.seats.map fun x => (x, { l.wants with rooms := rooms })

/-- Whether the context pool has room for the images of `n` Caravans of a launch (R378); an image that exists keeps its own. -/
def State.poolRoom (s : State) (c : Cand) : Bool :=
  !c.caravans.isEmpty || s.disp.poolUsed + c.wants.length * (Config.imageBytes c.launch.record).toNat ≤ s.svc.ctxpool.toNat % 2 ^ 16 * 2 ^ 30

/-- The places of a candidate where it fits whole. -/
def State.fits (s : State) (c : Cand) : Option (List Seat) :=
  match s.plan false (s.held c) c.wants [] with
  | some (xs, true) => if s.poolRoom c then some xs else none
  | _ => none

/-- Since when a candidate has been the head. -/
def State.headSince (s : State) (c : Cand) : Option Nat :=
  match c.caravans.head? with
  | some v => (s.caravan v).bind (·.headSince)
  | none => c.launch.headSince

/-- Whether a head has waited 4,096 cycles, as HEAD_WAIT_LIMIT marks it too (R357). -/
def State.headAged (s : State) (c : Cand) : Bool :=
  (s.headSince c).any (fun n => n + 4096 ≤ s.now) || match c.caravans.head? with
  | some v => ((s.caravan v).map (·.aged)).getD false
  | none => c.launch.aged

/-- Sets how long a candidate has been the head. -/
def State.setHead (s : State) (c : Cand) (since : Option Nat) (aged : Bool) : State :=
  match c.caravans.head? with
  | some v => s.onCaravan v fun x => { x with headSince := since, aged := aged }
  | none => s.onLaunch c.launch.id fun x => { x with headSince := since, aged := aged }

/-- The candidate that a Dispatcher may place now, with its places: the head, or a later one while the head does not fit (R357). -/
def State.nextPlace (s : State) (die : Nat) : Option (Cand × List Seat) :=
  match s.order die with
  | [] => none
  | h :: rest =>
    match s.fits h with
    | some xs => some (h, xs)
    | none =>
      rest.findSome? fun c =>
        if s.headAged h && c.launch.prio ≤ h.launch.prio then none else (s.fits c).map fun xs => (c, xs)

/-! The start of a group (R288, R302, R359) -/

/-- The base lane for a group of a width on a core (R288): the half or quarter that the fewest resident groups overlap. -/
def State.laneBase (s : State) (quad core width : Nat) : Nat :=
  let gs := (s.onCore quad core).filter fun g => g.state = .resident
  let load (b : Nat) : Nat := (gs.filter fun g => g.laneBase < b + width && b < g.laneBase + g.width).length
  (leastBy load ((List.range (64 / width)).map fun i => i * width)).getD 0

/-- The lowest free group slot of a core. -/
def State.freeSlot (s : State) (quad core : Nat) : Nat :=
  let gs := s.onCore quad core
  ((List.range 32).find? fun i => !gs.any fun g => g.slot = i).getD 0

/-- The initial value of s register `r` of the group at index `gi` of workgroup `w` of a Caravan (R359). -/
def Launch.sInit (l : Launch) (c : Caravan) (w gi : Nat) (r : Nat) : Word64 :=
  match r with
  | 0 => BitVec.ofNat 64 c.num
  | 1 => c.mask
  | 2 => l.s2
  | 3 => BitVec.ofNat 64 (c.num * l.wgs + w)
  | 4 => BitVec.ofNat 64 (w * 64 + gi)
  | _ => 0

/-- A group at its start (R359): `occ` the occasion of its unspecified values, `gstat` what a re-run keeps. -/
def Launch.startGroup (l : Launch) (c : Caravan) (w gi core slot base tag occ : Nat) (pts : Stamp) (gstat : BitVec 32) : Group :=
  { Group.absent with
    present := true, tag := tag, state := .resident, die := c.quad / 16, quad := c.quad % 16, core := core, slot := slot,
    laneBase := base, width := l.width, sAllot := l.sregs, vAllot := l.vregs, qAllot := l.qregs, hAllot := l.hregs, prio := l.prio,
    asn := l.asn, launch := l.id, caravan := c.id, wg := c.num * l.wgs + w, gidx := gi, implicit := l.implicit,
    s := Vector.ofFn fun r : Fin 64 => if r.val < l.sregs then l.sInit c w gi r else Config.freeWord occ r,
    v := Vector.ofFn fun r : Fin 256 => Vector.ofFn fun i : Fin 64 => (Config.freeWord occ (64 + r * 64 + i)).setWidth 32,
    q := Vector.ofFn fun r : Fin 16 => Vector.ofFn fun i : Fin 64 => Vector.ofFn fun x : Fin 8 =>
      (Config.freeWord occ (32768 + r * 512 + i * 8 + x)).setWidth 32,
    n := Vector.ofFn fun r : Fin 16 => (Config.freeWord occ (65536 + r)).setWidth 32,
    p := Vector.ofFn fun r : Fin 8 => Config.freeWord occ (65552 + r) &&& Mask.low l.width,
    x := Vector.ofFn fun r : Fin 4 => (Config.freeWord occ (65560 + r)).setWidth 8,
    spc := l.sentry, sentry := l.sentry, lbase := l.lbase, pts := pts, lct := pts,
    gstat := gstat ||| BitVec.ofNat 32 ((if l.implicit then 128 else 0) + (if l.cos then 64 else 0) + if l.pair then 32 else 0) }

/-- The core of a group in its Caravan (R356). -/
def Launch.coreOf (l : Launch) (w gi : Nat) : Nat :=
  if l.pair then 2 * w + if gi < (l.groups + 1) / 2 then 0 else 1 else w

/-- Starts one group of a placed Caravan; a re-run group keeps its owner tag and GSTAT (R303, R359). The start is an acquire, which
discards its core's NONE lines (R152, R355). -/
def State.startOne (s : State) (l : Launch) (c : Caravan) (w gi : Nat) : State :=
  let core := c.core + l.coreOf w gi
  let old := s.groups.find? fun g => g.caravan = c.id && g.wg = c.num * l.wgs + w && g.gidx = gi && g.state = .waiting
  let tag := (old.map (·.tag)).getD s.disp.nextTag
  let gstat := (old.map (·.gstat)).getD 0
  let g := l.startGroup c w gi core (s.freeSlot c.quad core) (s.laneBase c.quad core l.width) tag s.freeCtr (maxS l.pts s.svc.tfloor) gstat
  let g1 : Group := { g with lastSlot := 1, scalarSince := s.now, readySince := s.now, tickBase := s.now / 1024, seen := s.mem.scratch }
  ({ s with g := if s.g.hasTag tag then Group.absent else s.g, others := (s.others.filter fun x => !x.hasTag tag) ++ [g1], freeCtr := s.freeCtr + 1,
            disp := { s.disp with nextTag := if old.isSome then s.disp.nextTag else s.disp.nextTag + 1 } } : State).discardNones g1.coreNo

/-! Banks (R126, R128) -/

/-- The banks that a core gives: its lowest-numbered ones that are not allotted. -/
def State.freeBanks (s : State) (quad core n : Nat) : List Nat :=
  (((List.range 16).map fun b => quad * 64 + core * 16 + b).filter fun b => (s.bank b).owner.isNone).take n

/-- The banks of a Caravan at a place. -/
def State.banksFor (s : State) (l : Launch) (x : Seat) : List Nat :=
  (List.range l.ncores).flatMap fun j => s.freeBanks x.quad (x.core + j) (bankShare l.nbanks l.ncores j)

/-- A bank leaves CACHE mode for its Caravan, zeroed (R126, R128). -/
def State.allotBank (s : State) (cv : Nat) (b : Nat) : State :=
  let s1 := (s.setBank { s.bank b with mode := .scratch, owner := some cv, slotExp := 0, fill := 0, head := 0, tail := 0 }).emptyCache (b / 64)
    (b / 16 % 4)
  (s1.unfit (b / 64) (b / 16 % 4)).clearBank b

/-- The bank mask of a list of physical banks (R126). -/
def bankMask (bs : List Nat) : BitVec 64 := bs.foldl (fun m b => m ||| BitVec.ofNat 64 (2 ^ (b % 64))) 0

/-! Placing (R126, R131, R356, R359) -/

/-- Where the image of a Caravan of a launch is reserved in the context pool: its lowest place that no other image takes (R378; log 33). -/
def State.imagePlace (s : State) (l : Launch) : Nat :=
  let size (l : Launch) : Nat := (Config.imageBytes l.record).toNat
  let taken := s.disp.caravans.filterMap fun c => (s.launch? c.launch).map fun x => (c.image, size x)
  let base := s.svc.ctxpool.toNat % 2 ^ 52 / 2 ^ 16 * 2 ^ 16
  ((base :: taken.map fun t => t.1 + t.2).find? fun a => taken.all fun t => a + size l ≤ t.1 || t.1 + t.2 ≤ a).getD base

/-- Places one Caravan of a launch: a new one, or one that is run again. -/
def State.placeOne (s : State) (l : Launch) (again : Option Nat) (x : Seat) : State :=
  let id := again.getD s.disp.nextCaravan
  let num := ((again.bind s.caravan).map (·.num)).getD (((s.launch? l.id).map (·.placed)).getD 0)
  let bs := s.banksFor l x
  let c : Caravan :=
    { id := id, launch := l.id, num := num, st := .resident, quad := x.quad, core := x.core, mask := bankMask bs,
      bankMap := bs.map fun b => (b % 64, b), halt := false, hold := false, preempt := false, saved := false, banks := [], bankData := [],
      rooms := [], porters := [], rerun := false, wgRetired := [], headSince := none, aged := false,
      image := ((again.bind s.caravan).map (·.image)).getD (s.imagePlace l) }
  let s1 := bs.foldl (fun (s : State) b => s.allotBank id b) s
  let d := s1.disp
  let s2 : State := { s1 with disp := { d with
    caravans := (d.caravans.filter fun v => v.id ≠ id) ++ [c],
    nextCaravan := if again.isSome then d.nextCaravan else d.nextCaravan + 1,
    poolUsed := if again.isSome then d.poolUsed else d.poolUsed + (Config.imageBytes l.record).toNat } }
  let s3 := if again.isSome then s2 else s2.onLaunch l.id fun y => { y with placed := y.placed + 1, headSince := none, aged := false }
  (List.range l.wgs).foldl (fun s w => (List.range l.groups).foldl (fun (s : State) gi => s.startOne l c w gi) s) s3

/-- The reservations without those of a candidate. -/
def State.unreserve (s : State) (c : Cand) : State :=
  { s with disp := { s.disp with reserved := s.disp.reserved.map fun r => r.filter fun x => !x.isFor c } }

/-- The reservation of a Dispatcher that is not for its head is released (R357). -/
def State.displace (s : State) (die : Nat) : State :=
  match s.disp.reserved[die]?.join with
  | none => s
  | some r =>
    if (s.order die).head?.any fun h => r.isFor h then s
    else { s with disp := { s.disp with reserved := s.disp.reserved.setIfInBounds die none } }

/-- Reserves the least short place for a head that does not fit (R357). -/
def State.reserve (s : State) (die : Nat) (c : Cand) : State :=
  if (s.disp.reserved[die]?.join).any fun r => r.isFor c then s
  else
    let seats := ((s.plan false (s.held c) c.wants []).map (·.1)).getD []
    let s1 := s.setHead c (some ((s.headSince c).getD s.now)) (s.headAged c)
    { s1 with disp := { s1.disp with reserved := s1.disp.reserved.setIfInBounds die (some ⟨c.caravans.head?, c.launch.id, seats⟩) } }

/-- Whether a checkpoint runs, which keeps every Caravan from being placed (R392). -/
def State.checkpointing (s : State) : Bool := s.svc.ckptctl.getLsbD 63

/-- CARAVAN_PLACE (R356 to R359): the head is reserved for where it does not fit; what may be placed now is placed whole. A Caravan
whose image is restored is placed by CARAVAN_RESTORE. -/
def execCaravanPlace (die : Nat) (s : State) : Out :=
  .next (if !s.dispatcherReady die || s.checkpointing then s
    else
      let s1 := s.displace die
      let s2 := match s1.order die with
        | h :: _ => if (s1.fits h).isNone then s1.reserve die h else s1
        | [] => s1
      match s2.nextPlace die with
      | none => s2
      | some (c, xs) =>
        if c.caravans.any fun v => (s2.caravan v).any fun y => y.st = .saved then s2
        else if c.caravans.isEmpty then xs.foldl (fun (s : State) x => s.placeOne c.launch none x) (s2.unreserve c)
        else (c.caravans.zip xs).foldl (fun (s : State) y => s.placeOne c.launch (some y.1) y.2) (s2.unreserve c))

/-- HEAD_WAIT_LIMIT (R357): the head has waited 4,096 cycles. -/
def execHeadWaitLimit (die : Nat) (s : State) : Out :=
  .next (match s.order die with
    | h :: _ => if (s.headSince h).any (fun n => n + 4096 ≤ s.now) then s.setHead h (s.headSince h) true else s
    | [] => s)

/-! Retirement (R130, R287, R303, R362) -/

/-- Frees the banks of a Caravan (R130). -/
def State.releaseBanks (s : State) (cv : Nat) : State :=
  let mine := s.banks.filter fun b => b.owner = some cv
  let s1 := mine.foldl (fun (s : State) b => s.clearBank b.num) s
  { s1 with banks := s1.banks.filter fun b => b.owner ≠ some cv }

/-- Takes groups off the machine whose Room work is done. -/
def State.forget (s : State) (cv : Nat) : State :=
  let gone (g : Group) : Bool := g.caravan = cv && g.state = .retired && g.work.isEmpty
  { s with g := if s.g.present && gone s.g then Group.absent else s.g, others := s.others.filter fun g => !gone g }

/-- A Caravan retires with its last workgroup (R130, R287). -/
def State.retireCaravan (s : State) (c : Caravan) (l : Launch) : State :=
  let s1 := (s.releaseBanks c.id).endRequest c.id
  let s2 : State := { s1 with disp := { s1.disp with
    caravans := s1.disp.caravans.filter fun x => x.id ≠ c.id,
    poolUsed := s1.disp.poolUsed - (Config.imageBytes l.record).toNat } }
  (s2.onLaunch l.id fun x => { x with retired := x.retired + 1 }).forget c.id

/-- A workgroup retires: its completion record is updated (R287, R303, R362). -/
def State.retireWg (s : State) (c : Caravan) (l : Launch) (wg : Nat) : State :=
  let gs := s.groups.filter fun g => g.caravan = c.id && g.wg = wg
  let jl := gs.foldl (fun n g => if g.gstat.getLsbD 0 then n ||| 2 ^ g.gidx else n) 0
  let fm := gs.any fun g => g.fmask ≠ 0
  let cause := gs.foldl (fun n g => if g.implicit && g.rgst.toNat % 16 ≠ 0 then g.rgst.toNat % 16 else n) 0
  let s1 := s.blockOp l 2 fun old => (old + 1) % 2 ^ 64
  let s2 := if jl = 0 then s1 else s1.blockOp l 3 fun old => old ||| jl
  let s3 := if fm then s2.blockOp l 4 fun old => (old + 1) % 2 ^ 64 else s2
  let s4 := if cause = 3 || cause = 4 || cause = 6 then s3.blockOp l 5 fun old => (old + 1) % 2 ^ 32 + cause * 2 ^ 32 else s3
  let s5 := gs.foldl (fun (s : State) g => if g.fmask = 0 then s else s.blockOp l (8 + g.gidx) fun old => old ||| g.fmask.toNat) s4
  s5.onCaravan c.id fun x => { x with wgRetired := wg :: x.wgRetired }

/-- Whether the group in focus may retire (R287). -/
def State.mayRetire (s : State) : Bool :=
  s.g.state = .retiring && !s.g.hmode && !s.g.halted && !s.g.paused && s.g.stopped.isNone && s.g.pending.isEmpty && s.g.runsOver &&
    s.g.uac = 0 && s.g.sb.isEmpty && !(s.porters.any fun c => c.tag = s.g.tag) &&
    !((s.caravan s.g.caravan).any fun c => c.rerun)

/-- The retirement of the group in focus, its workgroup and its Caravan (R130, R287). Its core's NONE lines are written back, since the
launch's completion releases them (R153, R361). -/
def State.retire (s : State) : State :=
  let g := s.g
  let s0 := s.discardNones g.coreNo
  let s1 := (s0.setG fun g => { g with state := .retired, wait := none }).onLaunch g.launch fun l =>
    { l with maxStamp := maxS l.maxStamp (maxS g.pts g.lct) }
  match s1.caravan g.caravan, s1.launch? g.launch with
  | some c, some l =>
    if s1.groups.any fun h => h.caravan = g.caravan && h.wg = g.wg && h.state ≠ .retired then s1
    else
      let s2 := s1.retireWg c l g.wg
      if (c.wgRetired.length + 1) < l.wgs then s2 else s2.retireCaravan c l
  | _, _ => s1

/-- GROUP_RETIRE (R287, R302): an implicit region ends and commits first, as a release of scope pkg (R337). -/
def execGroupRetire (t : Nat) (s : State) : Out :=
  .next (s.forGroup t fun s =>
    let s := s.retranslate s.g.launch
    if !s.mayRetire || (s.launch? s.g.launch).any s.blockWaits || s.region.any s.commitWaits then s
    else
      match s.region with
      | none => s.retire
      | some r =>
        let s1 := s.setRegion { r with st := .ended }
        if s1.mayCommit { r with st := .ended } then ((s1.fence .pkg).commitRegion { r with st := .ended }).retire else s1)

/-- GSTAT of a group that is run again: RCNT one higher, saturating (R300, R303). -/
def rerunStat (x : BitVec 32) : BitVec 32 :=
  if x.toNat / 2 ^ 24 = 255 then x else x + 0x1000000#32

/-- IMPLICIT_RERUN (R286, R303): the group gives up everything and waits for its Caravan to be placed again. -/
def execImplicitRerun (t : Nat) (s : State) : Out :=
  .next (s.forGroup t fun s =>
    match s.caravan s.g.caravan with
    | none => s
    | some c =>
      if !c.rerun || !(s.g.state = .resident || s.g.state = .retiring) || s.g.hmode then s
      else
        let g : Group := { Group.absent with
          present := true, tag := s.g.tag, state := .waiting, die := s.g.die, quad := s.g.quad, core := s.g.core, asn := s.g.asn,
          launch := s.g.launch, caravan := s.g.caravan, wg := s.g.wg, gidx := s.g.gidx, implicit := true, gstat := rerunStat s.g.gstat }
        let s1 := (s.abandon.releaseBanks c.id).setG fun _ => g
        let s2 : State := { s1 with g := Group.absent, others := g :: s1.others }
        (s2.endRequest c.id).onCaravan c.id fun x => { x with st := .queued, rerun := false, preempt := false, bankMap := [], headSince := none, aged := false })

end Sys2Proof.Machine
end

