-- ==== Sys2Proof/Machine/Preempt.lean ====
section
/-! DEFINITION. Fault entry, pre-emption, context images and restoration (R159, R265, R266, R269, R367 to R369, R376 to R380). -/
namespace Sys2Proof.Machine

/-! Fault entry (R367 to R369) -/

/-- PRECISE_FAULT_ENTRY (R367): a precise cause that waited for the drain is taken. -/
def execPreciseFaultEntry (t : Nat) (s : State) : Out :=
  .next (s.forGroup t fun s =>
    if s.g.inflight.isEmpty && !s.g.paused && !s.g.halted && s.g.state ≠ .saved then s.takeStopped else s)

/-- What a group knows of deferred causes (R367, R369). -/
def State.causes (s : State) : List FaultRecord × Bool × Bool × Bool := (s.g.pending, s.g.lost, s.g.halted, s.region.isSome)

/-- DEFERRED_CAUSE_ARRIVAL (R169, R367, R369): entry `e` of the store buffer of a group is performed and finds its cause, which is the
handler's own where its instruction was issued there; nothing comes from one that finds none. -/
def execDeferredCauseArrival (t e : Nat) (own : Bool) (s : State) : Out :=
  .next (s.forGroup t fun s =>
    let s1 := s.performEntry e
    if s1.causes = s.causes || !s.g.sb.any fun x => x.id = e && x.inHandler = own then s else s1)

/-- DEFERRED_FAULT_ENTRY (R367). -/
def execDeferredFaultEntry (t : Nat) (s : State) : Out :=
  .next (s.forGroup t fun s => if s.g.takesDeferred then s.takeDeferred else s)

/-! Requests (R376) -/

/-- Whether a value of PREQ targets a Caravan, by ASN or by quad. -/
def State.targets (s : State) (v : Word64) (c : Caravan) : Bool :=
  if v.getLsbD 60 then c.quad = v.toNat % 32
  else (s.launch? c.launch).any fun l => l.asn = v.extractLsb' 16 12

/-- The fields of PREQ that keep what is written, GO apart. -/
def preqMask : Word64 := 0x700000000FFF001F#64

/-- The Caravans that go with those that `hit` names: a co-scheduled launch is one unit (R291). -/
def State.withUnit (s : State) (hit : Caravan → Bool) (c : Caravan) : Bool :=
  hit c || (((s.launch? c.launch).map (·.cos)).getD false && s.disp.caravans.any fun x => x.launch = c.launch && hit x)

/-- A request through a Dispatcher (R376). -/
def State.requestPreempt (s : State) (die : Nat) (v : Word64) : State :=
  let named := (s.disp.caravans.filter fun c => c.st = .resident && s.withUnit (fun x => x.st = .resident && s.targets v x) c).map (·.id)
  let s1 := s.markPreempt (s.targets v) (v.getLsbD 61)
  { s1 with disp := { s1.disp with preqRun := s1.disp.preqRun.setIfInBounds die (named ++ s1.disp.preqRun[die]?.getD []) } }

/-- Lets the held and halted images of a target be restored (R369, R376). -/
def State.releaseImages (s : State) (v : Word64) : State :=
  { s with disp := { s.disp with caravans := s.disp.caravans.map fun c =>
      if c.st = .saved && s.withUnit (s.targets v) c then { c with hold := false, halt := false } else c } }

/-- A write of PREQ (R376). -/
def State.writePreq (s : State) (die : Nat) (v : Word64) : State :=
  let s1 : State := { s with disp := { s.disp with preq := s.disp.preq.setIfInBounds die (v &&& preqMask) } }
  if v.getLsbD 63 then s1.requestPreempt die v else if v.getLsbD 62 then s1.releaseImages v else s1

/-- PREEMPT_REQUEST (R376). -/
def execPreemptRequest (die : Nat) (val : Word64) (s : State) : Out := .next (s.writePreq die (val ||| 0x8000000000000000#64))

/-- PREEMPT_RELEASE (R376). -/
def execPreemptRelease (die : Nat) (val : Word64) (s : State) : Out :=
  .next (s.writePreq die ((val &&& 0x7FFFFFFFFFFFFFFF#64) ||| 0x4000000000000000#64))

/-! The halt (R377) -/

/-- The groups of a Caravan that have not retired. -/
def State.members (s : State) (cv : Nat) : List Group := s.groups.filter fun g => g.caravan = cv && g.state ≠ .retired

/-- Whether a Caravan stands halted. -/
def State.standing (s : State) (cv : Nat) : Bool := (s.members cv).all (·.paused)

/-- PREQ as it reads: GO is 1 while a group that a request targets, or that goes with its launch, is not halted (R291, R376). -/
def State.preqRead (s : State) (die : Nat) : Word64 :=
  let v := s.disp.preq[die]?.getD 0
  let run := s.disp.preqRun[die]?.getD []
  if s.disp.caravans.any fun c => run.contains c.id && c.st = .resident && !s.standing c.id then v ||| 0x8000000000000000#64 else v

/-- Whether an instruction in flight counts as issued at a pre-emption: it has sent an access that changes memory (R377). -/
def InFlight.settles (f : InFlight) : Bool :=
  f.dst.isSome || f.pred.isSome || (f.commit.v.isEmpty && f.commit.q.isEmpty && f.commit.n.isNone && f.commit.p.isNone)

/-- An instruction in flight is abandoned as if it had not issued; it executes again alone (R368, R377). -/
def Group.abandonLong (g : Group) (f : InFlight) : Group :=
  let g1 : Group := { g with inflight := g.inflight.filter fun x => x.id ≠ f.id }
  let g2 := if f.holds then g1.leaveEntry f.place else g1
  { g2 with redo := g2.redo ++ [{ f.place with redo := !f.holds }] }

/-- Settles the long-latency instructions of the group in focus (R377). -/
def State.settleLong (s : State) : State :=
  s.g.inflight.foldl (fun (s : State) f =>
    if f.settles then s.finishLong f.id else s.setG fun g => g.abandonLong f) s

/-- Cancelled operations stand at the head of their queue as they were issued (R269). -/
def Group.cancelWork (g : Group) : Group :=
  { g with work := g.work.map fun i => if i.isMma then { i with stage := .queued, headSince := none, aged := false } else i }

/-- Halts the group in focus at its boundary (R343, R377). -/
def State.haltGroup (s : State) : State :=
  let s1 := match s.region with
    | some r => s.abortRegion r .preempt 0 0 false true
    | none => s
  let s2 := s1.settleLong.abandon
  let drop (x : Option (Nat × Nat)) : Option (Nat × Nat) := x.filter fun y => y.1 ≠ s2.g.tag
  let s3 : State := { s2 with halls := s2.halls.map fun h =>
    { h with shadow := drop h.shadow, stream := drop h.stream, ended := h.ended.filter fun y => y.1 ≠ s2.g.tag } }
  s3.setG fun g => { g.cancelWork with paused := true, wait := (g.wait.filter (·.arrived)).map Wait.afresh, regroupAt := none, iss := none,
                                        late := [] }

/-- Whether a Caravan is to be pre-empted (R376). -/
def Caravan.toPreempt (c : Caravan) : Bool := c.st = .resident && c.preempt

/-- REGION_ABORT (R343): an abort comes only with its cause. The access, instruction, fault or source that is one of the others aborts
the region itself; what is left to this event is the abort of a live region whose group is being pre-empted. -/
def execRegionAbort (t : Nat) (c : AbortCause) (s : State) : Out :=
  .next (match (s.group t).bind fun g => s.caravan g.caravan, s.regionOf t with
    | some v, some r => if c = .preempt && v.toPreempt then s.abortRegion r .preempt 0 0 false true else s
    | _, _ => s)

/-- Whether an operation of a group is let finish before the halt (R269). -/
def State.finishing (s : State) (g : Group) : Bool := g.work.any fun i => s.nearEnd g i && (g.before i.id).all (s.nearEnd g)

/-- Whether an entry keeps its group from halting: a write to a bank that is on its way, or a drain whose Room has been read. -/
def SbEntry.underWay (e : SbEntry) : Bool :=
  !e.performed &&
    match e.op with
    | .store bs => bs.any fun x => x.1.bankByte
    | .op _ (.drain ready _ _ _) => ready
    | .op t _ => t.bankByte

/-- Whether the groups of a Caravan may halt now: nothing of theirs is on its way to a bank or staged, and no operation is let finish
(R269). -/
def State.mayHalt (s : State) (cv : Nat) : Bool :=
  (s.members cv).all fun g => !g.sb.any SbEntry.underWay && !s.finishing g && !s.mem.staged.any fun x => x.tag = g.tag

/-- PREEMPT_HALT (R377): every group of a Caravan halts; one whose implicit region aborts is run again (R303). -/
def execPreemptHalt (cv : Nat) (s : State) : Out :=
  .next (match s.caravan cv with
    | none => s
    | some c =>
      if !c.toPreempt || !s.mayHalt cv then s
      else ((s.members cv).filter fun g => !g.paused).foldl (fun (s : State) g => s.forGroup g.tag fun s =>
        let s1 := s.haltGroup
        if (s1.caravan cv).any (·.rerun) && !s1.g.hmode then s1.setG fun g => { g with paused := false } else s1) s)

/-! The image (R265, R379) -/

/-- Renames the banks of a target. -/
def Target.rebank (f : Nat → Nat) : Target → Target
  | .bank b o => .bank (f b) o
  | t => t

/-- Renames the banks of a store-buffer entry. -/
def SbEntry.rebank (f : Nat → Nat) (e : SbEntry) : SbEntry :=
  match e.op with
  | .store bs => { e with op := .store (bs.map fun x => (x.1.rebank f, x.2)) }
  | .op t (.drain r a ty es) => { e with op := .op (t.rebank f) (.drain r a ty (es.map fun x => (x.1.rebank f, x.2))) }
  | .op t o => { e with op := .op (t.rebank f) o }

/-- What a list of pairs makes of a number; itself where it is not listed. -/
def renamed (l : List (Nat × Nat)) (n : Nat) : Nat := ((l.find? fun x => x.1 = n).map (·.2)).getD n

/-- Changes the groups of a Caravan. -/
def State.onMembers (s : State) (cv : Nat) (f : Group → Group) : State :=
  let h (g : Group) : Group := if g.present && g.caravan = cv && g.state ≠ .retired then f g else g
  { s with g := h s.g, others := s.others.map h }

/-- The header of an image (R379). -/
def State.imageHeader (s : State) (c : Caravan) (l : Launch) : List Byte :=
  let flags := (if c.halt || (s.members c.id).any (·.halted) then 1 else 0) + (if c.hold then 2 else 0) + if l.cos then 4 else 0
  leBytes 4 0x43494D47 ++ leBytes 2 1 ++ leBytes 2 (l.wgs * l.groups) ++ leBytes 4 (Config.imageBytes l.record).toNat ++ leBytes 4 flags ++
    leBytes 8 l.s2.toNat ++ leBytes 8 c.mask.toNat ++ (List.range 4).flatMap fun i => leBytes 8 (Config.imageOffset l.record i).toNat

/-- Writes the header of an image to the pool. -/
def State.writeHeader (s : State) (c : Caravan) : State :=
  match s.launch? c.launch with
  | some l => if isOwn c.image && isOwn (c.image + 63) then s.physWrite c.image (s.imageHeader c l) else s
  | none => s

/-- Whether the lines of an image's header wait (R70, R76, R383). -/
def State.headerHeld (s : State) (c : Caravan) : Bool := s.hostWaits (c.image / 128) || s.hostWaits ((c.image + 63) / 128)

/-- Whether an image has another version than 1 (R379). -/
def State.badVersion (s : State) (c : Caravan) : Bool :=
  isOwn c.image && isOwn (c.image + 63) && c.st = .saved &&
    (s.mem.reach ((c.image + 4) / 128) false 0 false).peek (c.image + 4) 2 ≠ 1

/-- A restore of an image of another version is refused with FORMAT in the service log (R379); the image stands halted until it is
released (log 33). -/
def State.refuseImage (s : State) (cv : Nat) : State :=
  ({ s with mem := s.mem.note 9 cv } : State).onCaravan cv fun v => { v with halt := true }

/-- Writes the image of a halted Caravan and frees its slots, banks and Rooms (R265, R377, R379). A fill of the Lodge is given up; a hit
goes on from the bytes of its entry (R141). -/
def State.saveImage (s : State) (c : Caravan) : State :=
  let tags := (s.members c.id).map (·.tag)
  let mine := s.rooms.filter fun r => tags.contains r.owner
  let cmds := s.porters.filter fun p => tags.contains p.tag
  let data : Cells := c.bankMap.foldl (fun (d : Cells) m =>
    d.over ((s.mem.scratch.range (scratchKey m.2 0) 65536).map fun x => (m.1 * 65536 + x.1 % 65536, x.2))) []
  let cores := ((s.members c.id).map (·.coreNo)).eraseDups
  let s0 := cores.foldl State.discardNones (s.writeHeader c)
  let s1 : State := { s0 with rooms := s0.rooms.filter fun r => !tags.contains r.owner,
                              porters := s0.porters.filter fun p => !tags.contains p.tag }
  let s2 := cmds.foldl (fun (s : State) p => s.dropFill p) s1
  let back := c.bankMap.map fun m => (m.2, m.1)
  let s3 := s2.onMembers c.id fun g => { g with state := .saved, sb := g.sb.map fun e => e.rebank (renamed back) }
  ((s3.releaseBanks c.id).endRequest c.id).onCaravan c.id fun v =>
    { v with st := .saved, saved := true, preempt := false, banks := c.bankMap.map fun m => (m.1, s.bank m.2), bankData := data,
             rooms := mine, porters := cmds.map s.withoutEntry, bankMap := [] }

/-- Whether every Caravan that is pre-empted with another one stands halted: those of its launch, where it is co-scheduled (R291). -/
def State.unitStands (s : State) (c : Caravan) : Bool :=
  s.standing c.id && (!((s.launch? c.launch).map (·.cos)).getD false ||
    s.disp.caravans.all fun x => x.launch ≠ c.launch || !x.toPreempt || x.rerun || s.standing x.id)

/-- CONTEXT_IMAGE_COMPLETE (R377, R379): once every group that is pre-empted with the Caravan stands halted. -/
def execContextImageComplete (cv : Nat) (s : State) : Out :=
  .next (match s.caravan cv with
    | none => s
    | some c => if c.st = .resident && !(s.members cv).isEmpty && s.unitStands c && !c.rerun && !s.headerHeld c then s.saveImage c else s)

/-! Restoration (R380) -/

/-- A translation register after a restore (R117). -/
def TransReg.restored (r : TransReg) : TransReg := { r with stale := r.v }

/-- A lane run after a restore. -/
def LaneRun.restored (r : LaneRun) : LaneRun := { r with a := r.a.map TransReg.restored }

/-- A group of a restored Caravan (R95, R101, R117, R266, R267, R300, R380): its new place, Rooms and banks; the head of its queue waits
from `now`. -/
def Group.restored (g : Group) (quad core slot base now : Nat) (floor : Stamp) (rooms banks : List (Nat × Nat)) : Group :=
  ({ g with
    state := if g.ended || g.frame.any (·.ended) then .retiring else .resident, die := quad / 16, quad := quad % 16, core := core,
    slot := slot, laneBase := base, paused := false, halted := false, tickBase := now / 1024, pts := maxS g.pts floor, lct := maxS g.lct floor,
    a := g.a.map TransReg.restored, runs := g.runs.map LaneRun.restored,
    frame := g.frame.map fun f => { f with runs := f.runs.map LaneRun.restored },
    m := g.m.map fun x => x.map fun r => BitVec.ofNat 3 (renamed rooms r.toNat), gstat := g.gstat ||| 0x10#32,
    work := g.work.map fun i => { i with room := renamed rooms i.room }, sb := g.sb.map fun e => e.rebank (renamed banks) } : Group).dateHead now

/-- A restored group's products read the banks as they stand (R157, R269). -/
def Group.sees (g : Group) (scratch : Cells) : Group := { g with seen := scratch, work := g.work.map fun i => { i with seen := scratch } }

/-- A Porter command of a restored group: a `plodge` that has not looked up the Lodge translates its source again (R117, R140). -/
def State.resumed (s : State) (c : PorterCmd) (g : Group) : PorterCmd :=
  let c1 : PorterCmd := { c with core := g.coreNo, barred := !c.looked && s.lodges[g.die]?.any (·.flush) }
  if c.looked || inWindow c.src then c1
  else
    match s.place g c.src .load with
    | .ok p => { c1 with enc := p.enc, key := p.key }
    | .error _ => c1

/-- The first number that no command of a core's Porter has; beyond the eight slots it waits for one (R135; log 18). -/
def State.anySlot (s : State) (core : Nat) : Nat :=
  ((List.range 512).find? fun i => !(s.commands core).any fun c => c.slot = i).getD 0

/-- The groups of a Caravan in ascending workgroup and group index (R356). -/
def State.inOrder (s : State) (l : Launch) (c : Caravan) : List Group :=
  (List.range l.wgs).flatMap fun w => (List.range l.groups).filterMap fun gi =>
    (s.members c.id).find? fun g => g.wg = c.num * l.wgs + w && g.gidx = gi

/-- Restores one Caravan at a place (R131, R266, R380); its cores' NONE lines are discarded, so that no group meets another's stale one
(R102, R159). -/
def State.restoreOne (s : State) (l : Launch) (cv : Nat) (x : Seat) : State :=
  match s.caravan cv with
  | none => s
  | some c =>
    let bs := s.banksFor l x
    let s1 := bs.foldl (fun (s : State) b => s.allotBank cv b) s
    let map := (c.banks.map (·.1)).zip bs
    let s2 := (c.banks.zip bs).foldl (fun (s : State) y =>
      s.setBank { y.1.2 with num := y.2, owner := some cv, waiters := [], switching := false }) s1
    let scratch := map.foldl (fun (d : Cells) m =>
      (c.bankData.range (m.1 * 65536) 65536).foldl (fun (d : Cells) b => d.set (scratchKey m.2 (b.1 % 65536)) b.2) d) s2.mem.scratch
    let nums := c.rooms.zip (s.freeRooms x.quad)
    let rooms := nums.map fun y => (y.1.num, y.2)
    let s3 : State := { s2 with mem := { s2.mem with scratch := scratch },
                                rooms := s2.rooms ++ nums.map fun y => { y.1 with hall := x.quad, num := y.2 } }
    let s4 := (s3.inOrder l c).foldl (fun (s : State) g =>
      let core := x.core + l.coreOf (g.wg - c.num * l.wgs) g.gidx
      let slot := s.freeSlot x.quad core
      let base := s.laneBase x.quad core g.width
      (s.onGroup g.tag fun h => (h.restored x.quad core slot base s.now s.svc.tfloor rooms map).sees s.mem.scratch).discardNones (4 * x.quad + core)) s3
    let s5 := c.porters.foldl (fun (s : State) p =>
      match s.group p.tag with
      | some g => { s with porters := s.porters ++ [{ s.resumed p g with slot := s.anySlot g.coreNo }] }
      | none => s) s4
    s5.onCaravan cv fun v => { v with st := .resident, quad := x.quad, core := x.core, bankMap := map, saved := false, banks := [],
                                      bankData := [], rooms := [], porters := [], headSince := none, aged := false }

/-- CARAVAN_RESTORE (R356, R357, R380): a Caravan whose turn it is, with its whole launch where that is co-scheduled (R291). -/
def execCaravanRestore (cv : Nat) (s : State) : Out :=
  .next (match (s.caravan cv).bind fun c => s.launch? c.launch with
    | none => s
    | some l =>
      if !s.dispatcherReady l.die || s.checkpointing then s
      else
        let s1 := s.displace l.die
        match s1.nextPlace l.die with
        | none => s
        | some (c, xs) =>
          if c.caravans.contains cv && (s.caravan cv).any (·.restorable) then
            let images := c.caravans.filterMap s.caravan
            if images.any s.headerHeld then s
            else
            match images.find? s.badVersion with
            | some v => s.refuseImage v.id
            | none => (c.caravans.zip xs).foldl (fun (s : State) y =>
              if (s.caravan y.1).any (·.restorable) then s.restoreOne l y.1 y.2 else s.placeOne l (some y.1) y.2) (s1.unreserve c)
          else s)

end Sys2Proof.Machine
end

