-- ==== Sys2Proof/Machine/Ready.lean ====
section
/-! DEFINITION. Which group may issue what (R14, R42, R43, R238, R289, R294, R383), and how a scalar or lane word issues. -/
namespace Sys2Proof.Machine

/-! The scalar stream -/

/-- The s registers that a scalar word names (R10, R22 to R28): a Porter command reads P and those after it that its form uses (R184). -/
def sregs : Instr → List (BitVec 6)
  | .sadd d a b _ | .ssub d a b _ | .smul d a b _ | .smulh d a b _ | .sdiv d a b _ | .srem d a b _ | .sand d a b _ | .sor d a b _
  | .sxor d a b _ | .sshl d a b _ | .sshr d a b _ | .ssra d a b _ | .smin d a b _ | .smax d a b _ | .ssel d a b _ | .ssetEq d a b _
  | .ssetNe d a b _ | .ssetLt d a b _ | .ssetGe d a b _ | .ssetLtn d a b _ | .ssetGen d a b _ | .sbfx d a b _ | .sbfi d a b _
  | .satomSwap d a b _ _ _ | .satomAdd d a b _ _ _ | .scas d a b _ _ _ | .bara d a b | .barw d a b | .barx d a b
  | .dqpush d a b | .tdecl d a b | .bkmode d a b | .evsig d a b | .evwait d a b | .tlbi d a b => [d, a, b]
  | .wword d a b => [d, a, b, b + 1]
  | .sclz d a _ | .spop d a _ | .smov d a _ | .saddi d a _ | .sandi d a _ | .sori d a _ | .sxori d a _ | .sshli d a _ | .sshri d a _
  | .ssrai d a _ | .smuli d a _ | .sget d a _ | .sld d a _ _ | .sst d a _ _ | .satomLd d a _ _ _ | .dqpop d a | .dqsteal d a
  | .rstat d a | .launch d a | .sysrd d a | .pgmap d a => [d, a]
  | .sbc _ a b _ | .satomSt a b _ _ _ | .aset _ a b | .bini a b | .dqinit a b | .syswr a b => [a, b]
  | .slo d _ | .shi d _ | .shx d _ | .scall d _ | .sgetp d _ | .sgetn d _ | .mfence d | .rend d => [d]
  | .sret a | .sloop a _ | .sputp _ a | .sputn _ a | .mtake _ a | .mgive _ a | .mwait a | .mdrain _ a .. | .mrd _ a _ | .mwr _ a _
  | .rbeg a | .rabort a | .trap a | .sysret a => [a]
  | .mth _ a => [a, a + 1]
  | .pcancel d a all => if all then [d] else [d, a]
  | .pcopy p a b var => porterRegs p a b (if var then 2 else 1)
  | .pgather p a b var | .pscatter p a b var => porterRegs p a b (if var then 3 else 2)
  | .pfill p a b | .ppush p a b => porterRegs p a b 1
  | .plodge p a b => porterRegs p a b 2
  | _ => []

/-- Whether the body of the group in focus is still to open its implicit region (R302). -/
def State.opensRegion (s : State) : Bool := s.g.implicit && !s.g.hmode && s.region.isNone

/-- Whether the first instruction of an implicit body waits for a FREE region entry, as `rbeg` does (R302, R338). -/
def State.awaitsEntry (s : State) : Bool := s.opensRegion && (s.freeRegion s.g.die).isNone

/-- The implicit region of the group in focus opens with the first scalar instruction of its body (R302, R338; log 19). -/
def State.openOwn (s : State) : State :=
  if !s.opensRegion then s
  else
    match s.freeRegion s.g.die with
    | none => s
    | some e => ({ s with regions := s.regions ++ [Region.new s.g.die e s.g.tag true] } : State).setG fun g =>
        { g with rgid := BitVec.ofNat 6 e, rgst := 0x80 }

/-- Whether the scalar stream of the group in focus may issue: it stands in its slot, has not ended, is not stopped for a cause, and
does not wait for an event. -/
def State.scalarReady (s : State) : Bool :=
  let g := s.g
  g.present && !g.ended && !g.halted && !g.paused && (g.state = .resident || (g.state = .retiring && g.hmode)) &&
    (g.pending.isEmpty || g.hmode) && g.stopped.isNone && g.regroupAt.isNone &&
    !(g.wait.any fun w => w.parked && !w.woken) && !s.fifoBlocked none && !s.awaitsEntry &&
    !s.halls.any fun h => h.takers.any fun x => x.1 = g.tag

/-- Whether a fetch waits: its walk, or its lines (R70, R76, R383). -/
def State.fetchHeld (s : State) (va : Word64) (n : Nat) : Bool :=
  let at_ (v : Word64) : Bool := s.walkHeld s.g v .fetch || match s.fetchPlace v with
    | .ok p => s.hostWaits (p.pa / 128)
    | .error _ => false
  at_ va || at_ (va + BitVec.ofNat 64 (n - 1))

/-- The scalar stream has issued in this cycle (R289). -/
def State.stampScalar (s : State) : State := s.setG fun g => { g with scalarIssued := s.now, scalarSince := s.now, scalarStarved := false }

/-- The lanes have issued in this cycle, from a slot (R289, R294). -/
def State.stampLane (s : State) (pl : IssuePlace) : State :=
  s.setG fun g => { g with laneIssued := s.now, readySince := s.now, starved := false, lastSlot := pl.pslot, iss := some pl }

/-! The lane stream -/

/-- Whether the lanes of the group in focus may issue at all. -/
def State.lanesReady (s : State) : Bool :=
  s.g.lanesRun && s.g.running && (s.g.pending.isEmpty || s.g.hmode)

/-- What PC slot `k` issues next: an instruction that executes again comes first and alone (R368); a repetition in flight that must
complete holds its slot (R46). -/
def Group.nextPlace (g : Group) (k : Nat) : Option IssuePlace :=
  match g.redo with
  | pl :: _ => if pl.pslot = k then some pl else none
  | [] =>
    if g.inflight.any fun f => f.holds && f.place.pslot = k then none
    else
      (g.path k).map fun p =>
        ⟨p.clause, p.slot, k, p.mask, p.entry, (g.rep.filter fun r => r.pslot = k).map fun r => (r.j, r.p), false⟩

/-- The lane word of a place: a header, a slot of its clause, or the slot after a prefix. -/
def IssuePlace.index (pl : IssuePlace) : BitVec 20 :=
  if pl.entry.isNone then pl.clause
  else pl.clause + BitVec.ofNat 20 (pl.slot + 1 + if pl.rep.isSome then 1 else 0)

/-- Whether a decoded word may stand where it was fetched: headers at the start of a clause alone (R41). -/
def IssuePlace.fits (pl : IssuePlace) (i : Instr) : Bool :=
  match i with
  | .clauseStart _ => pl.entry.isNone
  | .repeatPrefix _ => pl.entry.isSome && pl.rep.isNone
  | _ => pl.entry.isSome && i.lane?.isSome

/-- The q and n registers that a lane word names, in a repetition (R238). -/
def dirRegs (op : LaneOp) (w : LaneWord) (rep : Option (Nat × Prefix)) : List Nat :=
  let h := laneShape op w
  let j := (rep.map (·.1)).getD 0
  let p := (rep.map (·.2)).getD ⟨0, 0, 0, 0, 0⟩
  ((laneFields op w p).filter fun f => f.1 = .dir).flatMap fun f => (List.range h.span).map fun i => f.2.1.toNat % 16 + j * f.2.2 + i

/-- Whether an instruction in flight has still to write one of some q or n registers. -/
def Group.dirBusy (g : Group) (rs : List Nat) : Bool :=
  g.inflight.any fun f => f.commit.q.any (fun x => rs.contains x.1) || f.commit.n.any fun x => rs.contains x.1

/-- Whether the interlocks of a decoded lane word are clear (R42, R45, R238). -/
def Group.interlocksClear (g : Group) (pl : IssuePlace) (i : Instr) : Bool :=
  match i with
  | .clauseStart h => !headerLegal h || g.clauseReady h
  | .repeatPrefix _ => g.rep.all fun r => r.pslot = pl.pslot
  | _ =>
    match i.lane? with
    | some (op, w) => !g.dirBusy (dirRegs op w pl.rep)
    | none => true

/-- Whether a place of the group in focus can issue now. -/
def State.placeReady (s : State) (pl : IssuePlace) : Bool :=
  !s.fifoBlocked (some pl.pslot) && !s.fetchHeld (s.g.laneAddr pl.index) 12 &&
    match (s.fetchLane pl.index).2 with
    | .ok (.ok i) => !pl.fits i || s.g.interlocksClear pl i
    | _ => true

/-- Whether PC slot `k` of the group in focus is ready (R289, R294). -/
def State.slotReady (s : State) (k : Nat) : Bool := s.lanesReady && (s.g.nextPlace k).any s.placeReady

/-- The slot that issues: of two that are ready, the one that did not issue last (R294). -/
def State.readySlot (s : State) : Option Nat :=
  let other := 1 - s.g.lastSlot
  if s.slotReady other then some other else if s.slotReady s.g.lastSlot then some s.g.lastSlot else none

/-- The yield hint of the header that a PC slot would start (R41, R289). -/
def State.yieldsAt (s : State) (k : Nat) : Bool :=
  match s.g.nextPlace k with
  | none => false
  | some pl =>
    match (s.fetchLane pl.index).2 with
    | .ok (.ok (.clauseStart h)) => h.yh
    | _ => false

/-! Starvation (R289) -/

/-- GROUP_STARVED (R289): lane-ready, or scalar-ready, for 256 cycles without issuing. -/
def execGroupStarved (t : Nat) (s : State) : Out :=
  .next (s.forGroup t fun s =>
    let lane := s.readySlot.isSome && s.g.readySince + 256 ≤ s.now
    let scalar := s.scalarReady && s.g.scalarSince + 256 ≤ s.now
    s.setG fun g => { g with starved := g.starved || lane, scalarStarved := g.scalarStarved || scalar })

end Sys2Proof.Machine
end

