-- ==== Sys2Proof/Machine/Service.lean ====
section
/-! DEFINITION. Readiness, links, firmware, keys, checkpoint, clock and the service register space (R381 to R394, R82, R253). -/
namespace Sys2Proof

/-- The bit of a function in RDYMAP, counted from offset 0 (R382); none for one that does not exist. -/
def Func.bit : Func → Option Nat
  | .stack s => if s < 16 then some s else none
  | .quad q => if q < 32 then some (64 + q) else none
  | .dispatcher d => if d < 2 then some (128 + d) else none
  | .port p => if p < 18 then some (130 + p) else none
  | .link => some 148
  | .keystore s => if s < 16 then some (149 + s) else none
  | .slice i => if i < 512 then some (192 + i) else none

/-- The bit that says that a function failed bring-up (R382). -/
def Func.failedBit : Func → Option Nat
  | .stack s => if s < 16 then some (704 + s) else none
  | .quad q => if q < 32 then some (720 + q) else none
  | _ => none

end Sys2Proof

namespace Sys2Proof.Machine

/-! Readiness (R382, R383) -/

/-- A bit of RDYMAP. -/
def State.ready (s : State) (bit : Nat) : Bool := s.svc.rdymap.getLsbD bit

/-- Writes a bit of RDYMAP. -/
def State.setReady (s : State) (bit : Nat) (v : Bool) : State :=
  let m : BitVec 768 := BitVec.ofNat 768 (2 ^ bit)
  s.onSvc fun x => { x with rdymap := if v then x.rdymap ||| m else x.rdymap &&& ~~~ m }

/-- The ready bit of a Coachway port, or of the Dunoaldo Link as port 18. -/
def portBit (port : Nat) : Nat := if port = 18 then 148 else 130 + port

/-- CKPTCTL with a status and, where a checkpoint runs, GO. -/
def ckptWord (go : Bool) (status : Nat) (node : Nat) : Word64 :=
  BitVec.ofNat 64 ((if go then 2 ^ 63 else 0) + status * 2 ^ 60 + node)

/-- A checkpoint that runs ends early (R392). -/
def State.failCheckpoint (s : State) : State :=
  if s.checkpointing then s.onSvc fun x => { x with ckptctl := ckptWord false 2 (x.ckptctl.toNat % 2 ^ 11) } else s

/-- A port goes down (R389): its ready bit clears, and a checkpoint over the Coachway fails (R392). -/
def State.portDown (s : State) (port : Nat) : State :=
  let s1 := s.setReady (portBit port) false
  if port < 18 && s.ready (portBit port) then s1.failCheckpoint else s1

/-- RESET (R382, R81, R125, R150): the state after reset; DRAM, its faults and the model's own counters stay as they are. -/
def execReset (s : State) : Out :=
  .next { State.reset with
    now := s.now, agenda := s.agenda, freeCtr := s.freeCtr,
    mem := { Mem.reset with hbm := s.mem.hbm, ext := s.mem.ext, dead := s.mem.dead, bad := s.mem.bad, failed := s.mem.failed,
                            counters := s.mem.counters, nodes := s.mem.nodes, macs := s.mem.macs } }

/-! Key slots (R81, R82, R388) -/

/-- Whether a key command finds its key stores ready: those of every stack that has not failed (R383). -/
def State.keyStoresReady (s : State) : Bool := (List.range 16).all fun i => s.ready (149 + i) || s.ready (704 + i)

/-- KEYCTL after a command: BUSY clear, with its status. -/
def State.keyDone (s : State) (status : Nat) : State :=
  s.onSvc fun v => { v with keyctl := (v.keyctl &&& 0xFFFF#64) ||| BitVec.ofNat 64 (status * 2 ^ 60) }

/-- Lists a key slot. -/
def Mem.setKey (m : Mem) (k : KeySlot) : Mem := { m with keys := k :: m.keys.filter fun x => x.slot ≠ k.slot }

/-- A load (R81, R388); it waits while its blob cannot be read (R383). -/
def State.loadKey (s : State) (slot : Nat) : State :=
  let a := s.svc.keybuf.toNat % 2 ^ 52 / 8 * 8
  if (s.mem.keySlot (BitVec.ofNat 13 slot)).st ≠ .free then s.keyDone 1
  else if !(isOwn a && isOwn (a + 71)) then s.keyDone 2
  else if s.hostWaits (a / 128) || s.hostWaits ((a + 71) / 128) then s
  else
    match Config.keyUnwrap (readBytes s.mem.byte a 72) with
    | none => s.keyDone 2
    | some k => ({ s with mem := s.mem.setKey ⟨slot, .live, k.take 32, (k.drop 32).take 32⟩ } : State).keyDone 0

/-- Discards a line wherever it is held above HBM, without write-back (R82, step 1). -/
def Mem.discardLine (m : Mem) (line : Nat) : Mem :=
  let a := line * 128
  let m1 := (m.recallRange a 128).dropLease line
  ({ m1.setPoison line false with
     quad := m1.quad.dropRange a 128, l2 := m1.l2.dropRange a 128, cellar := m1.cellar.dropRange a 128,
     tags := m1.tags.filter fun x => x.1 ≠ line, lines := m1.lines.filter fun x => x.line ≠ line,
     copies := m1.copies.filter fun x => x.line ≠ line } : Mem).keepSv a 128

/-- The live regions that have buffered a store under a key abort with FAULT: the store is discarded, and its group's deferred KEY names
it (R82, step 3; R343). -/
def State.keyRegions (s : State) (k : BitVec 13) : State :=
  s.regions.foldl (fun (s : State) r =>
    match r.attrs.find? fun x => x.2.2.1 && x.2.2.2.1 = k with
    | some x => s.forGroup r.owner fun s =>
        if s.region.isSome then s.deferFault ⟨.key, x.2.2.2.2.1, 0, x.2.2.2.2.2, 0, none⟩ false else s
    | none => s) s

/-- Whether a command has still to move bytes under a key, or counts under it (R82): the rows that are left, by their first and last bytes; of
a gather or scatter the row whose index is known. -/
def State.cmdKeyed (s : State) (c : PorterCmd) (k : BitVec 13) : Bool :=
  let hit (a : Word64) : Bool := !inWindow a && match s.place s.g a .load, s.place s.g a .store with
    | .ok p, _ => p.enc && p.key = k
    | _, .ok p => p.enc && p.key = k
    | _, _ => false
  let span (a : Word64) (off : Nat) : Bool := hit a || hit (a + BitVec.ofNat 64 (c.rowLen - 1 - off))
  let row (idx : Nat) (c : PorterCmd) : Bool :=
    let (src, dst) := c.addrs idx
    ((c.kind ≠ 3 && c.hit.isNone) && span src c.done) || (c.kind ≠ 5 && span dst c.done)
  c.row < c.rows && ((c.enc && c.key = k) || (c.arrival ≠ 0 && hit c.arrival) ||
    if c.kind = 1 || c.kind = 2 then c.idx.any fun i => row i c
    else (List.range (c.rows - c.row)).any fun i =>
      row (c.row + i) (if i = 0 then c else { c with row := c.row + i, done := 0 }))

/-- The Porter commands that move bytes under a destroyed key stop (R82, step 4). -/
def State.stopKeyed (s : State) (k : BitVec 13) : State :=
  s.porters.foldl (fun (s : State) c => s.forGroup c.tag fun s =>
    if s.cmdKeyed c k then s.stopCmd c ⟨.key, 0, 0⟩ (c.addrs (c.idx.getD c.row)).2 else s) s

/-- An entry that has not been performed takes note of a destroyed key (R82, steps 2, 3 and 5). -/
def Group.loseKey (k : BitVec 13) (g : Group) : Group :=
  { g with sb := g.sb.map fun e => if e.performed then e else { e with gone := k :: e.gone } }

/-- Whether a pending request falls with a destroyed key: one under it, or the write-back of a line that is discarded (R82). -/
def Mem.chanLost (m : Mem) (k : BitVec 13) (q : ChanReq) : Bool :=
  if q.wb then q.lines.any fun l => m.tagOf l = some k else q.req.enc && q.req.key = k

/-- A destroy at its moment D (R82, R388). -/
def State.destroyKey (s : State) (slot : Nat) : State :=
  let old := s.mem.keySlot (BitVec.ofNat 13 slot)
  if old.st ≠ .live then s.keyDone 1
  else
    let k : BitVec 13 := BitVec.ofNat 13 slot
    let m := (((s.mem.tags.filter fun x => x.2 = k).map (·.1))).foldl Mem.discardLine s.mem
    let m1 : Mem := { m with nones := m.nones.filter fun x => !(x.enc && x.key = k), chans := m.chans.filter fun q => !s.mem.chanLost k q }
    (({ s with mem := m1.setKey { old with st := .purge }, g := s.g.loseKey k, others := s.others.map (Group.loseKey k),
               lodgeEntries := s.lodgeEntries.filter fun e => !(e.enc && e.key = k),
               porters := s.porters.map fun c => if c.enc && c.key = k then { c with hit := none } else c } : State).stopKeyed k |>.keyRegions k).keyDone 0

/-- Performs the command that KEYCTL holds once the key stores are ready (R383, R388). -/
def State.runKey (s : State) : State :=
  let op := s.svc.keyctl.toNat / 2 ^ 13 % 8
  let slot := s.svc.keyctl.toNat % 2 ^ 13
  if !s.svc.keyctl.getLsbD 63 || !s.keyStoresReady then s
  else if op = 1 then s.loadKey slot
  else if op = 2 then s.destroyKey slot
  else s.keyDone 3

/-- A write of KEYCTL (R388): ignored while a command is in progress. -/
def State.writeKeyctl (s : State) (v : Word64) : State :=
  if s.svc.keyctl.getLsbD 63 then s
  else
    let s1 := s.onSvc fun x => { x with keyctl := (v &&& 0xFFFF#64) ||| 0x8000000000000000#64 }
    let op := v.toNat / 2 ^ 13 % 8
    if op = 1 || op = 2 then s1.runKey else s1.keyDone 3

/-- KEY_LOAD (R388). -/
def execKeyLoad (val : Word64) (s : State) : Out := .next (s.writeKeyctl ((val &&& 0x1FFF#64) ||| 0x2000#64))
/-- KEY_DESTROY (R82, R388). -/
def execKeyDestroy (val : Word64) (s : State) : Out := .next (s.writeKeyctl ((val &&& 0x1FFF#64) ||| 0x4000#64))
/-- KEYCTL_RESERVED_OP (R388): OP 1 and 2 are not reserved, and stand for OP 0 here. -/
def execKeyctlReservedOp (val : Word64) (s : State) : Out :=
  let op := val.toNat / 2 ^ 13 % 8
  .next (s.writeKeyctl (if op = 1 || op = 2 then val &&& 0x1FFF#64 else val))

/-- Whether the package may come up: firmware runs, and no image has failed verification (R387). -/
def State.bootable (s : State) : Bool := !s.svc.firmware.isEmpty && !s.svc.badImage

/-- FUNCTION_READY (R253, R382, R383, R386, R387): a function that has not failed passes bring-up, a port once it has negotiated a version,
and a key command that waited is performed. -/
def execFunctionReady (f : Func) (s : State) : Out :=
  .next (match f.bit with
    | none => s
    | some b =>
      let barred := !s.bootable || f.failedBit.any s.ready || (match f with
        | .port p => !s.svc.trained.contains p
        | .link => !s.svc.trained.contains 18
        | .quad q => s.halls.any fun h => h.num = q && h.st = 2
        | .slice i => s.mem.mode (i / 32) ≠ 0 && s.mem.rbptr (i / 32) = 1015808 && s.mem.rch (i / 32) = i % 32
        | _ => false)
      if barred then s
      else
        match f with
        | .stack i =>
          let s1 := s.setReady b true
          { s1 with mem := { s1.mem with protGiB := s1.mem.protGiB.setIfInBounds i (min (Config.protectedGiB i) 57) } }
        | .keystore _ => (s.setReady b true).runKey
        | _ => s.setReady b true)

/-- FUNCTION_OUT_OF_SERVICE (R382): a ready function leaves service; a stack or quad that is not ready has failed bring-up. -/
def execFunctionOutOfService (f : Func) (s : State) : Out :=
  .next (match f.bit with
    | none => s
    | some b =>
      if s.ready b then match f with
        | .port p => s.portDown p
        | _ => s.setReady b false
      else
        match f.failedBit with
        | some x => s.setReady x true
        | none => s)

/-! The Hall's row map (R253) -/

/-- Disabled rows. -/
def disabledRows (rows : BitVec 272) : Nat := ((List.range 272).filter fun i => rows.getLsbD i).length

/-- Whether a Hall is quiesced: nothing is owned and nothing is in flight (R253). -/
def State.quiesced (s : State) (n : Nat) : Bool :=
  let h := s.hall n
  !s.rooms.any (fun r => r.hall = n) && h.shadow.isNone && h.stream.isNone && h.ended.isEmpty &&
    !s.groups.any fun g => g.quadNo = n && (g.state = .resident || g.state = .retiring) && !g.work.isEmpty

/-- HALL_ROW_REMAP (R253): more than 16 disabled rows take the Hall out of service, and its quad with it. -/
def execHallRowRemap (hall : Nat) (rows : BitVec 272) (s : State) : Out :=
  .next (if 32 ≤ hall || !s.quiesced hall then s
    else
      let out := 16 < disabledRows rows
      let h := { s.hall hall with rows := rows, st := if out then 2 else 0 }
      let s1 : State := { s with halls := h :: s.halls.filter fun x => x.num ≠ hall }
      if out then s1.setReady (64 + hall) false else s1)

/-- STATE of HALLSTAT (R253): quiesced for remapping while it is quiesced and a Caravan that owned one of its Rooms stands pre-empted
(log 28). -/
def State.hallState (s : State) (n : Nat) : Nat :=
  let h := s.hall n
  if h.st = 2 then 2
  else if s.quiesced n && s.disp.caravans.any fun c => c.st = .saved && c.rooms.any fun r => r.hall = n then 1 else 0

/-- HALLSTAT (R253). -/
def State.hallstat (s : State) (n : Nat) : Nat :=
  let h := s.hall n
  let free := (List.range 8).foldl (fun x i => if s.rooms.any fun r => r.hall = n && r.num = i then x else x + 2 ^ i) 0
  s.hallState n * 2 ^ 32 + min (disabledRows h.rows) 16 * 2 ^ 16 + free

/-! Links (R385, R386, R389) -/

/-- LINK_TRAINING (R386): this part runs version 1; with no common version the port stays not ready, and that is logged. -/
def execLinkTraining (port : Nat) (lo hi : BitVec 8) (s : State) : Out :=
  let rest := s.svc.trained.filter fun x => x ≠ port
  .next (if 18 < port then s
    else if lo.toNat ≤ 1 && 1 ≤ hi.toNat then
      let s1 := s.onSvc fun v => { v with trained := port :: rest, portRetries := v.portRetries.filter fun x => x.1 ≠ port }
      if s.bootable then s1.setReady (portBit port) true else s1
    else (((s.portDown port).onSvc fun v => { v with trained := rest }).note 5 port).flushLog)

/-- FLIT_CRC_ERROR (R389): counted and logged; after 8 failed retries the port goes down. -/
def execFlitCrcError (port : Nat) (s : State) : Out :=
  .next (if 18 < port || !s.ready (portBit port) then s
    else
      let n := ((s.svc.portRetries.find? fun x => x.1 = port).map (·.2)).getD 0 + 1
      let rest := s.svc.portRetries.filter fun x => x.1 ≠ port
      let s1 := s.onSvc fun v => { v with portRetries := if n < 8 then (port, n) :: rest else rest }
      ((if n < 8 then s1 else s1.portDown port).note 5 port).flushLog)

/-- The node of the memory that an entry of the store buffer acts on. -/
def SbEntry.node (e : SbEntry) : Nat :=
  match e.op with
  | .store ((.mem pa .., _) :: _) => nodeOf pa
  | .op (.mem pa ..) _ => nodeOf pa
  | _ => 0

/-- PEER_TIMEOUT (R385): a store is discarded, and its group takes a deferred POISON; an atomic faults precisely. Where `e` names no entry of
the store buffer, the node that the group's next access to a peer reaches gives no answer. -/
def execPeerTimeout (t e : Nat) (s : State) : Out :=
  .next (s.forGroup t fun s =>
    match s.g.sb.find? fun x => x.id = e with
    | none => s.setG fun g => { g with silent := true }
    | some x =>
      if x.performed || x.node = 0 then s
      else if x.peerAtomic then (s.refuseAtomic (s.mates x) [x]).flushLog
      else (((s.note 5 x.node).setG fun g => g.markPerformed e x.pts).lateCause x .poison).flushLog)

/-! Firmware and attestation (R387) -/

/-- FIRMWARE_VERIFY (R385 to R387): an image that fails is not run, and the package stays not ready; one that runs gives its version and the node number. -/
def execFirmwareVerify (img sig : List Byte) (version : BitVec 8) (s : State) : Out :=
  let digest := Config.shake256 img 64
  .next (if !Config.falconVerify digest sig then s.onSvc fun v => { v with badImage := true }
    else if version = 0 then s
    else s.onSvc fun v =>
      { v with firmware := v.firmware ++ [digest], ifver := (v.ifver &&& 0xFFFFFFFF#64) ||| (version.setWidth 64 <<< 32),
               cwnode := if v.cwnode = 0 then BitVec.ofNat 11 (Config.nodeNumber % 2047 + 1) else v.cwnode })

/-- The attestation report (R387): digests, versions, CWNODE, nonce and signature. -/
def State.report (s : State) (nonce : List Byte) : List Byte :=
  let body := s.svc.firmware.flatten ++ leBytes 8 s.svc.ifver.toNat ++ leBytes 2 s.svc.cwnode.toNat ++ nonce
  body ++ (Config.falconSign body).toList

/-- Writes bytes to die memory, line by line. -/
def State.firmWriteAll (s : State) (a : Nat) (bs : List Byte) : State :=
  (List.range ((a % 128 + bs.length + 127) / 128)).foldl (fun (s : State) i =>
    let off := if i = 0 then 0 else 128 * i - a % 128
    s.firmWrite (a + off) ((bs.drop off).take (128 - (a + off) % 128))) s

/-- ATTESTATION_REPLY (R387, R391): the report goes to die memory, and the log names its address and length. -/
def execAttestationReply (nonce : List Byte) (pa : Nat) (s : State) : Out :=
  let bs := s.report nonce
  .next (if nonce.length ≠ 32 || s.svc.firmware.isEmpty || !isOwn pa || !isOwn (pa + bs.length - 1) ||
      (List.range ((pa % 128 + bs.length + 127) / 128)).any fun i => s.hostWaits (pa / 128 + i) then s
    else
      let s1 := s.firmWriteAll pa bs
      ({ s1 with mem := { s1.mem with notes := s1.mem.notes ++ [⟨6, 0, some (leBytes 8 pa ++ leBytes 8 bs.length)⟩] } } : State).flushLog)

/-! The service log's registers (R391) -/

/-- SLOGBASE_WRITE (R391). -/
def execSlogbaseWrite (val : Word64) (s : State) : Out :=
  let n := val.toNat % 32
  let keep := n = 0 || (7 ≤ n && n ≤ 24)
  .next (s.onSvc fun v =>
    { v with slogbase := (val &&& 0x000FFFFFFFFFF000#64) ||| (if keep then BitVec.ofNat 64 n else v.slogbase &&& 0x1F#64),
             sloghead := 0 })

/-! Checkpoint (R392) -/

/-- Every slice writes back its dirty lines (R74). -/
def Mem.flushCellar (m : Mem) : Mem := ((m.cellar.map fun x => x.1 / 128).eraseDups).foldl Mem.flushLine m

/-- Whether a checkpoint can reach its node. -/
def State.safeTier (s : State) (node : Nat) : Bool := node ≠ 0 && !s.routeless node

/-- Every ASN is pre-empted, with HOLD set for every image (R376, R392). -/
def State.preemptAll (s : State) : State :=
  { s with disp := { s.disp with caravans := s.disp.caravans.map fun c =>
      if c.st = .resident then { c with preempt := true, hold := true } else if c.st = .saved then { c with hold := true } else c } }

/-- A write of CKPTCTL (R392): NODE is written at any time; the node of a checkpoint that runs is the one it started with. -/
def State.writeCkptctl (s : State) (v : Word64) : State :=
  let node := v.toNat % 2 ^ 11
  let old := s.svc.ckptctl
  if !v.getLsbD 63 then s.onSvc fun x => { x with ckptctl := ckptWord s.checkpointing (old.toNat / 2 ^ 60 % 8) node }
  else if s.checkpointing then s.onSvc fun x => { x with ckptctl := ckptWord true 1 node }
  else if !s.safeTier node then s.onSvc fun x => { x with ckptctl := ckptWord false 1 node }
  else s.preemptAll.onSvc fun x => { x with ckptctl := ckptWord true 0 node, ckptNode := v.setWidth 11 }

/-- CHECKPOINT_START (R392). -/
def execCheckpointStart (val : Word64) (s : State) : Out := .next (s.writeCkptctl (val ||| 0x8000000000000000#64)).flushLog

/-- CHECKPOINT_END (R392): the node stopped answering, or, every image being complete, the slices have been flushed and the last byte of die
memory, as HBM stores it, has been acknowledged. -/
def execCheckpointEnd (ok : Bool) (s : State) : Out :=
  .next (if !s.checkpointing then s
    else if !ok then s.failCheckpoint
    else if s.disp.caravans.any fun c => c.st = .resident then s
    else
      let m := s.mem.flushCellar
      ({ s with mem := { m with safe := some (s.svc.ckptNode.toNat, m.hbm) } } : State).onSvc fun x =>
        { x with ckptctl := ckptWord false 0 (x.ckptctl.toNat % 2 ^ 11) })

/-! The clock (R394) -/

/-- CLOCK_STEP_DOWN (R394), with the power averaged over 10 ms: above 2,500 W it is a cause, and a hot junction is another. -/
def execClockStepDown (cause : BitVec 2) (power : BitVec 12) (s : State) : Out :=
  .next (if cause = 0 || cause.getLsbD 0 ≠ decide (2500 < power.toNat) then s
    else s.onSvc fun v =>
      { v with pwrcause := cause, power := power, freq := if 470 + 47 ≤ v.freq.toNat then v.freq - 47 else v.freq })

/-- CLOCK_STEP_UP (R394): both conditions have cleared, so that the power is some value that is not above 2,500 W. -/
def execClockStepUp (s : State) : Out :=
  .next ((s.onSvc fun v =>
    { v with pwrcause := 0, power := BitVec.ofNat 12 ((Config.freeWord s.freeCtr 0).toNat % 2501),
             freq := if v.freq.toNat + 47 ≤ 940 then v.freq + 47 else v.freq }).useFree)

/-! The service register space (R381) -/

/-- A write of LCTL (R100): a LEASE of 0 leaves the field unchanged. -/
def State.writeLctl (s : State) (v : Word64) : State :=
  if v.extractLsb' 32 8 = 0 then s else s.onSvc fun x => { x with lease := v.extractLsb' 32 8 }

/-- REGISTER_WRITE (R381): a whole word at an offset; what the table does not list, and what is RO, ignores it. -/
def execRegisterWrite (off : Nat) (val : Word64) (s : State) : Out :=
  match off with
  | 0x108 => .next (s.onSvc fun v => { v with astb := val &&& 0x000FFFFFFFFFFFFF#64 })
  | 0x110 => .next (s.onSvc fun v => { v with hvbase := val &&& 0x000FFFFFFFFFFFFF#64 })
  | 0x118 => .next (s.onSvc fun v => { v with ctxpool := val &&& 0x000FFFFFFFFFFFFF#64 })
  | 0x120 => .next (s.writeLctl val)
  | 0x128 => .next (s.writeKeyctl val)
  | 0x130 => .next (s.onSvc fun v => { v with keybuf := val &&& 0x000FFFFFFFFFFFF8#64 })
  | 0x138 => execSlogbaseWrite val s
  | 0x158 => .next (s.writeCkptctl val).flushLog
  | 0x200 => .next (s.lodgeWrite 0 val)
  | 0x208 => .next (s.lodgeWrite 1 val)
  | 0x210 => .next (s.writePreq 0 val)
  | 0x218 => .next (s.writePreq 1 val)
  | _ => .next s

/-- LODGECTL as it reads (R139). -/
def State.lodgectl (s : State) (die : Nat) : Nat :=
  match s.lodges[die]? with
  | some l => (if l.flush then 2 ^ 16 else 0) + l.nent * 2 ^ 8 + l.lway
  | none => 0

/-- What the host reads of the service register space (R381). -/
def State.svcRead (s : State) (off : Nat) : Nat :=
  let v := s.svc
  if off % 8 ≠ 0 then 0
  else if off < 0x60 then v.rdymap.toNat / 2 ^ (8 * off) % 2 ^ 64
  else if off = 0x100 then v.cwnode.toNat
  else if off = 0x108 then v.astb.toNat
  else if off = 0x110 then v.hvbase.toNat
  else if off = 0x118 then v.ctxpool.toNat
  else if off = 0x120 then v.lease.toNat * 2 ^ 32 + v.tfloor.toNat
  else if off = 0x128 then v.keyctl.toNat
  else if off = 0x130 then v.keybuf.toNat
  else if off = 0x138 then v.slogbase.toNat
  else if off = 0x140 then v.sloghead.toNat
  else if off = 0x148 then v.pwrcause.toNat * 2 ^ 24 + v.power.toNat * 2 ^ 12 + v.freq.toNat
  else if off = 0x150 then v.ifver.toNat
  else if off = 0x158 then v.ckptctl.toNat
  else if off = 0x200 || off = 0x208 then s.lodgectl ((off - 0x200) / 8)
  else if off = 0x210 || off = 0x218 then (s.preqRead ((off - 0x210) / 8)).toNat
  else if 0x300 ≤ off && off < 0x380 then (s.mem.mstat[(off - 0x300) / 8]?.getD 0).toNat
  else if 0x400 ≤ off && off < 0x500 then s.hallstat ((off - 0x400) / 8)
  else 0

end Sys2Proof.Machine
end

