-- ==== Sys2Proof/Machine/Dispatch.lean ====
section
/-! DEFINITION. The one dispatch: each instruction to its meaning. -/
namespace Sys2Proof.Machine

/-- What an instruction does in a state. -/
def exec (i : Instr) (s : State) : Host.Outcome State Fault Refusal :=
  match i with
  | .sadd d a b w => Sys2Proof.Machine.execSadd d a b w s
  | .ssub d a b w => Sys2Proof.Machine.execSsub d a b w s
  | .smul d a b w => Sys2Proof.Machine.execSmul d a b w s
  | .smulh d a b w => Sys2Proof.Machine.execSmulh d a b w s
  | .sdiv d a b w => Sys2Proof.Machine.execSdiv d a b w s
  | .srem d a b w => Sys2Proof.Machine.execSrem d a b w s
  | .sand d a b w => Sys2Proof.Machine.execSand d a b w s
  | .sor d a b w => Sys2Proof.Machine.execSor d a b w s
  | .sxor d a b w => Sys2Proof.Machine.execSxor d a b w s
  | .sshl d a b w => Sys2Proof.Machine.execSshl d a b w s
  | .sshr d a b w => Sys2Proof.Machine.execSshr d a b w s
  | .ssra d a b w => Sys2Proof.Machine.execSsra d a b w s
  | .smin d a b w => Sys2Proof.Machine.execSmin d a b w s
  | .smax d a b w => Sys2Proof.Machine.execSmax d a b w s
  | .sclz d a w => Sys2Proof.Machine.execSclz d a w s
  | .spop d a w => Sys2Proof.Machine.execSpop d a w s
  | .smov d a w => Sys2Proof.Machine.execSmov d a w s
  | .ssel d a b w => Sys2Proof.Machine.execSsel d a b w s
  | .ssetEq d a b w => Sys2Proof.Machine.execSsetEq d a b w s
  | .ssetNe d a b w => Sys2Proof.Machine.execSsetNe d a b w s
  | .ssetLt d a b w => Sys2Proof.Machine.execSsetLt d a b w s
  | .ssetGe d a b w => Sys2Proof.Machine.execSsetGe d a b w s
  | .ssetLtn d a b w => Sys2Proof.Machine.execSsetLtn d a b w s
  | .ssetGen d a b w => Sys2Proof.Machine.execSsetGen d a b w s
  | .sbfx d a b w => Sys2Proof.Machine.execSbfx d a b w s
  | .sbfi d a b w => Sys2Proof.Machine.execSbfi d a b w s
  | .saddi d a imm => Sys2Proof.Machine.execSaddi d a imm s
  | .sandi d a imm => Sys2Proof.Machine.execSandi d a imm s
  | .sori d a imm => Sys2Proof.Machine.execSori d a imm s
  | .sxori d a imm => Sys2Proof.Machine.execSxori d a imm s
  | .sshli d a imm => Sys2Proof.Machine.execSshli d a imm s
  | .sshri d a imm => Sys2Proof.Machine.execSshri d a imm s
  | .ssrai d a imm => Sys2Proof.Machine.execSsrai d a imm s
  | .smuli d a imm => Sys2Proof.Machine.execSmuli d a imm s
  | .slo d imm => Sys2Proof.Machine.execSlo d imm s
  | .shi d imm => Sys2Proof.Machine.execShi d imm s
  | .shx d imm => Sys2Proof.Machine.execShx d imm s
  | .sbr off => Sys2Proof.Machine.execSbr off s
  | .scall d off => Sys2Proof.Machine.execScall d off s
  | .sret a => Sys2Proof.Machine.execSret a s
  | .sbc c a b off => Sys2Proof.Machine.execSbc c a b off s
  | .sloop a off => Sys2Proof.Machine.execSloop a off s
  | .sexit => Sys2Proof.Machine.execSexit s
  | .regroup p => Sys2Proof.Machine.execRegroup p s
  | .lrun c idx => Sys2Proof.Machine.execLrun c idx s
  | .cwait m => Sys2Proof.Machine.execCwait m s
  | .sget d a f => Sys2Proof.Machine.execSget d a f s
  | .sgetp d r => Sys2Proof.Machine.execSgetp d r s
  | .sputp r a => Sys2Proof.Machine.execSputp r a s
  | .sgetn d n => Sys2Proof.Machine.execSgetn d n s
  | .sputn n a => Sys2Proof.Machine.execSputn n a s
  | .sld d a z off => Sys2Proof.Machine.execSld d a z off s
  | .sst d a z off => Sys2Proof.Machine.execSst d a z off s
  | .satomLd d a o sc w64 => Sys2Proof.Machine.execSatomLd d a o sc w64 s
  | .satomSt a b o sc w64 => Sys2Proof.Machine.execSatomSt a b o sc w64 s
  | .satomSwap d a b o sc w64 => Sys2Proof.Machine.execSatomSwap d a b o sc w64 s
  | .satomAdd d a b o sc w64 => Sys2Proof.Machine.execSatomAdd d a b o sc w64 s
  | .scas d a b o sc w64 => Sys2Proof.Machine.execScas d a b o sc w64 s
  | .aset n a b => Sys2Proof.Machine.execAset n a b s
  | .aclr n => Sys2Proof.Machine.execAclr n s
  | .fence sc => Sys2Proof.Machine.execFence sc s
  | .orf => Sys2Proof.Machine.execOrf s
  | .pcopy p a b var => Sys2Proof.Machine.execPcopy p a b var s
  | .pgather p a b var => Sys2Proof.Machine.execPgather p a b var s
  | .pscatter p a b var => Sys2Proof.Machine.execPscatter p a b var s
  | .pfill p a b => Sys2Proof.Machine.execPfill p a b s
  | .plodge p a b => Sys2Proof.Machine.execPlodge p a b s
  | .ppush p a b => Sys2Proof.Machine.execPpush p a b s
  | .pcancel d a all => Sys2Proof.Machine.execPcancel d a all s
  | .mtake m a => Sys2Proof.Machine.execMtake m a s
  | .mgive m a => Sys2Proof.Machine.execMgive m a s
  | .mfree m => Sys2Proof.Machine.execMfree m s
  | .mzero m => Sys2Proof.Machine.execMzero m s
  | .mth h a => Sys2Proof.Machine.execMth h a s
  | .mma m a b => Sys2Proof.Machine.execMma m a b s
  | .mmab m a b => Sys2Proof.Machine.execMmab m a b s
  | .mmas m a b => Sys2Proof.Machine.execMmas m a b s
  | .mmac m a b => Sys2Proof.Machine.execMmac m a b s
  | .mfence d => Sys2Proof.Machine.execMfence d s
  | .mwait a => Sys2Proof.Machine.execMwait a s
  | .mdrain m a h subt bat add => Sys2Proof.Machine.execMdrain m a h subt bat add s
  | .mrd m a f => Sys2Proof.Machine.execMrd m a f s
  | .mwr m a f => Sys2Proof.Machine.execMwr m a f s
  | .bini a b => Sys2Proof.Machine.execBini a b s
  | .bara d a b => Sys2Proof.Machine.execBara d a b s
  | .barw d a b => Sys2Proof.Machine.execBarw d a b s
  | .barx d a b => Sys2Proof.Machine.execBarx d a b s
  | .wword d a b => Sys2Proof.Machine.execWword d a b s
  | .yield => Sys2Proof.Machine.execYield s
  | .dqinit a b => Sys2Proof.Machine.execDqinit a b s
  | .dqpush d a b => Sys2Proof.Machine.execDqpush d a b s
  | .dqpop d a => Sys2Proof.Machine.execDqpop d a s
  | .dqsteal d a => Sys2Proof.Machine.execDqsteal d a s
  | .rbeg a => Sys2Proof.Machine.execRbeg a s
  | .rend d => Sys2Proof.Machine.execRend d s
  | .rabort a => Sys2Proof.Machine.execRabort a s
  | .rstat d a => Sys2Proof.Machine.execRstat d a s
  | .tdecl d a b => Sys2Proof.Machine.execTdecl d a b s
  | .bkmode d a b => Sys2Proof.Machine.execBkmode d a b s
  | .launch d a => Sys2Proof.Machine.execLaunch d a s
  | .evsig d a b => Sys2Proof.Machine.execEvsig d a b s
  | .evwait d a b => Sys2Proof.Machine.execEvwait d a b s
  | .trap a => Sys2Proof.Machine.execTrap a s
  | .sysret a => Sys2Proof.Machine.execSysret a s
  | .brk => Sys2Proof.Machine.execBrk s
  | .sysrd d a => Sys2Proof.Machine.execSysrd d a s
  | .syswr a b => Sys2Proof.Machine.execSyswr a b s
  | .pgmap d a => Sys2Proof.Machine.execPgmap d a s
  | .tlbi d a b => Sys2Proof.Machine.execTlbi d a b s
  | .iadd w => Sys2Proof.Machine.execIadd w s
  | .isub w => Sys2Proof.Machine.execIsub w s
  | .imul w => Sys2Proof.Machine.execImul w s
  | .imulh w => Sys2Proof.Machine.execImulh w s
  | .imad w => Sys2Proof.Machine.execImad w s
  | .idiv w => Sys2Proof.Machine.execIdiv w s
  | .irem w => Sys2Proof.Machine.execIrem w s
  | .iabs w => Sys2Proof.Machine.execIabs w s
  | .ineg w => Sys2Proof.Machine.execIneg w s
  | .imin w => Sys2Proof.Machine.execImin w s
  | .imax w => Sys2Proof.Machine.execImax w s
  | .iand w => Sys2Proof.Machine.execIand w s
  | .ior w => Sys2Proof.Machine.execIor w s
  | .ixor w => Sys2Proof.Machine.execIxor w s
  | .inot w => Sys2Proof.Machine.execInot w s
  | .ishl w => Sys2Proof.Machine.execIshl w s
  | .ishr w => Sys2Proof.Machine.execIshr w s
  | .isra w => Sys2Proof.Machine.execIsra w s
  | .irot w => Sys2Proof.Machine.execIrot w s
  | .ibfx w => Sys2Proof.Machine.execIbfx w s
  | .ibfi w => Sys2Proof.Machine.execIbfi w s
  | .ipop w => Sys2Proof.Machine.execIpop w s
  | .iclz w => Sys2Proof.Machine.execIclz w s
  | .ibrev w => Sys2Proof.Machine.execIbrev w s
  | .icmp w => Sys2Proof.Machine.execIcmp w s
  | .fadd w => Sys2Proof.Machine.execFadd w s
  | .fsub w => Sys2Proof.Machine.execFsub w s
  | .fmul w => Sys2Proof.Machine.execFmul w s
  | .ffma w => Sys2Proof.Machine.execFfma w s
  | .fdiv w => Sys2Proof.Machine.execFdiv w s
  | .fsqrt w => Sys2Proof.Machine.execFsqrt w s
  | .fmin w => Sys2Proof.Machine.execFmin w s
  | .fmax w => Sys2Proof.Machine.execFmax w s
  | .fabs w => Sys2Proof.Machine.execFabs w s
  | .fneg w => Sys2Proof.Machine.execFneg w s
  | .fcmp w => Sys2Proof.Machine.execFcmp w s
  | .fclass w => Sys2Proof.Machine.execFclass w s
  | .frnd w => Sys2Proof.Machine.execFrnd w s
  | .fsc w => Sys2Proof.Machine.execFsc w s
  | .fexpGet w => Sys2Proof.Machine.execFexpGet w s
  | .fexpPut w => Sys2Proof.Machine.execFexpPut w s
  | .fexpCvmget w => Sys2Proof.Machine.execFexpCvmget w s
  | .fexpCvmput w => Sys2Proof.Machine.execFexpCvmput w s
  | .fexpXeget w => Sys2Proof.Machine.execFexpXeget w s
  | .fexpXeput w => Sys2Proof.Machine.execFexpXeput w s
  | .cvt w => Sys2Proof.Machine.execCvt w s
  | .cpack w => Sys2Proof.Machine.execCpack w s
  | .cunpk w => Sys2Proof.Machine.execCunpk w s
  | .mov w => Sys2Proof.Machine.execMov w s
  | .sel w => Sys2Proof.Machine.execSel w s
  | .plog w => Sys2Proof.Machine.execPlog w s
  | .shfl w => Sys2Proof.Machine.execShfl w s
  | .shup w => Sys2Proof.Machine.execShup w s
  | .shdn w => Sys2Proof.Machine.execShdn w s
  | .bcast w => Sys2Proof.Machine.execBcast w s
  | .voteAny w => Sys2Proof.Machine.execVoteAny w s
  | .voteAll w => Sys2Proof.Machine.execVoteAll w s
  | .voteBallot w => Sys2Proof.Machine.execVoteBallot w s
  | .redg w => Sys2Proof.Machine.execRedg w s
  | .scang w => Sys2Proof.Machine.execScang w s
  | .gsort w => Sys2Proof.Machine.execGsort w s
  | .gtopk w => Sys2Proof.Machine.execGtopk w s
  | .gmerge w => Sys2Proof.Machine.execGmerge w s
  | .sin w => Sys2Proof.Machine.execSin w s
  | .cos w => Sys2Proof.Machine.execCos w s
  | .ex2 w => Sys2Proof.Machine.execEx2 w s
  | .lg2 w => Sys2Proof.Machine.execLg2 w s
  | .rcp w => Sys2Proof.Machine.execRcp w s
  | .rsq w => Sys2Proof.Machine.execRsq w s
  | .tanh w => Sys2Proof.Machine.execTanh w s
  | .qpack w => Sys2Proof.Machine.execQpack w s
  | .qunpk w => Sys2Proof.Machine.execQunpk w s
  | .qdot w => Sys2Proof.Machine.execQdot w s
  | .qsc w => Sys2Proof.Machine.execQsc w s
  | .qadd w => Sys2Proof.Machine.execQadd w s
  | .qproj w => Sys2Proof.Machine.execQproj w s
  | .qrot w => Sys2Proof.Machine.execQrot w s
  | .qmov w => Sys2Proof.Machine.execQmov w s
  | .qnorm w => Sys2Proof.Machine.execQnorm w s
  | .qld w => Sys2Proof.Machine.execQld w s
  | .qst w => Sys2Proof.Machine.execQst w s
  | .ld w => Sys2Proof.Machine.execLd w s
  | .st w => Sys2Proof.Machine.execSt w s
  | .atom w => Sys2Proof.Machine.execAtom w s
  | .cas w => Sys2Proof.Machine.execCas w s
  | .red w => Sys2Proof.Machine.execRed w s
  | .tki w => Sys2Proof.Machine.execTki w s
  | .bpush w => Sys2Proof.Machine.execBpush w s
  | .bpop w => Sys2Proof.Machine.execBpop w s
  | .lbra w => Sys2Proof.Machine.execLbra w s
  | .ljmp w => Sys2Proof.Machine.execLjmp w s
  | .lsetk w => Sys2Proof.Machine.execLsetk w s
  | .ljoin w => Sys2Proof.Machine.execLjoin w s
  | .lend w => Sys2Proof.Machine.execLend w s
  | .lexit w => Sys2Proof.Machine.execLexit w s
  | .lnop w => Sys2Proof.Machine.execLnop w s
  | .repeatPrefix p => Sys2Proof.Machine.execRepeatPrefix p s
  | .clauseStart h => Sys2Proof.Machine.execClauseStart h s
  | .clauseEnd t e => Sys2Proof.Machine.execClauseEnd t e s
  | .longLatencyCompletion t e => Sys2Proof.Machine.execLongLatencyCompletion t e s
  | .laneRunStart t => Sys2Proof.Machine.execLaneRunStart t s
  | .laneRunEnd t => Sys2Proof.Machine.execLaneRunEnd t s
  | .regroupMove t => Sys2Proof.Machine.execRegroupMove t s
  | .groupStarved t => Sys2Proof.Machine.execGroupStarved t s
  | .memoryRequest r => Sys2Proof.Machine.execMemoryRequest r s
  | .channelBatch ch => Sys2Proof.Machine.execChannelBatch ch s
  | .batchAgeLimit ch => Sys2Proof.Machine.execBatchAgeLimit ch s
  | .channelRetireStart stack f => Sys2Proof.Machine.execChannelRetireStart stack f s
  | .blockRebuild stack => Sys2Proof.Machine.execBlockRebuild stack s
  | .dataChannelFailure stack c => Sys2Proof.Machine.execDataChannelFailure stack c s
  | .parityChannelFailure stack g => Sys2Proof.Machine.execParityChannelFailure stack g s
  | .bankSelfTest stack ch bank => Sys2Proof.Machine.execBankSelfTest stack ch bank s
  | .bankSelfTestEnd stack repaired => Sys2Proof.Machine.execBankSelfTestEnd stack repaired s
  | .drainPrepare t e slice => Sys2Proof.Machine.execDrainPrepare t e slice s
  | .drainCommit t e => Sys2Proof.Machine.execDrainCommit t e s
  | .memsideOperation t e => Sys2Proof.Machine.execMemsideOperation t e s
  | .redContribution t e => Sys2Proof.Machine.execRedContribution t e s
  | .tkiInsertion t e => Sys2Proof.Machine.execTkiInsertion t e s
  | .dequeOperation t e => Sys2Proof.Machine.execDequeOperation t e s
  | .keyPurgeComplete slot => Sys2Proof.Machine.execKeyPurgeComplete slot s
  | .gets u r g => Sys2Proof.Machine.execGets u r g s
  | .getm u r g => Sys2Proof.Machine.execGetm u r g s
  | .upg u r g => Sys2Proof.Machine.execUpg u r g s
  | .pute u q => Sys2Proof.Machine.execPute u q s
  | .putx u q => Sys2Proof.Machine.execPutx u q s
  | .fwds u q => Sys2Proof.Machine.execFwds u q s
  | .fwdm u q => Sys2Proof.Machine.execFwdm u q s
  | .recallOwner u q => Sys2Proof.Machine.execRecall u q s
  | .inv u q => Sys2Proof.Machine.execInv u q s
  | .invack u q => Sys2Proof.Machine.execInvack u q s
  | .grant u q => Sys2Proof.Machine.execGrant u q s
  | .grantStale u q => Sys2Proof.Machine.execGrantStale u q s
  | .dataPhase u q => Sys2Proof.Machine.execDataPhase u q s
  | .probe u q => Sys2Proof.Machine.execProbe u q s
  | .discovery u => Sys2Proof.Machine.execDiscovery u s
  | .directoryEviction u => Sys2Proof.Machine.execDirectoryEviction u s
  | .quadEviction u q => Sys2Proof.Machine.execQuadEviction u q s
  | .hostRead pa n => Sys2Proof.Machine.execHostRead pa n s
  | .hostWrite pa data => Sys2Proof.Machine.execHostWrite pa data s
  | .leaseRenewal core line pts => Sys2Proof.Machine.execLeaseRenewal core line pts s
  | .leaseWrite t e => Sys2Proof.Machine.execLeaseWrite t e s
  | .acknowledgement t e => Sys2Proof.Machine.execAcknowledgement t e s
  | .tick => Sys2Proof.Machine.execTick s
  | .tmaxExchange received => Sys2Proof.Machine.execTmaxExchange received s
  | .floorCatchup => Sys2Proof.Machine.execFloorCatchup s
  | .pageWalk t va k => Sys2Proof.Machine.execPageWalk t va k s
  | .heatSweep asn => Sys2Proof.Machine.execHeatSweep asn s
  | .porterPiece core slot => Sys2Proof.Machine.execPorterPiece core slot s
  | .porterCommandEnd core slot => Sys2Proof.Machine.execPorterCommandEnd core slot s
  | .fifoAccessServed t e => Sys2Proof.Machine.execFifoAccessServed t e s
  | .modeSwitchComplete quad bank => Sys2Proof.Machine.execModeSwitchComplete quad bank s
  | .innkeeperGrant hall => Sys2Proof.Machine.execInnkeeperGrant hall s
  | .headAgeing t => Sys2Proof.Machine.execHeadAgeing t s
  | .bLoadComplete hall => Sys2Proof.Machine.execBLoadComplete hall s
  | .streamStart hall => Sys2Proof.Machine.execStreamStart hall s
  | .streamEnd hall => Sys2Proof.Machine.execStreamEnd hall s
  | .operationCommit hall => Sys2Proof.Machine.execOperationCommit hall s
  | .roomPortWork t => Sys2Proof.Machine.execRoomPortWork t s
  | .roomPortWorkEnd t => Sys2Proof.Machine.execRoomPortWorkEnd t s
  | .batchComplete t => Sys2Proof.Machine.execBatchComplete t s
  | .roomHandover t => Sys2Proof.Machine.execRoomHandover t s
  | .roomRelease hall room => Sys2Proof.Machine.execRoomRelease hall room s
  | .mtakeGrant hall room => Sys2Proof.Machine.execMtakeGrant hall room s
  | .mtakeTimeout t => Sys2Proof.Machine.execMtakeTimeout t s
  | .watchWake t => Sys2Proof.Machine.execWatchWake t s
  | .watchPoll t => Sys2Proof.Machine.execWatchPoll t s
  | .waitTimeout t => Sys2Proof.Machine.execWaitTimeout t s
  | .regionCommit die e => Sys2Proof.Machine.execRegionCommit die e s
  | .regionAbort t c => Sys2Proof.Machine.execRegionAbort t c s
  | .implicitRerun t => Sys2Proof.Machine.execImplicitRerun t s
  | .groupRetire t => Sys2Proof.Machine.execGroupRetire t s
  | .hostLaunch rec tag => Sys2Proof.Machine.execHostLaunch rec tag s
  | .dependenceMet l dep => Sys2Proof.Machine.execDependenceMet l dep s
  | .caravanPlace die => Sys2Proof.Machine.execCaravanPlace die s
  | .headWaitLimit die => Sys2Proof.Machine.execHeadWaitLimit die s
  | .launchComplete l => Sys2Proof.Machine.execLaunchComplete l s
  | .preciseFaultEntry t => Sys2Proof.Machine.execPreciseFaultEntry t s
  | .deferredCauseArrival t e own => Sys2Proof.Machine.execDeferredCauseArrival t e own s
  | .deferredFaultEntry t => Sys2Proof.Machine.execDeferredFaultEntry t s
  | .preemptRequest die val => Sys2Proof.Machine.execPreemptRequest die val s
  | .preemptHalt cv => Sys2Proof.Machine.execPreemptHalt cv s
  | .contextImageComplete cv => Sys2Proof.Machine.execContextImageComplete cv s
  | .preemptRelease die val => Sys2Proof.Machine.execPreemptRelease die val s
  | .caravanRestore cv => Sys2Proof.Machine.execCaravanRestore cv s
  | .reset => Sys2Proof.Machine.execReset s
  | .functionReady f => Sys2Proof.Machine.execFunctionReady f s
  | .functionOutOfService f => Sys2Proof.Machine.execFunctionOutOfService f s
  | .hallRowRemap hall rows => Sys2Proof.Machine.execHallRowRemap hall rows s
  | .linkTraining port lo hi => Sys2Proof.Machine.execLinkTraining port lo hi s
  | .flitCrcError port => Sys2Proof.Machine.execFlitCrcError port s
  | .peerTimeout t e => Sys2Proof.Machine.execPeerTimeout t e s
  | .firmwareVerify img sig version => Sys2Proof.Machine.execFirmwareVerify img sig version s
  | .attestationReply nonce pa => Sys2Proof.Machine.execAttestationReply nonce pa s
  | .keyLoad val => Sys2Proof.Machine.execKeyLoad val s
  | .keyDestroy val => Sys2Proof.Machine.execKeyDestroy val s
  | .keyctlReservedOp val => Sys2Proof.Machine.execKeyctlReservedOp val s
  | .lodgeWayChange die val => Sys2Proof.Machine.execLodgeWayChange die val s
  | .lodgeFlush die val => Sys2Proof.Machine.execLodgeFlush die val s
  | .lodgeChangeEnd die => Sys2Proof.Machine.execLodgeChangeEnd die s
  | .slogbaseWrite val => Sys2Proof.Machine.execSlogbaseWrite val s
  | .checkpointStart val => Sys2Proof.Machine.execCheckpointStart val s
  | .checkpointEnd ok => Sys2Proof.Machine.execCheckpointEnd ok s
  | .clockStepDown cause power => Sys2Proof.Machine.execClockStepDown cause power s
  | .clockStepUp => Sys2Proof.Machine.execClockStepUp s
  | .registerWrite off val => Sys2Proof.Machine.execRegisterWrite off val s
  | .hostAtomic pa op w64 x y => Sys2Proof.Machine.execHostAtomic pa op w64 x y s

end Sys2Proof.Machine
end

