-- ==== Sys2Proof/Machine/Schedule.lean ====
section
/-! DEFINITION. The order in which the default schedule offers moves (R289; log 1): events of the engines, then groups by the keys of R289. -/
namespace Sys2Proof.Machine

/-- The events that the default schedule offers; each runs the event of the instruction set of its name. -/
inductive Engine
  | deferredFaultEntry (t : Nat)
  | preciseFaultEntry (t : Nat)
  | longLatencyCompletion (t e : Nat)
  | clauseEnd (t e : Nat)
  | laneRunEnd (t : Nat)
  | laneRunStart (t : Nat)
  | drainPrepare (t e slice : Nat)
  | drainCommit (t e : Nat)
  | acknowledgement (t e : Nat)
  | roomPortWork (t : Nat)
  | roomPortWorkEnd (t : Nat)
  | headAgeing (t : Nat)
  | batchComplete (t : Nat)
  | roomHandover (t : Nat)
  | mtakeTimeout (t : Nat)
  | waitTimeout (t : Nat)
  | fifoAccessServed (t e : Nat)
  | regroupMove (t : Nat)
  | implicitRerun (t : Nat)
  | groupRetire (t : Nat)
  | groupStarved (t : Nat)
  | operationCommit (h : Nat)
  | streamEnd (h : Nat)
  | streamStart (h : Nat)
  | bLoadComplete (h : Nat)
  | innkeeperGrant (h : Nat)
  | mtakeGrant (h r : Nat)
  | roomRelease (h r : Nat)
  | porterPiece (core slot : Nat)
  | porterCommandEnd (core slot : Nat)
  | modeSwitchComplete (quad bank : Nat)
  | regionCommit (die e : Nat)
  | dependenceMet (l dep : Nat)
  | launchComplete (l : Nat)
  | preemptHalt (cv : Nat)
  | contextImageComplete (cv : Nat)
  | caravanRestore (cv : Nat)
  | caravanPlace (die : Nat)
  | headWaitLimit (die : Nat)
  | lodgeChangeEnd (die : Nat)
  | tick
  | blockRebuild (stack : Nat)
  | channelBatch (ch : Nat)
  | keyPurgeComplete (slot : Nat)
  | watchPoll (t : Nat)
  | watchWake (t : Nat)
deriving DecidableEq, Repr

/-- Runs an event. -/
def Engine.run (x : Engine) (s : State) : Out :=
  match x with
  | .deferredFaultEntry t => execDeferredFaultEntry t s
  | .preciseFaultEntry t => execPreciseFaultEntry t s
  | .longLatencyCompletion t e => execLongLatencyCompletion t e s
  | .clauseEnd t e => execClauseEnd t e s
  | .laneRunEnd t => execLaneRunEnd t s
  | .laneRunStart t => execLaneRunStart t s
  | .drainPrepare t e slice => execDrainPrepare t e slice s
  | .drainCommit t e => execDrainCommit t e s
  | .acknowledgement t e => execAcknowledgement t e s
  | .roomPortWork t => execRoomPortWork t s
  | .roomPortWorkEnd t => execRoomPortWorkEnd t s
  | .headAgeing t => execHeadAgeing t s
  | .batchComplete t => execBatchComplete t s
  | .roomHandover t => execRoomHandover t s
  | .mtakeTimeout t => execMtakeTimeout t s
  | .waitTimeout t => execWaitTimeout t s
  | .fifoAccessServed t e => execFifoAccessServed t e s
  | .regroupMove t => execRegroupMove t s
  | .implicitRerun t => execImplicitRerun t s
  | .groupRetire t => execGroupRetire t s
  | .groupStarved t => execGroupStarved t s
  | .operationCommit h => execOperationCommit h s
  | .streamEnd h => execStreamEnd h s
  | .streamStart h => execStreamStart h s
  | .bLoadComplete h => execBLoadComplete h s
  | .innkeeperGrant h => execInnkeeperGrant h s
  | .mtakeGrant h r => execMtakeGrant h r s
  | .roomRelease h r => execRoomRelease h r s
  | .porterPiece core slot => execPorterPiece core slot s
  | .porterCommandEnd core slot => execPorterCommandEnd core slot s
  | .modeSwitchComplete quad bank => execModeSwitchComplete quad bank s
  | .regionCommit die e => execRegionCommit die e s
  | .dependenceMet l dep => execDependenceMet l dep s
  | .launchComplete l => execLaunchComplete l s
  | .preemptHalt cv => execPreemptHalt cv s
  | .contextImageComplete cv => execContextImageComplete cv s
  | .caravanRestore cv => execCaravanRestore cv s
  | .caravanPlace die => execCaravanPlace die s
  | .headWaitLimit die => execHeadWaitLimit die s
  | .lodgeChangeEnd die => execLodgeChangeEnd die s
  | .tick => execTick s
  | .blockRebuild stack => execBlockRebuild stack s
  | .channelBatch ch => execChannelBatch ch s
  | .keyPurgeComplete slot => execKeyPurgeComplete slot s
  | .watchPoll t => execWatchPoll t s
  | .watchWake t => execWatchWake t s

/-- The events of a group's own engines. -/
def State.groupEvents (s : State) (g : Group) : List Engine :=
  let t := g.tag
  [.deferredFaultEntry t, .preciseFaultEntry t] ++
    (g.inflight.map fun f => .longLatencyCompletion t f.id) ++ (g.entries.map fun e => .clauseEnd t e.id) ++
    [.laneRunEnd t, .laneRunStart t] ++
    (g.sb.flatMap fun e => ((s.pieceSlices e).map fun n => Engine.drainPrepare t e.id n) ++ [.drainCommit t e.id, .acknowledgement t e.id]) ++
    [.roomPortWork t, .roomPortWorkEnd t, .headAgeing t, .batchComplete t, .roomHandover t, .mtakeTimeout t, .waitTimeout t,
     .regroupMove t, .implicitRerun t, .groupRetire t, .groupStarved t]

/-- The events of a quad's Hall. -/
def State.hallEvents (s : State) (h : Nat) : List Engine :=
  [.operationCommit h, .streamEnd h, .streamStart h, .bLoadComplete h, .innkeeperGrant h] ++
    ((List.range 8).map fun r => .mtakeGrant h r) ++ ((s.rooms.filter fun r => r.hall = h).map fun r => .roomRelease h r.num)

/-- The events that the default schedule offers, each with a group to bring into focus first; a tick that is due comes before all
others (R95). -/
def State.engineEvents (s : State) : List (Nat × Engine) :=
  let here (l : List Engine) : List (Nat × Engine) := l.map fun i => (s.g.tag, i)
  let quads := ((s.groups.map (·.quadNo)) ++ s.rooms.map (·.hall)).eraseDups
  here [.tick] ++ (s.groups.flatMap fun g => (s.groupEvents g).map fun i => (g.tag, i)) ++
    here (quads.flatMap s.hallEvents) ++
    here (s.porters.flatMap fun c => [.porterPiece c.core c.slot, .porterCommandEnd c.core c.slot]) ++
    here (s.banks.filterMap fun b => if b.switching then some (.modeSwitchComplete (b.num / 64) (b.num % 64)) else none) ++
    here (s.banks.flatMap fun b => b.waiters.map fun w => .fifoAccessServed w.tag b.num) ++
    here (s.regions.map fun r => .regionCommit r.die r.e) ++
    here ((s.disp.launches.flatMap fun l => ((List.range (max 1 l.deps.length)).map fun i => Engine.dependenceMet l.id i) ++ [.launchComplete l.id])) ++
    here (s.disp.caravans.flatMap fun c => [.preemptHalt c.id, .contextImageComplete c.id, .caravanRestore c.id]) ++
    here [.caravanPlace 0, .caravanPlace 1, .headWaitLimit 0, .headWaitLimit 1, .lodgeChangeEnd 0, .lodgeChangeEnd 1] ++
    here ((List.range 16).map fun i => .blockRebuild i) ++
    here (((s.mem.chans.map (·.ch)).eraseDups).map fun c => .channelBatch c) ++
    here (s.mem.keys.map fun k => .keyPurgeComplete k.slot)

/-- Groups in the order of their last scalar issue, the earliest first. -/
def byLastIssue (l : List Group) : List Group :=
  l.foldl (fun acc g => (acc.takeWhile fun x => x.scalarIssued ≤ g.scalarIssued) ++ g :: acc.dropWhile fun x => x.scalarIssued ≤ g.scalarIssued) []

/-- The events by which parked waits look again, offered when nothing else moves: the group that issued least recently first. -/
def State.pollEvents (s : State) : List (Nat × Engine) :=
  (byLastIssue s.groups).flatMap fun g => [(g.tag, .watchPoll g.tag), (g.tag, .watchWake g.tag)]

/-- The keys of R289 for a group, smaller first: starvation, priority, the yield hint, the cycle of last issue, the slot. -/
def issueKeys (g : Group) (starved : Bool) (since last : Nat) (yields : Bool) : List Nat :=
  [if starved then 0 else 1, if starved then since else 0, 7 - g.prio, if yields then 1 else 0, last, g.slot]

/-- Whether keys come before others. -/
def keysBefore : List Nat → List Nat → Bool
  | x :: xs, y :: ys => x < y || (x = y && keysBefore xs ys)
  | _, _ => false

/-- Moves in the order of their keys. -/
def sortMoves (l : List (List Nat × Pick)) : List Pick :=
  (l.foldl (fun acc x => (acc.takeWhile fun y => !keysBefore x.1 y.1) ++ x :: acc.dropWhile fun y => !keysBefore x.1 y.1) []).map (·.2)

/-- The cycle in which a core's pipe issued last. -/
def State.pipeLast (s : State) (core : Nat) (last : Group → Nat) : Nat :=
  (s.groups.filter fun g => g.coreNo = core).foldl (fun n g => max n (last g)) 0

end Sys2Proof.Machine
end

