-- ==== Sys2Proof/Machine/Issue.lean ====
section
/-! DEFINITION. How a word issues, which counts as an issue and which only waits, and the moves that the default schedule chooses from
(R20, R21, R47, R289, R294; log 1). -/
namespace Sys2Proof.Machine

/-! Issue -/

/-- What comes of offering a word to its stream: nothing, a change while it still waits, or its issue. -/
inductive Progress
  | idle | moved | issued
deriving DecidableEq, Repr

/-- The scalar instructions that set the pc themselves. -/
def setsPc : Instr → Bool
  | .sbr _ | .scall .. | .sret _ | .sbc .. | .sloop .. | .sysret _ => true
  | _ => false

/-- Whether a group stands before the same scalar word as another one does: neither has it gone on nor met a cause. -/
def Group.scalarStands (g h : Group) : Bool :=
  h.tag = g.tag && h.spc = g.spc && h.ended = g.ended && h.hmode = g.hmode && h.stopped = g.stopped && h.halted = g.halted &&
    h.regroupAt = g.regroupAt && h.rgst = g.rgst

/-- Whether the lanes of a group stand as those of another one do. -/
def Group.lanesStand (g h : Group) : Bool :=
  h.tag = g.tag && h.slots = g.slots && h.rep = g.rep && h.redo = g.redo && h.hmode = g.hmode && h.stopped = g.stopped &&
    h.halted = g.halted && h.rgst = g.rgst

/-- A scalar word that only waits has not issued, and the group's last issue stays the one before (R289). -/
def Out.landScalar (o : Out) (g : Group) (i : Instr) : Out :=
  match o with
  | .next t => if setsPc i || !g.scalarStands t.g then .next t else .next (t.setG fun h => { h with scalarIssued := g.scalarIssued })
  | .fault f => .fault f
  | .refused r => .refused r

/-- A lane word that only waits has not issued: the group's last issue, and the slot it came from, stay (R289, R294). -/
def Out.landLane (o : Out) (g : Group) : Out :=
  match o with
  | .next t =>
    if g.lanesStand t.g then .next (t.setG fun h => { h with laneIssued := g.laneIssued, lastSlot := g.lastSlot }) else .next t
  | .fault f => .fault f
  | .refused r => .refused r

/-! Loads that are performed late (R145, R147; log 12) -/

/-- The line that a load or a store of the group in focus at an address accesses, where it is memory or a bank in SCRATCH mode. -/
def State.lineAt (s : State) (va : Word64) (n : Nat) (store : Bool) : Option (Nat ⊕ Nat) :=
  if inWindow va then
    match s.window s.g.caravan va n store with
    | .scratch b o => some (.inl (scratchKey b o / 128))
    | _ => none
  else
    match s.place s.g va (if store then .store else .load) with
    | .ok p => some (.inr (p.pa / 128))
    | .error _ => none

/-- The loads that may still be performed once a word has issued. A plain load or store that names none of their registers and accesses
another line leaves them open and a load is one more; any other word has them performed (R145, R147, R151, R152). -/
def State.lateAfter (s : State) (i : Instr) : List LateLoad :=
  let others (r : List (BitVec 6)) (va : Word64) (n : Nat) (store : Bool) : Option (Nat ⊕ Nat) → List LateLoad
    | some l => s.g.late.filter (fun x => !r.contains x.reg && x.line ≠ l) ++
        if store then [] else (r.take 1).map fun d => ⟨d, va, n, l⟩
    | none => []
  match i with
  | .sld d a z off =>
    let n := 2 ^ z.toNat
    let va := s.sreg a + off.signExtend 64 * BitVec.ofNat 64 n
    others [d, a] va n false (s.lineAt va n false)
  | .sst d a z off =>
    let n := 2 ^ z.toNat
    let va := s.sreg a + off.signExtend 64 * BitVec.ofNat 64 n
    others [d, a] va n true (s.lineAt va n true)
  | _ => []

/-- Notes after a word has issued which loads may still be performed. -/
def Out.noteLate (o : Out) (s : State) (i : Instr) : Out :=
  match o with
  | .next t =>
    let on := t.g.tag = s.g.tag && t.g.spc = s.g.spc + 4 && t.g.stopped.isNone && (s.region).isNone
    .next (if s.g.scalarStands t.g then t else t.setG fun h => { h with late := if on then s.lateAfter i else [] })
  | .fault f => .fault f
  | .refused r => .refused r

/-- Load `k` of the group in focus is performed only now: its register takes what it reads. -/
def State.lateLoad (s : State) (k : Nat) : State :=
  match s.g.late[k]? with
  | none => s
  | some x =>
    if s.lineAt x.va x.size false ≠ some x.line || s.lineHeld [x.line] then s
    else
      match (if inWindow x.va then
          match s.window s.g.caravan x.va x.size false with
          | .scratch b o => (s, s.scratchAnswer b o x.size)
          | _ => (s, .wait)
        else
          match s.place s.g x.va .load with
          | .ok p => s.memLoad p x.size
          | .error _ => (s, .wait)) with
      | (t, .ok bs) => t.setS x.reg (BitVec.ofNat 64 (leNat bs))
      | _ => s

/-- The group in focus issues the scalar word at its pc; the first one of an implicit body opens its region (R20, R21, R47, R302). -/
def State.issueScalar (s : State) : Out :=
  if !s.scalarReady || s.fetchHeld s.g.spc 4 then .next s
  else
    match s.stampScalar.openOwn.fetchScalar with
    | (s1, .error f) => .next (s1.scalarFault f.1.cause f.1.info f.2)
    | (s1, .ok (.error _)) => .next (s1.scalarFault .illegal)
    | (s1, .ok (.ok i)) => (Out.landScalar (exec i s1) s.g i).noteLate s1 i

/-- The lane word of a place issues (R20, R21, R41, R47). -/
def State.issueAt (s : State) (pl : IssuePlace) : Out :=
  match (s.stampLane pl).fetchLane pl.index with
  | (s1, .error f) => .next (s1.fetchFault f pl.mask)
  | (s1, .ok (.error _)) => .next (s1.laneFault .illegal pl.mask)
  | (s1, .ok (.ok i)) => if pl.fits i then Out.landLane (exec i s1) s.g else .next (s1.laneFault .illegal pl.mask)

/-- What comes of the scalar word of the group in focus. -/
def State.scalarProgress (s : State) : Progress :=
  if !s.scalarReady || s.fetchHeld s.g.spc 4 then .idle
  else
    match s.stampScalar.openOwn.fetchScalar with
    | (s1, .ok (.ok i)) =>
      match exec i s1 with
      | .next t => if setsPc i || !s.g.scalarStands t.g then .issued else if t = s1 then .idle else .moved
      | _ => .issued
    | _ => .issued

/-- What comes of the lane word of PC slot `k` of the group in focus. -/
def State.laneProgress (s : State) (k : Nat) : Progress :=
  match s.g.nextPlace k with
  | none => .idle
  | some pl =>
    if !s.slotReady k then .idle
    else
      match (s.stampLane pl).fetchLane pl.index with
      | (s1, .ok (.ok i)) =>
        if !pl.fits i then .issued
        else
          match exec i s1 with
          | .next t => if !s.g.lanesStand t.g then .issued else if t = s1 then .idle else .moved
          | _ => .issued
      | _ => .issued

/-- Whether it is the turn of PC slot `k` (R294): of two slots that can issue, that of the one that did not issue last. -/
def State.laneTurn (s : State) (k : Nat) : Bool :=
  s.slotReady k && !(k = s.g.lastSlot && s.laneProgress (1 - k) = .issued)

/-- PC slot `k` of the group in focus issues its lane word, where it is its turn. -/
def State.issueLane (s : State) (k : Nat) : Out :=
  match s.g.nextPlace k with
  | none => .next s
  | some pl => if s.laneTurn k then s.issueAt pl else .next s

/-! Errors (R389; log 42) -/

/-- The scalar stream of the group in focus issues a word that reads a register with a parity error: POISON, precisely. -/
def State.scalarParity (s : State) : Out :=
  if !s.scalarReady || s.fetchHeld s.g.spc 4 then .next s
  else
    match s.stampScalar.openOwn.fetchScalar with
    | (s1, .ok (.ok i)) => if (sregs i).isEmpty then .next s else .next (s1.scalarFault .poison)
    | _ => .next s

/-- Whether a lane word reads a v, q, n or s register. -/
def readsRegs (rep : Option (Nat × Prefix)) (i : Instr) : Bool :=
  i.lane?.any fun x => !(laneFields x.1 x.2 ((rep.map (·.2)).getD ⟨0, 0, 0, 0, 0⟩)).isEmpty

/-- PC slot `k` of the group in focus issues a word that reads a register with a parity error. -/
def State.laneParity (s : State) (k : Nat) : Out :=
  match s.g.nextPlace k with
  | none => .next s
  | some pl =>
    if !s.laneTurn k then .next s
    else
      match (s.stampLane pl).fetchLane pl.index with
      | (s1, .ok (.ok i)) => if pl.fits i && readsRegs pl.rep i then .next (s1.laneFault .poison pl.mask) else .next s
      | _ => .next s

/-- An error that the hardware finds (R389): a corrected one is logged; a line that is not corrected is poison, where it is held above HBM
or lies in a bank; the die bridge goes down after 8 retries. -/
def State.upset (s : State) : Upset → State
  | .corrected unit => s.note 10 unit
  | .line line =>
    if s.mem.valid line || s.mem.l2.any (fun x => x.1 / 128 = line) || s.mem.quad.any (fun x => x.1 / 128 = line) then
      { s with mem := s.mem.setPoison line true }
    else s
  | .bank bank line =>
    if (s.bank bank).mode = .cache || 512 ≤ line then s
    else { s with mem := { s.mem with bankPoison := (bank * 512 + line) :: s.mem.bankPoison } }
  | .bridge =>
    let n := ((s.svc.portRetries.find? fun x => x.1 = 19).map (·.2)).getD 0 + 1
    let rest := s.svc.portRetries.filter fun x => x.1 ≠ 19
    (s.onSvc fun v => { v with portRetries := if n < 8 then (19, n) :: rest else rest, bridgeDown := v.bridgeDown || 8 ≤ n }).note 5 19

/-! Picks (log 1) -/

/-- Whether an event would change the machine with a group in focus. -/
def State.enabled (s : State) (x : Nat × Engine) : Bool :=
  match x.2.run (s.focus x.1) with
  | .next t => t ≠ s.focus x.1
  | _ => true

/-- Carries out a pick; a word is no event, and issues only where its stream stands. -/
def State.run (s : State) : Pick → Out
  | .scalar t => if (s.group t).isSome then (s.focus t).issueScalar else .next s
  | .lane t k => if (s.group t).isSome then (s.focus t).issueLane k else .next s
  | .parity t k => if (s.group t).isSome then (match k with
      | none => (s.focus t).scalarParity
      | some k => (s.focus t).laneParity k) else .next s
  | .late t k => .next (if (s.group t).isSome then (s.focus t).lateLoad k else s)
  | .peer pa n coh pts op x y => .next (s.peerAccess pa n coh pts op x y)
  | .peerLoad line pts lease => .next (s.peerLoad line pts lease)
  | .power w => .next (s.onSvc fun v => { v with power := w })
  | .upset u => .next (s.upset u)
  | .event i => if (encode i).isNone then exec i s else .next s
  | .wait n => .next { s with now := s.now + n }

/-! The default schedule (R289; log 1) -/

/-- Whether a stream that is ready has been so for 255 cycles although its word only waits: it has not been ready to issue (R289). -/
def State.onlyWaits (s : State) (since : Nat) (p : Progress) : Bool := s.now ≥ since + 255 && p ≠ .issued

/-- Notes for every group since when it has been ready without issuing (R289). -/
def State.survey (s : State) : State :=
  (s.groups.map (·.tag)).foldl (fun (s : State) t =>
    let f := s.focus t
    let lane := match f.readySlot with
      | some k => !f.onlyWaits f.g.readySince (f.laneProgress k)
      | none => false
    let scalar := f.scalarReady && !f.onlyWaits f.g.scalarSince f.scalarProgress
    s.onGroup t fun g =>
      { g with readySince := if lane then g.readySince else s.now, starved := g.starved && lane,
               scalarSince := if scalar then g.scalarSince else s.now, scalarStarved := g.scalarStarved && scalar }) s

/-- The lane moves that are ready, with their keys: of the cores' lane pipes the one that issued least recently first. -/
def State.laneMoves (s : State) : List (List Nat × Pick) :=
  s.groups.flatMap fun g0 =>
    let f := s.focus g0.tag
    ([0, 1].filter f.slotReady).map fun k =>
      (s.pipeLast g0.coreNo (·.laneIssued) :: issueKeys f.g f.g.starved f.g.readySince f.g.laneIssued (f.yieldsAt k) ++
        [if k = f.g.lastSlot then 1 else 0], .lane g0.tag k)

/-- The scalar moves that are ready, with their keys. -/
def State.scalarMoves (s : State) : List (List Nat × Pick) :=
  s.groups.filterMap fun g0 =>
    let f := s.focus g0.tag
    if f.scalarReady then
      some (s.pipeLast g0.coreNo (·.scalarIssued) :: issueKeys f.g f.g.scalarStarved f.g.scalarSince f.g.scalarIssued false, .scalar g0.tag)
    else none

/-- What comes of a move. -/
def State.progress (s : State) : Pick → Progress
  | .scalar t => (s.focus t).scalarProgress
  | .lane t k => (s.focus t).laneProgress k
  | _ => .idle

/-- The next move of a group: the two pipes take turns, and in one cycle of eight what words do while they wait comes before an issue. -/
def State.nextIssue (s : State) : Option Pick :=
  let a := sortMoves s.scalarMoves
  let b := sortMoves s.laneMoves
  let first (p : Progress) : Option Pick := (if s.now % 2 = 0 then [a, b] else [b, a]).findSome? fun l => l.find? fun x => s.progress x = p
  if s.now / 2 % 8 = 0 then (first .moved).orElse fun _ => first .issued else (first .issued).orElse fun _ => first .moved

/-- The default schedule (log 1): an event that can come about, else the next group by R289, else a watching group polls, else a cycle
passes. -/
def State.default (s : State) : Out :=
  match s.engineEvents.find? s.enabled with
  | some x => x.2.run (s.focus x.1)
  | none =>
    match s.survey.nextIssue with
    | some p => s.survey.run p
    | none =>
      match s.survey.pollEvents.find? s.survey.enabled with
      | some x => x.2.run (s.survey.focus x.1)
      | none => .next s.survey

end Sys2Proof.Machine
end

