-- ==== Sys2Proof/Machine/Step.lean ====
section
/-! DEFINITION. One step of the machine: which agent moves next, and the instruction or event it executes (R14, R289, R294; log 1). -/
namespace Sys2Proof.Machine

/-- The end of a step: caches keep within their ways (R127), its write-backs are dated (R67), watchers know of what its slices served, a key command that can go on does (R383),
the service log is written, and a cycle has passed (log 16). -/
def Out.finish (o : Out) : Out :=
  match o with
  | .next s => let t := s.fitFresh.dateChans.tellServed.runKey.flushLog; .next { t with g := { t.g with iss := none }, now := t.now + 1 }
  | .fault f => .fault f
  | .refused r => .refused r

/-- One step: the agent that the agenda names, or the default schedule where it names none. -/
def step (s : State) : Host.Outcome State Fault Refusal :=
  match s.agenda with
  | p :: rest => (State.run { s with agenda := rest } p).finish
  | [] => s.default.finish

/-! Placing an instruction where the next step fetches it -/

/-- Writes code bytes so that a fetch reads them. -/
def Mem.putCode (m : Mem) (a : Nat) (bs : List Byte) : Mem :=
  { m with quad := m.quad.dropRange a bs.length, l2 := m.l2.dropRange a bs.length, cellar := m.cellar.putBytes a bs,
           poison := m.poison.filter fun x => !(a / 32 ≤ x && x ≤ (a + bs.length) / 32),
           tags := m.tags.filter fun x => !(a / 128 ≤ x.1 && x.1 ≤ (a + bs.length) / 128) }

/-- A group that stands in a slot and waits for nothing, so that it can issue. -/
def Group.standing (g : Group) : Group :=
  { g with present := true, state := .resident, ended := false, halted := false, paused := false, stopped := none, wait := none,
           regroupAt := none, pending := [], inflight := [], redo := [], rep := none }

/-- A path at lane word 0: at a header, or in an open clause whose one slot, or whose first of two under a prefix, is the next word. -/
def Group.atWord (g : Group) (op : Nat) : Group :=
  let id := g.nextId
  let g1 : Group := { g with running := true, runs := [g.newRun none 0], nextId := id + 1, stack := [], cached := 0 }
  if op = 0xFF then (g1.setSlot 0 (some (.start 0 g1.full))).setSlot 1 none
  else
    let e : ClauseEntry := { id := id, len := if op = 0xFE then 1 else 0, sets := [], inFlight := 0, closed := false }
    ({ g1 with entries := [e] }.setSlot 0 (some { Path.start 0 g1.full with entry := some id })).setSlot 1 none

/-- The machine with one instruction placed where the next step fetches it (log 3): the group in focus, made resident where none is,
its code page in the core's TLB at frame 2^29, its bytes there, and the agenda naming its stream. -/
def State.withFetchWord (s : State) (nbits w : Nat) : State :=
  let lane := nbits = 96
  let g0 := s.g.standing
  let g := if lane then g0.atWord (w / 2 ^ 88 % 256) else g0
  let va := if lane then g.laneAddr (if w / 2 ^ 88 % 256 = 0xFF then 0 else 1) else g.spc
  let v := va.toNat % 2 ^ 55
  let base := v / 2 ^ 29 * 2 ^ 29
  let map : Mapping := { va := base, size := 2 ^ 29, pa := 2 ^ 29, key := 0, enc := false, grain := 0, coh := .dir, xwr := 7, entry := 0 }
  let a := map.addr va
  let m := s.mem.putCode a (natToBytes (nbits / 8) w)
  let bits : BitVec 768 := BitVec.ofNat 768 (2 ^ (hashLoc a).stack) ||| BitVec.ofNat 768 (2 ^ (192 + m.slice a)) |||
    BitVec.ofNat 768 (2 ^ (hashLoc (a + 11)).stack) ||| BitVec.ofNat 768 (2 ^ (192 + m.slice (a + 11)))
  { s.abandon with
    g := g, mem := { m with coreTlb := (g.coreNo, ⟨g.asn, map, true⟩) :: m.coreTlb },
    svc := { s.svc with rdymap := s.svc.rdymap ||| bits },
    agenda := [if lane then .lane g.tag 0 else .scalar g.tag] }

end Sys2Proof.Machine
end

