-- ==== Sys2Proof/Safety.lean ====
section
/-! DEFINITION. What counts as a safe state, and the notions that statements about steps use: the invariants that steps keep, and
which part of a group an operation on its lanes may change. -/
namespace Sys2Proof.Machine

/-- Every memory keeps its canonical form (log 11). -/
def State.memWf (s : State) : Prop := Memory.wf s.mem = true

/-- `h` is `g` with at most its lanes moved: slots, stack, joins, clause entries, counters, repeat, places to execute again and the
sticky bits of GSTAT. Every register that holds data is the same. -/
def Group.LanesMoved (g h : Group) : Prop :=
  ∃ slots stack cached joins entries c rep rip rc redo gstat noWatchLane nextId parked exited,
    h = { g with slots := slots, stack := stack, cached := cached, joins := joins, entries := entries, c := c, rep := rep, rip := rip,
                 rc := rc, redo := redo, gstat := gstat, noWatchLane := noWatchLane, nextId := nextId, parked := parked,
                 exited := exited }

/-- A lane word issues at a place of the group in focus: none of the causes of R48 keeps it back (R31 to R48). -/
def State.Issues (s : State) (op : LaneOp) (w : LaneWord) (pl : IssuePlace) : Prop :=
  s.g.iss = some pl ∧ (s.g.laneCtx pl w).bars op = none

end Sys2Proof.Machine
end

