-- ==== Sys2Proof/Certificates/Slice0/Obligations.lean ====
section
/-! DEFINITION. What this model claims of the machine: one proposition per claim, each citing the rules it formalises. -/

namespace Sys2Proof.Machine

/-! Notions that several statements use -/

/-- Every register of a list is within the allotment (R10). -/
def State.HasRegs (s : State) (rs : List (BitVec 6)) : Prop := ∀ r ∈ rs, s.g.hasS r = true

/-- s with a value in s[d] and the scalar pc at the next word. -/
def State.wroteReg (s : State) (d : BitVec 6) (x : Word64) : State := (s.setS d x).advance

/-- s with a pick put before every other (the model's own; log 1). -/
def State.picking (s : State) (p : Pick) : State := { s with agenda := p :: s.agenda }

/-- What a scalar instruction tests before its registers lets it pass: PRIV, and its control word where the group has that register (R25, R48,
R323). -/
def State.TestsRegs (s : State) : Instr → Prop
  | .bara _ _ b | .barw _ _ b | .barx _ _ b => s.g.hasS b = true → (WaitCtl.of (s.sreg b)).isSome = true
  | .wword _ _ b => s.g.hasS b = true → ∃ c, WaitCtl.of (s.sreg b) = some c ∧ c.tc % 8 < 6
  | .bkmode _ _ b => s.g.hasS b = true → (bankModeOf (s.sreg b)).isSome = true
  | .sysret _ | .pgmap _ _ => s.g.hmode = true
  | .sysrd _ a | .syswr a _ => s.g.hmode = true ∧ (s.g.hasS a = true → (s.sysReg (s.sreg a)).isSome = true)
  | .tlbi _ _ b => s.g.hmode = true ∧ (s.g.hasS b = true → (Cover.of s.g.die 0 (s.sreg b)).isSome = true)
  | _ => True

/-- `t` has the memory of `s` and every register that the group in focus has there. -/
def State.KeepsRegs (s t : State) : Prop :=
  t.mem = s.mem ∧ t.g.tag = s.g.tag ∧ (∀ r : Fin 64, r.val < s.g.sAllot → t.g.s[r] = s.g.s[r]) ∧ t.g.v = s.g.v ∧ t.g.q = s.g.q ∧ t.g.n = s.g.n ∧
    t.g.p = s.g.p ∧ t.g.k = s.g.k ∧ t.g.x = s.g.x ∧ t.g.a = s.g.a ∧ t.g.h = s.g.h ∧ t.g.m = s.g.m

/-- What a `salu` function computes in its 64-bit or `.w` form (R305): sources are the low N bits, a 32-bit result is sign-extended. -/
def inWidth (f : (n : Nat) → BitVec n → BitVec n → BitVec n → BitVec n) (w : Bool) (d a b : Word64) : Word64 :=
  if w then (f 32 (d.extractLsb' 0 32) (a.extractLsb' 0 32) (b.extractLsb' 0 32)).signExtend 64 else f 64 d a b

/-- A function of R305's table: how its instruction is written, and its result from the N-bit D, A and B. -/
structure SaluRow where
  instr : BitVec 6 → BitVec 6 → BitVec 6 → Bool → Instr
  result : (n : Nat) → BitVec n → BitVec n → BitVec n → BitVec n

/-- The rows of R305's table that the table itself states: the field forms, division and the counts have statements of their own. -/
def saluRows : List SaluRow :=
  [⟨.sadd, fun _ _ a b => a + b⟩, ⟨.ssub, fun _ _ a b => a - b⟩, ⟨.smul, fun _ _ a b => a * b⟩,
   ⟨.sand, fun _ _ a b => a &&& b⟩, ⟨.sor, fun _ _ a b => a ||| b⟩, ⟨.sxor, fun _ _ a b => a ^^^ b⟩,
   ⟨.sshl, fun n _ a b => a <<< (b.toNat % n)⟩, ⟨.sshr, fun n _ a b => a >>> (b.toNat % n)⟩,
   ⟨.ssra, fun n _ a b => a.sshiftRight (b.toNat % n)⟩,
   ⟨.smin, fun _ _ a b => if a.sle b then a else b⟩, ⟨.smax, fun _ _ a b => if a.sle b then b else a⟩,
   ⟨fun d a _ w => .smov d a w, fun _ _ a _ => a⟩, ⟨.ssel, fun _ d a b => if d = 0 then b else a⟩,
   ⟨.ssetEq, fun n _ a b => BitVec.ofNat n (if a = b then 1 else 0)⟩, ⟨.ssetNe, fun n _ a b => BitVec.ofNat n (if a = b then 0 else 1)⟩,
   ⟨.ssetLt, fun n _ a b => BitVec.ofNat n (if a.slt b then 1 else 0)⟩,
   ⟨.ssetGe, fun n _ a b => BitVec.ofNat n (if b.sle a then 1 else 0)⟩,
   ⟨.ssetLtn, fun n _ a b => BitVec.ofNat n (if a.toNat < b.toNat then 1 else 0)⟩,
   ⟨.ssetGen, fun n _ a b => BitVec.ofNat n (if b.toNat ≤ a.toNat then 1 else 0)⟩]

/-- The field that `sbfx` takes out of A (R306): pos = B[7:0], len = Min(B[15:8], N), U = B[16]. -/
def fieldOf (n : Nat) (a b : BitVec n) : BitVec n :=
  let len := min (b.extractLsb' 8 8).toNat n
  let pos := (b.extractLsb' 0 8).toNat
  if b.getLsbD 16 then ((a.setWidth (n + 256)).extractLsb' pos len).setWidth n
  else ((a.signExtend (n + 256)).extractLsb' pos len).signExtend n

/-- The high half of a product, the rows of R305's table that R306 explains, and the counts. -/
def saluCornerRows : List SaluRow :=
  [⟨.smulh, fun n _ a b => (a.signExtend (n + n) * b.signExtend (n + n)).extractLsb' n n⟩,
   ⟨.sdiv, fun n _ a b =>
     if b = 0 then if 0 ≤ a.toInt then BitVec.intMax n else BitVec.intMin n else BitVec.ofInt n (a.toInt.tdiv b.toInt)⟩,
   ⟨.srem, fun n _ a b => if b = 0 then a else BitVec.ofInt n (a.toInt.tmod b.toInt)⟩,
   ⟨fun d a _ w => .sclz d a w, fun n _ a _ => BitVec.ofNat n (((List.range n).reverse.takeWhile fun i => !a.getLsbD i).length)⟩,
   ⟨fun d a _ w => .spop d a w, fun n _ a _ => BitVec.ofNat n (((List.range n).filter a.getLsbD).length)⟩,
   ⟨.sbfx, fun n _ a b => fieldOf n a b⟩]

/-! Lane instructions -/

/-- A lane instruction that writes a value and flags in each participating lane: how it is written, its operation, whether it writes a
pair (R34), and the value and flags of a lane. -/
structure LaneRow where
  instr : LaneWord → Instr
  op : LaneOp
  wide : LaneWord → Bool
  result : LaneCtx → Nat → Nat × Flags

/-- `t` is `s` after a lane instruction has written a value (for a pair its low half to the register and its high half to the next) and
flags in each participating lane, and has moved the lanes on: every other lane, register, special register and all memory is as before
(R199, R202, R208). -/
def WritesLanes (s t : State) (k : LaneCtx) (wide : Bool) (f : Nat → Nat × Flags) : Prop :=
  (∀ r < 256, ∀ l < 64, t.g.vreg r l =
    if k.m.getLsbD l = true ∧ r = k.dReg then BitVec.ofNat 32 (f l).1
    else if k.m.getLsbD l = true ∧ wide = true ∧ r = k.dReg + 1 then BitVec.ofNat 32 ((f l).1 / 2 ^ 32)
    else s.g.vreg r l) ∧
  (∀ l : Fin 64, t.g.xf[l] = if k.m.getLsbD l = true then s.g.xf[l] ||| (f l).2 else s.g.xf[l]) ∧
  (∃ v xf, ({ s.g with v := v, xf := xf } : Group).LanesMoved t.g) ∧ t = { s with g := t.g }

/-- Every participating lane raises only flags that are not enabled (R200). -/
def NoTrap (s : State) (k : LaneCtx) (f : Nat → Flags) : Prop := ∀ l < 64, k.m.getLsbD l = true → f l &&& s.g.xe = 0

/-- What R211 to R213, R222, R223 and R226 to R229 say of every instruction of a table: where the word issues and no lane raises an
enabled flag, it answers a next state with its writes made. -/
def LaneRow.Completes (row : LaneRow) : Prop :=
  ∀ (s : State) (w : LaneWord) (pl : IssuePlace), s.Issues row.op w pl →
    NoTrap s (s.g.laneCtx pl w) (fun l => (row.result (s.g.laneCtx pl w) l).2) →
    ∃ t, exec (row.instr w) s = .next t ∧ WritesLanes s t (s.g.laneCtx pl w) (row.wide w) (row.result (s.g.laneCtx pl w))

/-- The same for a long-latency instruction: it goes into flight with its writes, which LONG_LATENCY_COMPLETION makes (R43, R202). -/
def LaneRow.GoesIntoFlight (row : LaneRow) : Prop :=
  ∀ (s : State) (w : LaneWord) (pl : IssuePlace), s.Issues row.op w pl →
    NoTrap s (s.g.laneCtx pl w) (fun l => (row.result (s.g.laneCtx pl w) l).2) →
    ∃ t f, exec (row.instr w) s = .next t ∧ t.g.inflight = s.g.inflight ++ [f] ∧ f.place = pl ∧ f.waits = [] ∧
      f.commit = (s.g.laneCtx pl w).each (row.wide w) (row.result (s.g.laneCtx pl w)) ∧
      ({ s.g with inflight := t.g.inflight } : Group).LanesMoved t.g ∧ t = { s with g := t.g }

/-- `t` is `s` after a lane instruction has written a span of `count` values, `f` of the element and the lane, from D on, a pair for each
where `wide`, in each participating lane, with the flags of all of them; every other lane, register, special register and all memory is as
before (R34, R199, R202). -/
def WritesSpan (s t : State) (k : LaneCtx) (wide : Bool) (count : Nat) (f : Nat → Nat → Nat × Flags) : Prop :=
  let step := if wide then 2 else 1
  (∀ r < 256, ∀ l < 64, t.g.vreg r l =
    if k.m.getLsbD l = true ∧ k.dReg ≤ r ∧ r < k.dReg + step * count then
      BitVec.ofNat 32 ((f ((r - k.dReg) / step) l).1 / 2 ^ (32 * ((r - k.dReg) % step)))
    else s.g.vreg r l) ∧
  (∀ l : Fin 64, t.g.xf[l] = if k.m.getLsbD l = true then (List.range count).foldl (fun x i => x ||| (f i l).2) s.g.xf[l] else s.g.xf[l]) ∧
  (∃ v xf, ({ s.g with v := v, xf := xf } : Group).LanesMoved t.g) ∧ t = { s with g := t.g }

/-- No element of a span raises an enabled flag (R200). -/
def NoSpanTrap (s : State) (k : LaneCtx) (count : Nat) (f : Nat → Nat → Nat × Flags) : Prop :=
  NoTrap s k fun l => (List.range count).foldl (fun x i => x ||| (f i l).2) 0

/-- `t` is `s` with one instruction more in flight, whose writes are `c` and which waits for no answer; its lanes have moved on, and nothing
else has changed (R43, R202). -/
def State.InFlightWith (s t : State) (pl : IssuePlace) (c : Commit) : Prop :=
  ({ s.g with inflight := s.g.inflight ++ [⟨s.g.nextId, pl, c, [], none, false, none, s.g.xe, false, s.g.hmode⟩] } : Group).LanesMoved t.g ∧
    t = { s with g := t.g }

/-- Keys with the lanes that they come from, by rank, equal keys in lane order (R230). -/
def InRankOrder (t : Ty) (desc : Bool) (l : List (Nat × Nat)) : Prop :=
  l.Pairwise fun x y => ranksBefore t desc y.1 x.1 = false ∧ (ranksBefore t desc x.1 y.1 = false → x.2 < y.2)

/-- The N bits of an operand that its type reads. -/
def bitsOf (t : Ty) (x : Nat) : BitVec (tyBits t) := BitVec.ofNat (tyBits t) x

/-- A pattern of N bits as its register holds it: narrow signed types sign-extended, narrow unsigned ones zero-extended (R207). -/
def held (t : Ty) (r : BitVec (tyBits t)) : Nat := if t = .i8 ∨ t = .i16 then (r.signExtend 32).toNat else r.toNat

/-- An exact integer result stored under clamp (where the instruction has SM and it or CVM saturates, R38, R197) or wrap (R211). -/
def LaneCtx.stored (k : LaneCtx) (clamps : Bool) (r : Int) : Nat × Flags :=
  let t := k.w.ty
  let lo : Int := if t.signed then -(2 ^ (tyBits t - 1)) else 0
  let hi : Int := if t.signed then 2 ^ (tyBits t - 1) - 1 else 2 ^ tyBits t - 1
  let r1 : Int := if clamps && !t.bits && k.sat t k.w.sm then max lo (min hi r) else r
  (held t (BitVec.ofInt (tyBits t) r1), 0)

/-- An integer row: the exact result from A, B and C as integers of the type. -/
def intRow (instr : LaneWord → Instr) (op : LaneOp) (clamps : Bool) (f : Int → Int → Int → Int) : LaneRow :=
  ⟨instr, op, fun w => w.ty.wide, fun k l =>
    let x (v : Nat) : Int := toInt k.w.ty v
    k.stored clamps (f (x (k.a k.w.ty l)) (x (k.b k.w.ty l)) (x (k.c k.w.ty l)))⟩

/-- A row on bit patterns of N bits. -/
def bitRow (instr : LaneWord → Instr) (op : LaneOp) (f : (n : Nat) → BitVec n → BitVec n → BitVec n → BitVec n) : LaneRow :=
  ⟨instr, op, fun w => w.ty.wide, fun k l =>
    let t := k.w.ty
    (held t (f (tyBits t) (bitsOf t (k.a t l)) (bitsOf t (k.b t l)) (bitsOf t (k.c t l))), 0)⟩

/-- The arithmetic, logic and shift rows of R211's table, with `mov` and `sel` (R222, R223). -/
def laneIntegerRows : List LaneRow :=
  [intRow .iadd .iadd true fun a b _ => a + b, intRow .isub .isub true fun a b _ => a - b, intRow .imul .imul true fun a b _ => a * b,
   ⟨.imulh, .imulh, fun w => w.ty.wide, fun k l =>
     k.stored false (toInt k.w.ty (k.a k.w.ty l) * toInt k.w.ty (k.b k.w.ty l) / 2 ^ tyBits k.w.ty)⟩,
   intRow .imad .imad true fun a b c => a * b + c, intRow .iabs .iabs true fun a _ _ => (a.natAbs : Int), intRow .ineg .ineg true fun a _ _ => -a,
   intRow .imin .imin false fun a b _ => min a b, intRow .imax .imax false fun a b _ => max a b,
   bitRow .iand .iand fun _ a b _ => a &&& b, bitRow .ior .ior fun _ a b _ => a ||| b, bitRow .ixor .ixor fun _ a b _ => a ^^^ b,
   bitRow .inot .inot fun _ a _ _ => ~~~a,
   ⟨.ishl, .ishl, fun w => w.ty.wide, fun k l =>
     k.stored true (toInt k.w.ty (k.a k.w.ty l) * 2 ^ (k.b k.w.ty l % tyBits k.w.ty))⟩,
   bitRow .ishr .ishr fun n a b _ => a >>> (b.toNat % n), bitRow .isra .isra fun n a b _ => a.sshiftRight (b.toNat % n),
   ⟨.mov, .mov, fun w => w.ty.wide, fun k l => (k.b k.w.ty l, 0)⟩,
   ⟨.sel, .sel, fun w => w.ty.wide, fun k l => (if k.predOf k.w.c l then k.a k.w.ty l else k.b k.w.ty l, 0)⟩]

/-- The rows of R211's table that rearrange or count bits, and the field forms of R212. -/
def laneBitRows : List LaneRow :=
  [bitRow .irot .irot fun n a b _ => a.rotateLeft (b.toNat % n),
   ⟨.ibfx, .ibfx, fun w => w.ty.wide, fun k l =>
     let t := k.w.ty
     let a := bitsOf t (k.a t l)
     let pos := k.b t l % 256
     let len := min (k.b t l / 256 % 256) (tyBits t)
     (held t (if t.signed then ((a.signExtend (tyBits t + 256)).extractLsb' pos len).signExtend (tyBits t)
       else ((a.setWidth (tyBits t + 256)).extractLsb' pos len).setWidth (tyBits t)), 0)⟩,
   ⟨.ibfi, .ibfi, fun w => w.ty.wide, fun k l =>
     let t := k.w.ty
     let pos := k.b t l % 256
     let m : BitVec (tyBits t) := BitVec.ofNat (tyBits t) (2 ^ min (k.b t l / 256 % 256) (tyBits t) - 1) <<< pos
     (held t ((bitsOf t (k.c t l) &&& ~~~m) ||| ((bitsOf t (k.a t l) <<< pos) &&& m)), 0)⟩,
   bitRow .ipop .ipop fun n a _ _ => BitVec.ofNat n (((List.range n).filter a.getLsbD).length),
   bitRow .iclz .iclz fun n a _ _ => BitVec.ofNat n (((List.range n).reverse.takeWhile fun i => !a.getLsbD i).length),
   bitRow .ibrev .ibrev fun _ a _ _ => a.reverse]

/-- A floating row: `f` of the rounding mode, the saturation and one element of A, B and C, per half under f16 and bf16 (R207, R214). -/
def floatRow (instr : LaneWord → Instr) (op : LaneOp) (f : LaneWord → Nat → Bool → Nat → Nat → Nat → Nat × Flags) : LaneRow :=
  ⟨instr, op, fun w => w.ty.wide, fun k l =>
    perElem k.w.ty (f k.w (k.mode k.w.ty k.w.rm) (k.sat k.w.ty k.w.sm)) (k.a k.w.ty l) (k.b k.w.ty l) (k.c k.w.ty l)⟩

/-- The floating instructions of short latency, `fclass` and `cvt`. -/
def laneFloatRows : List LaneRow :=
  [floatRow .fadd .fadd fun w rm sat a b _ => fAdd w.ty rm sat a b, floatRow .fsub .fsub fun w rm sat a b _ => fSub w.ty rm sat a b,
   floatRow .fmul .fmul fun w rm sat a b _ => fMul w.ty rm sat a b, floatRow .ffma .ffma fun w rm sat a b c => fFma w.ty rm sat a b c,
   floatRow .fmin .fmin fun w _ _ a b _ => fMinMax w.ty false w.var a b, floatRow .fmax .fmax fun w _ _ a b _ => fMinMax w.ty true w.var a b,
   floatRow .fabs .fabs fun w _ _ a _ _ => (a % signBit w.ty, 0),
   floatRow .fneg .fneg fun w _ _ a _ _ => (if a / signBit w.ty % 2 = 1 then a - signBit w.ty else a + signBit w.ty, 0),
   floatRow .frnd .frnd fun w rm _ a _ _ => fRnd w.ty rm w.var a,
   ⟨.fclass, .fclass, fun _ => false, fun k l => perElem k.w.ty (fun a _ _ => (fClass k.w.ty a, 0)) (k.a k.w.ty l) 0 0⟩,
   ⟨.fsc, .fsc, fun w => w.ty.wide, fun k l =>
     perElem k.w.ty (fun a _ _ => fSc k.w.ty (k.mode k.w.ty k.w.rm) (k.sat k.w.ty k.w.sm) a (toInt .i32 (k.b .i32 l))) (k.a k.w.ty l) 0 0⟩,
   ⟨.cvt, .cvt, fun w => w.ty.wide, fun k l => k.conv (k.a (LaneWord.from k.w) l)⟩]

/-- Division, square root and the special functions, numbered in the order of R249. -/
def laneLongRows : List LaneRow :=
  [⟨.idiv, .idiv, fun w => w.ty.wide, fun k l =>
     let t := k.w.ty
     let a := toInt t (k.a t l)
     let b := toInt t (k.b t l)
     if b = 0 then (held t (BitVec.ofInt _ (if a < 0 then -(2 ^ (tyBits t - 1)) else if t.signed then 2 ^ (tyBits t - 1) - 1 else 2 ^ tyBits t - 1)),
       Flags.dz)
     else (held t (BitVec.ofInt _ (a.tdiv b)), 0)⟩,
   ⟨.irem, .irem, fun w => w.ty.wide, fun k l =>
     let t := k.w.ty
     let a := toInt t (k.a t l)
     let b := toInt t (k.b t l)
     if b = 0 then (held t (BitVec.ofInt _ a), Flags.dz) else (held t (BitVec.ofInt _ (a.tmod b)), 0)⟩,
   floatRow .fdiv .fdiv fun w rm sat a b _ => fDiv w.ty rm sat a b, floatRow .fsqrt .fsqrt fun w rm sat a _ _ => fSqrt w.ty rm sat a] ++
  ([(Instr.sin, LaneOp.sin), (.cos, .cos), (.ex2, .ex2), (.lg2, .lg2), (.rcp, .rcp), (.rsq, .rsq), (.tanh, .tanh)].zipIdx.map fun x =>
    ⟨x.1.1, x.1.2, fun _ => false, fun k l =>
      ((sfu x.2 (k.sat .f32 0) (BitVec.ofNat 32 (k.a .f32 l))).1.toNat, (sfu x.2 (k.sat .f32 0) (BitVec.ofNat 32 (k.a .f32 l))).2)⟩)

/-- A shuffle: the source lane of each lane from the width, the lane and B (R226). -/
def shuffleRow (instr : LaneWord → Instr) (op : LaneOp) (src : Nat → Nat → Nat → Nat) : LaneRow :=
  ⟨instr, op, fun w => w.ty.wide, fun k l => (k.a k.w.ty (src k.g.width l (k.b .b32 l)), 0)⟩

/-- Shuffles, broadcast, ballot, reduction, scan and the reads of `fexp`. -/
def crossLaneRows : List LaneRow :=
  [shuffleRow .shfl .shfl fun n l u => if u < n then u else l, shuffleRow .shup .shup fun _ l u => if u ≤ l then l - u else l,
   shuffleRow .shdn .shdn fun n l u => if l + u < n then l + u else l, shuffleRow .bcast .bcast fun n _ u => u % n,
   ⟨.voteBallot, .voteBallot, fun w => w.ty.wide, fun k _ => (k.votes.toNat, 0)⟩,
   ⟨.redg, .redg, fun w => w.ty.wide, fun k _ => k.node 0 (Nat.log2 k.g.width)⟩,
   ⟨.scang, .scang, fun w => w.ty.wide, fun k l => k.scan 7 0 (l + 1) none⟩,
   ⟨.fexpGet, .fexpGet, fun _ => false, fun k l => ((k.g.xf[l]?.getD 0).toNat, 0)⟩,
   ⟨.fexpCvmget, .fexpCvmget, fun _ => true, fun k _ => (k.g.cvm.toNat, 0)⟩,
   ⟨.fexpXeget, .fexpXeget, fun _ => false, fun k _ => (k.g.xe.toNat, 0)⟩]

/-- A lane instruction that writes one bit of a predicate, and flags, in each participating lane. -/
structure BitRow where
  instr : LaneWord → Instr
  op : LaneOp
  result : LaneCtx → Nat → Bool × Flags

/-- What such an instruction does: the bits of predicate FN[5:3] in the participating lanes, unless it is p0 (R12, R38). -/
def BitRow.Completes (row : BitRow) : Prop :=
  ∀ (s : State) (w : LaneWord) (pl : IssuePlace), s.Issues row.op w pl →
    let k := s.g.laneCtx pl w
    NoTrap s k (fun l => (row.result k l).2) →
    ∃ t, exec (row.instr w) s = .next t ∧
      (∀ (i : BitVec 3), ∀ l < 64, t.g.p[i.toNat].getLsbD l =
        if i = w.fn.extractLsb' 3 3 ∧ i ≠ 0 ∧ k.m.getLsbD l = true then (row.result k l).1 else s.g.p[i.toNat].getLsbD l) ∧
      (∀ l : Fin 64, t.g.xf[l] = if k.m.getLsbD l = true then s.g.xf[l] ||| (row.result k l).2 else s.g.xf[l]) ∧
      (∃ p xf, ({ s.g with p := p, xf := xf } : Group).LanesMoved t.g) ∧ t = { s with g := t.g }

/-- Comparisons (R213, R216), predicate logic (R224) and votes (R227). -/
def predicateRows : List BitRow :=
  [⟨.icmp, .icmp, fun k l =>
     let a := toInt k.w.ty (k.a k.w.ty l)
     let b := toInt k.w.ty (k.b k.w.ty l)
     (match k.w.fn.toNat % 8 with
      | 0 => decide (a = b) | 1 => decide (a ≠ b) | 2 => decide (a < b) | 3 => decide (a ≤ b) | 4 => decide (b < a) | _ => decide (b ≤ a), 0)⟩,
   ⟨.fcmp, .fcmp, fun k l =>
     fCmp k.w.ty (k.w.fn.toNat % 8) (k.a k.w.ty l % 2 ^ tyBits k.w.ty) (k.b k.w.ty l % 2 ^ tyBits k.w.ty)⟩,
   ⟨.plog, .plog, fun k l =>
     let a := k.predOf k.w.a l
     let b := k.predOf k.w.b l
     (match k.w.fn.toNat % 8 with
      | 0 => a && b | 1 => a || b | 2 => a ^^ b | 3 => a && !b | 4 => a || !b | 5 => !(a && b) | 6 => !(a || b) | _ => !(a ^^ b), 0)⟩,
   ⟨.voteAny, .voteAny, fun k _ => (k.m.lanes.any (k.predOf k.w.a), 0)⟩,
   ⟨.voteAll, .voteAll, fun k _ => (k.m.lanes.all (k.predOf k.w.a), 0)⟩]

/-- Component `c` of register `j` of a direction in lane `l`, as `qunpk` gives it (R241). -/
def LaneCtx.unpacked (k : LaneCtx) (j c l : Nat) : Nat × Flags :=
  let a := k.g.direction k.aDir k.w.qspan
  if a.code = zeroCode then (0, 0)
  else if a.code = invalidCode then ((fmt k.w.ty).nan, 0)
  else qunpkElem k.w.ty (k.mode k.w.ty (k.w.fn.toNat / 2 % 8)) (k.sat k.w.ty 0) k.w.var a.code (k.g.qreg (k.aDir + j) l c).toInt

/-- A directional instruction that writes a direction. -/
structure DirRow where
  instr : LaneWord → Instr
  op : LaneOp
  result : LaneCtx → Dirn × Flags

/-- What such an instruction does (R237). -/
def DirRow.Completes (row : DirRow) : Prop :=
  ∀ (s : State) (w : LaneWord) (pl : IssuePlace), s.Issues row.op w pl →
    let k := s.g.laneCtx pl w
    (k.m ≠ 0 → (row.result k).2 &&& s.g.xe = 0) →
    ∃ t, exec (row.instr w) s = .next t ∧ t = { s with g := t.g } ∧
      (∃ q n xf, ({ s.g with q := q, n := n, xf := xf } : Group).LanesMoved t.g) ∧
      (k.m = 0 → t.g.q = s.g.q ∧ t.g.n = s.g.n) ∧
      (k.m ≠ 0 → (∀ i : Fin 16, t.g.n[i] = if i.val = k.dDir then (row.result k).1.code else s.g.n[i]) ∧
        ∀ r < 16, ∀ l < 64, ∀ c < 8, t.g.qreg r l c =
          if k.dDir ≤ r ∧ r < k.dDir + w.qspan ∧ l < s.g.width then
            BitVec.ofInt 32 ((row.result k).1.comp[8 * (s.g.width * (r - k.dDir) + l) + c]?.getD 0)
          else s.g.qreg r l c) ∧
      ∀ l : Fin 64, t.g.xf[l] = if k.m.getLsbD l = true then s.g.xf[l] ||| (row.result k).2 else s.g.xf[l]

/-- The directional instructions of R240 and R243 to R246. -/
def directionRows : List DirRow :=
  [⟨.qpack, .qpack, fun k => qpackDir (LaneWord.from k.w) k.packElems⟩, ⟨.qsc, .qsc, fun k => qscDir k.w.var k.dirA (toInt .i32 (k.b .q 0))⟩,
   ⟨.qadd, .qadd, fun k => qaddDir k.w.var k.dirA k.dirB⟩, ⟨.qproj, .qproj, fun k => qprojDir 1 k.w.var k.dirA k.dirB⟩,
   ⟨.qrot, .qrot, fun k => qprojDir 2 false k.dirA k.dirB⟩, ⟨.qmov, .qmov, fun k => (k.dirA, 0)⟩]

/-! Accesses of lane instructions -/

/-- The accesses `l` of a lane instruction (number, address, offset) resolve to `accs`, and `s1` is the state that their translation
leaves: all are aligned (R168), the register that BK 0 names is valid and formed afresh where it was stale (R118), no walk
has to wait (R70, R76, R383), every address translates with permission (R112, R114), no watch register covers one (R373), no line is
held (R76, R383), and for a load none waits for an operation of the group's own (R147). -/
def State.Resolved (s : State) (k : LaneCtx) (bk : Nat) (f : AccessForm) (l : List (Nat × Word64 × Word64)) (accs : List LaneAcc)
    (s1 : State) : Prop :=
  ∃ (r : TransReg) (s0 : State), (∀ x ∈ l, x.2.1.toNat % f.al = 0) ∧ s.laneHeld k bk f l = false ∧
    (if bk = 0 then (match s.freshReg s.g k.treg with
       | .ok x => r = x ∧ s0 = if k.treg.stale then s.freshSnap k r else s
       | .error _ => l = [] ∧ s0 = s) else s0 = s) ∧
    (l.map fun x => (x.1, x.2.1, if bk = 0 then s0.reachReg f r x.2.2 else s0.reachVa f x.2.1)) =
      (accs.map fun a => (a.lane, a.va, .ok a.reach)) ∧
    (∀ a ∈ accs, (!s.g.hmode && !s.g.noWatchLane &&
      (watches s.g.watch0 a.va f.n f.store || watches s.g.watch1 a.va f.n f.store)) = false) ∧
    s.lineHeld (accs.flatMap (LaneAcc.lines f.n)) = false ∧
    (f.store = false → (s.g.sb.any fun e => !e.performed && e.op matches .op .. &&
      e.lines.any fun x => (accs.flatMap (LaneAcc.lines f.n)).contains x) = false) ∧
    s1 = accs.foldl (fun s a => match a.reach with | .mem p => s.notePlace p f.kind | .win _ => s) s0

/-- No access is at a FIFO bank, and none is a scratch violation (R18, R132). -/
def PlainAccesses (accs : List LaneAcc) : Prop :=
  ∀ a ∈ accs, match a.reach with
    | .mem _ => True
    | .win (.scratch _ _) => True
    | .win _ => False

/-- `t` is `s` after a lane instruction at `pl` has put entries for `ops`, of `n` accesses, at the end of the store buffer and has gone into
flight: with its own writes `c`, and, where `answers`, until each entry is answered, to the register or pair `dst`. Its lanes have moved on,
and nothing else has changed (R43, R148). -/
def State.Sends (s t : State) (pl : IssuePlace) (ops : List SbOp) (n : Nat) (answers : Bool) (dst : Option Nat) (wide : Bool) (c : Commit) :
    Prop :=
  ∃ (es : List SbEntry) (f : InFlight), es.map (·.op) = ops ∧ (∀ e ∈ es, e.pts = s.g.pts ∧ e.performed = false) ∧
    f.place = pl ∧ f.commit = c ∧ f.waits = (if answers then es.map (·.id) else []) ∧ f.dst = dst ∧ f.wide = wide ∧
    ({ s.g with sb := s.g.sb ++ es, uac := s.g.uac + BitVec.ofNat 16 n, inflight := s.g.inflight ++ [f] } : Group).LanesMoved t.g ∧
    t = { s with g := t.g }

/-- Whether the fence of a release, where an order has one, has nothing left to wait for (R151, R152). -/
def State.mayRelease (s : State) (o : Ord) (sc : Scope) : Prop := Ord.releases o = true → s.fenceReady sc = true

/-- s after the fence of a release, where an order has one (R152). -/
def State.releasing (s : State) (o : Ord) (sc : Scope) : State := if Ord.releases o then s.fence sc else s

/-- s after the acknowledgements of `n` entries from `first` on and the steps of an acquire, where an order has one (R152). -/
def State.acquiring (s : State) (o : Ord) (sc : Scope) (first n : Nat) : State :=
  if Ord.acquires o then (((List.range n).map (first + ·)).foldl State.acknowledge s).acquire sc else s

/-- The bytes and the alignment of an access of one element, or of four under `.x4` (R168). -/
def accessBytes (w : LaneWord) : Nat := (if w.var then 4 else 1) * w.ty.esize

/-- Nothing keeps a load of the group in focus from some lines back: none waits at its die or for a piece of a drain, and no operation of
its own on them has still to be performed (R76, R147, R268, R383). -/
def State.LinesFree (s : State) (ls : List (Nat ⊕ Nat)) : Prop :=
  s.lineHeld ls = false ∧
    (s.g.sb.any fun e => !e.performed && e.op matches .op .. && e.lines.any fun x => ls.contains x) = false

/-- s with an entry for some bytes of the scalar stream in the store buffer, and the scalar pc at the next word (R148). -/
def State.withStore (s : State) (bs : List (Target × Byte)) : State :=
  { s with g := { s.g with sb := s.g.sb ++ [⟨s.g.nextId, 1, s.g.pts, fpcScalar s.g.spc, 0, none, s.g.hmode, .store bs, false, 0, [], [], []⟩],
                           nextId := s.g.nextId + 1, uac := s.g.uac + 1, spc := s.g.spc + 4, wait := none, noWatch := false } }

/-- A Porter command as R184 and R185 read it from its registers, before it has a slot; LENGTH is bits 31:0 of s[P]. -/
def State.portCmd (s : State) (kind : Nat) (p a b : BitVec 6) (rows dstStride srcStride : Nat) (index : Word64) : PorterCmd :=
  { core := s.g.coreNo, slot := 0, tag := s.g.tag, kind := kind, spc := s.g.spc, inHandler := s.g.hmode, pts := s.g.pts,
    arrival := s.sreg (p + 1), dst := s.sreg a, src := s.sreg b, pattern := s.sreg b, rowLen := (s.sreg p).toNat % 2 ^ 32,
    rows := rows, dstStride := dstStride, srcStride := srcStride, index := index, row := 0, done := 0, delivered := 0,
    enc := false, key := 0, looked := true, barred := false, lodge := none, filling := false }

/-- The commands of R185 that are issued alike: the instruction, the last of the registers from P that it reads, and the command. -/
def State.portRows (s : State) (p a b : BitVec 6) : List (Instr × Nat × PorterCmd) :=
  let len := (s.sreg p).toNat % 2 ^ 32
  let count := (s.sreg p).toNat / 2 ^ 32 % 2 ^ 16 + 1
  [(.pcopy p a b false, 1, s.portCmd 0 p a b 1 0 0 0),
   (.pcopy p a b true, 2, s.portCmd 0 p a b count ((s.sreg (p + 2)).toNat % 2 ^ 32) ((s.sreg (p + 2)).toNat / 2 ^ 32) 0),
   (.pgather p a b false, 2, s.portCmd 1 p a b count len len (s.sreg (p + 2))),
   (.pgather p a b true, 3, s.portCmd 1 p a b count len (s.sreg (p + 3)).toNat (s.sreg (p + 2))),
   (.pscatter p a b false, 2, s.portCmd 2 p a b count len len (s.sreg (p + 2))),
   (.pscatter p a b true, 3, s.portCmd 2 p a b count (s.sreg (p + 3)).toNat len (s.sreg (p + 2))),
   (.pfill p a b, 1, s.portCmd 3 p a b 1 0 0 0), (.ppush p a b, 1, s.portCmd 5 p a b 1 0 0 0)]

/-- A state with the scalar pc at the next word, and nothing else of the group changed but what ends with an instruction. -/
def State.next (s : State) : State := { s with g := { s.g with spc := s.g.spc + 4, wait := none, noWatch := false } }

/-- s with one work item more at the end of the group's queue, in the open batch, a new head dated (R267, R270). -/
def State.queued (s : State) (room : Nat) (op : RoomOp) : State :=
  { s with g := ({ s.g with nextId := s.g.nextId + 1, work := s.g.work ++
      [⟨s.g.nextId, room, op, .queued, none, s.now, none, false, [], [], s.g.seen, fpcScalar s.g.spc, s.g.hmode⟩] } : Group).dateHead s.now }

/-- An access of a sync function goes ahead: aligned, translated, in memory of a package or in a bank, not watched, its line not held, and no
entry of the group's own on that line still to be performed (R147, R323, R373). -/
def State.SyncAt (s : State) (va : Word64) (n al : Nat) (k : AccessKind) (t : Target) : Prop :=
  va.toNat % al = 0 ∧ s.walkHeld s.g va k = false ∧ s.syncTarget va n k = .ok t ∧ s.g.watched va n (needsW k) = false ∧ s.lineHeld [t.line] = false ∧
    (s.g.sb.any fun e => !e.performed && e.lines.any fun l => [t.line].contains l) = false

/-- s after an acquire of a scope (R152). -/
def State.acquired (s : State) (sc : Scope) : State := s.acquireIf .acq sc false

/-- Whether `t` is `s` standing parked at its word (R326, R327). -/
def State.ParkedIn (s t : State) (arrived : Bool) (c : WaitCtl) : Prop :=
  ∃ w : Wait, t = { s with g := { s.g with wait := some w } } ∧ w.parked = true ∧ w.woken = false ∧ w.written = false ∧ w.arrived = arrived ∧ w.polled = s.now ∧
    (s.g.wait = none → w.spc = s.g.spc ∧ w.since = s.now ∧ w.limit = if c.timeout = 0 then none else some (c.timeout * 1024))

/-- Nothing is on its way at a memory: no request is pending at a channel, no slice tests a bank, and no NONE line is dirty. -/
def Mem.Quiet (m : Mem) : Prop := m.chans = [] ∧ (∀ st < 16, m.mst st 9 1 = 0) ∧ ∀ x ∈ m.nones, x.dirty = 0

/-- Bytes that no part of memory returns as poison (R63, R385). -/
def State.Clean (s : State) (a n : Nat) : Prop :=
  ∀ i < n, s.unrouted (a + i) = false ∧ s.mem.poison.contains ((a + i) / 32) = false ∧ s.mem.hbmPoison (a + i) = false

/-- Memory in the clear: what the lines that no key tag covers read as is the same in both (R77). -/
def SameBytes (m n : Mem) : Prop := ∀ x, m.tagOf (x / 128) = none → n.byte x = m.byte x

/-- The other groups are as before, but for what they know of writes to words that they watch (R327). -/
def State.SameOthers (s t : State) : Prop := t.others.map (fun g => { g with wait := none }) = s.others.map fun g => { g with wait := none }

/-- The home of a unit of this package is at rest under a grain (R84, R85): no request waits and no transaction meets the unit, its tag entry, if there is one, has
that grain and its records, and the adapter holds none of it. -/
def Mem.AtRest (m : Mem) (b : Nat) (g : BitVec 2) : Prop :=
  isOwn b = true ∧ g ≠ 3 ∧ b % grainSize g = 0 ∧ m.queue = [] ∧ (∀ t ∈ m.txns, t.addr + grainSize t.grain ≤ b ∨ b + grainSize g ≤ t.addr) ∧
    ∀ e, m.dirEntry b = some e → e.grain = g ∧ e.host = 0 ∧ e.units.length = 512 / grainSize g

/-- One transaction stands open on a unit whose home is otherwise at rest. -/
def Mem.Open (m : Mem) (b : Nat) (t : Txn) : Prop :=
  t.addr = b ∧ m.txns = [t] ∧ (m.dirEntry b).isSome = true ∧ ({ m with txns := [] } : Mem).AtRest b t.grain

/-- The state in which a quad holds a unit, if it does (R86). -/
def Mem.holds (m : Mem) (q b : Nat) : Option Moesi := (m.qline q b).map (·.st)

/-- `h` is `g` just after it has entered its handler for a cause (R367, steps 3 to 6): the fault registers name the cause, the frame holds what the
handler may use, HMASK the lanes named or else every live lane, s56 to s63 beyond the allotment are unspecified (R370), and nothing else has
changed. -/
def Group.EnteredFrom (g h : Group) (f : FaultRecord) (deferred : Bool) (vec : Word64 × Word64) : Prop :=
  ∃ fr : Frame, h.frame = some fr ∧
    h = { g with frame := some fr, hmode := true, spc := vec.1, hbase := vec.2, hrpc := g.spc, fcause := f.cause.code,
                 fpc := if deferred then f.fpc ||| 0x8000000000000000#64 else f.fpc,
                 finfo := if g.lost then f.info ||| 0x100#64 else f.info, lost := false, finfoMask := f.mask &&& g.full, faddr := f.addr,
                 hmask := if f.mask &&& g.full = 0 then g.liveLanes else f.mask &&& g.full, c := Vector.replicate 12 0,
                 slots := Vector.replicate 2 none, stack := [], cached := 0, joins := Vector.replicate 8 [], parked := 0, runs := [], running := false,
                 entries := [], rep := none, rip := false, rc := 0, redo := [], ended := false, stopped := none, wait := none, regroupAt := none,
                 noWatch := false, noWatchLane := false, pending := h.pending, s := h.s, late := [] } ∧
    (∀ r : Fin 64, r.val < 56 ∨ r.val < g.sAllot → h.s[r] = g.s[r]) ∧ fr.hrpc = g.spc ∧
    (∀ i : Fin 8, fr.s[i]? = g.s[56 + i.val]?) ∧ fr.slots = g.slots ∧ fr.stack = g.stack ∧ fr.joins = g.joins ∧ fr.runs = g.runs ∧ fr.c = g.c ∧
    fr.rc = g.rc ∧ fr.rip = g.rip ∧ fr.rep = g.rep ∧ fr.noWatch = g.noWatch ∧ fr.noWatchLane = g.noWatchLane ∧ fr.record = f ∧ fr.deferred = deferred

/-- A group stands halted with a cause in its fault registers, and its Caravan is to be pre-empted with HALT in its image (R369). -/
def State.HaltedWith (s t : State) (f : FaultRecord) (deferred : Bool) : Prop :=
  t.g.halted = true ∧ t.g.fcause = f.cause.code ∧ t.g.fpc = (if deferred then f.fpc ||| 0x8000000000000000#64 else f.fpc) ∧
    t.g.faddr = f.addr ∧ t.g.finfoMask = f.mask &&& s.g.full ∧ t.g.s = s.g.s ∧ t.g.spc = s.g.spc ∧ t.mem = s.mem ∧
    ∀ c ∈ t.disp.caravans, c.id = s.g.caravan → c.halt = true ∧ c.preempt = true

/-! Exact values and rounding -/

/-- `2^e`. -/
def pow2 (e : Int) : Rat := if 0 ≤ e then ((2 ^ e.toNat : Nat) : Rat) else 1 / ((2 ^ (-e).toNat : Nat) : Rat)

/-- The rational that a finite value is. -/
def FVal.num : FVal → Option Rat
  | .fin s m e => some ((if s then -1 else 1) * (m : Rat) * pow2 e)
  | _ => none

/-- The finite values of a format (R187). -/
def finite (t : Ty) (v : Rat) : Prop := ∃ c < 2 * signBit t, (unpack t c).num = some v

/-- An exact real, given by how it compares with each rational: here a rational itself. -/
def exactly (x v : Rat) : Ordering := if x < v then .lt else if x = v then .eq else .gt

/-- The square root of `x`, given in the same way. -/
def rootOf (x v : Rat) : Ordering := if v < 0 then .gt else exactly x (v * v)

/-- `y` is the nearest member of `S` to an exact real, a tie with another member going to `y` only where `tie` of that member holds. -/
def Nearest (S : Rat → Prop) (x : Rat → Ordering) (y : Rat) (tie : Rat → Prop) : Prop :=
  ∀ v, S v → (y < v → x ((y + v) / 2) = .lt ∨ x ((y + v) / 2) = .eq ∧ tie v) ∧
    (v < y → x ((v + y) / 2) = .gt ∨ x ((v + y) / 2) = .eq ∧ tie v)

/-- `y` is what an exact real rounds to among the members of `S` in the modes of R193; `even` says that the last bit of `y` is 0. -/
def RoundedTo (S : Rat → Prop) (rm : Nat) (x : Rat → Ordering) (y : Rat) (even : Prop) : Prop :=
  let down := x y ≠ .lt ∧ ∀ v, S v → x v ≠ .lt → v ≤ y
  let up := x y ≠ .gt ∧ ∀ v, S v → x v ≠ .gt → y ≤ v
  S y ∧
  (rm = 1 → Nearest S x y fun _ => even) ∧ (rm = 2 → if x 0 = .lt then up else down) ∧
  (rm = 3 → up) ∧ (rm = 4 → down) ∧ (rm = 5 → Nearest S x y fun v => v * v ≤ y * y)

/-- A result in format `t` is the exact real rounded once, and NX says whether that changed it, wherever the real does not lie beyond every
finite value (R193). -/
def RoundsTo (t : Ty) (rm : Nat) (x : Rat → Ordering) (r : Nat × Flags) : Prop :=
  (∃ v, finite t v ∧ x v ≠ .gt ∧ x (-v) ≠ .lt) →
    ∃ y, (unpack t r.1).num = some y ∧ RoundedTo (finite t) rm x y (r.1 % 2 = 0) ∧ (r.2 &&& Flags.nx ≠ 0 ↔ x y ≠ .eq)

/-- The node of a pairwise tree over `2^n` values (R177): Op of the nodes of its two halves. -/
def treeOf {α : Type} (op : α → α → α) : Nat → (Nat → α) → α
  | 0, f => f 0
  | n + 1, f => op (treeOf op n f) (treeOf op n fun i => f (2 ^ n + i))

/-- The tree nodes that cover the next `2^p` lanes each, counting from `base` (R205). -/
def nodesFrom {α : Type} (op : α → α → α) (f : Nat → α) : Nat → List Nat → List α
  | _, [] => []
  | base, p :: ps => treeOf op p (fun i => f (base + i)) :: nodesFrom op f (base + 2 ^ p) ps

end Sys2Proof.Machine

open Sys2Proof Sys2Proof.Machine

/-! ## Encoding -/

/-- Words written out from R22's formats, R31 and R40 and from the encodings the manual prints decode to what they stand for. -/
def Obligations.PrintedWordsDecode : Prop :=
  decodeTableWord 32 0x04310500 = some (.sadd 3 4 5 false) ∧ decodeTableWord 32 0x04310580 = some (.sadd 3 4 5 true) ∧
  decodeTableWord 32 0x0830FFFF = some (.saddi 3 3 0x3FFF) ∧ decodeTableWord 32 0x47F00003 = some (.scall 63 3) ∧
  decodeTableWord 32 0x480FC000 = some (.sret 63) ∧ decodeTableWord 32 0x500A07FE = some (.sloop 5 0x7FE) ∧
  decodeTableWord 32 0x54000000 = some .sexit ∧ decodeTableWord 32 0x58004000 = some (.regroup 1) ∧
  decodeTableWord 32 0x68310010 = some (.sget 3 4 16) ∧ decodeTableWord 32 0x6C308001 = some (.sgetp 3 (.k 2)) ∧
  decodeTableWord 32 0x70214000 = some (.sputp (.p 2) 5) ∧ decodeTableWord 32 0x70118002 = some (.sputp (.x 1) 6) ∧
  decodeTableWord 32 0x74710000 = some (.sgetn 7 4) ∧ decodeTableWord 32 0x7841C000 = some (.sputn 4 7) ∧
  decodeTableWord 96 0x8200000040A0000000000000 =
    some (.lsetk ⟨false, 0, .i8, 0, 0, 0x205, 0, 0, false, 0⟩) ∧
  decodeTableWord 96 0x82000400000000000000FFFF =
    some (.lsetk ⟨false, 0, .i8, 2, 0, 0, 0, 0, false, 0xFFFF⟩)

/-- Encoding then decoding gives a well-formed scalar instruction back, at every value of every operand (R20 to R28). -/
def Obligations.ScalarRoundTrip : Prop :=
  ∀ (i : Instr) (w : BitVec 32), i.wf = true → encodeScalar i = some w → decodeBytes (natToBytes 4 w.toNat) = .ok i

/-- Encoding then decoding gives a well-formed lane instruction, clause header or repeat prefix back, at every value of every operand
(R20, R31 to R44). -/
def Obligations.LaneRoundTrip : Prop :=
  ∀ (i : Instr) (w : BitVec 96), i.wf = true → encodeLane i = some w → decodeBytes (natToBytes 12 w.toNat) = .ok i

/-- No bit of a scalar word is dropped: a word that decodes is the only word of its instruction (R23: a field that is not used must be
zero). No bit of a lane word is dropped: a word that decodes is the only word of its instruction (R31, R40, R44, R47). -/
def Obligations.WordsAreUnique : Prop :=
  (∀ (i : Instr) (w : BitVec 32), decodeScalar w = .ok i → i.wf = true ∧ encodeScalar i = some w) ∧
  (∀ (i : Instr) (w : BitVec 96), decodeLane w = .ok i → i.wf = true ∧ encodeLane i = some w)

/-! ## One step -/

/-- Where the scalar stream of the group in focus is picked and may issue, a step executes the instruction that the bytes at the scalar pc
decode to, on the state after the fetch, which the first word of an implicit body finds with its region open; the end of the step writes
the service log and counts the cycle; a load that may still see memory change is noted, and the word counts as an issue unless it stalled (R289).
A scalar word that decodes to nothing traps ILLEGAL and has no other effect (R47). The pick, the count, the moment of that opening and the late loads are the model's own (logs 1, 16, 19 and 12). -/
def Obligations.StepRunsTheScalarWord : Prop :=
  ∀ (s s1 : State) (bs : List Byte), s.scalarReady = true → s.fetchHeld s.g.spc 4 = false →
    s.stampScalar.openOwn.fetch s.g.spc 4 = (s1, .ok bs) →
    (∀ i, decodeBytes bs = .ok i →
      step (s.picking (.scalar s.g.tag)) = Out.finish ((Out.landScalar (exec i s1) s.g i).noteLate s1 i)) ∧
    (∀ e, decodeBytes bs = .error e → step (s.picking (.scalar s.g.tag)) = Out.finish (.next (s1.scalarFault .illegal)))

/-- Where a PC slot of the group in focus is picked and it is its turn (R294), a step executes the lane instruction that the bytes of the slot's lane
word decode to, on the state after the fetch, if it may stand there (R41). A word that stalled does not count as an issue (R289, R294). The
pick and the count of the cycle are the model's own (logs 1 and 16). -/
def Obligations.StepRunsTheLaneWord : Prop :=
  ∀ (s s1 : State) (k : Nat) (pl : IssuePlace) (bs : List Byte) (i : Instr), s.g.present = true → s.g.nextPlace k = some pl →
    s.laneTurn k = true → (s.stampLane pl).fetch (s.g.laneAddr pl.index) 12 = (s1, .ok bs) → decodeBytes bs = .ok i →
    pl.fits i = true → step (s.picking (.lane s.g.tag k)) = Out.finish (Out.landLane (exec i s1) s.g)

/-- Every step keeps the canonical form of the byte stores: addresses strictly rise, and no store that reads 0 where nothing is listed
lists a 0, so that equal memories are equal data. The form is the model's own (log 11). -/
def Obligations.StepKeepsMemoryForm : Prop :=
  ∀ s t : State, s.memWf → step s = .next t → t.memWf

/-! ## The scalar stream -/

/-- Each function of R305's table writes its result to s[D], in both widths, and the stream goes on at the next word. `smulh` gives the
high half of the product; division truncates toward zero and has the corners of R306; a count is over N bits; `sbfx` takes the field that
R306 names out of A, with the bits at or above N as U says, and extends it. `sbfi` writes D with bits pos to pos + len − 1 replaced by the
low bits of A, bit by bit; under `.w` bit 31 is copied upward (R306). -/
def Obligations.ScalarArithmeticResults : Prop :=
  (∀ row ∈ saluRows, ∀ (s : State) (d a b : BitVec 6) (w : Bool), s.HasRegs [d, a, b] →
     exec (row.instr d a b w) s = .next (s.wroteReg d (inWidth row.result w (s.sreg d) (s.sreg a) (s.sreg b)))) ∧
  (∀ row ∈ saluCornerRows, ∀ (s : State) (d a b : BitVec 6) (w : Bool), s.HasRegs [d, a, b] →
     exec (row.instr d a b w) s = .next (s.wroteReg d (inWidth row.result w (s.sreg d) (s.sreg a) (s.sreg b)))) ∧
  (∀ (s : State) (d a b : BitVec 6) (w : Bool), s.HasRegs [d, a, b] →
     ∃ r : Word64, exec (.sbfi d a b w) s = .next (s.wroteReg d r) ∧
       ∀ i < 64,
         let j := if w then min i 31 else i
         let pos := ((s.sreg b).extractLsb' 0 8).toNat
         let len := min ((s.sreg b).extractLsb' 8 8).toNat (if w then 32 else 64)
         r.getLsbD i = if pos ≤ j ∧ j < pos + len then (s.sreg a).getLsbD (j - pos) else (s.sreg d).getLsbD j)

/-- The immediate forms compute on 64 bits with IMM14 sign-extended; the shifts take 0 to 63, and other values are ILLEGAL (R307). The
constant forms: `slo` writes IMM20 sign-extended, `shi` bits 39:20 and `shx` bits 63:40, each keeping the other bits (R308). `slo`, `shi`
and `shx` in that order build every value whose bits 63:59 are all equal (R308). -/
def Obligations.ImmediateAndConstantResults : Prop :=
  (∀ (s : State) (d a : BitVec 6), s.HasRegs [d, a] →
     (∀ imm : BitVec 14,
       exec (.saddi d a imm) s = .next (s.wroteReg d (s.sreg a + imm.signExtend 64)) ∧
       exec (.sandi d a imm) s = .next (s.wroteReg d (s.sreg a &&& imm.signExtend 64)) ∧
       exec (.sori d a imm) s = .next (s.wroteReg d (s.sreg a ||| imm.signExtend 64)) ∧
       exec (.sxori d a imm) s = .next (s.wroteReg d (s.sreg a ^^^ imm.signExtend 64)) ∧
       exec (.smuli d a imm) s = .next (s.wroteReg d (s.sreg a * imm.signExtend 64))) ∧
     (∀ imm : BitVec 6,
       exec (.sshli d a imm) s = .next (s.wroteReg d (s.sreg a <<< imm.toNat)) ∧
       exec (.sshri d a imm) s = .next (s.wroteReg d (s.sreg a >>> imm.toNat)) ∧
       exec (.ssrai d a imm) s = .next (s.wroteReg d ((s.sreg a).sshiftRight imm.toNat))) ∧
     ∀ op ∈ [6#6, 7#6, 8#6], ∀ imm : BitVec 14, 64 ≤ imm.toNat → ∃ e, decodeScalar (op ++ d ++ a ++ imm) = .error e) ∧
  (∀ (s : State) (d : BitVec 6) (imm : BitVec 20), s.HasRegs [d] →
     exec (.slo d imm) s = .next (s.wroteReg d (imm.signExtend 64)) ∧
     (∃ r : Word64, exec (.shi d imm) s = .next (s.wroteReg d r) ∧
       r.extractLsb' 20 20 = imm ∧ r.extractLsb' 0 20 = (s.sreg d).extractLsb' 0 20 ∧
       r.extractLsb' 40 24 = (s.sreg d).extractLsb' 40 24) ∧
     ∃ r : Word64, exec (.shx d imm) s = .next (s.wroteReg d r) ∧
       r.extractLsb' 40 24 = imm.signExtend 24 ∧ r.extractLsb' 0 40 = (s.sreg d).extractLsb' 0 40) ∧
  (∀ (s : State) (d : BitVec 6) (x : Word64), s.HasRegs [d] → (x.extractLsb' 59 5 = 0#5 ∨ x.extractLsb' 59 5 = 0x1F#5) →
     ∃ (i j k : BitVec 20) (t u v : State), exec (.slo d i) s = .next t ∧ exec (.shi d j) t = .next u ∧ exec (.shx d k) u = .next v ∧
       v.sreg d = x)

/-- Every scalar instruction that names an s register outside the allotment traps REGBOUND and has no other effect: no byte of memory and no
register of the allotment is written (R10, R48). What is tested before that is a premise: PRIV, and the control word of a wait, of `bkmode` and of a
privileged instruction, in registers that the group has (R48, R323; their order is log 39). -/
def Obligations.RegisterBound : Prop :=
  ∀ (s : State) (i : Instr), (∃ r ∈ sregs i, s.g.hasS r = false) → s.TestsRegs i →
    exec i s = .next (s.scalarFault .regbound) ∧ s.KeepsRegs (s.scalarFault .regbound)

/-- Branches go to PC + 4 × offset; a link is PC + 4; `sret` goes to s[A] where that is a multiple of 4; conditions 6 and 7 are ILLEGAL
(R309, R310). An `sret` whose s[A] is not a multiple of 4 faults with ALIGN and FADDR = s[A], and does not branch (R310). `sexit` ends the
scalar stream and puts the group into RETIRING; nothing else changes where no region of `rbeg` is open (R311). A region that `rbeg` opened
aborts with EXPLICIT at `sexit`, and the scalar stream does not go to the abort address (R311, R343). -/
def Obligations.ScalarControlFlow : Prop :=
  (∀ (s : State),
     (∀ off : BitVec 20, exec (.sbr off) s = .next (s.jump (s.g.spc + 4 * off.signExtend 64))) ∧
     (∀ (d : BitVec 6) (off : BitVec 20), s.HasRegs [d] →
       exec (.scall d off) s = .next ((s.setS d (s.g.spc + 4)).jump (s.g.spc + 4 * off.signExtend 64))) ∧
     (∀ a : BitVec 6, s.HasRegs [a] → (s.sreg a).extractLsb' 0 2 = 0#2 → exec (.sret a) s = .next (s.jump (s.sreg a))) ∧
     (∀ (c : Cond) (a b : BitVec 6) (off : BitVec 11), s.HasRegs [a, b] →
       let x := s.sreg a
       let y := s.sreg b
       let holds := match c with
         | .eq => x = y | .ne => x ≠ y | .lt => x.toInt < y.toInt | .ge => y.toInt ≤ x.toInt | .ltn => x.toNat < y.toNat
         | .gen => y.toNat ≤ x.toNat
       (holds → exec (.sbc c a b off) s = .next (s.jump (s.g.spc + 4 * off.signExtend 64))) ∧
       (¬ holds → exec (.sbc c a b off) s = .next s.advance)) ∧
     (∀ (a : BitVec 6) (off : BitVec 11), s.HasRegs [a] →
       exec (.sloop a off) s = .next (if s.sreg a = 1 then (s.setS a 0).advance
         else (s.setS a (s.sreg a - 1)).jump (s.g.spc + 4 * off.signExtend 64))) ∧
     ∀ w : BitVec 32, w.extractLsb' 26 6 = 0x13#6 → 6 ≤ (w.extractLsb' 23 3).toNat → ∃ e, decodeScalar w = .error e) ∧
  (∀ (s : State) (a : BitVec 6), s.HasRegs [a] → (s.sreg a).extractLsb' 0 2 ≠ 0#2 →
     exec (.sret a) s = .next (s.scalarFault .align {} (s.sreg a))) ∧
  (∀ (s : State), (∀ r, s.region = some r → r.implicit = true) →
     exec .sexit s = .next { s with g := { s.g with ended := true, state := .retiring, wait := none } }) ∧
  (∀ (s : State) (r : Region), s.region = some r → r.implicit = false →
     ∃ t, exec .sexit s = .next t ∧ t = (s.abortRegion r .explicit 0 0 false false).setG fun g =>
       { g with ended := true, state := .retiring, wait := none })

/-- `regroup` leaves the group standing at its word with its predicate until REGROUP_MOVE continues it (R301, R312). `lrun` raises the
counter of its flag and puts a run with the registers as they stand behind the others, and stalls while four runs are queued or executing
or the counter is at 63 (R313). `cwait` completes exactly when every counter that its mask names is zero (R314). The moves between s
registers and lane and group state: `sget` reads lane s[A] mod W zero-extended, `sgetp` and `sputp` move masks and index registers whole,
`sgetn` sign-extends and `sputn` takes the low 32 bits (R315, R316, R317). -/
def Obligations.LaneRunsAndStateMoves : Prop :=
  (∀ (s : State) (p : BitVec 3), exec (.regroup p) s = .next (s.setG fun g => { g with regroupAt := some p })) ∧
  (∀ (s : State) (c : Option (Fin 12)) (idx : BitVec 20),
     ((s.g.runs.length < 4 ∧ ∀ f, c = some f → s.g.c[f].toNat < 63) →
       ∃ t, exec (.lrun c idx) s = .next t ∧ t.g.runs = s.g.runs ++ [⟨idx, c, s.g.s, s.g.x, s.g.a⟩] ∧ t.g.spc = s.g.spc + 4 ∧
         ∀ f : Fin 12, t.g.c[f] = if c = some f then s.g.c[f] + 1 else s.g.c[f]) ∧
     (¬(s.g.runs.length < 4 ∧ ∀ f, c = some f → s.g.c[f].toNat < 63) → exec (.lrun c idx) s = .next s)) ∧
  (∀ (s : State) (m : BitVec 12),
     ((∀ f : Fin 12, m.getLsbD f = true → s.g.c[f] = 0#6) → exec (.cwait m) s = .next s.advance) ∧
     (¬(∀ f : Fin 12, m.getLsbD f = true → s.g.c[f] = 0#6) → exec (.cwait m) s = .next s)) ∧
  (∀ (s : State) (d a : BitVec 6), s.HasRegs [d, a] →
     (∀ f : BitVec 8, f.toNat < s.g.vAllot →
       exec (.sget d a f) s = .next (s.wroteReg d ((s.g.vreg f.toNat ((s.sreg a).toNat % s.g.width)).setWidth 64))) ∧
     (∀ f : BitVec 8, s.g.vAllot ≤ f.toNat → exec (.sget d a f) s = .next (s.scalarFault .regbound)) ∧
     (∀ i : BitVec 3, exec (.sgetp d (.p i)) s = .next (s.wroteReg d (s.g.preg i)) ∧
       exec (.sgetp d (.k i)) s = .next (s.wroteReg d (s.g.k[i.toNat] &&& s.g.full))) ∧
     (∀ i : BitVec 2, exec (.sgetp d (.x i)) s = .next (s.wroteReg d (s.g.x[i.toNat].setWidth 64)) ∧
       exec (.sputp (.x i) a) s = .next (s.setG fun g => { g with x := g.x.set i.toNat ((g.sreg a).setWidth 8) }).advance) ∧
     (∀ i : BitVec 3, ∃ t, exec (.sputp (.p i) a) s = .next t ∧ t.g.spc = s.g.spc + 4 ∧
       ∀ j : BitVec 3, t.g.preg j = if j = i ∧ i ≠ 0 then s.sreg a &&& s.g.full else s.g.preg j) ∧
     (∀ i : BitVec 3, ∃ t, exec (.sputp (.k i) a) s = .next t ∧ t.g.spc = s.g.spc + 4 ∧ t.g.k[i.toNat] = s.sreg a &&& s.g.full) ∧
     ∀ n : BitVec 4,
       (n.toNat < s.g.qAllot → exec (.sgetn d n) s = .next (s.wroteReg d (s.g.n[n.toNat].signExtend 64)) ∧
         exec (.sputn n a) s = .next (s.setG fun g => { g with n := g.n.set n.toNat ((g.sreg a).setWidth 32) }).advance) ∧
       (s.g.qAllot ≤ n.toNat → exec (.sgetn d n) s = .next (s.scalarFault .regbound) ∧
         exec (.sputn n a) s = .next (s.scalarFault .regbound)))

/-! ## The lane stream -/

/-- The arithmetic, logic and shift instructions of R211, `mov` and `sel`: exact, then clamped or wrapped, in every participating lane and
no other. The integer instructions that rearrange or count bits (R211, R212). The floating instructions of short latency: one rounding in
the instruction's mode and saturation, per half under f16 and bf16 (R207, R214 to R218), and the conversions (R219), each with the
function of its own definition. Division, square root and the special functions go into flight with the same writes (R43, R212, R214, R249).
That these functions round once is FloatingResultsAreRounded. -/
def Obligations.LaneResults : Prop :=
  (∀ row ∈ laneIntegerRows, row.Completes) ∧
  (∀ row ∈ laneBitRows, row.Completes) ∧
  (∀ row ∈ laneFloatRows, row.Completes) ∧
  (∀ row ∈ laneLongRows, row.GoesIntoFlight)

/-- Sums, products, fused sums, quotients, square roots and scalings of finite values, conversions, and the dot product of directions are
the exact result rounded once in the mode that applies, with NX exactly where that changed it, wherever the result does not lie beyond the
largest finite value (R193, R214, R218, R219, R242); an integer in range of its type, with NX only where there was a fraction (R196). -/
def Obligations.FloatingResultsAreRounded : Prop :=
  (∀ (t : Ty) (rm : Nat) (sat : Bool) (a b c : Nat) (x y z : Rat), t ∈ [Ty.f16, .bf16, .f32, .f64] → 1 ≤ rm → rm ≤ 5 →
     (unpack t a).num = some x → (unpack t b).num = some y → (unpack t c).num = some z →
     RoundsTo t rm (exactly (x + y)) (fAdd t rm sat a b) ∧ RoundsTo t rm (exactly (x - y)) (fSub t rm sat a b) ∧
     RoundsTo t rm (exactly (x * y)) (fMul t rm sat a b) ∧ RoundsTo t rm (exactly (x * y + z)) (fFma t rm sat a b c) ∧
     (y ≠ 0 → RoundsTo t rm (exactly (x / y)) (fDiv t rm sat a b)) ∧ (0 ≤ x → RoundsTo t rm (rootOf x) (fSqrt t rm sat a)) ∧
     ∀ n : Int, RoundsTo t rm (exactly (x * pow2 n)) (fSc t rm sat a n)) ∧
  (∀ (u t : Ty) (rm field : Nat) (sat : Bool) (a : Nat) (x : Rat), 1 ≤ rm → rm ≤ 5 →
     u ∈ [Ty.f16, .bf16, .f32, .f64, .e4m3, .e5m2, .e3m2, .e2m3] → (unpack u (a % 2 ^ tyBits u)).num = some x →
     (t ∈ [Ty.f16, .bf16, .f32, .f64, .e4m3, .e5m2, .e3m2, .e2m3] → RoundsTo t rm (exactly x) (convert u t rm field sat a)) ∧
     (t ∈ [Ty.i8, .n8, .i16, .n16, .i32, .n32, .i64, .n64] → ∃ y : Int, RoundedTo (fun v => ∃ i : Int, v = i) rm (exactly x) y (y % 2 = 0) ∧
       (intMin t ≤ y → y ≤ intMax t → toInt t (convert u t rm field sat a).1 = y ∧
         (convert u t rm field sat a).2 = if exactly x y = .eq then 0 else Flags.nx))) ∧
  (∀ (u t : Ty) (rm field : Nat) (sat : Bool) (a : Nat), 1 ≤ rm → rm ≤ 5 → u ∈ [Ty.i8, .n8, .i16, .n16, .i32, .n32, .i64, .n64] →
     t ∈ [Ty.f16, .bf16, .f32, .f64, .e4m3, .e5m2, .e3m2, .e2m3] → RoundsTo t rm (exactly (toInt u a : Rat)) (convert u t rm field sat a)) ∧
  (∀ (rm : Nat) (sat : Bool) (a b : Dirn), 1 ≤ rm → rm ≤ 5 → (∀ d ∈ [a, b], d.code ≠ zeroCode ∧ d.code ≠ invalidCode) →
     RoundsTo .f32 rm (exactly ((dot a.comp b.comp : Rat) * pow2 (-60))) (qdotVal rm sat a b))

/-- The reciprocal and the reciprocal square root of a finite binary32 value lie within one ulp of the exact value, measured in ulps of the
exact value, and one that is exactly representable is returned exactly; which value within the bound is the device's own (R250; log 9). -/
def Obligations.ReciprocalsAreWithinAnUlp : Prop :=
  ∀ (sat : Bool) (a : Word32) (x : Rat) (k : Int), (unpack .f32 a.toNat).num = some x → x ≠ 0 →
    let ulp := pow2 (max k (-126) - 23)
    (pow2 k ≤ 1 / (if x < 0 then -x else x) → 1 / (if x < 0 then -x else x) < pow2 (k + 1) → k ≤ 127 →
      ∃ y, (unpack .f32 (sfu 4 sat a).1.toNat).num = some y ∧ 1 / x - ulp ≤ y ∧ y ≤ 1 / x + ulp ∧ (finite .f32 (1 / x) → y = 1 / x)) ∧
    (0 < x → pow2 (2 * k) * x ≤ 1 → 1 < pow2 (2 * k + 2) * x →
      ∃ y, (unpack .f32 (sfu 5 sat a).1.toNat).num = some y ∧ 0 ≤ y ∧ (y ≤ ulp ∨ (y - ulp) * (y - ulp) * x ≤ 1) ∧
        1 ≤ (y + ulp) * (y + ulp) * x ∧ ∀ z, finite .f32 z → 0 ≤ z → z * z * x = 1 → y = z)

/-- Shuffles, broadcast, ballot, reductions and scans, and what `fexp` reads (R203, R205, R226 to R229): a reduction is the root of the
pairwise tree over the leaves, a scan value the tree nodes that the powers of two of its length name, combined from left to right. Comparisons, predicate logic and
votes write one bit of predicate FN[5:3] in each participating lane; p0 takes none (R12, R213, R216, R224, R227). The writes of `fexp`:
flags in each participating lane; CVM and XE group-wide, when at least one lane runs it (R197, R203). -/
def Obligations.CrossLaneAndPredicateResults : Prop :=
  (∀ row ∈ crossLaneRows, row.Completes) ∧
  (∀ (k : LaneCtx) (base n : Nat), k.node base n = treeOf k.redStep n fun i => k.leaf (base + i)) ∧
  (∀ (k : LaneCtx) (n : Nat) (x : Nat × Flags) (xs : List (Nat × Flags)) (ps : List Nat), n ≤ 64 → ps.Pairwise (· > ·) →
     (ps.map (2 ^ ·)).sum = n → nodesFrom k.redStep k.leaf 0 ps = x :: xs → k.scan 7 0 n none = xs.foldl k.redStep x) ∧
  (∀ row ∈ predicateRows, row.Completes) ∧
  (∀ (s : State) (w : LaneWord) (pl : IssuePlace), let k := s.g.laneCtx pl w
     (s.Issues .fexpPut w pl → ∃ t, exec (.fexpPut w) s = .next t ∧ t = { s with g := t.g } ∧
       (∃ xf, ({ s.g with xf := xf } : Group).LanesMoved t.g) ∧
       ∀ l : Fin 64, t.g.xf[l] = if k.m.getLsbD l = true then BitVec.ofNat 6 (k.a .b32 l) else s.g.xf[l]) ∧
     (s.Issues .fexpCvmput w pl → ∃ t, exec (.fexpCvmput w) s = .next t ∧ t = { s with g := t.g } ∧
       (if k.m = 0 then s.g else { s.g with cvm := cvmWrite s.g.cvm (BitVec.ofNat 64 (k.a .b64 0)) } : Group).LanesMoved t.g) ∧
     (s.Issues .fexpXeput w pl → ∃ t, exec (.fexpXeput w) s = .next t ∧ t = { s with g := t.g } ∧
       (if k.m = 0 then s.g else { s.g with xe := BitVec.ofNat 6 (k.a .b32 0) } : Group).LanesMoved t.g))

/-- `cpack` converts the elements of a span one by one and packs them from the lowest element up, FP6 codes in two planes; `cunpk` unpacks
them, each value exactly, to consecutive registers or pairs (R191, R220, R221). `gsort` puts the keys of the participating lanes, by rank,
into those lanes in lane order, and the payload with them; `gtopk` the first of them with their lanes; `gmerge` the merged runs, ties from
the first; no flag is set (R230 to R233). They go into flight with those writes and no others. -/
def Obligations.PackAndSortResults : Prop :=
  (∀ (s : State) (w : LaneWord) (pl : IssuePlace), let k := s.g.laneCtx pl w
     let codes (l : Nat) := (List.range w.ty.packCount).map fun j => k.conv (k.aElem (LaneWord.from w) j l)
     let elem (j l : Nat) := convert (LaneWord.from w) w.ty 1 1 false (k.packedElem (LaneWord.from w) j l)
     (s.Issues .cpack w pl → NoTrap s k (fun l => (codes l).foldl (fun f x => f ||| x.2) 0) →
       ∃ t, exec (.cpack w) s = .next t ∧ WritesLanes s t k (w.ty.packRegs = 2) fun l =>
         (if w.ty.packRegs = 2 then (packFp6 ((codes l).map (·.1))).1 + 2 ^ 32 * (packFp6 ((codes l).map (·.1))).2
          else (((codes l).map (·.1)).zipIdx.map fun x => x.1 * 2 ^ (tyBits w.ty * x.2)).sum,
          (codes l).foldl (fun f x => f ||| x.2) 0)) ∧
     (s.Issues .cunpk w pl → NoSpanTrap s k (LaneWord.from w).packCount elem →
       ∃ t, exec (.cunpk w) s = .next t ∧ WritesSpan s t k w.ty.wide (LaneWord.from w).packCount elem)) ∧
  (∀ (s : State) (w : LaneWord) (pl : IssuePlace), let k := s.g.laneCtx pl w
     (∀ desc, InRankOrder w.ty desc (k.ranked desc) ∧ ((k.ranked desc).map (·.2)).Perm k.m.lanes ∧
       ∀ x ∈ k.ranked desc, x.1 = k.a w.ty x.2) ∧
     (s.Issues .gsort w pl → ∃ t, exec (.gsort w) s = .next t ∧ s.InFlightWith t pl
       { v := (k.m.lanes.zip (k.ranked w.var)).flatMap fun x => vWrite w.ty.wide k.dReg x.1 x.2.1 ++
           if w.fn.getLsbD 1 then [⟨k.nextReg, x.1, BitVec.ofNat 32 (k.b .b32 x.2.2)⟩] else [] }) ∧
     (s.Issues .gtopk w pl → ∃ t, exec (.gtopk w) s = .next t ∧ s.InFlightWith t pl
       { v := (k.m.lanes.zip ((k.ranked (!w.var)).take (k.b .n32 0))).flatMap fun x =>
           vWrite w.ty.wide k.dReg x.1 x.2.1 ++ [⟨k.nextReg, x.1, BitVec.ofNat 32 x.2.2⟩] }) ∧
     (s.Issues .gmerge w pl → ∃ t z, exec (.gmerge w) s = .next t ∧
       z = mergeRuns w.ty w.var (2 * k.m.lanes.length) (k.m.lanes.map (k.a w.ty)) (k.m.lanes.map (k.b w.ty)) ∧
       z.Perm (k.m.lanes.map (k.a w.ty) ++ k.m.lanes.map (k.b w.ty)) ∧
       s.InFlightWith t pl { v := (k.m.lanes.zip z).flatMap (fun x => vWrite w.ty.wide k.dReg x.1 x.2) ++
         (k.m.lanes.zip (z.drop k.m.lanes.length)).flatMap fun x => vWrite w.ty.wide k.nextReg x.1 x.2 }))

/-- The directional instructions that write a direction write all of it, its norm code and flags in the participating lanes; with no
participating lane they write nothing (R237, R240, R243 to R246). The directional instructions that write v registers (R241, R242, R247);
`qdot` faults CONVERGE unless every lane of the width takes part (R237). -/
def Obligations.DirectionResults : Prop :=
  (∀ row ∈ directionRows, row.Completes) ∧
  (∀ (s : State) (w : LaneWord) (pl : IssuePlace), let k := s.g.laneCtx pl w
     (s.Issues .qdot w pl → k.m ≠ s.g.full → exec (.qdot w) s = .next (s.laneFault .converge (s.g.full &&& ~~~k.m))) ∧
     (s.Issues .qdot w pl → k.m = s.g.full →
       let r := qdotVal (k.mode .f32 (w.fn.toNat / 2 % 8)) (k.sat .f32 0) k.dirA k.dirB
       (k.m ≠ 0 → r.2 &&& s.g.xe = 0) → ∃ t, exec (.qdot w) s = .next t ∧ WritesLanes s t k false fun _ => r) ∧
     (s.Issues .qnorm w pl →
       let r := qnormVal (k.mode .f32 (w.fn.toNat / 2 % 8)) (k.sat .f32 0) w.var (k.g.n[k.aDir]?.getD 0)
       (k.m ≠ 0 → r.2 &&& s.g.xe = 0) → ∃ t, exec (.qnorm w) s = .next t ∧ WritesLanes s t k false fun _ => r) ∧
     (let elem (i l : Nat) := k.unpacked (i / 8) (i % 8) l
      s.Issues .qunpk w pl → NoSpanTrap s k (8 * w.qspan) elem →
       ∃ t, exec (.qunpk w) s = .next t ∧ WritesSpan s t k w.ty.wide (8 * w.qspan) elem))

/-- `ld` reads each participating lane's element, or four, and goes into flight with the elements as R170 extends them; an acquire then
takes its steps (R152, R168 to R171). That it reads memory in the step in which it issues, and writes its registers when it completes, is log 12. -/
def Obligations.LaneLoadResults : Prop :=
  ∀ (s s1 s2 : State) (w : LaneWord) (pl : IssuePlace) (accs : List LaneAcc) (rs : List (Nat × List Byte)),
    let k := s.g.laneCtx pl w
    let n := accessBytes w
    s.Issues .ld w pl → s.Resolved k w.bk ⟨n, n, false, .load, false⟩ (k.laneAddrs w.ty.esize) accs s1 → PlainAccesses accs →
    s1.hintedLoads n w.hint accs = (s2, rs.map fun x => (x.1, .ok x.2)) →
    exec (.ld w) s = .next ((s2.acquireIf (LaneWord.order w) (LaneWord.scope w) (accs.all LaneAcc.isMem)).setG fun g => g.launchLong pl
      { v := rs.flatMap fun x => (List.range (if w.var then 4 else 1)).flatMap fun i =>
          vWrite w.ty.wide (k.dReg + (if w.ty.wide then 2 else 1) * i) x.1 (loadedElem w.ty i x.2) } [] none false none)

/-- `st` outside a region puts one entry for each line in the store buffer, after the fence of a release, and goes into flight; memory changes
when the entries are performed (R148, R152, R168, R172). In a region its bytes become the region's, line by line, or it aborts the region: with MODE
for a page that is not DIR, and with the cause that a line meets (R337, R340). -/
def Obligations.LaneStoresAreBuffered : Prop :=
  ∀ (s s1 : State) (w : LaneWord) (pl : IssuePlace) (accs : List LaneAcc),
    let k := s.g.laneCtx pl w
    let n := accessBytes w
    let buf := accs.map fun a => (a.lane, a.storeBytes (k.storeData a.lane))
    s.Issues .st w pl → s.Resolved k w.bk ⟨n, n, true, .store, false⟩ (k.laneAddrs w.ty.esize) accs s1 → PlainAccesses accs →
    anyOverlap buf = false → 0 < n →
    (let n := ((storeEntries buf).map fun e => e.1.length).sum
     let s2 := s1.releasing (LaneWord.order w) (LaneWord.scope w)
     s1.region = none → s1.mayRelease (LaneWord.order w) (LaneWord.scope w) →
     s2.g.sbRoom ((storeEntries buf).flatMap fun e => e.2.map fun y => y.1.line) n = true →
     ∃ t, exec (.st w) s = .next t ∧ s2.Sends t pl ((storeEntries buf).map fun e => .store e.2) n false none false {} ∧
       (t.g.sb.map fun e => (e.op, e.count, e.pts, e.mask, e.performed)) =
         (s2.g.sb.map fun e => (e.op, e.count, e.pts, e.mask, e.performed)) ++
         (storeEntries buf).map fun e => (.store e.2, e.1.length, s2.g.pts, maskOf e.1, false)) ∧
    ∀ r, s1.region = some r →
      ((∃ a ∈ accs, a.inDir = false) → exec (.st w) s = .next (s1.abortRegion r .mode 0 0 false true)) ∧
      ((∀ a ∈ accs, ∃ p, a.reach = .mem p ∧ p.coh = .dir ∧ s1.mem.keyServes p.pa p.enc p.key = true) → s1.g.sbRoom [] 0 = true →
        let ps := buf.filterMap fun x => placeBytes x.2
        (∀ c, s1.regionStores ps = .error c → exec (.st w) s = .next (s1.abortRegion r c 0 0 false true)) ∧
        ∀ s2, s1.regionStores ps = .ok s2 → exec (.st w) s = .next (s2.setG fun g => g.launchLong pl {} [] none false none))

/-- `atom` and `cas` put one operation for each lane in the store buffer, after the fence of a release; the instruction stays in flight until
each is acknowledged, an `atom` that returns nothing too (R173, R174, and log 17 for that one), and with an acquire they are performed,
acknowledged and followed by its steps (R152). A region aborts with MODE instead (R337). `red` sends the value of the pairwise tree over its lanes
to one target, `tki` one insertion for each lane with a valid entry, and `bpush` and `bpop` one bulk operation on one deque, in every order
that they take (R152, R175 to R183). -/
def Obligations.LaneAtomicsAreSent : Prop :=
  (∀ (s s1 : State) (w : LaneWord) (pl : IssuePlace) (accs : List LaneAcc), let k := s.g.laneCtx pl w
     (∀ r, s.region = some r → (s.Issues .atom w pl → exec (.atom w) s = .next (s.abortRegion r .mode 0 0 false true)) ∧
       (s.Issues .cas w pl → exec (.cas w) s = .next (s.abortRegion r .mode 0 0 false true))) ∧
     (s.region = none → s.Resolved k w.bk ⟨w.ty.esize, w.ty.esize, true, .atomic, false⟩ (k.laneAddrs w.ty.esize) accs s1 →
       PlainAccesses accs → s1.mayRelease (LaneWord.order w) (LaneWord.scope w) →
       let s2 := s1.releasing (LaneWord.order w) (LaneWord.scope w)
       let ops (f : Nat → MemOp) : LaneOps := accs.filterMap fun a => a.target.map fun x => (a.lane, 1, x, f a.lane)
       (∀ f, sameTargets (ops f) = false) →
       (∀ f, s1.g.sbRoom ((ops f).map fun x => x.2.2.1.line) ((ops f).foldl (fun n x => n + x.2.1) 0) = true) →
       (s.Issues .atom w pl → ∃ t, exec (.atom w) s = .next (t.acquiring (LaneWord.order w) (LaneWord.scope w) s2.g.nextId accs.length) ∧
         s2.Sends t pl
         ((ops fun l => .rmw w.opc w.ty w.ty.esize (BitVec.ofNat 64 (k.dSrc w.ty l)) 0 s.g.cvm).map fun x => .op x.2.2.1 x.2.2.2) accs.length
         true (if w.var then none else some k.dReg) w.ty.wide {}) ∧
       (s.Issues .cas w pl → ∃ t, exec (.cas w) s = .next (t.acquiring (LaneWord.order w) (LaneWord.scope w) s2.g.nextId accs.length) ∧
         s2.Sends t pl
         ((ops fun l => .rmw 8 w.ty w.ty.esize (BitVec.ofNat 64 (k.dSrc w.ty l))
           (BitVec.ofNat 64 (k.g.velem w.ty.wide (k.dReg + (if w.ty.wide then 2 else 1)) l)) 0).map fun x => .op x.2.2.1 x.2.2.2) accs.length
         true (some k.dReg) w.ty.wide {}))) ∧
  (∀ (s s1 : State) (w : LaneWord) (pl : IssuePlace) (accs : List LaneAcc) (p : Place), let k := s.g.laneCtx pl w
     let s2 := s1.releasing (LaneWord.order w) (LaneWord.scope w)
     s.region = none → s1.mayRelease (LaneWord.order w) (LaneWord.scope w) →
     (s.Issues .red w pl → k.m ≠ 0 →
       s.Resolved k w.bk ⟨w.ty.esize, w.ty.esize, true, .atomic, true⟩ (k.oneAddr w.ty.esize) [⟨0, k.address w.bk (k.offset w.ty.esize 0) 0, .mem p⟩] s1 →
       let r := redTree w.opc w.ty (Nat.log2 s.g.width) ((List.range s.g.width).map fun l =>
         (if k.m.getLsbD l then k.dSrc w.ty l else redIdentity w.opc w.ty, 0))
       r.2 &&& s.g.xe = 0 → s1.g.sbRoom [.inr (p.pa / 128)] 1 = true →
       ∃ t, exec (.red w) s = .next t ∧ s2.Sends t pl
         [.op (.mem p.pa p.coh p.grain p.enc p.key) (.red w.opc w.ty (BitVec.ofNat 64 r.1) s.g.die (4 * s.g.quad + s.g.core) s.g.slot
           (Mask.first k.m))] 1 false none false { xf := [(Mask.first k.m, r.2)] }) ∧
     (s.Issues .tki w pl → (w.var && k.m ≠ 0 && k.hist.v && k.hist.stale && s.formHeld s.g k.hist.base) = false →
       s.Resolved k w.bk ⟨16, 16, true, .atomic, true⟩ (k.laneAddrs 2) accs s1 → (∀ a ∈ accs, a.isMem = true) →
       (∀ a ∈ accs, tkiInvalid (k.dSrc .bf16 a.lane) = true → Flags.nv &&& s.g.xe = 0) →
       ∀ hist, (if w.var && k.m ≠ 0 then (s1.histFault k.hist).map some else .ok none) = .ok hist →
       let ops : LaneOps := (accs.filter fun a => !tkiInvalid (k.dSrc .bf16 a.lane)).filterMap fun a => a.target.map fun x =>
         (a.lane, 1, x, .tki (w.c.toNat / 32 % 4 + 1) (BitVec.ofNat 32 (k.dSrc .bf16 a.lane)) hist)
       s1.g.sbRoom (ops.map fun x => x.2.2.1.line) (ops.foldl (fun n x => n + x.2.1) 0) = true →
       ∃ t, exec (.tki w) s = .next t ∧ s2.Sends t pl (ops.map fun x => .op x.2.2.1 x.2.2.2) ops.length false none false
         { xf := ((accs.map (·.lane)).filter fun l => tkiInvalid (k.dSrc .bf16 l)).map fun l => (l, Flags.nv) }) ∧
     (s.Resolved k w.bk ⟨64, 64, true, .atomic, true⟩ (k.oneAddr 8) [⟨0, k.address w.bk (k.offset 8 0) 0, .mem p⟩] s1 →
       s1.g.sbRoom [.inr (p.pa / 128)] k.m.lanes.length = true →
       (s.Issues .bpush w pl → ∃ t, exec (.bpush w) s = .next (t.acquiring (LaneWord.order w) (LaneWord.scope w) s2.g.nextId 1) ∧ s2.Sends t pl
         [.op (.mem p.pa p.coh p.grain p.enc p.key) (.bulk true (k.m.lanes.map fun l => (l, BitVec.ofNat 64 (k.dSrc .b64 l))))]
         k.m.lanes.length true none true {}) ∧
       (s.Issues .bpop w pl → ∃ t, exec (.bpop w) s = .next (t.acquiring (LaneWord.order w) (LaneWord.scope w) s2.g.nextId 1) ∧ s2.Sends t pl
         [.op (.mem p.pa p.coh p.grain p.enc p.key) (.bulk false (k.m.lanes.map fun l => (l, 0)))]
         k.m.lanes.length true (some k.dReg) true {})))

/-- `qld` reads a direction's record of 64-byte parts and goes into flight with all of the direction; `qst` puts the record of the
direction as it reads in the store buffer, as one access; with no participating lane neither touches memory (R237, R248). That `qld` reads
memory in the step in which it issues is log 12, and that the record counts as one access in UAC is log 43. -/
def Obligations.DirectionMemoryResults : Prop :=
  ∀ (s s1 s2 : State) (w : LaneWord) (pl : IssuePlace) (accs : List LaneAcc) (rs : List (Nat × List Byte)), let k := s.g.laneCtx pl w
    (s.Issues .qld w pl → k.m = 0 → exec (.qld w) s = .next (s.setG fun g => g.launchLong pl {} [] none false none)) ∧
    (s.Issues .qst w pl → k.m = 0 → exec (.qst w) s = .next (s.setG fun g => g.launchLong pl {} [] none false none)) ∧
    (s.Issues .qld w pl → k.m ≠ 0 → s.Resolved k w.qbk ⟨64, 64, false, .load, false⟩ k.recordAddrs accs s1 → PlainAccesses accs →
      s1.hintedLoads 64 w.hint accs = (s2, rs.map fun x => (x.1, .ok x.2)) →
      let bs := rs.flatMap (·.2)
      let r := qldDir (words32 (bs.drop 64) (8 * s.g.width * w.qspan)) (BitVec.ofNat 32 (leNat (bs.take 4)))
      r.2 &&& s.g.xe = 0 → exec (.qld w) s = .next (s2.setG fun g => g.launchLong pl (k.dirCommit r) [] none false none)) ∧
    (s.Issues .qst w pl → k.m ≠ 0 → s.region = none →
      s.Resolved k w.qbk ⟨64, 64, true, .store, false⟩ k.recordAddrs accs s1 → PlainAccesses accs →
      let bs := recordBytes (k.g.direction k.dDir w.qspan).read
      let buf := accs.map fun a => (a.lane, a.storeBytes ((bs.drop (64 * a.lane)).take 64))
      (∀ x ∈ buf, x.2 ≠ []) → anyOverlap buf = false →
      s1.g.sbRoom ((storeEntries buf).flatMap fun e => e.2.map fun y => y.1.line) 1 = true →
      ∃ t, exec (.qst w) s = .next t ∧ s1.Sends t pl ((storeEntries buf).map fun e => .store e.2) 1 false none false {})

/-! ## Clauses and lane control -/

/-- `ljmp`, `lbra`, `ljoin`, `lend` and `lexit` move the lanes of the path in their slot and nothing else: a taken path starts at IMM20,
the others at the fall-through; where both are not empty, the taken path goes to the other slot if it is free, and else stays while the
fall-through is pushed; what remains is brought to rest as R294, R296 and R299 say (R295, R298, R319, R321, R322). `lsetk` writes the
expected lanes of join FN[5:3] from A, a predicate or IMM16, unless no lane takes part, and tests that join; `lnop` only moves on (R298,
R320, R322). -/
def Obligations.LaneControlMoves : Prop :=
  (∀ (s : State) (w : LaneWord) (pl : IssuePlace) (p : Path), s.g.path pl.pslot = some p → pl.pslot < 2 →
     let g := s.g.popRedo
     let t := g.governed w p.mask
     let fall := fallThrough p.clause (g.lenOf p)
     (s.Issues .ljmp w pl → ∃ h : Group, exec (.ljmp w) s = .next { s with g := h.settle } ∧ g.LanesMoved h ∧
       h.path pl.pslot = some (.start (w.imm.setWidth 20) p.mask) ∧ h.path (1 - pl.pslot) = g.path (1 - pl.pslot) ∧ h.stack = g.stack) ∧
     (s.Issues .lbra w pl → ∃ h : Group, exec (.lbra w) s = .next { s with g := h.settle } ∧ g.LanesMoved h ∧
       let taken : Path := .start (w.imm.setWidth 20) t
       let falls : Path := .start fall (p.mask &&& ~~~ t)
       (h.path pl.pslot, h.path (1 - pl.pslot), h.stack) =
         if t = 0 then (some falls, g.path (1 - pl.pslot), g.stack)
         else if p.mask &&& ~~~ t = 0 then (some taken, g.path (1 - pl.pslot), g.stack)
         else if (g.path (1 - pl.pslot)).isNone then (some falls, some taken, g.stack)
         else (some taken, g.path (1 - pl.pslot), falls :: g.stack)) ∧
     (s.Issues .ljoin w pl → ∃ h : Group, exec (.ljoin w) s = .next { s with g := (h.testJoin (w.fn.toNat % 8)).settle } ∧ g.LanesMoved h ∧
       h.path pl.pslot = none ∧ h.path (1 - pl.pslot) = g.path (1 - pl.pslot) ∧ h.stack = g.stack ∧
       h.join (w.fn.toNat % 8) = g.join (w.fn.toNat % 8) ++
         [if p.slot < g.lenOf p then ⟨g.nextId, p.mask, p.clause, p.slot + 1⟩ else ⟨g.nextId, p.mask, fall, 0⟩]) ∧
     (s.Issues .lend w pl → ∃ h : Group, exec (.lend w) s = .next { s with g := h.settle } ∧ g.LanesMoved h ∧
       h.path pl.pslot = (if p.mask &&& ~~~ t = 0 then none else some (.start fall (p.mask &&& ~~~ t))) ∧
       h.parked = g.parked ||| t ∧ h.exited = g.exited) ∧
     (s.Issues .lexit w pl → ∃ h : Group, exec (.lexit w) s = .next { s with g := h.testJoins.settle } ∧ g.LanesMoved h ∧
       h.path pl.pslot = (if p.mask &&& ~~~ t = 0 then none else some (.start fall (p.mask &&& ~~~ t))) ∧
       h.exited = g.exited ||| t ∧ h.parked = g.parked)) ∧
  (∀ (s : State) (w : LaneWord) (pl : IssuePlace), let k := s.g.laneCtx pl w
     (s.Issues .lsetk w pl → k.m = 0 → exec (.lsetk w) s = .next { s with g := (s.g.passed pl).settle }) ∧
     (s.Issues .lsetk w pl → k.m ≠ 0 → ∃ h : Group, h = { s.g with k := h.k } ∧
       exec (.lsetk w) s = .next { s with g := ((h.testJoin (w.fn.toNat / 8)).passed pl).settle } ∧
       ∀ n : Fin 8, h.k[n] = if n.val = w.fn.toNat / 8 then
           (match w.fn.toNat % 4 with
             | 0 => BitVec.ofNat 64 (k.a .b64 0)
             | 1 => if w.a.getLsbD 3 then ~~~ s.g.preg (w.a.extractLsb' 0 3) else s.g.preg (w.a.extractLsb' 0 3)
             | _ => w.imm.setWidth 64) &&& s.g.full
         else s.g.k[n]) ∧
     (s.Issues .lnop w pl → exec (.lnop w) s = .next { s with g := s.g.passed pl }))

/-- A clause starts when the counters that its WAIT names are zero and those that it raises are below 63: it raises them and opens an
entry with LEN further slots; else it stalls (R40, R41, R42). A legal repeat prefix before a legal word arms the repeat: RC holds its
count and RIP is set (R44, R45). A clause ends when its last slot has issued and nothing of it is in flight: its counters go down. A lane
run starts at the front of the queue with every live lane, and its end lowers its counter (R14, R42, R292). A long-latency instruction
whose answers are there, and before which no repetition of its own is in flight, completes: it leaves the list, and its writes are made
(R43, R46, R202). -/
def Obligations.ClausesRunAndEnd : Prop :=
  (∀ (s : State) (h : ClauseHeader) (pl : IssuePlace) (p : Path), s.g.iss = some pl → headerLegal h = true → pl.pslot < 2 →
     s.g.path pl.pslot = some p → s.g.redo = [] →
     let ready := (∀ f : Fin 12, h.wait.getLsbD f = true → s.g.c[f] = 0#6) ∧ ∀ f ∈ ClauseHeader.sets h, s.g.c[f].toNat < 63
     (¬ready → exec (.clauseStart h) s = .next s) ∧
     (ready → ∃ t, exec (.clauseStart h) s = .next t ∧ s.g.LanesMoved t.g ∧ t = { s with g := t.g } ∧
       t.g.path pl.pslot = some { p with entry := some s.g.nextId, lone := false, also := [] } ∧
       t.g.path (1 - pl.pslot) = s.g.path (1 - pl.pslot) ∧
       t.g.entries = (s.g.entries.map fun x => if x.id ∈ p.also then { x with closed := true, upon := some s.g.nextId } else x) ++
         [⟨s.g.nextId, h.len.toNat, ClauseHeader.sets h, 0, false, none⟩] ∧
       ∀ f : Fin 12, t.g.c[f].toNat = s.g.c[f].toNat + (ClauseHeader.sets h).count f)) ∧
  (∀ (s s1 : State) (p : Prefix) (pl : IssuePlace) (i : Instr) (op : LaneOp) (w : LaneWord), s.g.iss = some pl →
     (((s.g.entry pl.entry).map (·.len)).getD 0 ≤ pl.slot → exec (.repeatPrefix p) s = .next (s.laneFault .illegal pl.mask)) ∧
     (pl.slot < ((s.g.entry pl.entry).map (·.len)).getD 0 →
       s.fetchLane (pl.clause + BitVec.ofNat 20 (pl.slot + 2)) = (s1, .ok (.ok i)) → i.lane? = some (op, w) →
       (prefixLegal p op w = false → exec (.repeatPrefix p) s = .next (s.laneFault .illegal pl.mask)) ∧
       (prefixLegal p op w = true → exec (.repeatPrefix p) s =
         .next { s1 with g := { s1.g.popRedo with rep := some ⟨pl.pslot, p, 0⟩, rip := true, rc := p.cnt } }))) ∧
  (∀ (s : State) (n : Nat), s.g.hasTag n = true →
     (∀ (e : ClauseEntry) (t : List ClauseEntry), s.g.entries = e :: t → e.closed = true → e.inFlight = 0 → (∀ x ∈ t, x.id ≠ e.id) →
       (∀ u, e.upon = some u → ∀ x ∈ s.g.entries, x.id ≠ u) →
       ∃ u, exec (.clauseEnd n e.id) s = .next u ∧ u = { s with g := { s.g with c := u.g.c, entries := t } } ∧
         ∀ f : Fin 12, u.g.c[f].toNat = s.g.c[f].toNat - e.sets.count f) ∧
     (∀ (r : LaneRun) (rs : List LaneRun), s.g.lanesRun = true → s.g.running = false → s.g.runs = r :: rs →
       s.g.hmode = false → s.g.liveLanes ≠ 0 →
       ∃ u, exec (.laneRunStart n) s = .next u ∧ u = { s with g := u.g } ∧ u.g.running = true ∧ u.g.runs = s.g.runs ∧
         u.g.path 0 = some (.start r.start s.g.liveLanes) ∧ u.g.path 1 = none ∧ u.g.stack = [] ∧ u.g.parked = 0) ∧
     ∀ (r : LaneRun) (rs : List LaneRun), s.g.lanesRun = true → s.g.runOver = true → s.g.runs = r :: rs →
       ∃ u, exec (.laneRunEnd n) s = .next u ∧ u = { s with g := u.g } ∧ u.g.running = false ∧ u.g.runs = rs ∧
         ∀ f : Fin 12, u.g.c[f].toNat = if r.flag = some f then s.g.c[f].toNat - 1 else s.g.c[f].toNat) ∧
  (∀ (s : State) (n : Nat) (f : InFlight), s.g.hasTag n = true → s.g.inflight.find? (fun x => x.id = f.id) = some f →
     (s.g.mayComplete f = true → (∀ x ∈ f.commit.xf, x.2 &&& f.xe = 0) →
       ∃ t, exec (.longLatencyCompletion n f.id) s = .next t ∧ t = { s with g := t.g } ∧
         ({ s.g.commit f.commit with inflight := s.g.inflight.filter fun x => x.id ≠ f.id } : Group).LanesMoved t.g) ∧
     (s.g.mayComplete f = false → exec (.longLatencyCompletion n f.id) s = .next s))

/-- `regroup` moves lanes only when every group of the workgroup waits at it: then the groups hold, in order of index and lane, first the
lanes that their predicates select and then the others, with every v and q register, predicate, k register, flag and exit bit, and go on
at the next word (R301). A group that could have issued for 256 cycles and has not is starved in that stream (R289). -/
def Obligations.RegroupMovesLanes : Prop :=
  (∀ (s : State) (n : Nat) (g : Group), s.group n = some g →
     let gs := s.workgroup g
     (gs.all Group.atRegroup = false → exec (.regroupMove n) s = .next s) ∧
     (gs ≠ [] → gs.all Group.atRegroup = true → g.width ≤ 64 → (∀ h ∈ gs, h.width = g.width ∧ s.group h.tag = some h) →
       ∃ t, exec (.regroupMove n) s = .next t ∧ ∀ (j : Nat) (h h' : Group), gs[j]? = some h → t.group h.tag = some h' →
         h'.regroupAt = none ∧ h'.spc = h.spc + 4 ∧
         ∀ l < g.width, ∃ i k, (regroupSources gs)[j * g.width + l]? = some (i, k) ∧ ∃ src, gs[i]? = some src ∧
           (∀ r < 256, h'.vreg r l = src.vreg r k) ∧ (∀ r < 16, ∀ c < 8, h'.qreg r l c = src.qreg r k c) ∧
           (∀ p : Fin 8, h'.p[p].getLsbD l = src.p[p].getLsbD k ∧ h'.k[p].getLsbD l = src.k[p].getLsbD k) ∧
           h'.exited.getLsbD l = src.exited.getLsbD k)) ∧
  (∀ (s : State) (n : Nat), s.g.hasTag n = true →
     exec (.groupStarved n) s = .next { s with g := { s.g with
       starved := s.g.starved || (s.readySlot.isSome && decide (s.g.readySince + 256 ≤ s.now)),
       scalarStarved := s.g.scalarStarved || (s.scalarReady && decide (s.g.scalarSince + 256 ≤ s.now)) } })

/-! ## Memory -/

/-- The directory moves bytes between quads, homes and the Cellar and never changes what memory reads as; a store by a quad, and a
write at the slice, change the bytes they write (R86, R88, R89). A load of DIR memory that is served, outside a region, answers the bytes
that memory reads as, with the group's own buffered stores over them, and leaves memory reading the same (R86, R89, R147). An indivisible
access of DIR memory answers the value that memory held and writes what its operation makes of it, there and nowhere else (R75, R89, R146,
R163). What stays is said of every line that is not encrypted, at a time when no request is pending at a channel. -/
def Obligations.MemoryReadsWhatWasWritten : Prop :=
  (∀ (m : Mem) (a : Nat), Memory.wf m = true →
     (∀ g core, SameBytes m (m.getS a g core)) ∧ (∀ g core, SameBytes m (m.getM a g core)) ∧ (∀ n, SameBytes m (m.recallHome a n)) ∧
     (∀ g core b x, isOwn a = true → m.tagOf (x / 128) = none → (m.dirStore a g core b).byte x = if x = a then b else m.byte x) ∧
     ∀ bs x, m.tagOf (x / 128) = none →
       (m.sliceWriteBytes a bs).byte x = if a ≤ x ∧ x < a + bs.length then bs[x - a]?.getD 0 else m.byte x) ∧
  (∀ (s : State) (p : Place) (n : Nat) (keep lend : Bool), s.memWf → s.mem.Quiet → p.coh = .dir → p.enc = false →
     s.mem.tagOf (p.pa / 128) = none → s.Clean p.pa n → p.pa % 128 + n ≤ 128 →
     ∃ t, s.plainLoad p n keep lend = (t, .ok ((List.range n).map fun i =>
         (s.g.forward (.inr (p.pa / 128)) (Target.isMem (p.pa + i))).getD (s.mem.byte (p.pa + i)))) ∧ t.g = s.g ∧ SameBytes s.mem t.mem) ∧
  (∀ (s : State) (pa n : Nat) (grain : BitVec 2) (key : BitVec 13) (pts : Stamp) (f : Nat → Option Nat), s.memWf → s.mem.Quiet →
     isOwn pa = true → n = 4 ∨ n = 8 ∨ n = 16 → pa % n = 0 → s.mem.tagOf (pa / 128) = none → s.Clean pa n →
     ∃ t, s.indivisible (.mem pa .dir grain false key) n pts f = (t, .ok (s.mem.peek pa n, pts)) ∧
       ∀ x, s.mem.tagOf (x / 128) = none → t.mem.byte x = match f (s.mem.peek pa n) with
         | some v => if pa ≤ x ∧ x < pa + n then (leBytes n v)[x - pa]?.getD 0 else s.mem.byte x
         | none => s.mem.byte x)

/-- `sld` reads 2^Z bytes, zero-extended, from memory, from a bank in SCRATCH mode or a FIFO register, and `satom.ld` its 4 or 8 bytes of
memory or of a bank in SCRATCH mode; an acquire then takes its steps. An address that is not naturally aligned faults, and so does one that
does not translate, a scratch violation, or a bank line that ECC cannot correct; the register is then not written (R17, R112, R132, R146, R152,
R161, R163, R389). That a load reads memory when it issues, or in a step of its own after it, is log 12. -/
def Obligations.ScalarLoadResults : Prop :=
  ∀ (s : State) (d a : BitVec 6) (z : BitVec 2) (off : BitVec 12) (o : Ord) (sc : Scope) (w : Bool), s.HasRegs [d, a] →
    ∀ x ∈ [(Instr.sld d a z off, s.sreg a + off.signExtend 64 * BitVec.ofNat 64 (2 ^ z.toNat), 2 ^ z.toNat, fun s : State => s, false),
           (Instr.satomLd d a o sc w, s.sreg a, if w then 8 else 4, fun s' : State => s'.acquireIf o sc (!inWindow (s.sreg a)), true)],
      let va := x.2.1
      let n := x.2.2.1
      let reads (t : State) (v : Nat) := exec x.1 s = .next (x.2.2.2.1 (t.setS d (BitVec.ofNat 64 v))).advance
      let violates := exec x.1 s = .next (s.scalarFault .nomap {} va)
      (va.toNat % n ≠ 0 → exec x.1 s = .next (s.scalarFault .align {} va)) ∧
      (va.toNat % n = 0 → inWindow va = false → s.walkHeld s.g va = true → exec x.1 s = .next s) ∧
      (va.toNat % n = 0 → inWindow va = false → s.walkHeld s.g va = false →
        (∀ f, s.place s.g va .load = .error f → exec x.1 s = .next (s.scalarFault f.cause f.info va)) ∧
        (∀ p, s.place s.g va .load = .ok p → s.g.watched va n false = true → exec x.1 s = .next (s.scalarFault .watch {} va)) ∧
        (∀ p, s.place s.g va .load = .ok p → s.g.watched va n false = false →
          s.LinesFree [.inr (p.pa / 128)] → ∀ s1 bs, (s.notePlace p .load).memLoad p n = (s1, .ok bs) → reads s1 (leNat bs))) ∧
      (va.toNat % n = 0 → inWindow va = true → s.g.watched va n false = false →
        (∀ b i, s.window s.g.caravan va n false = .scratch b i → s.LinesFree [.inl (scratchKey b i / 128)] →
          (s.bankPoisoned b i n = false → reads s (leNat (s.scratchLoad b i n))) ∧
          (s.bankPoisoned b i n = true → exec x.1 s = .next (s.scalarFault .poison))) ∧
        (∀ b, s.window s.g.caravan va n false = .fill b → if x.2.2.2.2 then violates else reads s (s.bank b).fill) ∧
        (∀ b, s.window s.g.caravan va n false = .free b → if x.2.2.2.2 then violates else reads s (s.bank b).free) ∧
        (∀ b i, s.window s.g.caravan va n false = .head b i → x.2.2.2.2 = true → violates) ∧
        (s.window s.g.caravan va n false = .violation → violates))

/-- `sst` and `satom.st` put 2^Z, or 4 or 8, bytes of the register in the store buffer, and memory is unchanged until the entry is
performed; a release is fenced first. With no room they stall; in a region the bytes go to the region, or a key that does not serve is a
deferred KEY; `satom.st` does not reach a bank in FIFO mode (R132, R148, R152, R161, R163, R337). -/
def Obligations.ScalarStoreResults : Prop :=
  ∀ (s : State) (d a : BitVec 6) (z : BitVec 2) (off : BitVec 12) (o : Ord) (sc : Scope) (w : Bool), s.HasRegs [d, a] →
    ∀ x ∈ [(Instr.sst d a z off, s.sreg a + off.signExtend 64 * BitVec.ofNat 64 (2 ^ z.toNat), 2 ^ z.toNat, fun s : State => s, true, false),
           (Instr.satomSt a d o sc w, s.sreg a, if w then 8 else 4, fun s' : State => s'.releaseIf o sc (!inWindow (s.sreg a)),
            !(Ord.releases o && (s.region.isNone || inWindow (s.sreg a))) || s.fenceReady sc, true)],
      let va := x.2.1
      let n := x.2.2.1
      let bs := leBytes n (s.sreg d).toNat
      (va.toNat % n ≠ 0 → exec x.1 s = .next (s.scalarFault .align {} va)) ∧
      (va.toNat % n = 0 → inWindow va = false → s.walkHeld s.g va .store = true → exec x.1 s = .next s) ∧
      (va.toNat % n = 0 → inWindow va = false → s.walkHeld s.g va .store = false →
        (∀ f, s.place s.g va .store = .error f → exec x.1 s = .next (s.scalarFault f.cause f.info va)) ∧
        (∀ p, s.place s.g va .store = .ok p → s.g.watched va n true = false →
          (x.2.2.2.2.1 = false → exec x.1 s = .next s) ∧
          (x.2.2.2.2.1 = true → s.region = none →
            let t := (x.2.2.2.1 s).notePlace p .store
            let room := t.g.sbRoom ((p.targets bs).map fun y => y.1.line) 1 && !t.lineHeld ((p.targets bs).map fun y => y.1.line)
            (room = true → exec x.1 s = .next (t.withStore (p.targets bs))) ∧ (room = false → exec x.1 s = .next t)) ∧
          (∀ r, s.region = some r → p.coh = .dir → s.mem.keyServes p.pa p.enc p.key = true →
            (∀ t, (s.notePlace p .store).regionStore r p bs = .ok t → exec x.1 s = .next (t.fit p.pa).advance) ∧
            ∀ c, (s.notePlace p .store).regionStore r p bs = .error c → exec x.1 s = .next (s.abortRegion r c 0 0 false true)) ∧
          (∀ r, s.region = some r → p.coh = .dir → s.mem.keyServes p.pa p.enc p.key = false →
            exec x.1 s = .next (s.deferFault ⟨.key, fpcScalar s.g.spc, 0, 0, 0, none⟩ s.g.hmode)) ∧
          (∀ r, s.region = some r → p.coh ≠ .dir → exec x.1 s = .next (s.abortRegion r .mode 0 0 false true)))) ∧
      (va.toNat % n = 0 → inWindow va = true → s.g.watched va n true = false →
        (∀ b i, s.window s.g.caravan va n true = .scratch b i →
          (x.2.2.2.2.1 = false → exec x.1 s = .next s) ∧
          (x.2.2.2.2.1 = true → let t := x.2.2.2.1 s
            t.g.sbRoom ((bankTargets b i bs).map fun y => y.1.line) 1 = true → t.lineHeld ((bankTargets b i bs).map fun y => y.1.line) = false →
            exec x.1 s = .next (t.withStore (bankTargets b i bs)))) ∧
        (s.window s.g.caravan va n true = .violation → exec x.1 s = .next (s.scalarFault .nomap {} va)) ∧
        (s.atFifo va n true = true → x.2.2.2.2.2 = true → exec x.1 s = .next (s.scalarFault .nomap {} va)))

/-- An acknowledgement performs its entry, if nothing of the same lines is before it and none waits: for a store of DIR memory, memory
reads as the stored bytes say, and as before everywhere else; the entry leaves the store buffer, LCT takes its timestamp, and UAC falls by what it
counts, once the last entry of its access is acknowledged (R86, R147, R148, R149). That one access may have several entries is log 43. -/
def Obligations.AcknowledgedStoresAreInMemory : Prop :=
  ∀ (s : State) (n : Nat) (e : SbEntry) (es : List SbEntry) (bs : List (Target × Byte)), s.g.hasTag n = true → s.memWf →
    s.g.sb = e :: es → (∀ y ∈ es, y.id ≠ e.id) → e.op = .store bs → e.performed = false → e.flags = [] → bs ≠ [] → s.hasCache s.g = true →
    s.regions = [] → s.mem.staged = [] → s.mem.Quiet → s.anyWaits e.lines = false →
    (∀ y ∈ es, e.ins.isSome = true → y.ins = e.ins → ∃ b, y.op = .store b) →
    (∀ y ∈ bs, ∃ pa grain key, y.1 = .mem pa .dir grain false key ∧ isOwn pa = true ∧ s.unrouted pa = false ∧ s.mem.tagOf (pa / 128) = none) →
    ∃ t, exec (.acknowledgement n e.id) s = .next t ∧ s.SameOthers t ∧
      t.g = { s.g with sb := t.g.sb, uac := t.g.uac, lct := maxS s.g.lct e.pts, wait := t.g.wait,
                       inflight := s.g.inflight.map fun f => { f with waits := f.waits.filter fun w => w ≠ e.id } } ∧
      t.g.sb.map (fun y => (y.id, y.op)) = es.map (fun y => (y.id, y.op)) ∧
      (¬(e.ins.isSome = true ∧ ∃ y ∈ es, y.ins = e.ins ∧ y.count = 0) → t.g.sb = es ∧ t.g.uac = s.g.uac - BitVec.ofNat 16 e.count) ∧
      (e.ins.isSome = true → e.count ≠ 0 → (∃ y ∈ es, y.ins = e.ins ∧ y.count = 0) → t.g.uac = s.g.uac) ∧
      ∀ x, s.mem.tagOf (x / 128) = none → t.mem.byte x = ((bs.reverse.find? fun y => y.1.isMem x).map (·.2)).getD (s.mem.byte x)

/-- `satom.swap`, `satom.add` and `scas` read and write their bytes with no other access between, after the fence of a release and before
the steps of an acquire, and put the old value in s[d]; a KEY or POISON that they meet is deferred and leaves s[d] as it was; in a region
they abort it with MODE (R148, R152, R163, R337, R363). -/
def Obligations.ScalarAtomicResults : Prop :=
  ∀ (s : State) (d a b : BitVec 6) (o : Ord) (sc : Scope) (w : Bool), s.HasRegs [d, a, b] →
    let n := if w then 8 else 4
    let m := 2 ^ (8 * n)
    let va := s.sreg a
    let y := (s.sreg b).toNat
    ∀ x ∈ [(Instr.satomSwap d a b o sc w, fun _ : Nat => y % m), (Instr.satomAdd d a b o sc w, fun old => (old + y) % m),
           (Instr.scas d a b o sc w, fun old => if old = (s.sreg d).toNat % m then y % m else old)],
      (∀ r, s.region = some r → exec x.1 s = .next (s.abortRegion r .mode 0 0 false true)) ∧
      (s.region = none → va.toNat % n ≠ 0 → exec x.1 s = .next (s.scalarFault .align {} va)) ∧
      (s.region = none → va.toNat % n = 0 → s.g.watched va n true = false →
        ∀ (t : Target) (s1 : State),
          ((inWindow va = false ∧ s.walkHeld s.g va .atomic = false ∧ ∃ p, s.place s.g va .atomic = .ok p ∧ t = .mem p.pa p.coh p.grain p.enc p.key ∧ s1 = s.notePlace p .atomic) ∨
           (inWindow va = true ∧ ∃ k i, s.window s.g.caravan va n true = .scratch k i ∧ t = .bank k i ∧ s1 = s)) →
          s.lineHeld [t.line] = false → (s.g.sb.any fun e => !e.performed && e.lines.any fun l => [t.line].contains l) = false →
          (Ord.releases o = true → s.fenceReady sc = false → exec x.1 s = .next s) ∧
          ((Ord.releases o = true → s.fenceReady sc = true) → s.g.sbRoom [t.line] 1 = false → exec x.1 s = .next s) ∧
          ((Ord.releases o = true → s.fenceReady sc = true) → s.g.sbRoom [t.line] 1 = true →
            let s2 := s1.releaseIf o sc false
            (∀ s3 old st, s2.indivisible t n s2.g.pts (fun v => some (x.2 v)) = (s3, .ok (old, st)) →
              exec x.1 s = .next ((((s3.ackStamp st (s.acks s3)).setS d (BitVec.ofNat 64 old)).acquireIf o sc
                false).advance)) ∧
            ∀ s3 c, s2.indivisible t n s2.g.pts (fun v => some (x.2 v)) = (s3, .error c) → 
              exec x.1 s = .next (((s3.deferFault ⟨c, fpcScalar s.g.spc, 0, 0, 0, none⟩ s.g.hmode).acquireIf o sc false).advance)))

/-- `aset` with a size of 0 clears V; otherwise it forms the register at s[A] or takes the fault of its walk. `aclr` clears V and the
stale mark (R118, R119, R120). A fence stands at its word while an access of the group whose ordering point is within the scope is
unacknowledged; then PTS takes the later of itself and LCT, at QUAD and wider the core's NONE lines are written back and discarded, and at
DOM and SYS RSTAMP rises. `orf` waits for the group's own scratch writes, and the products issued after it see every write that a bank port
has performed (R151, R157, R164; that this covers the writes of others is log 41). -/
def Obligations.TranslationRegistersAndFences : Prop :=
  (∀ (s : State) (n : BitVec 3) (a b : BitVec 6),
     (∃ t, exec (.aclr n) s = .next t ∧ t = { s with g := { s.g with a := t.g.a, spc := s.g.spc + 4, wait := none, noWatch := false } } ∧
       ∀ i : Fin 8, t.g.a[i] = if i.val = n.toNat then { s.g.a[i] with v := false, stale := false } else s.g.a[i]) ∧
     (s.HasRegs [a, b] →
       (s.sreg b = 0 → ∃ t, exec (.aset n a b) s = .next t ∧
         t = { s with g := { s.g with a := t.g.a, spc := s.g.spc + 4, wait := none, noWatch := false } } ∧
         ∀ i : Fin 8, t.g.a[i] = if i.val = n.toNat then { s.g.a[i] with v := false } else s.g.a[i]) ∧
       (s.sreg b ≠ 0 → inWindow (s.sreg a) = true → exec (.aset n a b) s = .next (s.scalarFault .nomap { detail := 1 } (s.sreg a))) ∧
       (s.sreg b ≠ 0 → inWindow (s.sreg a) = false → s.formHeld s.g (s.sreg a) = true → exec (.aset n a b) s = .next s) ∧
       (s.sreg b ≠ 0 → inWindow (s.sreg a) = false → s.formHeld s.g (s.sreg a) = false →
         (∀ f, s.formReg s.g.asn (s.sreg a) (min (s.sreg b).toNat (2 ^ 29)) = .error f →
           exec (.aset n a b) s = .next (s.scalarFault f.cause f.info (s.sreg a))) ∧
         ∀ r, s.formReg s.g.asn (s.sreg a) (min (s.sreg b).toNat (2 ^ 29)) = .ok r →
           ∃ t, exec (.aset n a b) s = .next t ∧
             t = { s with g := { s.g with a := t.g.a, spc := s.g.spc + 4, wait := none, noWatch := false } } ∧
             (∀ i : Fin 8, t.g.a[i] = if i.val = n.toNat then r else s.g.a[i]) ∧ r.v = true ∧ r.stale = false ∧
             r.limit.toNat ≤ r.req.toNat))) ∧
  (∀ (s : State) (sc : Scope),
     ((∃ e ∈ s.g.sb, s.entryInScope s.g sc e = true) → exec (.fence sc) s = .next s) ∧
     ((∀ e ∈ s.g.sb, s.entryInScope s.g sc e = false) →
       ∃ t, exec (.fence sc) s = .next t ∧ s.SameOthers t ∧
         t = { s with mem := t.mem, svc := { s.svc with tfloor := t.svc.tfloor }, others := t.others,
                      disp := { s.disp with launches := t.disp.launches },
                      g := { s.g with pts := maxS s.g.pts s.g.lct, spc := s.g.spc + 4, wait := none, noWatch := false } } ∧
         (sc = .grp ∨ sc = .wg → t.mem = { s.mem with copies := t.mem.copies } ∧ t.others = s.others ∧ t.disp = s.disp) ∧
         (¬(sc = .grp ∨ sc = .wg) → ∀ x ∈ t.mem.nones, x.core ≠ s.g.coreNo) ∧
         (sc = .dom ∨ sc = .sys → t.mem.rstamp = maxS s.mem.rstamp (maxS s.g.pts s.g.lct))) ∧
     ((∃ e ∈ s.g.sb, e.performed = false ∧ SbEntry.toBank e = true) → exec .orf s = .next s) ∧
     ((∀ e ∈ s.g.sb, e.performed = false → SbEntry.toBank e = false) → exec .orf s = .next { s with g := { s.g with seen := s.mem.scratch, spc := s.g.spc + 4, wait := none, noWatch := false } }))

/-! ## The Porter and the banks -/

/-- A Porter command takes the first free slot of its core's Porter with what its registers say, and the scalar stream goes on; an arrival
word that is not a multiple of 8 faults with ALIGN, an empty command ends at once, and with no free slot the instruction waits; a region
aborts with MODE (R135, R184, R185, R337). `plodge` translates its source at issue (R140). `pcancel` ends the group's commands that it
selects and writes their number (R186). Which free slot a command takes is log 40; that commands restored without a slot come first, and that
a region may hold `pcancel`, is log 18. -/
def Obligations.PorterCommandsAreIssued : Prop :=
  ∀ (s : State) (p a b : BitVec 6),
    (∀ x ∈ s.portRows p a b, s.HasRegs (a :: b :: (List.range (x.2.1 + 1)).map fun i => p + BitVec.ofNat 6 i) →
      (∀ r, s.region = some r → exec x.1 s = .next (s.abortRegion r .mode 0 0 false true)) ∧
      (s.region = none →
        ((s.sreg (p + 1)).toNat % 8 ≠ 0 → exec x.1 s = .next (s.scalarFault .align {} (s.sreg (p + 1)))) ∧
        ((s.sreg (p + 1)).toNat % 8 = 0 → (s.sreg p).toNat % 2 ^ 32 = 0 → exec x.1 s = .next s.next) ∧
        ((s.sreg (p + 1)).toNat % 8 = 0 → (s.sreg p).toNat % 2 ^ 32 ≠ 0 →
          (∀ k, s.porterSlot s.g.coreNo = some k → s.olderIssuer = false → s.slotless s.g.coreNo = [] →
            exec x.1 s = .next { s with porters := s.porters ++ [{ x.2.2 with slot := k }] }.next) ∧
          (s.porterSlot s.g.coreNo = none ∨ s.olderIssuer = true ∨ s.slotless s.g.coreNo ≠ [] →
            ∃ w, exec x.1 s = .next { s with g := { s.g with wait := some w } } ∧
              (s.g.wait = none → w.porter = true ∧ w.spc = s.g.spc ∧ w.since = s.now))))) ∧
    (s.HasRegs (a :: b :: (List.range 3).map fun i => p + BitVec.ofNat 6 i) → s.region = none → (s.sreg (p + 1)).toNat % 8 = 0 →
      (inWindow (s.sreg b) = false → s.walkHeld s.g (s.sreg b) = false → ∀ f, s.place s.g (s.sreg b) .load = .error f →
        exec (.plodge p a b) s = .next (s.next.porterFault (s.portCmd 4 p a b 1 0 0 0) f (s.sreg b))) ∧
      ∀ k, s.porterSlot s.g.coreNo = some k → s.olderIssuer = false → s.slotless s.g.coreNo = [] →
        let c : PorterCmd := { s.portCmd 4 p a b 1 0 0 (s.sreg (p + 2)) with
          slot := k, pattern := s.sreg p, rowLen := 262144, looked := false, barred := s.lodges[s.g.die]?.any (·.flush) }
        (inWindow (s.sreg b) = true → exec (.plodge p a b) s = .next { s with porters := s.porters ++ [c] }.next) ∧
        (inWindow (s.sreg b) = false → s.walkHeld s.g (s.sreg b) = false → ∀ q, s.place s.g (s.sreg b) .load = .ok q →
          ∃ t, t = s.notePlace q .load ∧
            exec (.plodge p a b) s = .next { t with porters := s.porters ++ [{ c with enc := q.enc, key := q.key }] }.next)) ∧
    ∀ all : Bool, s.HasRegs (if all then [p] else [p, a]) →
      (s.porters.Pairwise fun x y => ¬(x.core = y.core ∧ x.slot = y.slot)) →
      let picked (c : PorterCmd) : Bool := c.tag = s.g.tag && (all || c.arrival = s.sreg a) && c.row < c.rows
      ∃ t, exec (.pcancel p a all) s = .next t ∧ t.porters = s.porters.filter (fun c => !picked c) ∧
        (∀ i, t.bank i = { s.bank i with waiters := (s.bank i).waiters.filter fun w => !s.porters.any fun c => picked c && w.cmd = some c.who }) ∧
        t = { s with porters := t.porters, lodgeEntries := t.lodgeEntries, banks := t.banks, g := t.g } ∧
        t.g = (s.wroteReg p (BitVec.ofNat 64 (s.porters.filter picked).length)).g

/-- A piece moves at most one 128-byte line at its destination; a fill writes its pattern, and every piece that is performed adds its
bytes to bits 39:0 of the arrival word and leaves bits 63:40 (R135 to R137, R185). A command ends once all of its rows have moved. That the rows
and bytes of a command move in order, and what an arrival does to RSTAMP, is log 18. -/
def Obligations.PorterPiecesMove : Prop :=
  ∀ (s : State) (c : PorterCmd), s.command c.core c.slot = some c →
    (c.row < c.rows → s.g.hasTag c.tag = true → s.g.state ≠ .saved → c.slot < 8 →
      (c.kind ≠ 5 → (c.kind ≠ 4 ∨ c.looked = true) → ∀ (s1 s2 : State) (ix bs : List Byte) (arr : Option Target),
        s.rowIndex c = (s1, .ok ix) →
        let at_ := c.addrs (leNat ix)
        let n := min (c.rowLen - c.done) (128 - at_.2.toNat % 128)
        s1.pieceBytes c at_.1 n = (s2, .ok bs) → s2.walkHeld s2.g at_.2 .store = false → s2.arrivalHeld c = false → s2.arrivalTarget c = .ok arr →
        let after := { c with idx := some (leNat ix) }.moved n
        (inWindow at_.2 = true → ∀ k o, s2.window s2.g.caravan at_.2 n true = .scratch k o → s2.lineHeld [.inl (scratchKey k o / 128)] = false →
          exec (.porterPiece c.core c.slot) s = .next ((((s2.setBankBytes k o bs).countPiece c arr n).fillEntry c bs).setCmd after)) ∧
        (inWindow at_.2 = false → ∀ q, s2.place s2.g at_.2 .store = .ok q → s2.mem.keyServes q.pa q.enc q.key = true →
          s2.unrouted q.pa = false → (s2.notePlace q .store).lineHeld [.inr (q.pa / 128)] = false →
          exec (.porterPiece c.core c.slot) s =
            .next (((((s2.notePlace q .store).deepWrite q bs c.pts).countPiece c arr n).fillEntry c bs).setCmd after))) ∧
      (c.kind = 5 → inWindow c.dst = true → ∀ k, s.bankOf s.g.caravan (c.dst.toNat % 2 ^ 24 / 65536) = some k → (s.bank k).mode = .fifo →
        (s.porterTurn c.who k 0 1 = false → exec (.porterPiece c.core c.slot) s = .next (s.porterJoin c.who k 0 1)) ∧
        (s.porterTurn c.who k 0 1 = true → s.arrivalHeld c = false → ∀ (s1 : State) (bs : List Byte) (arr : Option Target),
          let n := min (c.rowLen - c.done) (s.bank k).slotSize
          s.porterReadAll c.who (c.src + BitVec.ofNat 64 c.done) n = (s1, .ok bs) → s1.arrivalTarget c = .ok arr →
          let s2 := (s1.porterLeave c.who k).setBankBytes k ((s.bank k).tail * (s.bank k).slotSize)
            (bs ++ List.replicate ((s.bank k).slotSize - n) 0)
          exec (.porterPiece c.core c.slot) s = .next (((s2.setBank (s2.bank k).push).countPiece c arr n).setCmd (c.moved n)))) ∧
      (c.kind = 4 → c.looked = false → let l := s.lodges[c.core / 64]?.getD ⟨0, 0, false, none, []⟩
        (c.barred = true → l.flush = true → exec (.porterPiece c.core c.slot) s = .next s) ∧
        ((c.barred = true → l.flush = false) → l.nent = 0 →
          exec (.porterPiece c.core c.slot) s = .next (s.setCmd { c with looked := true, barred := false })))) ∧
    (c.row < c.rows → s.g.hasTag c.tag = true → s.g.state ≠ .saved → 8 ≤ c.slot → ∀ i, s.porterSlot c.core = some i →
      (s.slotless c.core).head? = some c → exec (.porterPiece c.core c.slot) s =
        .next { s with porters := s.porters.map fun x => if x.core = c.core && x.slot = c.slot then { c with slot := i } else x }) ∧
    (c.kind = 3 → ∀ src n, s.pieceBytes c src n =
      (s, .ok ((List.range n).map fun i => c.pattern.extractLsb' (8 * ((c.done + i) % 8)) 8))) ∧
    (∀ n, (c.moved n).delivered = c.delivered + n) ∧
    (∀ old n, addArrival old n % 2 ^ 40 = (old + n) % 2 ^ 40 ∧ addArrival old n / 2 ^ 40 = old / 2 ^ 40) ∧
    (c.rows ≤ c.row → ∃ t, exec (.porterCommandEnd c.core c.slot) s = .next t ∧
      t.porters = s.porters.filter (fun x => !(x.core = c.core && x.slot = c.slot)) ∧
      (∀ i, t.bank i = { s.bank i with waiters := (s.bank i).waiters.filter fun w => w.cmd ≠ some c.who }) ∧
      t = { s with porters := t.porters, lodgeEntries := t.lodgeEntries, banks := t.banks } ∧
      (∀ id, c.lodge = some id → c.filling = true →
        ∀ e ∈ t.lodgeEntries, e.die = c.core / 64 → e.id = id → e.valid = true) ∧
      (c.lodge = none ∨ c.filling = false → t.lodgeEntries = s.lodgeEntries))

/-- A bank changes its mode: from SCRATCH at once, a FIFO only when empty, and from CACHE once its write-backs have been granted (R125,
R128, R129, R336). An access that waits at a FIFO bank is served when the bank has what it needs and every access that waits longer is
short of slots that this one does not need; an access is served at once when none waits, a push or a pop also when only accesses of the
other kind wait, all of them short (R132, R133; that one passes a waiter short of other slots is log 30). LODGECTL changes and flushes as R139 says. -/
def Obligations.QuadMemoryChanges : Prop :=
  ∀ (s : State),
    (∀ (d a b : BitVec 6) (mode : BankMode) (z n : Nat), s.HasRegs [d, a, b] → s.region = none → bankModeOf (s.sreg b) = some (mode, z) →
      s.bankOf s.g.caravan ((s.sreg a).toNat % 64) = some n →
      (s.g.hasArrived = true → exec (.bkmode d a b) s = .next (if (s.bank n).switching then s else s.wroteReg d 0)) ∧
      (s.g.hasArrived = false → (s.bank n).switching = true → exec (.bkmode d a b) s = .next s.stall) ∧
      (s.g.hasArrived = false → (s.bank n).switching = false → (s.bank n).mode = mode → exec (.bkmode d a b) s = .next (s.wroteReg d 0)) ∧
      (s.g.hasArrived = false → (s.bank n).switching = false → (s.bank n).mode ≠ mode → s.bankBusy n = false →
      ((s.bank n).mode = .fifo → (s.bank n).fill ≠ 0 → exec (.bkmode d a b) s = .next (s.wroteReg d 1)) ∧
      ((s.bank n).mode ≠ .cache → ((s.bank n).mode = .fifo → (s.bank n).fill = 0) →
        ∃ t, exec (.bkmode d a b) s = .next t ∧ t.g = (s.wroteReg d 0).g ∧ t = { s with g := t.g, banks := t.banks, mem := t.mem } ∧ (t.bank n).mode = mode ∧ (t.bank n).fill = 0 ∧ (t.bank n).head = 0 ∧
          (t.bank n).tail = 0 ∧ (∀ m, m ≠ n → t.bank m = s.bank m) ∧
          (mode ≠ .cache → t.mem = s.mem) ∧
          (mode = .cache → s.memWf → ∀ x, (x < scratchKey n 0 ∨ scratchKey n 0 + 65536 ≤ x) → t.mem.scratch.find x = s.mem.scratch.find x)) ∧
      ((s.bank n).mode = .cache →
        ∃ t, exec (.bkmode d a b) s = .next t ∧ (t.bank n).switching = true ∧ (t.bank n).mode = mode ∧
          (s.regions = [] → ∃ w, t.g = { s.g with wait := some w } ∧ w.arrived = true ∧ w.spc = s.g.spc)))) ∧
    (∀ quad k, (s.bank (quad * 64 + k)).switching = true →
      exec (.modeSwitchComplete quad k) s = .next (s.setBank { s.bank (quad * 64 + k) with switching := false })) ∧
    (∀ (e : Nat) (w : FifoWait) (pre post : List FifoWait), let b := s.bank e
      b.waiters = pre ++ w :: post → w.granted = false → (∀ x ∈ pre, x.tag ≠ w.tag) → w ∉ post →
      let ready := w.needFill ≤ b.fill ∧ w.needFree ≤ b.free ∧
        ∀ x ∈ pre, (b.fill < x.needFill ∧ w.needFill = 0) ∨ (b.free < x.needFree ∧ w.needFree = 0)
      (ready → exec (.fifoAccessServed w.tag e) s =
        .next (s.setBank { b with waiters := pre ++ { w with granted := true } :: post })) ∧
      (¬ready → (∀ x ∈ post, x.tag ≠ w.tag) → exec (.fifoAccessServed w.tag e) s = .next s)) ∧
    (∀ (k : Nat) (f : State → State), (s.bank k).waiters = [] →
      (1 ≤ (s.bank k).fill → s.fifoTurn k 1 0 f = f (s.setBank (s.bank k))) ∧
      ((s.bank k).fill = 0 → s.fifoTurn k 1 0 f = s.setBank { s.bank k with waiters := [⟨s.g.tag, none, 1, 0, false, none⟩] })) ∧
    (∀ (k : Nat) (f : State → State), (∀ w ∈ (s.bank k).waiters, w.tag ≠ s.g.tag) →
      ((∀ w ∈ (s.bank k).waiters, (s.bank k).fill < w.needFill) → 1 ≤ (s.bank k).free →
        s.fifoTurn k 0 1 f = f (s.setBank (s.bank k))) ∧
      ((∀ w ∈ (s.bank k).waiters, (s.bank k).free < w.needFree) → 1 ≤ (s.bank k).fill →
        s.fifoTurn k 1 0 f = f (s.setBank (s.bank k)))) ∧
    ∀ (die : Fin 2) (v : Word64), let l := s.lodges[die]
      (l.flush = true → ∃ t, exec (.lodgeWayChange die v) s = .next t ∧ t = { s with lodges := t.lodges } ∧
        t.lodges[die] = { l with queued := l.queued ++ [v] } ∧ exec (.lodgeFlush die v) s =
          .next { s with lodges := s.lodges.set die { l with queued := l.queued ++ [v ||| 0x10000#64] } }) ∧
      (l.flush = false → v.toNat % 16 ≤ 8 → v.toNat % 16 ≠ l.lway →
        exec (.lodgeWayChange die v) s =
          .next { s with lodges := s.lodges.set die { l with lway := v.toNat % 16, flush := true, newWay := some (v.toNat % 16) } }) ∧
      (l.flush = false → v.toNat % 16 = l.lway →
        exec (.lodgeFlush die v) s = .next { s with lodges := s.lodges.set die { l with flush := true } }) ∧
      (l.flush = true → l.newWay ≠ none → (s.porters.any fun c => c.kind = 4 && c.core / 64 = die.val && !c.barred) = true →
        exec (.lodgeChangeEnd die) s = .next s) ∧
      (l.flush = true → l.queued = [] →
        (l.newWay ≠ none → (s.porters.any fun c => c.kind = 4 && c.core / 64 = die.val && !c.barred) = false) →
        exec (.lodgeChangeEnd die) s = .next { s with
          lodges := s.lodges.set die { l with flush := false, newWay := none, nent := (match l.newWay with | some w => 24 * w | none => l.nent) },
          lodgeEntries := s.lodgeEntries.filter fun e => e.die ≠ die.val,
          porters := s.porters.map fun c => if c.kind = 4 && c.core / 64 = die.val then
            { c with hit := s.hitData c, lodge := none, filling := false, barred := false } else c })

/-! ## Rooms and products -/

/-- `mtake` takes the lowest FREE Room that its request fits, with the contents free and the flags clear, and waits in order of issue where
none does; `mgive`, once nothing of the Room is in the queues, hands it to another resident group of the quad with the register free;
`mfree` gives the Room up; `mth` loads or clears a handle (R264, R265, R271, R272, R274, R276). -/
def Obligations.RoomsChangeHands : Prop :=
  ∀ (s : State) (m : BitVec 3) (a : BitVec 6) (r : Room), let q := s.g.quadNo
    (s.HasRegs [a] → s.region = none → let req := (s.sreg a).toNat % 16
      (s.g.m[m.toNat] ≠ none → exec (.mtake m a) s = .next (s.scalarFault .room)) ∧
      (∀ x, req < 8 → s.roomAt q req = some x → x.owner = s.g.tag → exec (.mtake m a) s = .next (s.scalarFault .room)) ∧
      (s.g.m[m.toNat] = none → (∀ x, req < 8 → s.roomAt q req = some x → x.owner ≠ s.g.tag) →
        (∀ x ∈ (s.hall q).takers, x.1 ≠ s.g.tag ∧ s.fitting q x.2.1 = none) →
        (∀ n, s.fitting q req = some n → s.roomAt q n = none ∧ (∀ k < n, req ≥ 8 → s.roomAt q k ≠ none) ∧ (req < 8 → n = req) ∧
          exec (.mtake m a) s = .next { s with
            rooms := s.rooms ++ [(⟨q, n, s.g.tag, 0, some s.freeCtr, []⟩ : Room)],
            freeCtr := s.freeCtr + 1,
            g := { s.g with m := s.g.m.set m.toNat (some (BitVec.ofNat 3 n)) } }.next) ∧
        (s.fitting q req = none → exec (.mtake m a) s = .next { (s.setHall { s.hall q with takers := (s.hall q).takers ++ [(s.g.tag, req, m)] }) with
          g := { s.g with wait := some { s.newWait with limit := some 1048576 } } }))) ∧
    (s.g.m[m.toNat] = some (BitVec.ofNat 3 r.num) → r.num < 8 → r.hall = q → s.roomAt q r.num = some r → r.owner = s.g.tag →
      (s.HasRegs [a] → s.pend q r.num = 0 → s.giveTarget (s.sreg a) = none → exec (.mgive m a) s = .next (s.scalarFault .room)) ∧
      (s.HasRegs [a] → s.pend q r.num = 0 → ∀ h, s.giveTarget (s.sreg a) = some h →
        (h.number = (s.sreg a).setWidth 12 ∧ h.state = .resident ∧ h.quadNo = q ∧ h.tag ≠ s.g.tag) ∧
        exec (.mgive m a) s = .next { s with
          rooms := s.rooms.map fun (x : Room) => if x.hall = r.hall && x.num = r.num then { r with owner := h.tag } else x,
          others := s.others.map fun (x : Group) =>
            if x.hasTag h.tag then { x with m := x.m.setIfInBounds ((s.sreg a).extractLsb' 12 3).toNat (some (BitVec.ofNat 3 r.num)) } else x,
          g := { s.g with m := s.g.m.set m.toNat none } }.next) ∧
      (s.HasRegs [a] → s.pend q r.num ≠ 0 → s.g.wait = none →
        exec (.mgive m a) s = .next { s with g := { s.g with wait := some { s.newWait with give := some (m, a) } } }) ∧
      (s.pend q r.num = 0 → s.g.hasTag r.owner = true → exec (.mfree m) s = .next { s with
        rooms := s.rooms.filter fun x => !(x.hall = r.hall && x.num = r.num),
        g := { s.g with m := s.g.m.set m.toNat none } }.next) ∧
      (s.pend q r.num ≠ 0 → exec (.mfree m) s = .next { s with g := { s.g with m := s.g.m.set m.toNat none } }.next)) ∧
    ∀ h : BitVec 4, s.HasRegs [a, a + 1] → h.toNat < s.g.hAllot →
      let x : Handle := ⟨true, (s.sreg (a + 1)).extractLsb' 0 54 ++ s.sreg a⟩
      (s.sreg a = 0 ∧ s.sreg (a + 1) = 0 → exec (.mth h a) s =
        .next { s with g := { s.g with h := s.g.h.set h.toNat { s.g.h[h.toNat] with v := false } } }.next) ∧
      (¬(s.sreg a = 0 ∧ s.sreg (a + 1) = 0) → (s.sreg (a + 1)).extractLsb' 54 10 = 0#10 → x.good = true →
        exec (.mth h a) s = .next { s with g := { s.g with h := s.g.h.set h.toNat x } }.next) ∧
      (¬(s.sreg a = 0 ∧ s.sreg (a + 1) = 0) → (s.sreg (a + 1)).extractLsb' 54 10 ≠ 0#10 ∨ x.good = false →
        exec (.mth h a) s = .next (s.scalarFault .handle))

/-- The products, `mzero`, `mwr` and `mdrain`, once their checks pass, enter the group's queue of at most 16 with what they read at issue,
and stall while it is full; a failed check takes HANDLE, FORMAT or ALIGN; `mrd` waits for the Room's work and gives the rows with their
flags, or takes FPX (R268, R270, R275, R277, R278, R281 to R285). `mfence` numbers and closes the open batch, `mwait` stalls while a batch
that it awaits is not complete, and the oldest closed batch is complete once none of its items is in the queue (R279, R280). That `mrd`
reads what was committed before any `mwait` is the model's reading (log 41). That an `mdrain` is one access of one line to the store buffer, whatever
its tile, is log 43. -/
def Obligations.RoomWorkIsQueued : Prop :=
  (∀ (s : State) (m : BitVec 3) (r : Room), s.g.m[m.toNat] = some (BitVec.ofNat 3 r.num) → r.num < 8 → r.hall = s.g.quadNo →
     s.roomAt r.hall r.num = some r → r.owner = s.g.tag →
     let queues (i : Instr) (op : RoomOp) :=
       (s.g.work.length < 16 → exec i s = .next (s.queued r.num op).next) ∧ (16 ≤ s.g.work.length → exec i s = .next s.stall)
     (s.region = none → queues (.mzero m) .zero) ∧
     (s.g.liveLanes = s.g.full →
     (s.region = none → ∀ (a b : BitVec 4), a.toNat < s.g.hAllot → b.toNat < s.g.hAllot →
       ∀ x ∈ [(Instr.mma m a b, 0), (.mmab m a b, 1), (.mmas m a b, 2), (.mmac m a b, 3)],
         let o : MatOp := ⟨x.2, s.g.h[a.toNat], s.g.h[b.toNat], s.formatBlock s.g.h[a.toNat], s.formatBlock s.g.h[b.toNat]⟩
         (s.handleEarly o = true → exec x.1 s = .next (s.scalarFault .handle)) ∧
         (s.handleEarly o = false → o.badFormat = true → exec x.1 s = .next (s.scalarFault .format)) ∧
         (s.handleEarly o = false → o.badFormat = false → s.handleLate o = true → exec x.1 s = .next (s.scalarFault .handle)) ∧
         (s.handleEarly o = false → o.badFormat = false → s.handleLate o = false → queues x.1 (.mma o))) ∧
     (∀ (a : BitVec 6) (f : BitVec 8), s.HasRegs [a] → let c := RoomCtl.of (s.sreg a)
       (s.region = none →
         (∀ k, s.g.rowCause c f.toNat (fun t => t = .f32 || t = .f64) = some k → exec (.mwr m a f) s = .next (s.scalarFault k)) ∧
         (s.g.rowCause c f.toNat (fun t => t = .f32 || t = .f64) = none → queues (.mwr m a f) (.write c.wide c.row c.col
           ((List.range (c.nreg + 1)).map fun j => (List.range s.g.width).map fun l =>
             if c.wide then s.g.vreg (f.toNat + 2 * j + 1) l ++ s.g.vreg (f.toNat + 2 * j) l else (s.g.vreg (f.toNat + j) l).setWidth 64)))) ∧
       (∀ k, s.g.rowCause c f.toNat drainTy = some k → exec (.mrd m a f) s = .next (s.scalarFault k)) ∧
       (s.g.rowCause c f.toNat drainTy = none → (∃ i ∈ s.g.work, i.room = r.num) → exec (.mrd m a f) s = .next s.stall) ∧
       (s.g.rowCause c f.toNat drainTy = none → (∀ i ∈ s.g.work, i.room ≠ r.num) →
         let x (j l : Nat) := roomConvert (c.ty.getD .f32) s.g.cvm (r.element c.wide (c.row + j) (c.col + l))
         let fl := (List.range (c.nreg + 1)).foldl (fun y j => (List.range s.g.width).foldl (fun y l => y ||| (x j l).2) y) r.flags
         (fl &&& s.g.xe ≠ 0 → exec (.mrd m a f) s = .next (s.scalarFault .fpx { flags := fl &&& s.g.xe } 0 s.g.full)) ∧
         (fl &&& s.g.xe = 0 → ∃ t v xf, exec (.mrd m a f) s = .next t ∧
           t = { s with rooms := (s.setRoom { r with flags := 0 }).rooms, g := { s.g with v := v, xf := xf } }.next ∧
           (∀ l : Fin 64, xf[l] = if l.val < s.g.width then s.g.xf[l] ||| fl else s.g.xf[l]) ∧
           (∀ j ≤ c.nreg, ∀ l < 64, l < s.g.width → t.g.vreg (c.reg f.toNat j) l = BitVec.ofNat 32 (x j l).1 ∧
             (c.wide = true → t.g.vreg (c.reg f.toNat j + 1) l = BitVec.ofNat 32 ((x j l).1 / 2 ^ 32))) ∧
           ∀ k l, (k < f.toNat ∨ f.toNat + (if c.wide then 2 else 1) * (c.nreg + 1) ≤ k ∨ s.g.width ≤ l) → t.g.vreg k l = s.g.vreg k l))) ∧
     (s.region = none → ∀ (a : BitVec 6) (h subt : BitVec 4) (bat add : Bool), s.HasRegs [a] → h.toNat < s.g.hAllot →
       let x := s.g.h[h.toNat]
       let ty := efmt (s.formatBlock x)
       let vas := drainAddrs x (s.sreg a) ty.esize
       let ex := exec (.mdrain m a h subt bat add) s
       let op (e : Option Nat) : RoomOp :=
         .drain (if bat then 64 * (subt.toNat / 4) else 0) (if bat then 64 * (subt.toNat % 4) else 0) x.vrows x.cols ty e s.g.cvm s.g.xe
       (s.drainHandle x ty bat = true → ex = .next (s.scalarFault .handle)) ∧
       (s.drainHandle x ty bat = false → drainFormat (s.formatBlock x) bat add = true → ex = .next (s.scalarFault .format)) ∧
       (s.drainHandle x ty bat = false → drainFormat (s.formatBlock x) bat add = false →
         ((s.sreg a).toNat % ty.esize ≠ 0 → ex = .next (s.scalarFault .align {} (s.sreg a))) ∧
         ((s.sreg a).toNat % ty.esize = 0 → (∀ va ∈ vas, s.walkHeld s.g va (if add then .atomic else .store) = false) →
           (∀ k va, s.drainPlaces ty.esize add vas = .error (k, va) → ex = .next (s.scalarFault k.cause k.info va)) ∧
           (s.drainPlaces ty.esize add vas = .ok [] → s.g.work.length < 16 → ex = .next (s.queued r.num (op none)).next) ∧
           ∀ (u : Target) (ts : List Target), s.drainPlaces ty.esize add vas = .ok (u :: ts) → let s1 := s.noteDrain vas add
             (s.g.sbRoom [u.line] 1 = false ∨ 16 ≤ s.g.work.length → ex = .next s1.stall) ∧
             (s.g.sbRoom [u.line] 1 = true → s.g.work.length < 16 → ex = .next (({ s1 with
               g := s.g.enqueue (.op u (.drain false add ty ((u :: ts).map fun y => (y, 0)))) 1 (fpcScalar s.g.spc) s.g.full } : State).queued r.num
                 (op (some s.g.nextId))).next)))))) ∧
  ∀ (s : State) (d a : BitVec 6),
     (s.HasRegs [d] → s.g.closedBatches.length < 128 → exec (.mfence d) s =
       .next { s with g := { s.g.setS d (BitVec.ofNat 64 (s.g.batches % 256)) with
         batches := s.g.batches + 1,
         closedBatches := s.g.closedBatches ++ (if s.g.work.any fun i => i.batch.isNone then [s.g.batches] else []),
         work := s.g.work.map fun (i : WorkItem) => if i.batch.isNone then { i with batch := some s.g.batches } else i } }.next) ∧
     (s.HasRegs [d] → 128 ≤ s.g.closedBatches.length → exec (.mfence d) s = .next s.stall) ∧
     (s.HasRegs [a] → let w := (s.sreg a).toNat % 256
       ((∃ k ∈ s.g.closedBatches, s.g.awaits w k = true) → exec (.mwait a) s = .next s.stall) ∧
       ((∀ k ∈ s.g.closedBatches, s.g.awaits w k = false) → exec (.mwait a) s = .next s.next)) ∧
     ∀ (n k : Nat) (rest : List Nat), s.g.hasTag n = true → s.g.closedBatches = k :: rest →
       ((∀ i ∈ s.g.work, i.batch ≠ some k) → exec (.batchComplete n) s = .next { s with g := { s.g with closedBatches := rest } }) ∧
       ((∃ i ∈ s.g.work, i.batch = some k) → exec (.batchComplete n) s = .next s)

/-- The Hall: the grant goes to a head that none is preferred to when the shadow is empty, B loads, the stream starts when the array is
free and nothing before the item touches its Room, unless a halt will cancel it, and ends at the tile boundary, and the operation commits in the
group's own order, updating its Room as one unit, and leaves the queue; a head that has waited 65,536 cycles ages (R254, R256, R267, R269, R377). That a
commit completes a product before any `mwait` is log 41, what is near its end log 34, and POISON of a bank line log 42. -/
def Obligations.TheHallWorks : Prop :=
  ∀ (s : State) (hall : Nat), let h := s.hall hall
    (∀ (g : Group) (i : WorkItem), h.shadow = none → s.chooseHead hall = some (g, i) →
      (∀ g1 ∈ s.groups, g1.quadNo = hall → g1.state ≠ .saved → g1.paused = false → ∀ i1, g1.head = some i1 →
        (∀ j ∈ g1.before i1.id, j.stage ≠ WorkStage.trapped) → h.prefers s.now (g1, i1) (g, i) = false) ∧
      exec (.innkeeperGrant hall) s = .next ((s.setHall { h with
        shadow := some (g.tag, i.id), granted := (h.granted.filter fun x => x ≠ g.tag) ++ [g.tag] }).onGroup g.tag fun x =>
          ({ x with work := x.work.map fun j => if j.id = i.id then { j with stage := .granted } else j } : Group).dateHead s.now)) ∧
    (h.shadow = none → s.chooseHead hall = none → exec (.innkeeperGrant hall) s = .next s) ∧
    (∀ x, h.shadow = some x → exec (.innkeeperGrant hall) s = .next s) ∧
    (∀ (x : Nat × Nat) (g : Group) (i : WorkItem), h.shadow = some x → s.workOf x = some (g, i) → i.stage = .granted →
      exec (.bLoadComplete hall) s = .next (s.setStage x .loaded)) ∧
    (∀ (x : Nat × Nat) (g : Group) (i : WorkItem), h.shadow = some x → h.stream = none → s.workOf x = some (g, i) → i.stage = .loaded →
      let cancels : Prop := (s.caravan g.caravan).any (·.preempt) = true ∧ s.nearEnd g i = false
      (g.clearFor i = true → ¬cancels → exec (.streamStart hall) s =
        .next ((s.setHall { h with shadow := none, stream := some x, streamAt := s.now }).setStage x .streaming)) ∧
      (g.clearFor i = false ∨ cancels → exec (.streamStart hall) s = .next s)) ∧
    (∀ x, h.stream = some x → exec (.streamEnd hall) s =
      .next ((s.setHall { h with stream := none, ended := h.ended ++ [x] }).setStage x .streamed)) ∧
    (let commits (x : Nat × Nat) (g : Group) (i : WorkItem) : Prop := s.workOf x = some (g, i) ∧ g.before i.id = [] ∧ i.stage = WorkStage.streamed
     (∀ (pre post : List (Nat × Nat)) (x : Nat × Nat) (g : Group) (i : WorkItem) (o : MatOp) (r : Room), h.ended = pre ++ x :: post →
       (∀ y ∈ pre, ∀ g1 i1, ¬commits y g1 i1) → commits x g i → i.op = .mma o → s.roomAt hall i.room = some r → s.g.hasTag g.tag = true →
       let s2 : State := { (s.setHall { h with ended := h.ended.filter fun y => y ≠ (g.tag, i.id) }).setRoom (s.product g i o r) with
         freeCtr := s.freeCtr + 1 }
       (s.opPoisoned g.caravan o = false → exec (.operationCommit hall) s =
         .next { s2 with g := { s.g with work := s.g.work.filter fun j => j.id ≠ i.id } }) ∧
       (s.opPoisoned g.caravan o = true → exec (.operationCommit hall) s =
         .next ((s2.deferFault ⟨.poison, i.fpc, Info.word { roomw := true }, s.g.full, 0, none⟩ i.inHandler).onGroup g.tag fun x =>
           { x with work := x.work.filter fun j => j.id ≠ i.id }))) ∧
     ((∀ y ∈ h.ended, ∀ g1 i1, ¬commits y g1 i1) → exec (.operationCommit hall) s = .next s)) ∧
    ∀ (n : Nat) (i : WorkItem), s.g.hasTag n = true → s.g.head = some i →
      (∀ k, i.headSince = some k → k + 65536 ≤ s.now → exec (.headAgeing n) s =
        .next { s with g := { s.g with work := s.g.work.map fun x => if x.id = i.id then { x with aged := true } else x } }) ∧
      ((∀ k, i.headSince = some k → s.now < k + 65536) → exec (.headAgeing n) s = .next s)

/-- The Room port takes the oldest item that nothing before keeps back, zeroes or writes the Room or reads it for a drain (an enabled flag
is a deferred FPX and the drain writes nothing), and an item ends in issue order; a waiting `mtake` takes the Room that it fits or times
out after 1,048,576 cycles, a waiting `mgive` hands its Room over, and a Room that its owner has given up becomes FREE once nothing of it
is queued (R265, R268, R270, R271, R272, R282, R285). What a drain reads before any `mwait` is the model's reading (log 41). -/
def Obligations.TheRoomPortWorks : Prop :=
  ∀ (s : State) (n : Nat), s.g.hasTag n = true →
    (∀ (i : WorkItem) (r : Room), s.g.state ≠ .saved → s.g.paused = false →
      (s.g.work.find? fun i => !i.isMma && i.stage = .queued && s.g.clearFor i) = some i → s.roomAt s.g.quadNo i.room = some r →
      let staged (g : Group) (st : WorkStage) : Group := { g with work := g.work.map fun j => if j.id = i.id then { j with stage := st } else j }
      (i.op = .zero → exec (.roomPortWork n) s = .next { s with
        rooms := (s.setRoom { r with flags := 0, base := none, slots := [] }).rooms, g := staged s.g .port }) ∧
      (∀ wide row col vals, i.op = .write wide row col vals → exec (.roomPortWork n) s = .next { s with
        rooms := (s.setRoom (r.write (vals.zipIdx.flatMap fun a => a.1.zipIdx.flatMap fun b =>
          elementSlots wide (row + a.2) (col + b.2) b.1.toNat))).rooms, g := staged s.g .port }) ∧
      (∀ row col rows cols ty entry cvm xe, i.op = .drain row col rows cols ty entry cvm xe →
        let ys := (List.range rows).flatMap fun a => (List.range cols).map fun b =>
          roomConvert ty cvm (r.element (ty = .f64) (row + a) (col + b))
        let fl := ys.foldl (fun f y => f ||| y.2) r.flags
        (fl &&& xe = 0 → ∃ g, exec (.roomPortWork n) s = .next { s with rooms := (s.setRoom { r with flags := 0 }).rooms, g := g } ∧
          (∀ l : Fin 64, g.xf[l] = if l.val < s.g.width then s.g.xf[l] ||| fl else s.g.xf[l]) ∧
          g = staged { s.g with xf := g.xf, sb := s.g.sb.map fun e => if some e.id = entry then e.fill (ys.map (·.1)) else e } .port) ∧
        (fl &&& xe ≠ 0 → exec (.roomPortWork n) s =
          .next (({ s with g := staged (entry.elim s.g s.g.dropEntry) .trapped } : State).deferFault
            ⟨.fpx, i.fpc, Info.word { flags := fl &&& xe, roomw := true }, s.g.full, 0, none⟩ i.inHandler)))) ∧
    (∀ (i : WorkItem) (q : List WorkItem), s.g.work = i :: q → i.isMma = false →
      (s.g.portOver i = true → exec (.roomPortWorkEnd n) s = .next { s with g := { s.g with work := s.g.work.filter fun x => x.id ≠ i.id } }) ∧
      (s.g.portOver i = false → exec (.roomPortWorkEnd n) s = .next s)) ∧
    (∀ (w : Wait) (m : BitVec 3) (a : BitVec 6), s.g.wait = some w → w.give = some (m, a) →
      exec (.roomHandover n) s = .next (s.give m a)) ∧
    (∀ (hall room req : Nat) (d : BitVec 3), hall = s.g.quadNo →
      ((s.hall hall).takers.find? fun x => s.fitting hall x.2.1 = some room) = some (n, req, d) →
      exec (.mtakeGrant hall room) s = .next { (s.setHall { s.hall hall with takers := (s.hall hall).takers.filter fun x => x.1 ≠ n }) with
        rooms := s.rooms ++ [(⟨hall, room, s.g.tag, 0, some s.freeCtr, []⟩ : Room)], freeCtr := s.freeCtr + 1,
        g := { s.g with m := s.g.m.set d.toNat (some (BitVec.ofNat 3 room)) } }.next) ∧
    (∀ (w : Wait), s.g.wait = some w → ((s.hall s.g.quadNo).takers.any fun x => x.1 = n) = true →
      (w.since + 1048576 ≤ s.now → exec (.mtakeTimeout n) s = .next ((s.untake s.g.quadNo n).scalarFault .timeout)) ∧
      (s.now < w.since + 1048576 → exec (.mtakeTimeout n) s = .next s)) ∧
    ∀ (hall room : Nat) (r : Room), s.roomAt hall room = some r →
      (s.givenUp r = true → s.pend hall room = 0 → exec (.roomRelease hall room) s =
        .next { s with rooms := s.rooms.filter fun x => !(x.hall = hall && x.num = room) }) ∧
      (s.givenUp r = false ∨ s.pend hall room ≠ 0 → exec (.roomRelease hall room) s = .next s)

/-! ## Synchronisation -/

/-- `bini` writes {0, s[B]}; `bara` adds the threads to COUNT as a release and answers the old word; `barw`, `barx` and `wword` complete,
as an acquire, when the word that they read meets their condition, and park at their word otherwise; a reserved field of the control word
is ILLEGAL; a region aborts with MODE; a KEY or POISON of the write is deferred, one of the read precise (R323 to R327, R329, R337, R363).
An arrival adds its threads to bits 63:40 of its word, which wrap, and leaves bits 39:0 (R326). A group whose watched word has been written
wakes, one without a watch looks again after 1,024 cycles, and one at its limit takes TIMEOUT, deferred where the arrival of a `barx`
stands (R326, R327). -/
def Obligations.BarriersAndWaits : Prop :=
  (∀ (s : State) (d a b : BitVec 6) (t : Target), let va := s.sreg a
     let late (u : State) (k : Cause) : State := u.deferFault ⟨k, fpcScalar s.g.spc, 0, 0, 0, none⟩ s.g.hmode
     let acked (b u : State) (st : Stamp) : State := u.ackStamp st (b.acks u)
     (s.HasRegs [a, b] → s.region = none → s.SyncAt va 16 16 .store t → s.g.sbRoom [t.line] 1 = true →
       let s1 := s.noteVa va .store
       let r := s1.indivisible t 16 s.g.pts (fun _ => some ((s.sreg b).toNat * 2 ^ 64))
       (∀ s2 old st, r = (s2, .ok (old, st)) → exec (.bini a b) s = .next (acked s1 s2 st).advance) ∧
       ∀ s2 k, r = (s2, .error k) → exec (.bini a b) s = .next (late s2 k).advance) ∧
     (s.HasRegs [b] → WaitCtl.of (s.sreg b) = none →
       ∀ i ∈ [Instr.bara d a b, .barw d a b, .barx d a b, .wword d a b], exec i s = .next (s.scalarFault .illegal { ctrlw := true })) ∧
     (s.HasRegs [d, a, b] → ∀ c, WaitCtl.of (s.sreg b) = some c →
       let waits (i : Instr) (u : State) (n : Nat) (arrived : Bool) (done : Nat → Bool) (pick : Nat → Nat) : Prop :=
         (∀ s3 x, u.currentRead t n = (s3, .ok x) →
           (done x = true → exec i s = .next ((s3.setS d (BitVec.ofNat 64 (pick x))).acquired c.scope).advance) ∧
           (done x = false → ∃ v, exec i s = .next v ∧ s3.ParkedIn v arrived c)) ∧
         ∀ s3 k, u.currentRead t n = (s3, .error k) → exec i s = .next (u.scalarFault k)
       (∀ r, s.region = some r → ∀ i ∈ [Instr.bara d a b, .barw d a b, .barx d a b], exec i s = .next (s.abortRegion r .mode 0 0 false true)) ∧
       (s.region = none → s.SyncAt va 16 16 .atomic t → let s0 := s.noteVa va .atomic
         (s.g.hasArrived = true → waits (.barx d a b) s0 16 true barrierDone (· % 2 ^ 64)) ∧
         (s0.fenceReady c.scope = false → exec (.bara d a b) s = .next s0 ∧ (s.g.hasArrived = false → exec (.barx d a b) s = .next s0)) ∧
         (s0.fenceReady c.scope = true → s.g.sbRoom [t.line] 1 = true → let s1 := s0.releaseIf .rel c.scope false
           let r := s1.indivisible t 8 s1.g.pts (fun x => some (arrive (if c.tc = 0 then s.g.liveLanes.count else c.tc) x))
           (∀ s2 old st, r = (s2, .ok (old, st)) →
             exec (.bara d a b) s = .next ((acked s1 s2 st).setS d (BitVec.ofNat 64 old)).advance ∧
             (s.g.hasArrived = false → waits (.barx d a b) (acked s1 s2 st) 16 true barrierDone (· % 2 ^ 64))) ∧
           ∀ s2 k, r = (s2, .error k) → exec (.bara d a b) s = .next (late s2 k).advance ∧
             (s.g.hasArrived = false → waits (.barx d a b) (late s2 k) 16 true barrierDone (· % 2 ^ 64)))) ∧
       (s.region = none → s.SyncAt va 16 16 .load t → waits (.barw d a b) (s.noteVa va .load) 16 false barrierDone (· % 2 ^ 64)) ∧
       (s.region = none → s.g.hasS (b + 1) = true → ∀ (cond : Cond), Cond.ofCode (BitVec.ofNat 3 c.tc) = some cond → c.tc % 8 < 6 →
         s.SyncAt va 8 8 .load t →
         waits (.wword d a b) (s.noteVa va .load) 8 false (fun x => condHolds cond (BitVec.ofNat 64 x) (s.sreg (b + 1))) id)) ∧
     exec .yield s = .next { s with g := { s.g with scalarIssued := s.now, laneIssued := s.now, spc := s.g.spc + 4, wait := none, noWatch := false } }) ∧
  ((∀ n old : Nat, old < 2 ^ 64 → arrive n old % 2 ^ 40 = old % 2 ^ 40 ∧ arrive n old / 2 ^ 40 = (old / 2 ^ 40 + n) % 2 ^ 24) ∧
   ∀ (s : State) (n : Nat) (w : Wait), s.g.hasTag n = true → s.g.wait = some w → w.parked = true →
     (w.watch.isSome = true → w.written = true →
       exec (.watchWake n) s = .next { s with g := { s.g with wait := some { w with woken := true } } }) ∧
     (w.watch = none ∨ w.written = false → exec (.watchWake n) s = .next s) ∧
     (w.watch = none → w.polled + 1024 ≤ s.now → exec (.watchPoll n) s = .next { s with g := { s.g with wait := some { w with woken := true } } }) ∧
     (w.watch.isSome = true ∨ s.now < w.polled + 1024 → exec (.watchPoll n) s = .next s) ∧
     (∀ l, w.limit = some l → w.since + l ≤ s.now →
       (w.arrived = false → exec (.waitTimeout n) s = .next (s.scalarFault .timeout)) ∧
       (w.arrived = true → exec (.waitTimeout n) s =
         .next (s.advance.deferFault ⟨.timeout, fpcScalar s.g.spc, Info.word { arrived := true }, 0, 0, none⟩ s.g.hmode))) ∧
     ((∀ l, w.limit = some l → s.now < w.since + l) → exec (.waitTimeout n) s = .next s))

/-- The deque: a push goes to the bottom unless it is full, a pop takes from the bottom and a steal from the top unless it is empty; the
instructions are a release and an acquire of scope DOM on the descriptor (R331, R332). That a descriptor in a scratch window is NOMAP is the model's
reading (log 29). -/
def Obligations.DequesHoldInOrder : Prop :=
  (∀ (e : Deque) (ring : Nat → Word64) (x : Word64), e.valid = true → x ≠ dequeEmpty → e.bottom < 2 ^ 32 → e.top < 2 ^ 32 → e.size ≤ e.cap → e.cap < 256 →
    (e.size < e.cap → ∃ e1, e.step ring (.push x) = .ok (e1, [(64 + 8 * (e.bottom % e.cap), x)], 0) ∧ e1.size = e.size + 1 ∧ e1.top = e.top) ∧
    (e.size = e.cap → e.step ring (.push x) = .ok (e, [], 1)) ∧
    (0 < e.size → (∃ e1, e.step ring .pop = .ok (e1, [], ring (e1.bottom % e.cap)) ∧ e1.size + 1 = e.size ∧ e1.top = e.top) ∧
      ∃ e1, e.step ring .steal = .ok (e1, [], ring (e.top % e.cap)) ∧ e1.size + 1 = e.size ∧ e1.bottom = e.bottom) ∧
    (e.size = 0 → e.step ring .pop = .ok (e, [], dequeEmpty) ∧ e.step ring .steal = .ok (e, [], dequeEmpty))) ∧
  ∀ (s : State) (d a b : BitVec 6) (t : Target), s.HasRegs [d, a, b] → let va := s.sreg a
    ∀ x ∈ [(Instr.dqinit a b, DequeOp.init ((s.sreg b).toNat % 256), fun (s : State) (_ : Word64) => s),
           (.dqpush d a b, .push (s.sreg b), fun s v => s.setS d v), (.dqpop d a, .pop, fun s v => s.setS d v),
           (.dqsteal d a, .steal, fun s v => s.setS d v)],
      (∀ r, s.region = some r → exec x.1 s = .next (s.abortRegion r .mode 0 0 false true)) ∧
      (s.region = none → va.toNat % 64 ≠ 0 → exec x.1 s = .next (s.scalarFault .align {} va)) ∧
      (s.region = none → va.toNat % 64 = 0 → inWindow va = true → exec x.1 s = .next (s.scalarFault .nomap {} va)) ∧
      (s.region = none → va.toNat % 64 = 0 → inWindow va = false → s.walkHeld s.g va .atomic = false →
        (∀ f, s.syncTarget va 64 .atomic = .error f → exec x.1 s = .next (s.scalarFault f.cause f.info va)) ∧
        (s.syncTarget va 64 .atomic = .ok t → s.g.watched va 64 true = false →
          let ls : List (Nat ⊕ Nat) := (List.range 16).map fun i => .inr (t.line.elim id id + i)
          s.lineHeld ls = false → (s.g.sb.any fun e => !e.performed && e.lines.any fun l => ls.contains l) = false →
          (s.fenceReady .dom = false → exec x.1 s = .next s) ∧
          (s.fenceReady .dom = true → s.g.sbRoom [t.line] 1 = true → let s1 := (s.noteVa va .atomic).releaseIf .ar .dom false
            (∀ s2 v st, s1.dequeAt t s1.g.pts x.2.1 = (s2, .ok (v, st)) →
              exec x.1 s = .next (x.2.2 ((s2.ackStamp st (s1.acks s2)).acquireIf .ar .dom false) v).advance) ∧
            (∀ s2 c, s1.dequeAt t s1.g.pts x.2.1 = (s2, .error c) → exec x.1 s = .next (s2.scalarFault c)))))

/-- `rbeg` waits until the group's runs and accesses have ended and opens the first FREE entry; a nested one aborts with EXPLICIT and
NEST; `rend` ends the region and waits for its commit, `rabort` aborts with EXPLICIT and its code, and `rstat` reads RGST, RGPRED or RGID
(R338, R343 to R346). A commit makes every byte of the region visible at once, and only after its predecessors; an aborted region leaves
memory unchanged and sends its group to the abort address (R342, R343). The points at which a region opens and is tested are log 19, that it takes
the first FREE entry is log 40, and what memory holds at the commit's fence is that of its release of scope PKG (R337, R151). -/
def Obligations.RegionsRun : Prop :=
  ∀ (s : State) (d a : BitVec 6), s.HasRegs [d, a] →
    (s.region = none →
      ((s.sreg a).toNat % 4 ≠ 0 → exec (.rbeg a) s = .next (s.scalarFault .align {} (s.sreg a))) ∧
      ((s.sreg a).toNat % 4 = 0 → s.g.runsOver = true → s.g.uac = 0 → ∀ e, s.freeRegion s.g.die = some e →
        exec (.rbeg a) s = .next { s with
          regions := s.regions ++ [Region.new s.g.die e s.g.tag false],
          g := { s.g with rgid := BitVec.ofNat 6 e, rgst := 0x80, rgAbort := s.sreg a, spc := s.g.spc + 4, wait := none, noWatch := false } }) ∧
      ((s.sreg a).toNat % 4 = 0 → s.g.runsOver = false ∨ s.g.uac ≠ 0 ∨ s.freeRegion s.g.die = none → exec (.rbeg a) s = .next s.stall) ∧
      exec (.rend d) s = .next (s.wroteReg d (BitVec.ofNat 64 (s.g.rgst.toNat % 16))) ∧ exec (.rabort a) s = .next s.advance) ∧
    (∀ r, s.region = some r → r.implicit = false →
      ((s.sreg a).toNat % 4 = 0 → exec (.rbeg a) s = .next (s.abortRegion r .explicit 0 0 true true)) ∧
      (s.g.runsOver = true → exec (.rend d) s = .next (s.setRegion { r with st := .ended }).stall) ∧
      (s.g.runsOver = false → exec (.rend d) s = .next s.stall) ∧
      exec (.rabort a) s = .next (s.abortRegion r .explicit 0 ((s.sreg a).setWidth 8) false true)) ∧
    (∀ r, s.region = some r → r.implicit = true → exec (.rbeg a) s = .next (s.abortRegion r .mode 0 0 false true) ∧
      exec (.rend d) s = .next (s.abortRegion r .mode 0 0 false true)) ∧
    (exec (.rstat d a) s = .next (s.wroteReg d (match (s.sreg a).toNat % 4 with
      | 0 => s.rgstNow.setWidth 64
      | 1 => s.g.rgpred
      | 2 => s.g.rgid.setWidth 64
      | _ => 0))) ∧
    ∀ (n : Nat) (r : Region), s.g.hasTag n = true → s.regions = [r] → r.owner = n → r.st ≠ .free →
      (∀ v, s.caravan s.g.caravan = some v → exec (.regionAbort n .preempt) s =
        .next (if v.toPreempt then s.abortRegion r .preempt 0 0 false true else s)) ∧
      (∀ c ≠ AbortCause.preempt, exec (.regionAbort n c) s = .next s) ∧
      (∀ (c : AbortCause) (fc uc : BitVec 8) (nest : Bool), let t := s.abortRegion r c fc uc nest true
        t.mem = s.mem ∧ t.regions = [] ∧ t.g.rgpred = 0 ∧ t.g.rgst = rgstAbort c fc uc nest ∧
          (r.implicit = false → t.g.spc = s.g.rgAbort ∧ t.g.s = s.g.s)) ∧
      (r.st = .ended → s.commitWaits r = true → exec (.regionCommit r.die r.e) s = .next s) ∧
      (r.st = .ended → s.commitWaits r = false → s.fenceReady .pkg = false → exec (.regionCommit r.die r.e) s = .next s) ∧
      (r.st = .ended → s.commitWaits r = false → s.fenceReady .pkg = true → s.memWf → s.mem.Quiet → s.mem.txns = [] → s.mem.queue = [] →
        Cells.rising r.bytes = true →
        (∀ x ∈ r.bytes, isOwn x.1 = true ∧ s.mem.tagOf (x.1 / 128) = none) → (∀ y ∈ r.attrs, y.2.2.1 = false) →
        ∃ t, exec (.regionCommit r.die r.e) s = .next t ∧ t.regions = [] ∧ t.g.rgst = 0 ∧ t.g.rgpred = s.g.liveLanes ∧
          t.g.pts = maxS s.g.pts s.g.lct ∧
          ∀ x, s.mem.tagOf (x / 128) = none → t.mem.byte x = (r.bytes.find x).getD (s.mem.byte x)) ∧
      (r.st = .run → exec (.regionCommit r.die r.e) s = .next s)

/-- A reduction record is declared, refused or withdrawn with the code that R335 gives (R334, R335); `evsig` adds to its word as a release
of scope SYS and `evwait` waits for it as an acquire (R350). The order in which a declaration's answers are tested, and of the tests before it, is
the model's reading (log 29). -/
def Obligations.DeclarationsAndEvents : Prop :=
  (∀ (m : Mem) (pa : Nat) (r : RedRecord), m.declare pa none = (m, 3) ∧ ((m.redRecord pa).isSome = true → m.declare pa (some r) = (m, 1)) ∧
    ((m.redRecord pa) = none → 16 ≤ (m.reds.filter fun x => m.leaseSlice x.target = m.leaseSlice pa).length → m.declare pa (some r) = (m, 2)) ∧
    ((m.redRecord pa) = none → (m.reds.filter fun x => m.leaseSlice x.target = m.leaseSlice pa).length < 16 →
      m.declare pa (some r) = ({ m with reds := m.reds ++ [r] }, 0))) ∧
  ∀ (s : State) (d a b : BitVec 6) (t : Target), s.HasRegs [d, a, b] → s.region = none → let va := s.sreg a
    (∀ pa coh grain enc key, t = .mem pa coh grain enc key → inWindow va = false → s.SyncAt va 1 1 .atomic t → s.g.sbRoom [t.line] 1 = true →
      s.mem.keyServes pa enc key = true → let s1 := s.noteVa va .atomic
      (s.sreg b = 0 → (s1.mem.redRecord pa = none → exec (.tdecl d a b) s = .next (s1.wroteReg d 4)) ∧
        ((s1.mem.redRecord pa).isSome = true → exec (.tdecl d a b) s =
          .next ({ s1 with mem := { s1.mem with reds := s1.mem.reds.filter fun r => r.target ≠ pa } }.wroteReg d 0)))) ∧
    ((s.sreg b).toNat % 16 ≠ 0 → exec (.tdecl d a b) s = .next (s.scalarFault .align {} (s.sreg b))) ∧
    (s.sreg b ≠ 0 → (s.sreg b).toNat % 16 = 0 → ((vaParts (s.sreg b) 3 144).any fun x => s.blockHeld x.1 x.2) = false →
      (∀ f x, s.blockFault (vaParts (s.sreg b) 3 144) = some (f, x) → exec (.tdecl d a b) s = .next (s.scalarFault f.cause f.info x)) ∧
      (s.blockFault (vaParts (s.sreg b) 3 144) = none → s.g.watched (s.sreg b) 144 false = true →
        exec (.tdecl d a b) s = .next (s.scalarFault .watch {} (s.sreg b)))) ∧
    (∀ s1 bs, s.sreg b ≠ 0 → (s.sreg b).toNat % 16 = 0 → ((vaParts (s.sreg b) 3 144).any fun x => s.blockHeld x.1 x.2) = false →
      s.blockFault (vaParts (s.sreg b) 3 144) = none → s.g.watched (s.sreg b) 144 false = false → s.readBlock (vaParts (s.sreg b) 3 144) = (s1, .ok bs) → s1.sreg a = va → inWindow va = false →
      let ty := (Ty.ofCode (leNat (bs.take 8) % 32)).getD .q
      let al := if ty ∈ [Ty.i32, .n32, .i64, .n64, .f32, .f64] then ty.esize else 1
      (va.toNat % al ≠ 0 → exec (.tdecl d a b) s = .next (s1.scalarFault .align {} va)) ∧
      ∀ pa coh grain enc key, t = .mem pa coh grain enc key → s1.SyncAt va al al .atomic t → s1.g.sbRoom [t.line] 1 = true →
        s1.mem.keyServes pa enc key = true →
        let s2 := s1.noteVa va .atomic
        exec (.tdecl d a b) s = .next ({ s2 with mem := (s2.mem.declare pa (RedRecord.of pa bs)).1 }.wroteReg d
          (BitVec.ofNat 64 (s2.mem.declare pa (RedRecord.of pa bs)).2))) ∧
    (inWindow va = false → s.SyncAt va 8 8 .atomic t → (s.noteVa va .atomic).fenceReady .sys = true →
      let s1 := (s.noteVa va .atomic).releaseIf .rel .sys false
      let r := s1.indivisible t 8 s1.g.pts (fun x => some ((x + (s.sreg b).toNat) % 2 ^ 64))
      (∀ s2 old st, r = (s2, .ok (old, st)) →
        exec (.evsig d a b) s = .next ((s2.ackStamp st (s1.acks s2)).setS d (BitVec.ofNat 64 old)).advance) ∧
      ∀ s2 k, r = (s2, .error k) → exec (.evsig d a b) s = .next (s2.scalarFault k)) ∧
    (inWindow va = false → s.SyncAt va 8 8 .load t → ∀ s1 x, (s.noteVa va .load).currentRead t 8 = (s1, .ok x) →
      ((s.sreg b).toNat ≤ x → exec (.evwait d a b) s = .next ((s1.setS d (BitVec.ofNat 64 x)).acquired .sys).advance) ∧
      (x < (s.sreg b).toNat → ∃ u, exec (.evwait d a b) s = .next u ∧ s1.ParkedIn u false ⟨0, .sys, 0⟩))

/-! ## The memory system's own work -/

/-- A request reaches its slice: a bad header is discarded and counted in the log; a read of lines that are held uses them again, and the
lines that miss, or come after a pending request for them, are queued at the channel; a write whose lines are held or covered whole is
performed at once. The scheduler picks the oldest request, one that has waited 640 ns first, and its batch takes in every request of its
GRP and WAVE and, before each, those that overlap it; a frame leaves clean before dirty, oldest use first; a purged slot becomes FREE when
no line has its tag (R66, R67, R73, R74, R82). That 640 ns are 602 cycles is log 16; the requests that a batch takes in and the end of a running
batch are log 25. -/
def Obligations.TheCellarServesRequests : Prop :=
  ∀ (s : State),
    (∀ r : MemRequest, s.mem.notes = [] → r.ok = false → s.log2n = 0 →
      exec (.memoryRequest r) s = .next { s with svc := { s.svc with sloghead := s.svc.sloghead + 1 } }) ∧
    (∀ r : MemRequest, r.ok = true → isOwn r.addr = true → r.lines.any s.lineWaits = false → r.enc = false → s.mem.keyServes r.addr r.enc r.key = true →
      s.mem.notes = [] → s.mem.staged = [] → (∀ l ∈ r.lines, s.mem.tagOf l = none) → (∀ st < 16, s.mem.mst st 9 1 = 0) →
      let held (l : Nat) := s.mem.lines.any fun x => x.line = l
      let behind (l : Nat) := s.mem.chans.any fun q => q.lines.contains l
      (r.kind = 0 → s.mem.running.contains (s.mem.slice r.addr, r.grp, r.wave) = false →
        let miss := r.lines.filter fun l => !held l || behind l
        ∃ t, exec (.memoryRequest r) s = .next t ∧ t = { s with mem := { s.mem with lines := t.mem.lines, chans := t.mem.chans, uses := t.mem.uses } } ∧
          t.mem.chans = s.mem.chans ++ (if miss = [] then [] else [⟨s.mem.slice r.addr, some s.now, r, miss, false, false⟩]) ∧
          ∀ l ∈ r.lines, l ∉ miss → ∃ x ∈ t.mem.lines, x.line = l ∧ s.mem.uses ≤ x.used) ∧
      (r.kind = 1 ∨ r.kind = 3 → s.memWf → s.regions = [] → (∀ l ∈ r.lines, behind l = false ∧ (held l = true ∨ r.covers l = true)) →
        ((s.mem.frames (r.addr / 128)).filter fun x => x.1 ≠ r.addr / 2048).length < 16 →
        ∃ t, exec (.memoryRequest r) s = .next t ∧ t.mem.chans = s.mem.chans ∧ t.mem.hbm = s.mem.hbm ∧ t.g = { s.g with wait := t.g.wait } ∧
          s.SameOthers t ∧
          (∀ k (h : k < r.sectors.length), ∀ i < 32,
            t.mem.cellar.find (r.addr + 32 * r.sectors[k] + i) = some (r.payload[32 * k + i]?.getD 0)) ∧
          (∀ x, (∀ n ∈ r.sectors, x / 32 ≠ r.addr / 32 + n) → t.mem.cellar.find x = s.mem.cellar.find x) ∧
          ∀ l ∈ r.lines, ∃ x ∈ t.mem.lines, x.line = l)) ∧
    (∀ (fs : List (Nat × Bool × Nat)) (b : Nat), pickFrame fs = some b →
      ∃ x ∈ fs, x.1 = b ∧ ∀ y ∈ fs, (x.2.1 = true → y.2.1 = true) ∧ (x.2.1 = y.2.1 → x.2.2 ≤ y.2.2)) ∧
    (∀ (ch : Nat) (q : ChanReq), let mine := s.mem.chans.filter fun x => x.ch = ch && !x.lines.any s.lineWaits
      let joins (x : ChanReq) : Bool := x = q || (q.req.kind ≠ 3 && x.req.kind ≠ 3 && x.req.grp = q.req.grp && x.req.wave = q.req.wave)
      let batch := chanClosure joins mine
      oldestRequest mine = some q →
        ((∃ x ∈ mine, x.aged = true) → q.aged = true) ∧ ((∀ x ∈ mine, x.aged = false) → mine.head? = some q) ∧
        (∀ x ∈ mine, joins x = true → x ∈ batch) ∧
        (mine.Nodup → ∀ pre y mid x post, mine = pre ++ y :: mid ++ x :: post → x ∈ batch → (∃ l ∈ x.lines, l ∈ y.lines) → y ∈ batch) ∧
        ∃ t, exec (.channelBatch ch) s = .next t ∧
          t.mem.running = (if q.req.kind = 3 then [] else [(ch, q.req.grp, q.req.wave)]) ++ s.mem.running.filter (fun x => x.1 ≠ ch) ∧
          (s.log2n = 0 → ∀ x ∈ s.mem.chans, x ∉ batch → x ∈ t.mem.chans) ∧
          (s.log2n = 0 → (∀ st < 16, s.mem.mst st 9 1 = 0) → q.wb = false → (∃ b, ∀ l ∈ q.lines, l / 16 = b) → batch = [q] →
            ∀ l ∈ q.lines, (t.mem.lines.any fun x => x.line = l) = true)) ∧
    (∀ (ch : Nat) (q : ChanReq), ((s.mem.chans.filter fun x => x.ch = ch && !x.aged).find? fun x => x.since.any fun n => 602 ≤ s.now - n) = some q →
      exec (.batchAgeLimit ch) s = .next { s with mem := { s.mem with running := s.mem.running.filter fun x => x.1 ≠ ch, chans := s.mem.chans.map fun x => if x = q then { x with aged := true } else x } }) ∧
    (∀ ch, (∀ x ∈ s.mem.chans, x.ch = ch → x.aged = false → ∀ n, x.since = some n → s.now - n < 602) → exec (.batchAgeLimit ch) s = .next s) ∧
    (∀ (slot : Nat) (k : KeySlot), k ∈ s.mem.keys → k.slot = slot → k.st = .purge → slot < 2 ^ 13 → (∀ x ∈ s.mem.tags, x.2.toNat ≠ slot) →
      ∃ t, exec (.keyPurgeComplete slot) s = .next t ∧ t = { s with mem := { s.mem with keys := t.mem.keys } } ∧
        (t.mem.keySlot (BitVec.ofNat 13 slot)).st = .free ∧ ∀ x ∈ s.mem.keys, x.slot ≠ slot → x ∈ t.mem.keys) ∧
    ∀ slot : Nat, (∃ x ∈ s.mem.tags, x.2.toNat = slot) → exec (.keyPurgeComplete slot) s = .next s

/-- A retirement starts at block 0 and moves block after block with no byte of memory changing what it reads as, until the mode is
retired; failed channels set their bits, and a bank under self-test is named by BCH and BBANK while BIST is set (R63, R68, R69, R70, R71,
R72). That a failure is taken in any MODE is log 26. The statement takes a log that is off (R391). -/
def Obligations.ChannelsRetireAndFail : Prop :=
  ∀ (s : State) (stack : Nat), s.log2n = 0 → stack < 16 → s.memWf →
    (∀ f < 32, s.mem.mode stack = 0 → s.mem.mst stack 9 1 = 0 → ∃ t, exec (.channelRetireStart stack f) s = .next t ∧ t.g = s.g ∧
      t.mem.mode stack = 1 ∧ t.mem.rch stack = f ∧ t.mem.rbptr stack = 0 ∧ t.mem.hbm = s.mem.hbm ∧ t.mem.failed = s.mem.failed) ∧
    (∀ f, s.mem.mode stack ≠ 0 ∨ s.mem.mst stack 9 1 = 1 → exec (.channelRetireStart stack f) s = .next s) ∧
    (s.mem.mode stack = 1 → s.mem.rbptr stack < 1015808 → let p := s.mem.rbptr stack
      ∃ t, exec (.blockRebuild stack) s = .next t ∧ t.g = s.g ∧ t.mem.rbptr stack = p + 1 ∧
        t.mem.mode stack = (if p + 1 = 1015808 then 2 else 1) ∧ t.mem.rch stack = s.mem.rch stack ∧
        (∀ x, t.mem.tagOf (x / 128) = s.mem.tagOf (x / 128) → t.mem.byte x = s.mem.byte x) ∧
        (p + 1 = 1015808 → t.svc.rdymap.getLsbD (192 + stack * 32 + s.mem.rch stack) = false ∧
          t.mem.failed.contains (stack, s.mem.rch stack) = false)) ∧
    (s.mem.mode stack ≠ 1 → exec (.blockRebuild stack) s = .next s) ∧
    (∀ c < 32, c = s.mem.rch stack → s.mem.mode stack = 1 ∨ (s.mem.mode stack ≠ 0 ∧ 1015808 ≤ s.mem.rbptr stack) →
      exec (.dataChannelFailure stack c) s = .next s) ∧
    (∀ c < 32, s.mem.failed.contains (stack, c) = false →
      ¬(c = s.mem.rch stack ∧ (s.mem.mode stack = 1 ∨ (s.mem.mode stack ≠ 0 ∧ 1015808 ≤ s.mem.rbptr stack))) →
      ∃ t, exec (.dataChannelFailure stack c) s = .next t ∧ t.g = s.g ∧ t.mem.mode stack = 3 ∧ t.mem.failed.contains (stack, c) = true ∧
        t.mem.mst stack (10 + c / 8) 1 = 1 ∧ t.mem.hbm = s.mem.hbm ∧
        (s.mem.mode stack ≠ 0 ∨ s.mem.rbptr stack = 0 → ∀ x, t.mem.byte x = s.mem.byte x)) ∧
    (∀ g < 4, s.mem.pfail stack g = false → ∃ t, exec (.parityChannelFailure stack g) s = .next t ∧ t.g = s.g ∧ t.mem.pfail stack g = true ∧
      ∀ x, t.mem.byte x = s.mem.byte x) ∧
    (∀ ch < 36, ∀ bank < 128, s.mem.mode stack ≠ 1 → s.mem.mst stack 9 1 = 0 → ∃ t, exec (.bankSelfTest stack ch bank) s = .next t ∧ t.g = s.g ∧
      t.mem.mst stack 9 1 = 1 ∧ t.mem.mst stack 45 6 = ch ∧ t.mem.mst stack 0 7 = bank ∧
      (ch < 32 → t.mem.dirtyLines (stack * 32 + ch) = []) ∧ (s.mem.tags = [] → (∀ c ∈ s.mem.cellar, isOwn c.1 = true) → ∀ x, t.mem.byte x = s.mem.byte x)) ∧
    (s.mem.mode stack = 1 ∨ s.mem.mst stack 9 1 = 1 → ∀ ch bank, exec (.bankSelfTest stack ch bank) s = .next s) ∧
    (s.mem.mst stack 9 1 = 1 → ∀ ok, ∃ t, exec (.bankSelfTestEnd stack ok) s = .next t ∧ t.g = s.g ∧ t.mem.mst stack 9 1 = 0 ∧
      (s.mem.tags = [] → (∀ c ∈ s.mem.cellar, isOwn c.1 = true) → ∀ x, t.mem.byte x = s.mem.byte x) ∧
      (ok = false → t.svc.sloghead = s.svc.sloghead + 1 + BitVec.ofNat 64 s.mem.notes.length) ∧
      (ok = true → let lo := (Loc.mk stack (s.mem.mst stack 45 6) (s.mem.mst stack 0 7 * 2 ^ 24)).key
        ∀ w ∈ t.mem.bad, w ∈ s.mem.bad ∧ (w < lo ∨ lo + 2 ^ 24 ≤ w)))

/-- An operation at the head of a store buffer is performed whole at its slice: an atomic and an insertion read and write at once, a
contribution without a record combines with its target, a bulk operation answers by lane, a store to a LEASE line takes the writer's jump.
An add-on-store stages a piece at every slice, and only then adds (R75, R76, R97, R163, R173, R177, R181, R183). An atomic to a memory that gives no
answer has no effect (R385), and an operation whose key has been destroyed is refused (R82). That an insertion and its counters are one step is
log 42. -/
def Obligations.SlicesPerformOperations : Prop :=
  ∀ (s : State) (n : Nat) (e : SbEntry) (es : List SbEntry), s.g.hasTag n = true → s.g.sb = e :: es → (∀ y ∈ es, y.id ≠ e.id) → e.performed = false →
    (s.mates e = [e] → s.entryWaits e = false →
      let done (t : State) (st : Stamp) (fl : List (Nat × BitVec 6)) (r : OpRes) : State :=
        (t.setG fun g => (g.markPerformed e.id st fl (s.acks t)).giveAnswer e.id r).flushLog
      (∀ t code ty size x y cvm, e.op = .op t (.rmw code ty size x y cvm) → s.refuses e = true →
        exec (.memsideOperation n e.id) s = .next (s.refuseAtomic [e] [e]).flushLog) ∧
      (∀ t o, e.op = .op t o → s.refuses e = false → e.lost t = true →
        let refused : State := ((s.setG fun g => g.markPerformed e.id e.pts).lateCause e .key).flushLog
        (e.isRmw = true → exec (.memsideOperation n e.id) s = .next refused) ∧ (e.isRed = true → exec (.redContribution n e.id) s = .next refused)) ∧
      (∀ t code ty size x y cvm, e.op = .op t (.rmw code ty size x y cvm) → s.refuses e = false → e.lost t = false → ∀ s1 old st,
        s.indivisible t size e.pts (fun v => some (atomicOp code ty x.toNat y.toNat cvm v).1) = (s1, .ok (old, st)) →
        exec (.memsideOperation n e.id) s = .next (done s1 st [] { stamp := st, vals := [(Mask.first e.mask, BitVec.ofNat 64 old)], flags := [(Mask.first e.mask, (atomicOp code ty x.toNat y.toNat cvm old).2)] })) ∧
      (∀ pa coh grain enc key opc ty val die core slot lane, e.op = .op (.mem pa coh grain enc key) (.red opc ty val die core slot lane) →
        e.lost (.mem pa coh grain enc key) = false → s.targetServed (.mem pa coh grain enc key) = true → s.mem.redRecord pa = none → ∀ s1 old st,
        s.indivisible (.mem pa coh grain enc key) ty.esize e.pts (fun v => some (redOp opc ty (v, 0) (val.toNat, 0)).1) = (s1, .ok (old, st)) →
        let fl := [(lane, (redOp opc ty (old, 0) (val.toNat, 0)).2)]
        exec (.redContribution n e.id) s = .next (done s1 st fl { stamp := st, flags := fl })) ∧
      (∀ pa coh grain enc key opc ty val die core slot lane r, e.op = .op (.mem pa coh grain enc key) (.red opc ty val die core slot lane) →
        e.lost (.mem pa coh grain enc key) = false → s.targetServed (.mem pa coh grain enc key) = true → s.mem.redRecord pa = some r → (r.take opc ty val die core slot).full = false →
        s.mem.notes = [] →
        ∃ t, exec (.redContribution n e.id) s = .next t ∧ t.mem.reds = r.take opc ty val die core slot :: s.mem.reds.filter (fun x => x.target ≠ pa) ∧
          ∀ x, t.mem.byte x = s.mem.byte x) ∧
      (∀ t k en, e.op = .op t (.tki k en none) → e.lost t = false → ∀ s1 old st,
        s.indivisible t 16 e.pts (fun v => some ((tkiStep k en (tkiEntries v)).1.foldr (fun w n => w.toNat + 2 ^ 32 * n) 0)) = (s1, .ok (old, st)) →
        exec (.tkiInsertion n e.id) s = .next (done s1 st [] { stamp := st })) ∧
      (∀ t k en (h : TransReg), e.op = .op t (.tki k en (some h)) → e.lost t = false → (h.enc && e.gone.contains h.key) = false → ∀ s1 r,
        s.tkiAt t e.pts k en (some h) = (s1, .ok r) → r.late = none → exec (.tkiInsertion n e.id) s = .next (done s1 r.stamp [] r)) ∧
      (∀ t push lanes s1 r, e.op = .op t (.bulk push lanes) → e.lost t = false → s.bulkAt t e.pts push lanes = (s1, .ok r) → r.late = none →
        exec (.dequeOperation n e.id) s = .next (done s1 r.stamp [] r)) ∧
      (∀ pa grain enc key b bs, e.op = .store ((.mem pa .lease grain enc key, b) :: bs) →
        (∀ x ∈ (Target.mem pa .lease grain enc key, b) :: bs, s.noRoute x.1 = false ∧ s.targetServed x.1 = true ∧ e.lost x.1 = false) →
        let p := s.performStore ((.mem pa .lease grain enc key, b) :: bs) e.pts
        exec (.leaseWrite n e.id) s = .next ((p.1.setG fun g => g.markPerformed e.id p.2 [] (s.acks p.1)).flushLog))) ∧
    (∀ slice, e.adds = true → (s.mem.staged.any fun p => !(p.tag = n && p.e = e.id) && p.lines.any fun l => e.lines.contains l) = false →
      (s.mem.staged.any fun p => p.tag = n && p.e = e.id && p.slice = slice) = false → s.pieceLines e slice ≠ [] →
      exec (.drainPrepare n e.id slice) s = .next { s with mem := { s.mem with staged := ⟨n, e.id, slice, s.pieceLines e slice⟩ :: s.mem.staged } }) ∧
    (∀ slice, (s.mem.staged.any fun p => !(p.tag = n && p.e = e.id) && p.lines.any fun l => e.lines.contains l) = true →
      exec (.drainPrepare n e.id slice) s = .next s) ∧
    (e.adds = true → (∃ x ∈ s.pieceSlices e, ∀ p ∈ s.mem.staged, p.tag = n → p.e = e.id → p.slice ≠ x) → exec (.drainCommit n e.id) s = .next s) ∧
    (e.adds = true → (∀ x ∈ s.pieceSlices e, ∃ p ∈ s.mem.staged, p.tag = n ∧ p.e = e.id ∧ p.slice = x) →
      ∃ t, exec (.drainCommit n e.id) s = .next t ∧ (∀ p ∈ t.mem.staged, ¬(p.tag = n ∧ p.e = e.id)) ∧
        t = ({ s with mem := { s.mem with staged := s.mem.staged.filter fun p => !(p.tag = n && p.e = e.id) } } : State).performOne e)

/-! ## Coherence -/

/-- No directory event changes what any byte of memory reads as, nor anything outside the directory; a quad that already holds a unit as
its access needs asks for nothing (R84, R86, R88). -/
def Obligations.TheDirectoryKeepsValues : Prop :=
  ∀ (s : State) (u q : Nat) (g : BitVec 2),
    (∀ i ∈ [Instr.gets u q g, .getm u q g, .upg u q g, .pute u q, .putx u q, .fwds u q, .fwdm u q, .recallOwner u q, .inv u q,
        .invack u q, .grant u q, .grantStale u q, .dataPhase u q, .probe u q, .discovery u, .directoryEviction u], ∃ t, exec i s = .next t ∧
      t = { s with mem := { s.mem with
        quad := t.mem.quad, l2 := t.mem.l2, dir := t.mem.dir, qlines := t.mem.qlines, txns := t.mem.txns, queue := t.mem.queue,
        drops := t.mem.drops, uses := t.mem.uses, fresh := t.mem.fresh } } ∧
      (s.memWf → ∀ x, t.mem.byte x = s.mem.byte x)) ∧
    (s.mem.hits u q g false = true → exec (.gets u q g) s = .next s) ∧
    (s.mem.hits u q g true = true → exec (.getm u q g) s = .next s ∧ exec (.upg u q g) s = .next s)

/-- A request is served as R87's table says: at once where no other quad has to act, else after FwdS, FwdM, Inv and InvAck, and after a
discovery where its record may have been dropped (R86, R87, R90, R91). That FwdS and FwdM are sent when every Inv has been acknowledged is one of the
orders that R88 allows, which the model takes (log 23). -/
def Obligations.TheHomeServesRequests : Prop :=
  ∀ (s : State) (b r : Nat) (g : BitVec 2), r < 32 →
    (s.mem.AtRest b g → let d := s.mem.unit b
      let fwd : Option Nat := if (d.st = .x ∨ d.st = .o) ∧ d.owner ≠ r then some d.owner else none
      (d.st = .u → s.mem.dropCount b ≠ 0 → s.mem.hits b r g false = false →
        ∃ t, exec (.gets b r g) s = .next t ∧ t.mem.txnAt b = some ⟨b, r, 0, g, [], [], none, List.range 32⟩ ∧ t.mem.unit b = d) ∧
      (d.st ≠ .u ∨ s.mem.dropCount b = 0 →
        (s.mem.hits b r g false = false →
          (fwd = none → ∃ t, exec (.gets b r g) s = .next t ∧ t.mem.txnAt b = none ∧
            t.mem.unit b = (match d.st with | .u | .x => ⟨.x, r, 0⟩ | _ => { d with pv := d.pv ||| pvBit r }) ∧
            t.mem.holds r b = some (match d.st with | .u | .x => .e | _ => .s)) ∧
          (∀ q, fwd = some q → ∃ t, exec (.gets b r g) s = .next t ∧ t.mem.unit b = d ∧ t.mem.txnAt b = some ⟨b, r, 0, g, [], [], some q, []⟩)) ∧
        (s.mem.hits b r g true = false → ∀ x ∈ [(Instr.getm b r g, 1), (.upg b r g, 2)],
          let inv := if d.st = .s ∨ d.st = .o then pvQuads d.pv r else []
          (fwd = none → inv = [] → ∃ t, exec x.1 s = .next t ∧ t.mem.txnAt b = none ∧ t.mem.unit b = ⟨.x, r, 0⟩ ∧ t.mem.holds r b = some .m) ∧
          (fwd ≠ none ∨ inv ≠ [] → ∃ t, exec x.1 s = .next t ∧ t.mem.unit b = d ∧ t.mem.txnAt b = some ⟨b, r, x.2, g, inv, [], fwd, []⟩)))) ∧
    ∀ t : Txn, s.mem.Open b t → t.req = r → let d := s.mem.unit b
      (∀ q l, t.kind = 0 → t.fwd = some q → t.inv = [] → t.acks = [] → q ≠ r → s.mem.qline q b = some l → l.taken = false → d.owner = q →
        (d.st = .x → ∃ s1, exec (.fwds b q) s = .next s1 ∧ s1.mem.txnAt b = none ∧ s1.mem.holds r b = some .s ∧
          s1.mem.unit b = (if l.st = .m then ⟨.o, q, pvBit r⟩ else ⟨.s, 0, pvBit r ||| pvBit q⟩) ∧
          s1.mem.holds q b = some (if l.st = .m then .o else .s)) ∧
        (d.st = .o → ∃ s1, exec (.fwds b q) s = .next s1 ∧ s1.mem.txnAt b = none ∧ s1.mem.unit b = { d with pv := d.pv ||| pvBit r } ∧
          s1.mem.holds r b = some .s ∧ s1.mem.holds q b = some l.st)) ∧
      (∀ q, t.kind = 1 ∨ t.kind = 2 → t.fwd = some q → t.inv = [] → t.acks = [] → d.st ≠ .u → ∃ s1, exec (.fwdm b q) s = .next s1 ∧
        s1.mem.txnAt b = none ∧ s1.mem.unit b = ⟨.x, r, 0⟩ ∧ s1.mem.holds r b = some .m ∧ ∀ o, o ≠ r → s1.mem.holds o b = none) ∧
      (∀ q, t.fwd = some q → t.inv ≠ [] ∨ t.acks ≠ [] → exec (.fwdm b q) s = .next s ∧ exec (.fwds b q) s = .next s ∧ exec (.recallOwner b q) s = .next s) ∧
      (∀ q, q ∈ t.inv → ∃ s1, exec (.inv b q) s = .next s1 ∧ s1.mem.unit b = d ∧
        s1.mem.qlines = s.mem.qlines.filter (fun l => !(l.quad = q && !l.victim && l.meets b (grainSize t.grain))) ∧
        s1.mem.txnAt b = some { t with inv := t.inv.filter fun x => x ≠ q, acks := q :: t.acks }) ∧
      (∀ q, q ∈ t.acks → let t1 : Txn := { t with acks := t.acks.filter fun x => x ≠ q }
        (t1.acks ≠ [] ∨ t.inv ≠ [] ∨ t.fwd ≠ none → ∃ s1, exec (.invack b q) s = .next s1 ∧ s1.mem.unit b = d ∧ s1.mem.txnAt b = some t1) ∧
        (t1.acks = [] → t.inv = [] → t.fwd = none → t.kind = 1 ∨ t.kind = 2 → d.st ≠ .u → ∃ s1, exec (.invack b q) s = .next s1 ∧
          s1.mem.txnAt b = none ∧ s1.mem.unit b = ⟨.x, r, 0⟩ ∧ s1.mem.holds r b = some .m ∧ ∀ o, o ≠ r → s1.mem.holds o b = none)) ∧
      (∀ q, q ∈ t.probes → ∃ s1, exec (.probe b q) s = .next s1 ∧ s1.mem.unit b = d ∧
        s1.mem.txnAt b = some { t with probes := t.probes.filter fun x => x ≠ q }) ∧
      (t.probes ≠ [] → exec (.discovery b) s = .next s) ∧
      (t.kind = 0 → t.probes = [] → t.inv = [] → t.acks = [] → t.fwd = none → d.st = .u → s.mem.dropCount b ≠ 0 →
        (∀ l, (s.mem.qlines.find? fun l => !l.taken && l.meets b 1 && (l.st = .e || l.st = .m)) = some l → l.quad ≠ r →
          ∃ s1, exec (.discovery b) s = .next s1 ∧ s1.mem.unit b = ⟨.x, l.quad, 0⟩ ∧ s1.mem.dropCount b + 1 = s.mem.dropCount b ∧
            s1.mem.txnAt b = some { t with fwd := some l.quad }) ∧
        ((s.mem.qlines.find? fun l => !l.taken && l.meets b 1 && (l.st = .e || l.st = .m)) = none →
          ∃ s1, exec (.discovery b) s = .next s1 ∧ s1.mem.txnAt b = none ∧ s1.mem.unit b = ⟨.x, r, 0⟩ ∧ s1.mem.holds r b = some .e))

/-- A record in X is dropped silently unless its counter is at 15, others send Inv and Recall; a unit in S leaves a quad silently, others
through the victim buffer, whose Put is granted to the owner and stale otherwise; the data follows the grant (R86, R87, R88, R90, R92). -/
def Obligations.UnitsAreWrittenBack : Prop :=
  ∀ (s : State) (b : Nat) (g : BitVec 2), let d := s.mem.unit b
    (s.mem.AtRest b g → (s.mem.dirEntry b).isSome = true →
      (d.st = .u → exec (.directoryEviction b) s = .next s) ∧
      (d.st = .x → s.mem.dropCount b = 15 → exec (.directoryEviction b) s = .next s) ∧
      (d.st = .x → s.mem.dropCount b ≠ 15 → ∃ t, exec (.directoryEviction b) s = .next t ∧ t.mem.unit b = ⟨.u, 0, 0⟩ ∧
        t.mem.dropCount b = s.mem.dropCount b + 1 ∧ t.mem.qlines = s.mem.qlines) ∧
      (d.st = .o ∨ d.st = .s → pvQuads d.pv 32 ≠ [] ∨ d.st = .o → ∃ t, exec (.directoryEviction b) s = .next t ∧
        t.mem.txnAt b = some ⟨b, 32, 4, g, pvQuads d.pv 32, [], if d.st = .o then some d.owner else none, []⟩)) ∧
    (∀ t q, s.mem.Open b t → t.kind = 4 → t.fwd = some q → t.inv = [] → t.acks = [] →
      ∃ s1, exec (.recallOwner b q) s = .next s1 ∧ s1.mem.txnAt b = none ∧ s1.mem.unit b = ⟨.u, 0, 0⟩ ∧ ∀ o, s1.mem.holds o b = none) ∧
    (∀ q l, s.mem.qline q b = some l → l.victim = false → s.regions = [] → (∀ x ∈ s.mem.nones, x.line = b / 128 → x.core / 4 ≠ q) →
      let kept (c : LeaseCopy) : Bool := !(c.core / 4 = q && c.line = b / 128)
      (l.st = .s → exec (.quadEviction b q) s = .next { s with mem := { s.mem with
        copies := s.mem.copies.filter kept,
        qlines := s.mem.qlines.filter fun x => !(x.quad = q && !x.victim && x.meets l.addr l.size) } }) ∧
      (l.st ≠ .s → (s.mem.qlines.filter fun x => x.quad = q && x.victim).length < 16 →
        exec (.quadEviction b q) s = .next { s with mem := { s.mem with
          copies := s.mem.copies.filter kept,
          qlines := s.mem.qlines.map fun x => if x = l then { l with victim := true, cores := [] } else x } }) ∧
      (l.st ≠ .s → (s.mem.qlines.filter fun x => x.quad = q && x.victim).length = 16 →
        exec (.quadEviction b q) s = .next { s with mem := { s.mem with copies := s.mem.copies.filter kept } })) ∧
    (∀ q c, c ∈ s.pinned (4 * q) → c = b / 128 → exec (.quadEviction b q) s = .next s) ∧
    (∀ q l, s.mem.AtRest b g → s.mem.victimOf b q = some l → l.addr = b → l.size = grainSize g → l.granted = none → l.taken = false → s.mem.dropCount b = 0 →
      let owner := (d.st = .x ∨ d.st = .o) ∧ d.owner = q
      (owner → d.st = .x → l.st = .e → ∃ t, exec (.pute b q) s = .next t ∧ t.mem.unit b = ⟨.u, 0, 0⟩ ∧ { l with granted := some true } ∈ t.mem.qlines) ∧
      (owner → l.st = .m ∨ l.st = .o → ∃ t, exec (.putx b q) s = .next t ∧ t.mem.unit b = d ∧ { l with granted := some true } ∈ t.mem.qlines ∧
        t.mem.txnAt b = some ⟨b, q, 5, g, [], [], some q, []⟩) ∧
      (¬owner → ∀ x ∈ [(Instr.pute b q, l.st = .e ∨ l.st = .s), (.putx b q, l.st = .m ∨ l.st = .o)], x.2 →
        ∃ t, exec x.1 s = .next t ∧ t.mem.unit b = d ∧ { l with granted := some false } ∈ t.mem.qlines ∧ t.mem.txns = s.mem.txns)) ∧
    (∀ q l, s.mem.victimOf b q = some l → ∀ x ∈ [(Instr.grant b q, true), (.grantStale b q, false)],
      (l.granted = some x.2 → exec x.1 s = .next { s with mem := { s.mem with qlines := s.mem.qlines.filter fun y => y ≠ l } }) ∧
      (l.granted ≠ some x.2 → exec x.1 s = .next s)) ∧
    ∀ t q, s.mem.Open b t → t.kind = 5 → t.fwd = some q →
      (s.mem.victimOf b q = none → ∃ s1, exec (.dataPhase b q) s = .next s1 ∧ s1.mem.txns = [] ∧
        s1.mem.unit b = (if d.st = .o then ⟨.s, 0, d.pv⟩ else ⟨.u, 0, 0⟩) ∧ s1.mem.quad.range b (grainSize t.grain) = [] ∧
        (s.memWf → ∀ x, s1.mem.byte x = s.mem.byte x)) ∧
      ((s.mem.victimOf b q).isSome = true → exec (.dataPhase b q) s = .next s)

/-! ## Time, the host and translation -/

/-- A renewal extends rts at the home and sends a copy; every group that is resident at an instant of 1,024 cycles ticks once; the floor
advances when TMAX is far enough ahead, and a catch-up raises to it what lies below (R93, R94, R95, R96, R101, R105). That a RETIRING group
ticks is a reading of the model (log 16). The renewal is stated where it moves neither a frame, a cached line nor the floor. -/
def Obligations.LogicalTimeAdvances : Prop :=
  ∀ (s : State),
    (∀ (core line : Nat) (pts : Stamp), s.hostWaits line = true → exec (.leaseRenewal core line pts) s = .next s) ∧
    (∀ (core line : Nat) (pts : Stamp), s.hostWaits line = false → s.unrouted (line * 128) = false → isAbsent (line * 128) = false →
      s.memWf → s.mem.Quiet → (isOwn (line * 128) = true → (s.mem.lines.any fun x => x.line = line) = true) → s.regions = [] →
      let ways := s.cacheWays (core / 4) (core % 4)
      let l32 : Stamp := s.svc.lease.setWidth 32
      let free : Prop := (s.mem.cached core).length < ways ∨ ways = 0
      let early (top : Stamp) : Prop := (top - s.svc.tfloor).toNat < 2 ^ 30 + 2 ^ 28
      (¬(isHost (line * 128) = true ∧ nodeOf (line * 128) = 0) → let h := s.mem.leaseLine line
        let rts := maxS h.rts (pts + l32)
        let top := maxS s.mem.tmax rts
        free → early top → ∃ t, exec (.leaseRenewal core line pts) s = .next t ∧ t = { s with mem := t.mem } ∧
          t.mem.leaseLine line = ⟨line, h.wts, rts⟩ ∧ t.mem.tmax = top ∧
          (ways ≠ 0 → t.mem.copy core line = some ⟨core, line, s.mem.lineCells line, h.wts, rts, t.mem.uses - 1⟩) ∧
          (ways = 0 → t.mem.copies = s.mem.copies)) ∧
      (isHost (line * 128) = true → nodeOf (line * 128) = 0 → let w := maxS pts (s.mem.hr + 1)
        let rts := maxS w (pts + l32)
        let top := maxS s.mem.tmax rts
        free → early top → ∃ t, exec (.leaseRenewal core line pts) s = .next t ∧ t = { s with mem := t.mem } ∧
          t.mem.hostLeases.head? = some ⟨line, w, rts⟩ ∧ t.mem.hr = maxS s.mem.hr rts ∧ t.mem.tmax = top ∧
          (ways ≠ 0 → t.mem.copy core line = some ⟨core, line, s.mem.lineCells line, w, rts, t.mem.uses - 1⟩))) ∧
    (s.now / 1024 ≤ s.svc.ticks → exec .tick s = .next s) ∧
    (s.svc.ticks < s.now / 1024 → let n := s.svc.ticks + 1
      let up (g : Group) : Group :=
        if g.present = true ∧ (g.state = .resident ∨ g.state = .retiring) ∧ g.tickBase < n then { g with pts := g.pts + 1 } else g
      exec .tick s = .next ({ s with g := up s.g, others := s.others.map up, svc := { s.svc with ticks := n }, mem := { s.mem with
        tmax := ((if s.g.present then [up s.g] else []) ++ s.others.map up).foldl (fun x g => maxS x g.pts) s.mem.tmax } } : State).advanceFloor) ∧
    (∀ received : List Stamp, let top := received.foldl maxS s.mem.tmax
      ((top - s.svc.tfloor).toNat < 2 ^ 30 + 2 ^ 28 → exec (.tmaxExchange received) s = .next { s with mem := { s.mem with tmax := top } }) ∧
      (2 ^ 30 + 2 ^ 28 ≤ (top - s.svc.tfloor).toNat → exec (.tmaxExchange received) s =
        .next { s with svc := { s.svc with tfloor := top - BitVec.ofNat 32 (2 ^ 30) }, mem := { s.mem with tmax := top, copies := s.mem.copies.filter fun c => leS (top - BitVec.ofNat 32 (2 ^ 30)) c.rts } })) ∧
    let f := s.svc.tfloor
    let up (g : Group) : Group :=
      if g.present = true ∧ (g.state = .resident ∨ g.state = .retiring) then { g with pts := maxS g.pts f, lct := maxS g.lct f } else g
    let raised (l : List LeaseLine) : List LeaseLine := l.map fun x => { x with wts := maxS x.wts f, rts := maxS x.rts f }
    ∃ t, exec .floorCatchup s = .next t ∧ t = { s with g := up s.g, others := s.others.map up, mem := { s.mem with
        leases := raised s.mem.leases, hostLeases := raised s.mem.hostLeases, hostMts := maxS s.mem.hostMts f, mts := t.mem.mts,
        mtsBase := t.mem.mtsBase, rstamp := maxS s.mem.rstamp f, hr := maxS s.mem.hr f, copies := s.mem.copies.filter fun c => leS f c.rts } } ∧
      ∀ sl, t.mem.mtsOf sl = maxS (s.mem.mtsOf sl) f

/-- A host read leaves the directory alone; a host write and a host atomic change exactly the bytes that they name, the write taking its
piece and releasing RSTAMP to HR; a walk that succeeds fills the core's TLB and adds to the heat of its entry, and a sweep only ever takes
1 from heat fields that are not 0 (R104, R105, R112, R115, R121, R384). A walk waits where its table lines may not be read (R70, R76). The
statement takes a log that is off, no encrypted line and nothing on its way at the memory. -/
def Obligations.HostAndWalks : Prop :=
  ∀ (s : State), s.memWf → s.log2n = 0 → s.mem.tags = [] → s.mem.Quiet →
    (∀ pa n, ∃ t, exec (.hostRead pa n) s = .next t ∧ t.g = s.g ∧ t.others = s.others ∧ t.mem.dir = s.mem.dir ∧ t.mem.qlines = s.mem.qlines ∧
      ∀ x, t.mem.byte x = s.mem.byte x) ∧
    (∀ (pa : Nat) (data : List Byte), data ≠ [] →
      (isHost pa = true → nodeOf pa = 0 → ∃ t, exec (.hostWrite pa data) s = .next t ∧ t = { s with mem := { s.mem with ext := t.mem.ext } } ∧
        ∀ x, t.mem.byte x = if pa ≤ x then (data[x - pa]?).getD (s.mem.byte x) else s.mem.byte x) ∧
      (isOwn pa = true → isOwn (pa + data.length - 1) = true → (∀ i, pa / 128 ≤ i → i ≤ (pa + data.length) / 128 → s.hostWaits i = false) →
        ∃ t, exec (.hostWrite pa data) s = .next t ∧
          (∀ x, t.mem.byte x = if pa ≤ x then (data[x - pa]?).getD (s.mem.byte x) else s.mem.byte x) ∧
          (s.mem.leases = [] → s.mem.copies = [] → t.mem.hr = s.mem.hr ∧ t.mem.rstamp = maxS s.mem.rstamp s.mem.hr) ∧
          (s.mem.leases = [] → s.mem.copies = [] → pa % 64 + data.length ≤ 64 → ∃ e, t.mem.dirEntry pa = some e ∧ e.host.getLsbD (pa % 512 / 64) = true))) ∧
    (∀ (pa : Nat) (op : HostAtomicOp) (w64 : Bool) (x y : Word64), let n := if w64 then 8 else 4
      isOwn pa = true → pa % n = 0 → s.hostWaits (pa / 128) = false → s.Clean pa n →
      let old := s.mem.peek pa n
      let new := match op with
        | .swap => x.toNat % 2 ^ (8 * n)
        | .add => (old + x.toNat) % 2 ^ (8 * n)
        | .cas => if old = x.toNat % 2 ^ (8 * n) then y.toNat % 2 ^ (8 * n) else old
      ∃ t, exec (.hostAtomic pa op w64 x y) s = .next t ∧ t.mem.peek pa n = new ∧ ∀ a, a < pa ∨ pa + n ≤ a → t.mem.byte a = s.mem.byte a) ∧
    (∀ (n : Nat) (va : Word64) (k : AccessKind), s.g.hasTag n = true →
      (s.walkHeld s.g va k = true → exec (.pageWalk n va k) s = .next s) ∧
      (∀ f, s.lookup s.g va k = .error f → exec (.pageWalk n va k) s = .next s) ∧
      (∀ m, s.walkHeld s.g va k = false → s.lookup s.g va k = .ok m → s.tlbFind s.g va = none → isOwn m.entry = true → m.entry % 8 = 0 →
        let lo := if k = .store ∨ k = .atomic then 62 else 60
        let e := s.mem.peek m.entry 8
        ∃ t, exec (.pageWalk n va k) s = .next t ∧ t.g = s.g ∧ t.others = s.others ∧
          t.mem.coreTlb.head? = some (s.g.coreNo, ⟨s.g.asn, m, lo = 62⟩) ∧ t.mem.dieTlb.head? = some (s.g.die, ⟨s.g.asn, m, lo = 62⟩) ∧
          t.mem.peek m.entry 8 = (if bits e 52 1 = 1 ∧ bits e lo 2 < 3 then e + 2 ^ lo else e) ∧
          ∀ a, a < m.entry ∨ m.entry + 8 ≤ a → t.mem.byte a = s.mem.byte a)) ∧
    (∀ e < 2 ^ 64, bits (sweptEntry e) 60 2 = bits e 60 2 - 1 ∧ bits (sweptEntry e) 62 2 = bits e 62 2 - 1 ∧ sweptEntry e % 2 ^ 60 = e % 2 ^ 60) ∧
    ∀ asn, ∃ t, exec (.heatSweep asn) s = .next t ∧ t = { s with mem := t.mem } ∧
      ∀ a, a % 8 = 0 → ∃ k, t.mem.peek a 8 = Nat.repeat sweptEntry k (s.mem.peek a 8)

/-! ## Launches -/

/-- `launch` fences at PKG, reads its record and answers the code of R348, with nothing changed where it is refused; a hand-over enters an
accepted record in the queue, which is ready with N of GRID when it has no dependence and its block does not wait, and the host's is answered
with its tag; a dependence is met when its word reaches the target and stays met; a launch whose last Caravan has retired writes its final fields, adds 1 to its event
and is gone (R348, R349, R351, R353, R354, R360, R361, R362). What waits changes nothing (R70, R76, R123, R383; logs 22 and 31). -/
def Obligations.LaunchesAreTaken : Prop :=
  ∀ (s : State),
    (∀ (d a : BitVec 6), s.HasRegs [d, a] → let va := s.sreg a
      (∀ r, s.region = some r → exec (.launch d a) s = .next (s.abortRegion r .mode 0 0 false true)) ∧
      (s.region = none → va.toNat % 64 ≠ 0 → exec (.launch d a) s = .next (s.scalarFault .align {} va)) ∧
      (s.region = none → va.toNat % 64 = 0 → inWindow va = true → exec (.launch d a) s = .next (s.scalarFault .nomap {} va)) ∧
      (s.region = none → va.toNat % 64 = 0 → s.walkHeld s.g va = true → exec (.launch d a) s = .next s) ∧
      (s.region = none → va.toNat % 64 = 0 → inWindow va = false → s.walkHeld s.g va = false → ∀ p, s.place s.g va .load = .ok p → s.g.watched va 64 false = false →
        (s.fenceReady .pkg = false → exec (.launch d a) s = .next s) ∧
        (s.fenceReady .pkg = true → ∀ s1 bs, (s.fence .pkg).porterRead (s.g.coreNo, 1024) va 64 = (s1, .ok bs) →
          let l := Launch.of s1.g.die (BitVec.ofNat 512 (leNat bs)) va s1.g.pts
          (s.recordWaits s.g.die bs = true → exec (.launch d a) s = .next s) ∧ (s.recordWaits s.g.die bs = false →
          (s1.refusal l ≠ 0 → exec (.launch d a) s = .next (s1.setS d (BitVec.ofNat 64 (s1.refusal l))).advance) ∧
          (s1.refusal l = 0 → exec (.launch d a) s = .next ((s1.accept l).setS d 0).advance))))) ∧
    (∀ (rec : List Byte) (tag : BitVec 16), let l := Launch.of 0 (BitVec.ofNat 512 (leNat (rec.take 64))) (0x8000000000000000#64 ||| tag.setWidth 64) s.mem.hr
      let answered (t : State) : State := { t with disp := { t.disp with replies := t.disp.replies ++ [(tag, s.refusal l)] } }
      (s.recordWaits 0 (rec.take 64) = true → exec (.hostLaunch rec tag) s = .next s) ∧
      (s.recordWaits 0 (rec.take 64) = false → (s.refusal l ≠ 0 → exec (.hostLaunch rec tag) s = .next (answered s)) ∧
        (s.refusal l = 0 → exec (.hostLaunch rec tag) s = .next (answered (s.accept l))))) ∧
    (∀ l : Launch, (recField l.record 188 4 ≠ 1 → s.refusal l = 1) ∧
      (l.badFormat = false → l.sentry.toNat % 4 ≠ 0 ∨ l.lbase.toNat % 4 ≠ 0 ∨ l.done.toNat % 64 ≠ 0 → s.refusal l = 2) ∧
      (s.refusal l = 0 → l.width ≤ 64 ∧ (l.pair = false → l.groups ≤ 32) ∧ l.ncores ≤ 4 ∧ l.nbanks ≤ 16 * l.ncores ∧ (l.depsUsed ≠ [] → l.done ≠ 0))) ∧
    (∀ l : Launch, (∀ x ∈ s.disp.launches, x.id < s.disp.nextLaunch) → l.ready = false → l.stale = false → l.depsUsed = [] → l.gridPtr = false →
      (∀ va ∈ l.blockVas, ∀ w, s.eventWord l va = some w → s.wordWaits w = false) →
      (s.accept l).disp.nextLaunch = s.disp.nextLaunch + 1 ∧
      ∃ x, (s.accept l).launch? s.disp.nextLaunch = some x ∧ x.record = l.record ∧ x.s2 = l.s2 ∧ x.pts = l.pts ∧ x.die = l.die ∧ x.ready = true ∧
        x.readyAt = s.now ∧ x.n = l.grid.toNat % 2 ^ 32 ∧ x.placed = l.placed ∧ x.retired = l.retired) ∧
    (∀ (id i : Nat) (x : Launch) (w : Target) (tgt : Nat), s.launch? id = some x → x.stale = false →
      (x.ready = true → x.deps[i]? = some (w, tgt, true) → exec (.dependenceMet id i) s = .next s) ∧
      (x.deps[i]? = some (w, tgt, false) → s.wordWaits w = true → exec (.dependenceMet id i) s = .next s) ∧
      (∀ pa coh grain enc key, x.deps[i]? = some (w, tgt, false) → s.wordWaits w = false → w = .mem pa coh grain enc key →
        s.mem.keyServes pa enc key = true → let s1 := s.reachWord w
        (∀ k < 8, s1.poisoned s1.mem (pa + k) = false) → let v := s1.mem.peek pa 8
        (v < tgt → ∃ t y, exec (.dependenceMet id i) s = .next t ∧ t.launch? id = some y ∧ y.deps[i]? = some (w, tgt, false) ∧ y.ready = x.ready) ∧
        (tgt ≤ v → ∃ t y, exec (.dependenceMet id i) s = .next t ∧ t.launch? id = some y ∧ y.deps[i]? = some (w, tgt, true) ∧
          y.deps = x.deps.map (fun d => if d.1 = w ∧ d.2.1 ≤ v then (d.1, d.2.1, true) else d) ∧ y.pts = maxS x.pts (s1.depStamp w) ∧
          (x.ready = false → x.gridPtr = false → x.words.any s.wordWaits = false →
            (y.ready = true ↔ ∀ j ≠ i, ∀ e, x.deps[j]? = some e → e.2.2 = true ∨ (e.1 = w ∧ e.2.1 ≤ v)))))) ∧
    (∀ (id i : Nat) (x : Launch), s.launch? id = some x → x.stale = false → x.deps[i]? = none →
      (x.ready = true ∨ (∃ e ∈ x.deps, e.2.2 = false) ∨ x.words.any s.wordWaits = true → exec (.dependenceMet id i) s = .next s) ∧
      (x.ready = false → (∀ e ∈ x.deps, e.2.2 = true) → x.gridPtr = false → x.words.any s.wordWaits = false →
        ∃ t y, exec (.dependenceMet id i) s = .next t ∧ t.launch? id = some y ∧ y.ready = true ∧ y.readyAt = s.now ∧ y.n = x.grid.toNat % 2 ^ 32)) ∧
    ∀ (id : Nat) (x : Launch), s.launch? id = some x → x.stale = false →
      (x.ready = false ∨ x.retired < x.n ∨ x.words.any s.wordWaits = true → exec (.launchComplete id) s = .next s) ∧
      (x.ready = true → x.n ≤ x.retired → x.words = [] →
        exec (.launchComplete id) s = .next { s with disp := { s.disp with launches := s.disp.launches.filter fun y => y.id ≠ id } }) ∧
      (x.ready = true → x.n ≤ x.retired → s.memWf → s.mem.Quiet → x.words.any s.wordWaits = false → ∀ pa : Nat → Nat,
        (∀ k ∈ [0, 1, 6], ∃ grain key, x.words[k]? = some (.mem (pa k) .dir grain false key) ∧ isOwn (pa k) = true ∧ pa k % 8 = 0 ∧
          s.mem.tagOf (pa k / 128) = none ∧ s.Clean (pa k) 8) → pa 0 ≠ pa 1 → pa 0 ≠ pa 6 → pa 1 ≠ pa 6 →
        ∃ t, exec (.launchComplete id) s = .next t ∧ t.launch? id = none ∧ t.mem.rstamp = maxS s.mem.rstamp x.maxStamp ∧
          t.mem.peek (pa 1) 8 = x.status % 2 ^ 64 ∧ t.mem.peek (pa 6) 8 = x.n % 2 ^ 64 ∧ t.mem.peek (pa 0) 8 = (s.mem.peek (pa 0) 8 + 1) % 2 ^ 64)

/-- A head that fits, once a reservation that is not its own has gone, is placed whole: its Caravan is resident at its place and every group
starts with the registers of R359; one that does not fit has places reserved, and ages after 4,096 cycles. A group retires when its work is done, the last one of a Caravan with the
Caravan, whose banks are free; a group whose implicit region is to run again gives up everything and waits with RCNT one higher (R130,
R287, R303, R356, R357, R359, R361). No Caravan is placed while a checkpoint runs (R392). That a displaced head's reservation is released before
the new head is fitted is the model's reading (log 32). -/
def Obligations.CaravansArePlacedAndRetire : Prop :=
  ∀ (s : State),
    (∀ (die : Nat) (h : Cand) (rest : List Cand) (x : Seat), s.dispatcherReady die = true → s.checkpointing = false → s.order die = h :: rest →
      h.caravans = [] → (s.displace die).fits h = some [x] →
      (∀ g ∈ s.groups, g.caravan ≠ s.disp.nextCaravan ∧ g.tag < s.disp.nextTag) → let l := h.launch
      ∃ t c, exec (.caravanPlace die) s = .next t ∧ c ∈ t.disp.caravans ∧ c.id = s.disp.nextCaravan ∧ c.launch = l.id ∧ c.st = .resident ∧ c.quad = x.quad ∧
        c.core = x.core ∧ c.num = ((s.launch? l.id).map (·.placed)).getD 0 ∧
        ∀ w < l.wgs, ∀ gi < l.groups, ∃ g ∈ t.others, g.caravan = c.id ∧ g.present = true ∧ g.state = .resident ∧ g.wg = c.num * l.wgs + w ∧
          g.gidx = gi ∧ g.quadNo = x.quad % 16 + x.quad / 16 * 16 ∧ g.core = x.core + l.coreOf w gi ∧ g.width = l.width ∧ g.asn = l.asn ∧
          g.spc = l.sentry ∧ g.lbase = l.lbase ∧ g.pts = maxS l.pts s.svc.tfloor ∧ g.hmode = false ∧ g.uac = 0 ∧ g.sb = [] ∧ g.work = [] ∧
          (∀ i : Fin 8, g.a[i] = {}) ∧ (∀ i : Fin 12, g.c[i] = 0) ∧
          ∀ r : Fin 64, r.val < l.sregs → g.s[r] = match r.val with
            | 0 => BitVec.ofNat 64 c.num
            | 1 => c.mask
            | 2 => l.s2
            | 3 => BitVec.ofNat 64 (c.num * l.wgs + w)
            | 4 => BitVec.ofNat 64 (w * 64 + gi)
            | _ => 0) ∧
    (∀ (die : Nat) (h : Cand), s.dispatcherReady die = true → s.checkpointing = false → die < 2 → s.order die = [h] → s.fits h = none → s.disp.reserved[die]? = some none →
      ∃ t r, exec (.caravanPlace die) s = .next t ∧ t.g = s.g ∧ t.others = s.others ∧ t.mem = s.mem ∧ t.disp.reserved[die]? = some (some r) ∧ r.isFor h = true) ∧
    (∀ die, s.dispatcherReady die = false ∨ s.checkpointing = true → exec (.caravanPlace die) s = .next s) ∧
    (∀ (die : Nat) (h : Cand) (rest : List Cand), s.order die = h :: rest →
      (∀ n, s.headSince h = some n → n + 4096 ≤ s.now → exec (.headWaitLimit die) s = .next (s.setHead h (some n) true)) ∧
      (∀ n, s.headSince h = some n → s.now < n + 4096 → exec (.headWaitLimit die) s = .next s)) ∧
    (∀ die r, s.disp.reserved[die]? = some (some r) → ((s.order die).head?.all fun h => !r.isFor h) = true → (s.displace die).disp.reserved[die]? = some none) ∧
    ∀ (n : Nat), s.g.hasTag n = true → (∀ l, s.launch? s.g.launch = some l → l.stale = false) →
      (s.mayRetire = false → exec (.groupRetire n) s = .next s) ∧
      (∀ l, s.launch? s.g.launch = some l → s.blockWaits l = true → exec (.groupRetire n) s = .next s) ∧
      (s.mayRetire = true → s.region = none → (∀ l, s.launch? s.g.launch = some l → s.blockWaits l = false) →
        (∃ g ∈ s.others, g.caravan = s.g.caravan ∧ g.wg = s.g.wg ∧ g.state ≠ .retired) →
        ∃ t, exec (.groupRetire n) s = .next t ∧ t.g = { s.g with state := .retired, wait := none } ∧ s.SameOthers t ∧
          t.mem = s.mem.discardNone s.g.coreNo ∧ ∀ x ∈ t.mem.nones, x.core ≠ s.g.coreNo) ∧
      (s.mayRetire = true → s.region = none → (∀ l, s.launch? s.g.launch = some l → s.blockWaits l = false) → (∀ g ∈ s.others, g.caravan = s.g.caravan → g.state = .retired) → ∀ c l,
        s.caravan s.g.caravan = some c → s.launch? s.g.launch = some l → l.wgs ≤ c.wgRetired.length + 1 →
        ∃ t, exec (.groupRetire n) s = .next t ∧ t.caravan c.id = none ∧ ((t.launch? l.id).map (·.retired)) = some (l.retired + 1) ∧
          ∀ b ∈ t.banks, b.owner ≠ some c.id) ∧
      (∀ c, s.caravan s.g.caravan = some c → c.rerun = true → s.g.state = .resident ∨ s.g.state = .retiring → s.g.hmode = false →
        ∃ t g, exec (.implicitRerun n) s = .next t ∧ t.g.present = false ∧ g ∈ t.others ∧ g.tag = s.g.tag ∧ g.state = .waiting ∧ g.sb = [] ∧ g.wg = s.g.wg ∧
          g.gidx = s.g.gidx ∧ g.gstat = (if s.g.gstat.toNat / 2 ^ 24 = 255 then s.g.gstat else s.g.gstat + 0x1000000#32) ∧
          (t.caravan c.id).map (·.st) = some .queued ∧ ∀ b ∈ t.banks, b.owner ≠ some c.id) ∧
      (∀ c, s.caravan s.g.caravan = some c → c.rerun = false ∨ (s.g.state ≠ .resident ∧ s.g.state ≠ .retiring) ∨ s.g.hmode = true →
        exec (.implicitRerun n) s = .next s)

/-! ## Faults, handlers and privilege -/

/-- `trap` and `brk` raise TRAP and BREAK: the group enters its handler at once, or once the lane stream has drained, with the fault
registers, the frame and the handler state of R367; in handler mode and without a handler it halts. Deferred causes queue, eight at most,
and are taken one at a time with FPC.DEFER set; one of an access that a handler issued halts the group, and a group that has halted keeps one of an
earlier instruction for later (R364, R365, R366, R367, R369, R371). A vector that may not be read yet is waited for (R383). The deferred cause is
stated of a store whose key does not serve (R169). -/
def Obligations.FaultsEnterTheHandler : Prop :=
  ∀ (s : State), let vec := s.handler s.g.asn
    (∀ (a : BitVec 6), s.HasRegs [a] → s.region = none →
      ∀ x ∈ [(Instr.trap a, (⟨.trap, s.g.spc &&& 0x007FFFFFFFFFFFFF#64, (BitVec.ofNat 64 ((s.sreg a).toNat % 2 ^ 16)) <<< 24, 0, 0, none⟩ : FaultRecord)),
             (.brk, ⟨.brk, s.g.spc &&& 0x007FFFFFFFFFFFFF#64, 0, 0, 0, none⟩)],
        (s.g.hmode = false → vec.1 ≠ 0 → s.g.inflight = [] → s.vectorHeld = false → ∃ t, exec x.1 s = .next t ∧ s.g.EnteredFrom t.g x.2 false vec ∧ t.g.pending = s.g.pending ∧
          t.mem = s.mem ∧ t.others = s.others) ∧
        (s.g.hmode = false → s.g.inflight ≠ [] ∨ s.vectorHeld = true → ∃ t, exec x.1 s = .next t ∧ t.g.stopped = some (x.2, none) ∧ t.g.spc = s.g.spc ∧
          t.g.hmode = false ∧ t.mem = s.mem) ∧
        (s.g.hmode = true ∨ (vec.1 = 0 ∧ s.g.inflight = [] ∧ s.vectorHeld = false) → ∃ t, exec x.1 s = .next t ∧ s.HaltedWith t x.2 false)) ∧
    ∀ (n : Nat), s.g.hasTag n = true →
      (∀ f pl, s.g.stopped = some (f, pl) →
        (s.g.inflight = [] → s.g.paused = false → s.g.halted = false → s.g.state ≠ .saved → s.vectorHeld = false → vec.1 ≠ 0 →
          ∃ t, exec (.preciseFaultEntry n) s = .next t ∧ s.g.EnteredFrom t.g f false vec ∧ t.g.pending = s.g.pending ∧ t.mem = s.mem) ∧
        (s.g.inflight ≠ [] ∨ s.vectorHeld = true → exec (.preciseFaultEntry n) s = .next s)) ∧
      (s.g.stopped = none → exec (.preciseFaultEntry n) s = .next s) ∧
      (∀ (x : SbEntry) (es : List SbEntry) (bs : List (Target × Byte)) (own : Bool), s.g.sb = x :: es → (∀ y ∈ es, y.id ≠ x.id) → x.op = .store bs →
        x.performed = false → s.mates x = [x] → s.entryWaits x = false → s.region = none → (bs.any fun b => s.noRoute b.1) = false →
        (bs.all fun b => s.targetServed b.1 && !x.lost b.1) = false →
        let f : FaultRecord := ⟨.key, x.fpc, Info.word {}, x.mask, 0, x.ins⟩
        let s0 := s.setG fun g => g.markPerformed x.id x.pts
        (own ≠ x.inHandler ∨ s.g.state = .retired ∨ (s.g.halted = true ∧ own = true) → exec (.deferredCauseArrival n x.id own) s = .next s) ∧
        (own = false → x.inHandler = false → s.g.state ≠ .retired → (∀ p ∈ s.g.pending, p.ins = x.ins → x.ins = none ∨ p.cause ≠ .key) →
          (s.g.pending.length < 8 → exec (.deferredCauseArrival n x.id own) s = .next { s0 with g := { s0.g with pending := s.g.pending ++ [f] } }) ∧
          (8 ≤ s.g.pending.length → s.g.lost = false → exec (.deferredCauseArrival n x.id own) s = .next { s0 with g := { s0.g with lost := true } })) ∧
        (own = true → x.inHandler = true → s.g.state ≠ .retired → s.g.halted = false →
          ∃ t, exec (.deferredCauseArrival n x.id own) s = .next t ∧ s0.HaltedWith t f true)) ∧
      (∀ f fs, s.g.pending = f :: fs → s.g.takesDeferred = true → s.vectorHeld = false →
        (vec.1 ≠ 0 → ∃ t, exec (.deferredFaultEntry n) s = .next t ∧ s.g.EnteredFrom t.g f true vec ∧ t.g.pending = fs ∧ t.mem = s.mem) ∧
        (vec.1 = 0 → ∃ t, exec (.deferredFaultEntry n) s = .next t ∧ s.HaltedWith t f true)) ∧
      (s.g.pending = [] ∨ s.g.hmode = true ∨ s.g.inflight ≠ [] ∨ s.vectorHeld = true → exec (.deferredFaultEntry n) s = .next s)

/-- `sysret` leaves handler mode with the frame restored and goes on at HRPC: RETRY at the faulting word (after a `trap`, behind it), SKIP
behind it, a deferred fault where it was taken; a faulting lane instruction is executed again alone or skipped; EXIT performs `sexit`
without the lane runs. RETRY after a WATCH executes that one instruction unwatched. 3 is ILLEGAL with CTRLW, in every mode, and outside
handler mode the others fault with PRIV (R25, R48, R367, R368, R372). That the kind of return follows the cause that the frame keeps, whatever the
handler has written to FCAUSE, is log 21; that CTRLW comes before PRIV and after REGBOUND is log 39. -/
def Obligations.SysretReturns : Prop :=
  ∀ (s : State) (a : BitVec 6),
    (s.g.hmode = false → (s.HasRegs [a] → (s.sreg a).toNat % 4 ≠ 3) → exec (.sysret a) s = .next (s.scalarFault .priv)) ∧
    (s.HasRegs [a] → (s.sreg a).toNat % 4 = 3 → exec (.sysret a) s = .next (s.scalarFault .illegal { ctrlw := true })) ∧
    (s.g.hmode = true → s.HasRegs [a] → let sel := (s.sreg a).toNat % 4
      (∀ fr, sel ≠ 3 → s.region = none → s.g.frame = some fr → (s.g.implicit && s.g.rgst.toNat % 16 = 5) = false →
        ∃ t, exec (.sysret a) s = .next t ∧ t.mem = s.mem ∧ t.others = s.others ∧ t.g.hmode = false ∧ t.g.frame = none ∧ t.g.v = s.g.v ∧ t.g.q = s.g.q ∧
          t.g.p = s.g.p ∧ t.g.fcause = s.g.fcause ∧ t.g.pending = s.g.pending ∧ t.g.sb = s.g.sb ∧
          (∀ i : Fin 64, t.g.s[i] = if i.val < 56 then s.g.s[i] else fr.s[i.val - 56]?.getD 0) ∧
          (sel = 2 → t.g.runs = [] ∧ t.g.state = (if fr.ended then s.g.state else .retiring) ∧ t.g.ended = true ∧ t.g.spc = fr.hrpc) ∧
          (sel ≠ 2 → t.g.runs = fr.runs ∧ t.g.ended = fr.ended ∧ t.g.state = s.g.state ∧
            (fr.deferred = true → t.g.spc = fr.hrpc ∧ t.g.c = fr.c ∧ t.g.wait = fr.wait ∧ t.g.noWatch = fr.noWatch ∧ t.g.noWatchLane = fr.noWatchLane) ∧
            (fr.deferred = false → fr.lane = none → t.g.c = fr.c ∧
              t.g.spc = (if sel = 1 ∨ fr.record.cause = .trap then fr.hrpc + 4 else fr.hrpc) ∧ (t.g.noWatch = true ↔ sel = 0 ∧ fr.record.cause = .watch) ∧ t.g.noWatchLane = fr.noWatchLane) ∧
            (∀ p, fr.deferred = false → fr.lane = some p → t.g.spc = fr.hrpc ∧
              (sel = 0 → t.g.c = fr.c ∧ (t.g.noWatchLane = true ↔ fr.record.cause = .watch) ∧ ∃ p1, t.g.redo = p1 :: fr.redo ∧ p1.clause = p.clause ∧ p1.slot = p.slot ∧ p1.pslot = p.pslot ∧ p1.mask = p.mask)) ∧
            (fr.deferred = true ∨ fr.lane = none → s.g.gone = 0 → fr.stack = [] → (∀ i : Fin 8, fr.joins[i] = []) → fr.slots[1] = none →
              (∀ p, fr.slots[0] = some p → p.mask ≠ 0) → t.g.slots = fr.slots ∧ t.g.stack = []))))

/-- `sysrd` and `syswr` reach the registers of R373's table in handler mode, XF by lane and RC in the frame; a number that is not listed
is ILLEGAL with CTRLW, a read-only register ignores a write, GSTAT clears bits, and reserved bits and modes are not written; outside
handler mode they fault with PRIV, a number that is not listed being ILLEGAL first (R25, R48, R197, R300, R365, R373). That FPC's reserved bits go
only with LANE = 1 and that masks are cut to the width are log 21; the place of CTRLW is log 39. -/
def Obligations.SystemRegistersAreReached : Prop :=
  ∀ (s : State) (d a : BitVec 6), let num := (s.sreg a).toNat % 256
    let lane := (s.sreg a).toNat / 256 % 256 % s.g.width
    let rc := match s.g.frame with | some fr => fr.rc | none => s.g.rc
    (s.HasRegs [a] → 22 < num → exec (.sysrd d a) s = .next (s.scalarFault .illegal { ctrlw := true }) ∧
      exec (.syswr a d) s = .next (s.scalarFault .illegal { ctrlw := true })) ∧
    (s.g.hmode = false → (s.HasRegs [a] → num ≤ 22) →
      exec (.sysrd d a) s = .next (s.scalarFault .priv) ∧ exec (.syswr a d) s = .next (s.scalarFault .priv)) ∧
    (s.g.hmode = true → s.HasRegs [d, a] → s.region = none → s.g.width ≤ 64 → 0 < s.g.width →
      (∀ x ∈ [(0, s.g.pts.setWidth 64), (1, s.g.lct.setWidth 64), (2, s.g.uac.setWidth 64), (3, s.g.cvm), (4, (s.g.xf[lane]?.getD 0).setWidth 64),
          (5, s.g.xe.setWidth 64), (6, s.g.gstat.setWidth 64), (7, s.g.fmask), (8, rc.setWidth 64), (9, s.g.rgid.setWidth 64), (10, s.g.rgst.setWidth 64),
          (11, s.g.rgpred), (12, s.g.fcause.setWidth 64), (13, s.g.fpc), (14, s.g.finfo), (15, s.g.faddr), (16, s.g.finfoMask), (17, s.g.hmask),
          (18, s.g.hrpc), (19, s.g.watch0), (20, s.g.watch1), (21, BitVec.ofNat 64 (s.g.batches % 256)), (22, BitVec.ofNat 64 s.g.tag)],
        num = x.1 → exec (.sysrd d a) s = .next (s.setS d x.2).advance)) ∧
    (s.g.hmode = true → s.HasRegs [a, d] → s.region = none → let y := s.sreg d
      (num ∈ [0, 1, 2, 7, 9, 10, 11, 21, 22] → exec (.syswr a d) s = .next s.advance) ∧
      (num = 3 → ∃ t, exec (.syswr a d) s = .next t ∧ t = { s with g := { s.g with cvm := t.g.cvm } }.advance ∧
        ∀ i < 16, t.g.cvm.toNat / 16 ^ i % 16 = if 12 ≤ i then 0
          else if y.toNat / 16 ^ i % 8 ∈ [0, 6, 7] then s.g.cvm.toNat / 16 ^ i % 16 else y.toNat / 16 ^ i % 16) ∧
      (num = 8 → ∀ fr, s.g.frame = some fr →
        exec (.syswr a d) s = .next { s with g := { s.g with frame := some { fr with rc := y.setWidth 6 } } }.advance) ∧
      (num = 13 → ∃ t, exec (.syswr a d) s = .next t ∧ t = { s with g := { s.g with fpc := t.g.fpc } }.advance ∧
        ∀ i : Fin 64, t.g.fpc[i] = (y[i] && !(y[62] && 20 ≤ i.val && i.val ≤ 48))) ∧
      ∀ x ∈ [(4, { s.g with xf := s.g.xf.setIfInBounds lane (y.setWidth 6) }), (5, { s.g with xe := y.setWidth 6 }),
          (6, { s.g with gstat := s.g.gstat &&& ~~~(y.setWidth 32 &&& 0x19#32) }), (12, { s.g with fcause := y.setWidth 8 }),
          (14, { s.g with finfo := y &&& 0xFFFFFFFFFFFFFF00#64 }), (15, { s.g with faddr := y }), (16, { s.g with finfoMask := y &&& s.g.full }),
          (17, { s.g with hmask := y &&& s.g.full }), (18, { s.g with hrpc := y, frame := s.g.frame.map fun fr => { fr with hrpc := y } }), (19, { s.g with watch0 := y &&& 0xFF7FFFFFFFFFFFFF#64 }),
          (20, { s.g with watch1 := y &&& 0xFF7FFFFFFFFFFFFF#64 })],
        num = x.1 → exec (.syswr a d) s = .next ({ s with g := x.2 } : State).advance)

/-- `pgmap` answers 3 for an entry that is not valid, 1 for one that is mapped, 2 when the pool is empty, and else maps a frame of the
pool and clears FT; `tlbi` removes the translations that it covers, makes their registers stale, and completes when no translated access
and no `plodge` of the range is left; a reserved SCOPE is ILLEGAL in every mode; a pool at a reserved physical address stops the model (R48,
R64, R117, R122, R123, R374, R375; log 20). That `tlbi` waits for the stores of its address space whatever their addresses is log 22, and the place of
CTRLW is log 39. -/
def Obligations.PagesAreMappedAndRemoved : Prop :=
  ∀ (s : State) (d a b : BitVec 6), let scope := ((s.sreg b).extractLsb' 28 3).toNat
    (s.g.hmode = false → exec (.pgmap d a) s = .next (s.scalarFault .priv) ∧
      ((s.HasRegs [b] → scope = 3 ∨ scope = 4) → exec (.tlbi d a b) s = .next (s.scalarFault .priv))) ∧
    (s.HasRegs [b] → scope ≠ 3 → scope ≠ 4 → exec (.tlbi d a b) s = .next (s.scalarFault .illegal { ctrlw := true })) ∧
    (s.g.hmode = true → s.HasRegs [d, a] → s.region = none → let pool := s.pool s.g.asn
      let list := s.mem.peek (pool + 16) 8 % 2 ^ 52
      let i := s.mem.peek pool 8
      let answers (t : State) (n : Nat) := exec (.pgmap d a) s = .next (t.setS d (BitVec.ofNat 64 n)).advance
      (∀ f, s.leafOf s.g.asn (s.sreg a) = .error f → exec (.pgmap d a) s =
        .next (if s.pgmapHeld pool (s.sreg a) then s else s.scalarFault f.cause f.info (s.sreg a))) ∧
      ∀ leaf level bad, s.leafOf s.g.asn (s.sreg a) = .ok (leaf, level, bad) → let e := s.mem.peek leaf 8
        (bad = true → s.pgmapHeld pool (s.sreg a) = false → answers s 3) ∧
        (bad = false → bits e 59 1 = 0 → s.pgmapHeld pool (s.sreg a) = false → answers s 1) ∧
        ((bad = true ∨ s.poolAbsent pool = false) → s.pgmapHeld pool (s.sreg a) = true → exec (.pgmap d a) s = .next s) ∧
        (bad = false → bits e 59 1 = 1 → isAbsent pool = true → exec (.pgmap d a) s = .fault .absentPhysical) ∧
        (bad = false → bits e 59 1 = 1 → s.poolAbsent pool = false → s.pgmapHeld pool (s.sreg a) = false → s.memWf → s.mem.tags = [] → s.mem.Quiet → s.regions = [] → isOwn pool = true → pool % 8 = 0 → isOwn leaf = true →
          leaf % 8 = 0 → pool ≠ leaf →
          (s.mem.peek (pool + 8) 8 ≤ i → ∃ t, answers t 2 ∧ t.g = { s.g with wait := t.g.wait } ∧ t.mem.peek pool 8 = (i + 1) % 2 ^ 64 ∧
            ∀ x, x < pool ∨ pool + 8 ≤ x → t.mem.byte x = s.mem.byte x) ∧
          (i < s.mem.peek (pool + 8) 8 → let frame := s.mem.peek (list + 8 * i) 8 % 2 ^ 36
            (level = 2 → frame % 2 ^ 13 ≠ 0 → answers s 3) ∧
            (level = 3 → bits e 58 1 = 1 → frame % 32 ≠ 0 → answers s 3) ∧
            ((level = 2 ∧ frame % 2 ^ 13 = 0) ∨ (level = 3 ∧ bits e 58 1 = 0) → ∃ t, answers t 0 ∧ t.mem.peek pool 8 = (i + 1) % 2 ^ 64 ∧
              bits (t.mem.peek leaf 8) 16 36 = frame ∧ bits (t.mem.peek leaf 8) 59 1 = 0 ∧ t.mem.peek leaf 8 % 2 ^ 16 = e % 2 ^ 16 ∧
              bits (t.mem.peek leaf 8) 52 7 = bits e 52 7 ∧ bits (t.mem.peek leaf 8) 60 4 = bits e 60 4 ∧
              ∀ x, x < pool ∨ pool + 8 ≤ x → x < leaf ∨ leaf + 8 ≤ x → t.mem.byte x = s.mem.byte x)))) ∧
    (s.g.hmode = true → s.HasRegs [d, a, b] →
      (scope = 3 ∨ scope = 4 → s.region = none →
        let n := (s.sreg b).toNat % 2 ^ 16
        let c : Cover := ⟨(s.sreg b).extractLsb' 16 12, if scope = 3 then some s.g.die else none, (s.sreg a).toNat / 65536 * 65536, n * 65536⟩
        ∃ t, exec (.tlbi d a b) s = .next t ∧
          (s.translatedPending c = true ∨ s.plodgePending c = true → t.g.spc = s.g.spc) ∧
          (s.translatedPending c = false → s.plodgePending c = false → t.g.spc = s.g.spc + 4 ∧ t.g.s = (s.g.setS d 0).s) ∧
          ((∀ l ∈ s.disp.launches, l.stale = false ∧ ¬(c.onDie l.die = true ∧ l.asn = c.asn)) → ∀ x ∈ t.mem.dieTlb, x ∈ s.mem.dieTlb ∧ ¬(c.onDie x.1 = true ∧ c.meets x.2.asn x.2.map.va x.2.map.size = true)) ∧
          (∀ x ∈ t.mem.coreTlb, x ∈ s.mem.coreTlb ∧ ¬(c.onDie (x.1 / 64) = true ∧ c.meets x.2.asn x.2.map.va x.2.map.size = true)) ∧
          (c.onDie s.g.die = true → s.g.state ≠ .retired → s.g.state ≠ .saved → ∀ i : Fin 8, t.g.a[i] =
            if s.g.a[i].v = true ∧ c.meets s.g.asn s.g.a[i].vbase.toNat s.g.a[i].limit.toNat = true then { s.g.a[i] with stale := true } else s.g.a[i]))) ∧
    ∀ (c : Cover) (asn : BitVec 12) (va m : Nat), let v := if va < 2 ^ 54 then va else va + 2 ^ 64 - 2 ^ 55
      (c.meets asn va m = true ↔ asn = c.asn ∧ (c.n = 0 ∨ (v < c.lo + c.n ∧ c.lo < v + m)))

/-- A write of PREQ marks the resident Caravans that it targets, a co-scheduled launch whole; every group of one halts, its image takes
its banks and its Rooms, once all that is pre-empted with it stands, and frees them, a release clears HOLD and HALT, and a restore puts groups back at a new place, with PTS at the
floor and their translation registers stale; an image begins with the header of R379, and one of another version is refused (R101, R117, R265, R291,
R376, R377, R379, R380). That a release clears HALT beside HOLD is log 34, which reads R369's "The Dispatcher does not restore a halted image until
system software releases it through PREQ". -/
def Obligations.CaravansAreSavedAndRestored : Prop :=
  ∀ (s : State),
    (∀ (die : Nat) (val : Word64), die < 2 → let v := val ||| 0x8000000000000000#64
      ∃ t, exec (.preemptRequest die val) s = .next t ∧
        t = { s with disp := { s.disp with preq := t.disp.preq, caravans := t.disp.caravans, preqRun := t.disp.preqRun } } ∧
        t.disp.preq[die]? = some (v &&& 0x700000000FFF001F#64) ∧
        ((∃ c ∈ s.disp.caravans, c.st = .resident ∧ s.targets v c = true ∧ s.standing c.id = false) → (t.preqRead die).getLsbD 63 = true) ∧
        t.disp.caravans.map (·.id) = s.disp.caravans.map (·.id) ∧
        ∀ (i : Nat) (c : Caravan), s.disp.caravans[i]? = some c →
          (c.st = .resident → s.targets v c = true → t.disp.caravans[i]? = some { c with preempt := true, hold := c.hold || v.getLsbD 61 }) ∧
          (c.st ≠ .resident → t.disp.caravans[i]? = some c) ∧
          (s.targets v c = false → (∀ l, s.launch? c.launch = some l → l.cos = false) → t.disp.caravans[i]? = some c) ∧
          (c.st = .resident → (∃ l, s.launch? c.launch = some l ∧ l.cos = true) →
            (∃ x ∈ s.disp.caravans, x.st = .resident ∧ x.launch = c.launch ∧ s.targets v x = true) →
            t.disp.caravans[i]? = some { c with preempt := true, hold := c.hold || v.getLsbD 61 })) ∧
    (∀ (die : Nat) (val : Word64), die < 2 → let v := (val &&& 0x7FFFFFFFFFFFFFFF#64) ||| 0x4000000000000000#64
      ∃ t, exec (.preemptRelease die val) s = .next t ∧ t = { s with disp := { s.disp with preq := t.disp.preq, caravans := t.disp.caravans } } ∧
        t.disp.preq[die]? = some (v &&& 0xF00000000FFF001F#64) ∧
        t.disp.caravans = s.disp.caravans.map fun c => if c.st = .saved && (s.targets v c || ((s.launch? c.launch).any (·.cos) &&
          s.disp.caravans.any fun x => x.launch = c.launch && s.targets v x)) then { c with hold := false, halt := false } else c) ∧
    (∀ (v : Word64) (c : Caravan), s.targets v c = if v.getLsbD 60 then c.quad == v.toNat % 32
      else (s.launch? c.launch).any fun l => l.asn = v.extractLsb' 16 12) ∧
    ∀ (cv : Nat) (c : Caravan), s.caravan cv = some c → s.regions = [] → (∀ g ∈ s.others, g.present = true) → (s.groups.map (·.tag)).Nodup →
      (c.toPreempt = false ∨ s.mayHalt cv = false → exec (.preemptHalt cv) s = .next s) ∧
      (c.toPreempt = true → s.mayHalt cv = true → c.rerun = false → ∃ t, exec (.preemptHalt cv) s = .next t ∧
        ∀ g ∈ t.groups, g.caravan = cv → g.state ≠ .retired → g.paused = true) ∧
      (c.st = .resident → s.members cv ≠ [] → s.unitStands c = true → c.rerun = false → s.headerHeld c = false → s.memWf →
        ∃ t c1, exec (.contextImageComplete cv) s = .next t ∧ t.caravan cv = some c1 ∧ c1.st = .saved ∧ c1.saved = true ∧ c1.bankMap = [] ∧
          (∀ g ∈ t.groups, g.caravan = cv → g.state = .saved ∨ g.state = .retired) ∧
          c1.rooms = (s.rooms.filter fun r => (s.members cv).any fun g => g.tag = r.owner) ∧
          (∀ r ∈ t.rooms, ∀ g ∈ s.members cv, r.owner ≠ g.tag) ∧ (∀ p ∈ t.porters, ∀ g ∈ s.members cv, p.tag ≠ g.tag) ∧ (∀ b ∈ t.banks, b.owner ≠ some cv) ∧
          (s.mem.tags = [] → s.mem.Quiet → (∃ l, s.launch? c.launch = some l) → isOwn c.image = true → isOwn (c.image + 63) = true → c.image % 64 = 0 →
            t.mem.peek c.image 4 = 0x43494D47 ∧ t.mem.peek (c.image + 4) 2 = 1) ∧
          ((c.bankMap.map (·.1)).Nodup → ∀ m ∈ c.bankMap, ∀ o < 65536, c1.bankData.get (m.1 * 65536 + o) = s.mem.scratch.get (scratchKey m.2 o))) ∧
      (c.st ≠ .resident ∨ s.standing cv = false ∨ s.unitStands c = false ∨ s.headerHeld c = true → exec (.contextImageComplete cv) s = .next s) ∧
      ∀ (l : Launch) (k : Cand) (x : Seat), s.launch? c.launch = some l → s.dispatcherReady l.die = true → s.checkpointing = false →
        (s.displace l.die).nextPlace l.die = some (k, [x]) → k.caravans = [cv] →
        (c.restorable = false → exec (.caravanRestore cv) s = .next s) ∧
        (c.restorable = true → s.headerHeld c = true → exec (.caravanRestore cv) s = .next s) ∧
        (c.restorable = true → s.headerHeld c = false → s.badVersion c = true → exec (.caravanRestore cv) s =
          .next (({ s with mem := s.mem.note 9 cv } : State).onCaravan cv fun v => { v with halt := true })) ∧
        (c.restorable = true → s.headerHeld c = false → s.badVersion c = false → ∃ t c1, exec (.caravanRestore cv) s = .next t ∧ t.caravan cv = some c1 ∧ c1.st = .resident ∧ c1.quad = x.quad ∧ c1.core = x.core ∧
          c1.saved = false ∧ c1.rooms = [] ∧ c1.num = c.num ∧
          ∀ g ∈ s.inOrder l c, ∃ h ∈ t.groups, h.tag = g.tag ∧ h.paused = false ∧ h.halted = false ∧ h.s = g.s ∧ h.v = g.v ∧ h.q = g.q ∧ h.p = g.p ∧
            h.spc = g.spc ∧ h.pts = maxS g.pts s.svc.tfloor ∧ h.lct = maxS g.lct s.svc.tfloor ∧ h.quadNo = x.quad ∧ h.gstat.getLsbD 4 = true ∧
            (h.state = .resident ∨ h.state = .retiring) ∧ ∀ i : Fin 8, h.a[i] = { g.a[i] with stale := g.a[i].v })

/-! ## Service -/

/-- A reset leaves DRAM and nothing else: no group, launch, region or copy, every key slot FREE, every bank in CACHE mode and no function
ready. A function that has not failed sets its bit, one that leaves service clears it, a Hall with more than 16 disabled rows goes with
its quad; a port trains at version 1, goes down after 8 failed retries, and a store that a peer does not answer is discarded with a
deferred POISON; before firmware runs, or after an image that failed, no function comes up, nor a port that has not been trained, and a port that goes
down ends a checkpoint (R81, R125, R253, R382, R383, R385, R386, R387, R389, R392). Training at version 1, retries counted from the last training and the
entry that each of them makes in the log are log 35; that DRAM, host and peer memory are kept is log 11. -/
def Obligations.FunctionsComeAndGo : Prop :=
  ∀ (s : State),
    (∃ t, exec .reset s = .next t ∧ t.mem.hbm = s.mem.hbm ∧ t.mem.ext = s.mem.ext ∧ t.groups = [] ∧ t.regions = [] ∧ t.rooms = [] ∧
      t.disp.launches = [] ∧ t.disp.caravans = [] ∧ t.svc = State.reset.svc ∧ t.mem.coreTlb = [] ∧ t.mem.dieTlb = [] ∧ t.mem.dir = [] ∧ t.mem.qlines = [] ∧
      t.mem.copies = [] ∧ t.mem.cellar = [] ∧ t.mem.scratch = [] ∧ (∀ n, (t.bank n).mode = .cache ∧ (t.bank n).owner = none) ∧ ∀ k, (t.mem.keySlot k).st = .free) ∧
    let gone (i : Nat) : Bool := decide (s.mem.mode (i / 32) ≠ 0 ∧ s.mem.rbptr (i / 32) = 1015808 ∧ s.mem.rch (i / 32) = i % 32)
    (∀ x ∈ (List.range 16).map (fun i => (Func.stack i, i, s.svc.rdymap.getLsbD (704 + i))) ++
        (List.range 32).map (fun q => (Func.quad q, 64 + q, s.svc.rdymap.getLsbD (720 + q) || s.halls.any fun h => h.num = q && h.st = 2)) ++
        (List.range 2).map (fun d => (Func.dispatcher d, 128 + d, false)) ++ (List.range 18).map (fun p => (Func.port p, 130 + p, !s.svc.trained.contains p)) ++
        [(Func.link, 148, !s.svc.trained.contains 18)] ++
        (List.range 16).map (fun i => (Func.keystore i, 149 + i, s.svc.keyctl.getLsbD 63)) ++
        (List.range 512).map (fun i => (Func.slice i, 192 + i, gone i)),
      (s.bootable = true → x.2.2 = false → ∃ t, exec (.functionReady x.1) s = .next t ∧ t.g = s.g ∧ t.svc = { s.svc with rdymap := t.svc.rdymap } ∧
        ∀ j < 768, t.svc.rdymap.getLsbD j = (decide (j = x.2.1) || s.svc.rdymap.getLsbD j)) ∧
      (s.svc.rdymap.getLsbD x.2.1 = true → ∃ t, exec (.functionOutOfService x.1) s = .next t ∧
        t = { s with svc := { s.svc with rdymap := t.svc.rdymap, ckptctl := t.svc.ckptctl } } ∧
        (s.checkpointing = false → t.svc.ckptctl = s.svc.ckptctl) ∧
        ∀ j < 768, t.svc.rdymap.getLsbD j = (s.svc.rdymap.getLsbD j && !decide (j = x.2.1)))) ∧
    (s.bootable = false → ∀ f, exec (.functionReady f) s = .next s) ∧
    (∀ p < 18, s.svc.trained.contains p = false → exec (.functionReady (.port p)) s = .next s) ∧
    (∀ p < 18, s.svc.rdymap.getLsbD (130 + p) = true → s.checkpointing = true → ∃ t, exec (.functionOutOfService (.port p)) s = .next t ∧
      t.checkpointing = false ∧ t.svc.ckptctl.toNat / 2 ^ 60 % 8 = 2) ∧
    (∀ i < 16, s.svc.rdymap.getLsbD i = false → ∃ t, exec (.functionOutOfService (.stack i)) s = .next t ∧ t.svc.rdymap.getLsbD (704 + i) = true) ∧
    (∀ i < 16, s.svc.rdymap.getLsbD (704 + i) = true → exec (.functionReady (.stack i)) s = .next s) ∧
    (∀ i < 512, gone i = true → exec (.functionReady (.slice i)) s = .next s) ∧
    (∀ q < 32, s.svc.rdymap.getLsbD (720 + q) = true → exec (.functionReady (.quad q)) s = .next s) ∧
    (∀ hall < 32, ∀ rows : BitVec 272, let n := ((List.range 272).filter fun i => rows.getLsbD i).length
      (s.quiesced hall = false → exec (.hallRowRemap hall rows) s = .next s) ∧
      (s.quiesced hall = true → ∃ t, exec (.hallRowRemap hall rows) s = .next t ∧ (t.hall hall).rows = rows ∧ (t.hall hall).st = (if 16 < n then 2 else 0) ∧
        t.mem = s.mem ∧ t.g = s.g ∧ t.svc.rdymap.getLsbD (64 + hall) = (s.svc.rdymap.getLsbD (64 + hall) && decide (n ≤ 16)))) ∧
    (s.log2n = 0 → ∀ port ≤ 18, let bit := if port = 18 then 148 else 130 + port
      (∀ lo hi : BitVec 8, lo.toNat ≤ 1 → 1 ≤ hi.toNat → ∃ t, exec (.linkTraining port lo hi) s = .next t ∧ t.svc.trained.contains port = true ∧
        (s.bootable = true → t.svc.rdymap.getLsbD bit = true) ∧ (s.bootable = false → t.svc.rdymap = s.svc.rdymap) ∧ t.mem = s.mem) ∧
      (∀ lo hi : BitVec 8, 1 < lo.toNat ∨ hi.toNat = 0 → ∃ t, exec (.linkTraining port lo hi) s = .next t ∧ t.svc.rdymap.getLsbD bit = false ∧
        t.svc.trained.contains port = false ∧
        t.svc.sloghead = s.svc.sloghead + BitVec.ofNat 64 (s.mem.notes.length + 1)) ∧
      (s.svc.rdymap.getLsbD bit = false → exec (.flitCrcError port) s = .next s) ∧
      (s.svc.rdymap.getLsbD bit = true → let n : Nat := ((s.svc.portRetries.find? fun x => x.1 = port).map (·.2)).getD 0
        ∃ t, exec (.flitCrcError port) s = .next t ∧ t.svc.rdymap.getLsbD bit = decide (n + 1 < 8) ∧
          t.svc.sloghead = s.svc.sloghead + BitVec.ofNat 64 (s.mem.notes.length + 1) ∧
          (n + 1 < 8 → (t.svc.portRetries.find? fun x => x.1 = port) = some (port, n + 1)))) ∧
    ∀ (n : Nat) (e : SbEntry) (es : List SbEntry) (b : Byte) (bs : List (Target × Byte)) (pa : Nat) (coh : Coh) (grain : BitVec 2) (enc : Bool) (key : BitVec 13),
      s.g.hasTag n = true → s.g.sb = e :: es → e.op = .store ((.mem pa coh grain enc key, b) :: bs) →
      (e.performed = true ∨ nodeOf pa = 0 → exec (.peerTimeout n e.id) s = .next s) ∧
      (e.performed = false → nodeOf pa ≠ 0 → s.log2n = 0 → s.region = none → s.g.state ≠ .retired → s.g.halted = false → e.inHandler = false → e.ins = none →
        s.g.pending.length < 8 → ∃ t, exec (.peerTimeout n e.id) s = .next t ∧ t.g.pending = s.g.pending ++ [⟨.poison, e.fpc, 0, e.mask, 0, none⟩] ∧
          { e with performed := true, stamp := e.pts, flags := [], acks := [] } ∈ t.g.sb ∧ ∀ x, t.mem.byte x = s.mem.byte x) ∧
      ∀ id, (∀ x ∈ s.g.sb, x.id ≠ id) → exec (.peerTimeout n id) s = .next { s with g := { s.g with silent := true } }

/-- Firmware that verifies is run and reported, and its report goes to memory; a key is loaded into a FREE slot alone and destroyed out of
a LIVE one, with no line of it left above HBM; a checkpoint holds every Caravan and flushes; the clock steps by 47 MHz between 470 and
940; a register write changes the one register at its offset (R74, R81, R82, R366, R376, R381, R387, R388, R391, R392, R394). The layout of the report is
log 8; CWNODE given once, NODE 0 refused and the LEASE of 0 ignored are log 35. -/
def Obligations.ThePackageIsServed : Prop :=
  ∀ (s : State), s.log2n = 0 →
    (∀ (img sig : List Byte) (v : BitVec 8), let digest := Config.shake256 img 64
      (Config.falconVerify digest sig = false → exec (.firmwareVerify img sig v) s = .next { s with svc := { s.svc with badImage := true } }) ∧
      (v = 0 → Config.falconVerify digest sig = true → exec (.firmwareVerify img sig v) s = .next s) ∧
      (v ≠ 0 → Config.falconVerify digest sig = true → ∃ t, exec (.firmwareVerify img sig v) s = .next t ∧ t.svc.firmware = s.svc.firmware ++ [digest] ∧
        t.svc.ifver = (v.setWidth 32 : BitVec 32) ++ s.svc.ifver.setWidth 32 ∧ t.svc.cwnode ≠ 0 ∧ (s.svc.cwnode ≠ 0 → t.svc.cwnode = s.svc.cwnode) ∧
        t.mem = s.mem ∧ t.g = s.g)) ∧
    (∀ (nonce : List Byte) (pa : Nat), nonce.length = 32 → s.svc.firmware ≠ [] → s.memWf → s.mem.tags = [] → s.mem.Quiet →
      let body := s.svc.firmware.flatten ++ leBytes 8 s.svc.ifver.toNat ++ leBytes 2 s.svc.cwnode.toNat ++ nonce
      let bs := body ++ (Config.falconSign body).toList
      isOwn pa = true → isOwn (pa + bs.length - 1) = true → (∀ i, pa / 128 ≤ i → i ≤ (pa + bs.length) / 128 → s.hostWaits i = false) →
        ∃ t, exec (.attestationReply nonce pa) s = .next t ∧
        (∀ x, t.mem.byte x = if pa ≤ x then (bs[x - pa]?).getD (s.mem.byte x) else s.mem.byte x) ∧
        ((∀ a, s.mem.rebuildFails a = false) → t.svc.sloghead = s.svc.sloghead + BitVec.ofNat 64 (s.mem.notes.length + 1))) ∧
    (∀ (val : Word64), let slot : BitVec 13 := val.extractLsb' 0 13
      let op := val.toNat / 2 ^ 13 % 8
      let a := s.svc.keybuf.toNat % 2 ^ 52 / 8 * 8
      let status (i : Instr) (n : Nat) (more : State → Prop) := ∃ t, exec i s = .next t ∧ t.svc.keyctl.toNat / 2 ^ 60 = n ∧ more t
      (s.svc.keyctl.getLsbD 63 = true → exec (.keyLoad val) s = .next s ∧ exec (.keyDestroy val) s = .next s ∧ exec (.keyctlReservedOp val) s = .next s) ∧
      (s.svc.keyctl.getLsbD 63 = false → s.keyStoresReady = true →
        ((s.mem.keySlot slot).st ≠ .free → status (.keyLoad val) 1 fun t => t.mem = s.mem) ∧
        ((s.mem.keySlot slot).st = .free → isOwn a = true → isOwn (a + 71) = true → s.hostWaits (a / 128) = false → s.hostWaits ((a + 71) / 128) = false →
          (Config.keyUnwrap (readBytes s.mem.byte a 72) = none → status (.keyLoad val) 2 fun t => t.mem = s.mem) ∧
          ∀ k, Config.keyUnwrap (readBytes s.mem.byte a 72) = some k → status (.keyLoad val) 0 fun t =>
            t.mem = { s.mem with keys := t.mem.keys } ∧ t.mem.keySlot slot = ⟨slot.toNat, .live, k.take 32, (k.drop 32).take 32⟩) ∧
        ((s.mem.keySlot slot).st ≠ .live → status (.keyDestroy val) 1 fun t => t.mem = s.mem) ∧
        ((s.mem.keySlot slot).st = .live → status (.keyDestroy val) 0 fun t => (t.mem.keySlot slot).st = .purge ∧ t.mem.hbm = s.mem.hbm ∧
          (∀ x ∈ t.mem.tags, x.2 ≠ slot) ∧ ∀ x ∈ t.lodgeEntries, ¬(x.enc = true ∧ x.key = slot))) ∧
      (s.svc.keyctl.getLsbD 63 = false → s.keyStoresReady = false → ∃ t, exec (.keyLoad val) s = .next t ∧ t.svc.keyctl.getLsbD 63 = true ∧ t.mem = s.mem) ∧
      (s.svc.keyctl.getLsbD 63 = false → op ≠ 1 → op ≠ 2 → status (.keyctlReservedOp val) 3 fun t => t.mem = s.mem)) ∧
    (∀ (val : Word64), let n := val.toNat % 32
      exec (.slogbaseWrite val) s = .next { s with svc := { s.svc with sloghead := 0, slogbase := (val &&& 0x000FFFFFFFFFF000#64) ||| (if n = 0 ∨ (7 ≤ n ∧ n ≤ 24) then BitVec.ofNat 64 n else s.svc.slogbase &&& 0x1F#64) } }) ∧
    (∀ (val : Word64), let node := val.toNat % 2 ^ 11
      (s.checkpointing = true → ∃ t, exec (.checkpointStart val) s = .next t ∧ t.checkpointing = true ∧ t.svc.ckptctl.toNat / 2 ^ 60 % 8 = 1) ∧
      (s.checkpointing = false → s.safeTier node = false → ∃ t, exec (.checkpointStart val) s = .next t ∧ t.checkpointing = false ∧
        t.svc.ckptctl.toNat / 2 ^ 60 % 8 = 1 ∧ t.disp = s.disp) ∧
      (s.checkpointing = false → s.safeTier node = true → ∃ t, exec (.checkpointStart val) s = .next t ∧ t.checkpointing = true ∧
        t.svc.ckptctl.toNat / 2 ^ 60 % 8 = 0 ∧ t.svc.ckptctl.toNat % 2 ^ 11 = node ∧ t.svc.ckptNode.toNat = node ∧
        t.disp.caravans = s.disp.caravans.map fun c =>
          if c.st = .resident then { c with preempt := true, hold := true } else if c.st = .saved then { c with hold := true } else c)) ∧
    (∀ ok, s.checkpointing = false ∨ (ok = true ∧ ∃ c ∈ s.disp.caravans, c.st = .resident) → exec (.checkpointEnd ok) s = .next s) ∧
    (∀ ok, s.checkpointing = true → ok = false ∨ (∀ c ∈ s.disp.caravans, c.st ≠ .resident) → ∃ t, exec (.checkpointEnd ok) s = .next t ∧
      t = { s with mem := t.mem, svc := { s.svc with ckptctl := t.svc.ckptctl } } ∧ t.checkpointing = false ∧
      t.svc.ckptctl.toNat / 2 ^ 60 % 8 = (if ok then 0 else 2) ∧ t.svc.ckptctl.toNat % 2 ^ 11 = s.svc.ckptctl.toNat % 2 ^ 11 ∧
      (ok = false → t.mem = s.mem) ∧ (ok = true → t.mem.cellar = [] ∧ t.mem.safe = some (s.svc.ckptNode.toNat, t.mem.hbm))) ∧
    (∀ (cause : BitVec 2) (power : BitVec 12), (cause = 0 ∨ cause.getLsbD 0 ≠ decide (2500 < power.toNat)) → exec (.clockStepDown cause power) s = .next s) ∧
    (∀ (cause : BitVec 2) (power : BitVec 12), cause ≠ 0 → cause.getLsbD 0 = decide (2500 < power.toNat) → exec (.clockStepDown cause power) s = .next { s with svc := { s.svc with pwrcause := cause, power := power, freq := if 517 ≤ s.svc.freq.toNat then s.svc.freq - 47 else s.svc.freq } }) ∧
    (∃ t, exec .clockStepUp s = .next t ∧ t.svc.power.toNat ≤ 2500 ∧ t = { s with freeCtr := s.freeCtr + 1, svc := { s.svc with pwrcause := 0, power := t.svc.power, freq := if s.svc.freq.toNat ≤ 893 then s.svc.freq + 47 else s.svc.freq } }) ∧
    ∀ (off : Nat) (val : Word64),
      (off ∉ [0x108, 0x110, 0x118, 0x120, 0x128, 0x130, 0x138, 0x158, 0x200, 0x208, 0x210, 0x218] → exec (.registerWrite off val) s = .next s) ∧
      (off = 0x120 → val.extractLsb' 32 8 = 0#8 → exec (.registerWrite off val) s = .next s) ∧
      ∀ x ∈ [(0x108, { s.svc with astb := val &&& 0x000FFFFFFFFFFFFF#64 }), (0x110, { s.svc with hvbase := val &&& 0x000FFFFFFFFFFFFF#64 }),
          (0x118, { s.svc with ctxpool := val &&& 0x000FFFFFFFFFFFFF#64 }), (0x130, { s.svc with keybuf := val &&& 0x000FFFFFFFFFFFF8#64 }),
          (0x120, if val.extractLsb' 32 8 = 0 then s.svc else { s.svc with lease := val.extractLsb' 32 8 })],
        off = x.1 → exec (.registerWrite off val) s = .next { s with svc := x.2 }

/-- Right after reset no function is ready, no group, launch or Caravan exists, every key slot is FREE and every bank in CACHE mode, the
lease is 10 ticks and the floor 0, the log is off and no checkpoint runs; memory has its canonical form (R68, R81, R100, R125, R376, R382,
R391, R392). -/
def Obligations.ResetLeaves : Prop :=
  let r := State.reset
  r.memWf ∧ r.groups = [] ∧ r.disp.launches = [] ∧ r.disp.caravans = [] ∧ (∀ j < 768, r.svc.rdymap.getLsbD j = false) ∧ r.svc.lease = 10 ∧ r.svc.tfloor = 0 ∧
    r.log2n = 0 ∧ r.checkpointing = false ∧ (∀ k, (r.mem.keySlot k).st = .free) ∧ (∀ n, (r.bank n).mode = .cache) ∧ (∀ i : Fin 16, r.mem.mstat[i] = 0) ∧
    ∀ die < 2, r.preqRead die = 0
end

