-- ==== Sys2Proof/Laws/Cells.lean ====
section
/-! SUPPORT. Byte stores keep their canonical form, and a read after a write. -/
namespace Sys2Proof.Machine

theorem Cells.risingFrom_mono {c : Cells} : ∀ {lo lo' : Nat}, lo' ≤ lo → Cells.risingFrom lo c = true → Cells.risingFrom lo' c = true := by
  cases c with
  | nil => intros; rfl
  | cons x c =>
    intro lo lo' h hr
    simp only [Cells.risingFrom, Bool.and_eq_true, decide_eq_true_eq] at *
    exact ⟨by omega, hr.2⟩

theorem Cells.risingFrom_put (a : Nat) (b : Byte) : ∀ (c : Cells) (lo : Nat), lo ≤ a → Cells.risingFrom lo c = true →
    Cells.risingFrom lo (Cells.put c a b) = true
  | [], lo, h, _ => by simp [Cells.put, Cells.risingFrom, h]
  | (k, x) :: c, lo, h, hr => by
    simp only [Cells.risingFrom, Bool.and_eq_true, decide_eq_true_eq] at hr
    unfold Cells.put
    split
    · next e => subst e; simp [Cells.risingFrom, hr.1, hr.2]
    · split
      · simp only [Cells.risingFrom, Bool.and_eq_true, decide_eq_true_eq]
        exact ⟨h, by omega, hr.2⟩
      · simp only [Cells.risingFrom, Bool.and_eq_true, decide_eq_true_eq]
        exact ⟨hr.1, Cells.risingFrom_put a b c (k + 1) (by omega) hr.2⟩

theorem Cells.rising_put {c : Cells} (a : Nat) (b : Byte) (h : c.rising = true) : (c.put a b).rising = true :=
  Cells.risingFrom_put a b c 0 (Nat.zero_le a) h

theorem Cells.risingFrom_filter (f : Host.Cell → Bool) : ∀ (c : Cells) (lo : Nat), Cells.risingFrom lo c = true →
    Cells.risingFrom lo (c.filter f) = true
  | [], _, _ => rfl
  | (k, x) :: c, lo, hr => by
    simp only [Cells.risingFrom, Bool.and_eq_true, decide_eq_true_eq] at hr
    have ih := Cells.risingFrom_filter f c (k + 1) hr.2
    simp only [List.filter_cons]
    split
    · simp [Cells.risingFrom, hr.1, ih]
    · exact Cells.risingFrom_mono (by omega) ih

theorem Cells.rising_filter {c : Cells} (f : Host.Cell → Bool) (h : c.rising = true) : Cells.rising (c.filter f) = true :=
  Cells.risingFrom_filter f c 0 h

theorem Cells.rising_dropRange {c : Cells} (a n : Nat) (h : c.rising = true) : (c.dropRange a n).rising = true :=
  Cells.rising_filter _ h

theorem Cells.rising_over (src : Cells) : ∀ {dst : Cells}, dst.rising = true → (Cells.over src dst).rising = true := by
  unfold Cells.over
  induction src with
  | nil => intro dst h; exact h
  | cons x c ih => intro dst h; exact ih (Cells.rising_put x.1 x.2 h)

theorem Cells.rising_putBytes : ∀ (bs : List Byte) {c : Cells} (a : Nat), c.rising = true → (Cells.putBytes c a bs).rising = true
  | [], _, _, h => h
  | b :: bs, _, a, h => Cells.rising_putBytes bs (a + 1) (Cells.rising_put a b h)

theorem Cells.drop_eq_filter : ∀ (c : Cells) (lo a : Nat), Cells.risingFrom lo c = true → Cells.drop c a = c.filter fun x => x.1 != a
  | [], _, _, _ => rfl
  | (k, x) :: c, lo, a, hr => by
    simp only [Cells.risingFrom, Bool.and_eq_true, decide_eq_true_eq] at hr
    have all : ∀ (c : Cells) (lo : Nat), a < lo → Cells.risingFrom lo c = true → c.filter (fun x => x.1 != a) = c := by
      intro c
      induction c with
      | nil => intros; rfl
      | cons y c ih =>
        intro lo h hc
        simp only [Cells.risingFrom, Bool.and_eq_true, decide_eq_true_eq] at hc
        rw [List.filter_cons_of_pos (by simp; omega), ih (y.1 + 1) (by omega) hc.2]
    unfold Cells.drop
    split
    · next e => subst e; rw [List.filter_cons_of_neg (by simp), all c (a + 1) (by omega) hr.2]
    · next e =>
      rw [List.filter_cons_of_pos (by simp; omega)]
      split
      · rw [all c (k + 1) (by omega) hr.2]
      · rw [Cells.drop_eq_filter c (k + 1) a hr.2]

theorem Cells.canonical_put {c : Cells} (a : Nat) {b : Byte} (hb : b ≠ 0#8) (h : c.canonical = true) : (c.put a b).canonical = true := by
  simp only [Cells.canonical, Bool.and_eq_true] at *
  refine ⟨Cells.rising_put a b h.1, ?_⟩
  have : ∀ (c : Cells), c.all (fun x => x.2 != 0#8) = true → (Cells.put c a b).all (fun x => x.2 != 0#8) = true := by
    intro c
    induction c with
    | nil => intro _; simp [Cells.put, hb]
    | cons x c ih =>
      intro hc
      simp only [List.all_cons, Bool.and_eq_true] at hc
      unfold Cells.put
      split
      · simp [hb]; simpa using hc.2
      · split
        · simp [hb]; exact ⟨by simpa using hc.1, by simpa using hc.2⟩
        · simp only [List.all_cons, Bool.and_eq_true]; exact ⟨hc.1, ih hc.2⟩
  exact this c h.2

theorem Cells.canonical_filter {c : Cells} (f : Host.Cell → Bool) (h : c.canonical = true) : Cells.canonical (c.filter f) = true := by
  simp only [Cells.canonical, Bool.and_eq_true] at *
  refine ⟨Cells.rising_filter f h.1, ?_⟩
  rw [List.all_eq_true] at *
  exact fun x hx => h.2 x (List.mem_filter.1 hx).1

theorem Cells.canonical_set {c : Cells} (a : Nat) (b : Byte) (h : c.canonical = true) : (c.set a b).canonical = true := by
  unfold Cells.set
  split
  · rw [Cells.drop_eq_filter c 0 a (by simp only [Cells.canonical, Bool.and_eq_true] at h; exact h.1)]
    exact Cells.canonical_filter _ h
  · next hb => exact Cells.canonical_put a hb h

theorem Cells.canonical_setBytes : ∀ (bs : List Byte) {c : Cells} (a : Nat), c.canonical = true → (Cells.setBytes c a bs).canonical = true
  | [], _, _, h => h
  | b :: bs, _, a, h => Cells.canonical_setBytes bs (a + 1) (Cells.canonical_set a b h)

theorem Cells.canonical_dropRange {c : Cells} (a n : Nat) (h : c.canonical = true) : (c.dropRange a n).canonical = true :=
  Cells.canonical_filter _ h

/-! Reads after writes -/

theorem Cells.find_put_same (a : Nat) (b : Byte) : ∀ c : Cells, (Cells.put c a b).find a = some b
  | [] => by simp [Cells.put, Cells.find]
  | (k, x) :: c => by
    unfold Cells.put
    split
    · simp [Cells.find]
    · split
      · simp [Cells.find]
      · next h1 h2 => simp only [Cells.find, if_neg h1, if_neg h2, Cells.find_put_same a b c]

theorem Cells.find_put_other {a a' : Nat} (b : Byte) (h : a' ≠ a) : ∀ c : Cells, (Cells.put c a b).find a' = c.find a'
  | [] => by simp [Cells.put, Cells.find, h]
  | (k, x) :: c => by
    unfold Cells.put
    split
    · next e => subst e; simp [Cells.find, h]
    · split
      · next h1 h2 =>
        simp only [Cells.find, if_neg h]
        split
        · rw [if_neg (by omega), if_pos (by omega)]
        · rfl
      · next h1 h2 => simp only [Cells.find, Cells.find_put_other b h c]

theorem Cells.get_put_same (c : Cells) (a : Nat) (b : Byte) : (c.put a b).get a = b := by simp [Cells.get, Cells.find_put_same]

theorem Cells.get_put_other (c : Cells) {a a' : Nat} (b : Byte) (h : a' ≠ a) : (c.put a b).get a' = c.get a' := by
  simp [Cells.get, Cells.find_put_other b h]

theorem Cells.find_lt : ∀ (c : Cells) (lo a : Nat), a < lo → Cells.risingFrom lo c = true → c.find a = none
  | [], _, _, _, _ => rfl
  | (k, x) :: c, lo, a, h, hr => by
    simp only [Cells.risingFrom, Bool.and_eq_true, decide_eq_true_eq] at hr
    simp only [Cells.find]
    rw [if_neg (by omega), if_pos (by omega)]

theorem Cells.find_drop_same (a : Nat) : ∀ (c : Cells) (lo : Nat), Cells.risingFrom lo c = true → (Cells.drop c a).find a = none
  | [], _, _ => rfl
  | (k, x) :: c, lo, hr => by
    simp only [Cells.risingFrom, Bool.and_eq_true, decide_eq_true_eq] at hr
    unfold Cells.drop
    split
    · next e => subst e; exact Cells.find_lt c (a + 1) a (by omega) hr.2
    · split
      · next h1 h2 => simp only [Cells.find, if_neg h1, if_pos h2]
      · next h1 h2 => simp only [Cells.find, if_neg h1, if_neg h2]; exact Cells.find_drop_same a c (k + 1) hr.2

theorem Cells.find_drop_other {a a' : Nat} (h : a' ≠ a) : ∀ (c : Cells) (lo : Nat), Cells.risingFrom lo c = true →
    (Cells.drop c a).find a' = c.find a'
  | [], _, _ => rfl
  | (k, x) :: c, lo, hr => by
    simp only [Cells.risingFrom, Bool.and_eq_true, decide_eq_true_eq] at hr
    unfold Cells.drop
    split
    · next e =>
      subst e
      simp only [Cells.find, if_neg h]
      split
      · exact Cells.find_lt c (a + 1) a' (by omega) hr.2
      · rfl
    · split
      · rfl
      · simp only [Cells.find]
        split
        · rfl
        · split
          · rfl
          · exact Cells.find_drop_other h c (k + 1) hr.2

theorem Cells.get_set_same {c : Cells} (a : Nat) (b : Byte) (h : c.rising = true) : (c.set a b).get a = b := by
  unfold Cells.set
  split
  · next e => subst e; simp [Cells.get, Cells.find_drop_same a c 0 h]
  · exact Cells.get_put_same c a b

theorem Cells.get_set_other {c : Cells} {a a' : Nat} (b : Byte) (hn : a' ≠ a) (h : c.rising = true) : (c.set a b).get a' = c.get a' := by
  unfold Cells.set
  split
  · simp [Cells.get, Cells.find_drop_other hn c 0 h]
  · exact Cells.get_put_other c b hn

end Sys2Proof.Machine
end

