-- ==== Sys2Proof/Laws/Decode.lean ====
section
/-! SUPPORT. The fields of the words that the encoder builds, so that a proof about decoding reads them off. -/
namespace Sys2Proof

/-! Parts of a concatenation -/

/-- A part of the high operand. -/
theorem word_high {n m : Nat} (x : BitVec n) (y : BitVec m) (lo k : Nat) (h : m ≤ lo) :
    (x ++ y).extractLsb' lo k = x.extractLsb' (lo - m) k := by
  ext i hi
  simp only [BitVec.getElem_extractLsb', BitVec.getLsbD_append]
  rw [if_neg (by omega)]
  congr 1; omega

/-- A part of the low operand. -/
theorem word_low {n m : Nat} (x : BitVec n) (y : BitVec m) (lo k : Nat) (h : lo + k ≤ m) :
    (x ++ y).extractLsb' lo k = y.extractLsb' lo k := by
  ext i hi
  simp only [BitVec.getElem_extractLsb', BitVec.getLsbD_append]
  rw [if_pos (by omega)]

/-- The whole of a word. -/
theorem word_all {n : Nat} (x : BitVec n) : x.extractLsb' 0 n = x := by ext i hi; simp

/-- A part of a part. -/
theorem word_part {n : Nat} (x : BitVec n) (lo k lo' k' : Nat) (h : lo' + k' ≤ k) :
    (x.extractLsb' lo k).extractLsb' lo' k' = x.extractLsb' (lo + lo') k' := by
  ext i hi
  simp only [BitVec.getElem_extractLsb', BitVec.getLsbD_extractLsb']
  rw [show lo + (lo' + i) = lo + lo' + i by omega]
  simp; omega

/-- A bit of a word is its part of one bit. -/
theorem word_bit {n : Nat} (x : BitVec n) (i : Nat) (b : Bool) (h : x.extractLsb' i 1 = BitVec.ofBool b) : x.getLsbD i = b := by
  have := congrArg (fun y : BitVec 1 => y.getLsbD 0) h
  cases b <;> simpa using this

/-! Formats of the scalar word (R22) -/

@[simp] theorem sR_op (op d a b : BitVec 6) (fn : BitVec 8) : fld (sR op d a b fn) 26 6 = op :=
  (word_high (op ++ d ++ a ++ b) fn 26 6 (by decide)).trans ((word_high (op ++ d ++ a) b 18 6 (by decide)).trans ((word_high
  (op ++ d) a 12 6 (by decide)).trans ((word_high (op) d 6 6 (by decide)).trans (word_all op))))
@[simp] theorem sR_d (op d a b : BitVec 6) (fn : BitVec 8) : fld (sR op d a b fn) 20 6 = d :=
  (word_high (op ++ d ++ a ++ b) fn 20 6 (by decide)).trans ((word_high (op ++ d ++ a) b 12 6 (by decide)).trans ((word_high
  (op ++ d) a 6 6 (by decide)).trans ((word_low (op) d 0 6 (by decide)).trans (word_all d))))
@[simp] theorem sR_a (op d a b : BitVec 6) (fn : BitVec 8) : fld (sR op d a b fn) 14 6 = a :=
  (word_high (op ++ d ++ a ++ b) fn 14 6 (by decide)).trans ((word_high (op ++ d ++ a) b 6 6 (by decide)).trans ((word_low
  (op ++ d) a 0 6 (by decide)).trans (word_all a)))
@[simp] theorem sR_b (op d a b : BitVec 6) (fn : BitVec 8) : fld (sR op d a b fn) 8 6 = b :=
  (word_high (op ++ d ++ a ++ b) fn 8 6 (by decide)).trans ((word_low (op ++ d ++ a) b 0 6 (by decide)).trans (word_all b))
@[simp] theorem sR_fn (op d a b : BitVec 6) (fn : BitVec 8) : fld (sR op d a b fn) 0 8 = fn :=
  (word_low (op ++ d ++ a ++ b) fn 0 8 (by decide)).trans (word_all fn)
@[simp] theorem sI_op (op d a : BitVec 6) (imm : BitVec 14) : fld (sI op d a imm) 26 6 = op :=
  (word_high (op ++ d ++ a) imm 26 6 (by decide)).trans ((word_high (op ++ d) a 12 6 (by decide)).trans ((word_high (op) d 6
  6 (by decide)).trans (word_all op)))
@[simp] theorem sI_d (op d a : BitVec 6) (imm : BitVec 14) : fld (sI op d a imm) 20 6 = d :=
  (word_high (op ++ d ++ a) imm 20 6 (by decide)).trans ((word_high (op ++ d) a 6 6 (by decide)).trans ((word_low (op) d 0 6
  (by decide)).trans (word_all d)))
@[simp] theorem sI_a (op d a : BitVec 6) (imm : BitVec 14) : fld (sI op d a imm) 14 6 = a :=
  (word_high (op ++ d ++ a) imm 14 6 (by decide)).trans ((word_low (op ++ d) a 0 6 (by decide)).trans (word_all a))
@[simp] theorem sI_imm (op d a : BitVec 6) (imm : BitVec 14) : fld (sI op d a imm) 0 14 = imm :=
  (word_low (op ++ d ++ a) imm 0 14 (by decide)).trans (word_all imm)
@[simp] theorem sW_op (op d : BitVec 6) (imm : BitVec 20) : fld (sW op d imm) 26 6 = op :=
  (word_high (op ++ d) imm 26 6 (by decide)).trans ((word_high (op) d 6 6 (by decide)).trans (word_all op))
@[simp] theorem sW_d (op d : BitVec 6) (imm : BitVec 20) : fld (sW op d imm) 20 6 = d :=
  (word_high (op ++ d) imm 20 6 (by decide)).trans ((word_low (op) d 0 6 (by decide)).trans (word_all d))
@[simp] theorem sW_imm (op d : BitVec 6) (imm : BitVec 20) : fld (sW op d imm) 0 20 = imm :=
  (word_low (op ++ d) imm 0 20 (by decide)).trans (word_all imm)
@[simp] theorem sB_op (op : BitVec 6) (c : BitVec 3) (a b : BitVec 6) (off : BitVec 11) : fld (sB op c a b off) 26 6 = op :=
  (word_high (op ++ c ++ a ++ b) off 26 6 (by decide)).trans ((word_high (op ++ c ++ a) b 15 6 (by decide)).trans
  ((word_high (op ++ c) a 9 6 (by decide)).trans ((word_high (op) c 3 6 (by decide)).trans (word_all op))))
@[simp] theorem sB_c (op : BitVec 6) (c : BitVec 3) (a b : BitVec 6) (off : BitVec 11) : fld (sB op c a b off) 23 3 = c :=
  (word_high (op ++ c ++ a ++ b) off 23 3 (by decide)).trans ((word_high (op ++ c ++ a) b 12 3 (by decide)).trans
  ((word_high (op ++ c) a 6 3 (by decide)).trans ((word_low (op) c 0 3 (by decide)).trans (word_all c))))
@[simp] theorem sB_a (op : BitVec 6) (c : BitVec 3) (a b : BitVec 6) (off : BitVec 11) : fld (sB op c a b off) 17 6 = a :=
  (word_high (op ++ c ++ a ++ b) off 17 6 (by decide)).trans ((word_high (op ++ c ++ a) b 6 6 (by decide)).trans ((word_low
  (op ++ c) a 0 6 (by decide)).trans (word_all a)))
@[simp] theorem sB_b (op : BitVec 6) (c : BitVec 3) (a b : BitVec 6) (off : BitVec 11) : fld (sB op c a b off) 11 6 = b :=
  (word_high (op ++ c ++ a ++ b) off 11 6 (by decide)).trans ((word_low (op ++ c ++ a) b 0 6 (by decide)).trans (word_all
  b))
@[simp] theorem sB_off (op : BitVec 6) (c : BitVec 3) (a b : BitVec 6) (off : BitVec 11) : fld (sB op c a b off) 0 11 = off :=
  (word_low (op ++ c ++ a ++ b) off 0 11 (by decide)).trans (word_all off)
@[simp] theorem sM_op (op d a : BitVec 6) (z : BitVec 2) (off : BitVec 12) : fld (sM op d a z off) 26 6 = op :=
  (word_high (op ++ d ++ a ++ z) off 26 6 (by decide)).trans ((word_high (op ++ d ++ a) z 14 6 (by decide)).trans
  ((word_high (op ++ d) a 12 6 (by decide)).trans ((word_high (op) d 6 6 (by decide)).trans (word_all op))))
@[simp] theorem sM_d (op d a : BitVec 6) (z : BitVec 2) (off : BitVec 12) : fld (sM op d a z off) 20 6 = d :=
  (word_high (op ++ d ++ a ++ z) off 20 6 (by decide)).trans ((word_high (op ++ d ++ a) z 8 6 (by decide)).trans ((word_high
  (op ++ d) a 6 6 (by decide)).trans ((word_low (op) d 0 6 (by decide)).trans (word_all d))))
@[simp] theorem sM_a (op d a : BitVec 6) (z : BitVec 2) (off : BitVec 12) : fld (sM op d a z off) 14 6 = a :=
  (word_high (op ++ d ++ a ++ z) off 14 6 (by decide)).trans ((word_high (op ++ d ++ a) z 2 6 (by decide)).trans ((word_low
  (op ++ d) a 0 6 (by decide)).trans (word_all a)))
@[simp] theorem sM_z (op d a : BitVec 6) (z : BitVec 2) (off : BitVec 12) : fld (sM op d a z off) 12 2 = z :=
  (word_high (op ++ d ++ a ++ z) off 12 2 (by decide)).trans ((word_low (op ++ d ++ a) z 0 2 (by decide)).trans (word_all
  z))
@[simp] theorem sM_off (op d a : BitVec 6) (z : BitVec 2) (off : BitVec 12) : fld (sM op d a z off) 0 12 = off :=
  (word_low (op ++ d ++ a ++ z) off 0 12 (by decide)).trans (word_all off)

/-! Register fields (R23) -/

/-- A register of a class of eight in a field of six bits. -/
@[simp] theorem reg3_of (n : BitVec 3) (k : BitVec 3 → Except DecodeError Instr) : reg3 (0#3 ++ n) k = k n := by
  have : (0#3 ++ n : BitVec 6).toNat < 8 := by
    rw [BitVec.toNat_append]; simp; omega
  unfold reg3
  rw [if_pos this, show (0#3 ++ n : BitVec 6).extractLsb' 0 3 = n from (word_low 0#3 n 0 3 (by decide)).trans (word_all n)]

/-- A register of a class of sixteen in a field of six bits. -/
@[simp] theorem reg4_of (n : BitVec 4) (k : BitVec 4 → Except DecodeError Instr) : reg4 (0#2 ++ n) k = k n := by
  have : (0#2 ++ n : BitVec 6).toNat < 16 := by
    rw [BitVec.toNat_append]; simp; omega
  unfold reg4
  rw [if_pos this, show (0#2 ++ n : BitVec 6).extractLsb' 0 4 = n from (word_low 0#2 n 0 4 (by decide)).trans (word_all n)]

/-- The register of `sgetp` and `sputp` (R27). -/
@[simp] theorem pkx_of (r : Pkx) : Pkx.ofCode r.fn r.field = .ok r := by
  have hb3 : ∀ i : BitVec 3, (i.setWidth 6).toNat < 8 ∧ (i.setWidth 6).extractLsb' 0 3 = i := by decide
  have hb2 : ∀ i : BitVec 2, (i.setWidth 6).toNat < 4 ∧ (i.setWidth 6).extractLsb' 0 2 = i := by decide
  cases r with
  | p i => exact (if_pos (hb3 i).1).trans (congrArg (fun x => Except.ok (Pkx.p x)) (hb3 i).2)
  | k i => exact (if_pos (hb3 i).1).trans (congrArg (fun x => Except.ok (Pkx.k x)) (hb3 i).2)
  | x i => exact (if_pos (hb2 i).1).trans (congrArg (fun x => Except.ok (Pkx.x x)) (hb2 i).2)

/-- The completion flag of `lrun` (R23). -/
@[simp] theorem lrunFlag_of (c : Option (Fin 12)) :
    lrunFlag (match c with | some f => BitVec.ofNat 6 f.val | none => 63#6) = some c := by
  cases c with
  | none => rfl
  | some f => revert f; decide

/-! The lane word (R31) -/

@[simp] theorem laneBits_op (op : LaneOp) (w : LaneWord) : (laneBits op w).extractLsb' 88 8 = op.code :=
  (word_high (op.code ++ (BitVec.ofBool w.neg) ++ w.pred ++ w.ty.code ++ w.fn ++ w.d ++ w.a ++ w.b ++ w.c ++ (BitVec.ofBool
  w.xi)) w.imm 88 8 (by decide)).trans ((word_high (op.code ++ (BitVec.ofBool w.neg) ++ w.pred ++ w.ty.code ++ w.fn ++ w.d
  ++ w.a ++ w.b ++ w.c) (BitVec.ofBool w.xi) 56 8 (by decide)).trans ((word_high (op.code ++ (BitVec.ofBool w.neg) ++ w.pred
  ++ w.ty.code ++ w.fn ++ w.d ++ w.a ++ w.b) w.c 55 8 (by decide)).trans ((word_high (op.code ++ (BitVec.ofBool w.neg) ++
  w.pred ++ w.ty.code ++ w.fn ++ w.d ++ w.a) w.b 45 8 (by decide)).trans ((word_high (op.code ++ (BitVec.ofBool w.neg) ++
  w.pred ++ w.ty.code ++ w.fn ++ w.d) w.a 35 8 (by decide)).trans ((word_high (op.code ++ (BitVec.ofBool w.neg) ++ w.pred ++
  w.ty.code ++ w.fn) w.d 25 8 (by decide)).trans ((word_high (op.code ++ (BitVec.ofBool w.neg) ++ w.pred ++ w.ty.code) w.fn
  15 8 (by decide)).trans ((word_high (op.code ++ (BitVec.ofBool w.neg) ++ w.pred) w.ty.code 9 8 (by decide)).trans
  ((word_high (op.code ++ (BitVec.ofBool w.neg)) w.pred 4 8 (by decide)).trans ((word_high (op.code) (BitVec.ofBool w.neg) 1
  8 (by decide)).trans (word_all op.code))))))))))
@[simp] theorem laneBits_neg (op : LaneOp) (w : LaneWord) : (laneBits op w).getLsbD 87 = w.neg :=
  word_bit _ _ _ (
    (word_high (op.code ++ (BitVec.ofBool w.neg) ++ w.pred ++ w.ty.code ++ w.fn ++ w.d ++ w.a ++ w.b ++ w.c ++
    (BitVec.ofBool w.xi)) w.imm 87 1 (by decide)).trans ((word_high (op.code ++ (BitVec.ofBool w.neg) ++ w.pred ++ w.ty.code
    ++ w.fn ++ w.d ++ w.a ++ w.b ++ w.c) (BitVec.ofBool w.xi) 55 1 (by decide)).trans ((word_high (op.code ++ (BitVec.ofBool
    w.neg) ++ w.pred ++ w.ty.code ++ w.fn ++ w.d ++ w.a ++ w.b) w.c 54 1 (by decide)).trans ((word_high (op.code ++
    (BitVec.ofBool w.neg) ++ w.pred ++ w.ty.code ++ w.fn ++ w.d ++ w.a) w.b 44 1 (by decide)).trans ((word_high (op.code ++
    (BitVec.ofBool w.neg) ++ w.pred ++ w.ty.code ++ w.fn ++ w.d) w.a 34 1 (by decide)).trans ((word_high (op.code ++
    (BitVec.ofBool w.neg) ++ w.pred ++ w.ty.code ++ w.fn) w.d 24 1 (by decide)).trans ((word_high (op.code ++ (BitVec.ofBool
    w.neg) ++ w.pred ++ w.ty.code) w.fn 14 1 (by decide)).trans ((word_high (op.code ++ (BitVec.ofBool w.neg) ++ w.pred)
    w.ty.code 8 1 (by decide)).trans ((word_high (op.code ++ (BitVec.ofBool w.neg)) w.pred 3 1 (by decide)).trans ((word_low
    (op.code) (BitVec.ofBool w.neg) 0 1 (by decide)).trans (word_all (BitVec.ofBool w.neg))))))))))))
@[simp] theorem laneBits_pred (op : LaneOp) (w : LaneWord) : (laneBits op w).extractLsb' 84 3 = w.pred :=
  (word_high (op.code ++ (BitVec.ofBool w.neg) ++ w.pred ++ w.ty.code ++ w.fn ++ w.d ++ w.a ++ w.b ++ w.c ++ (BitVec.ofBool
  w.xi)) w.imm 84 3 (by decide)).trans ((word_high (op.code ++ (BitVec.ofBool w.neg) ++ w.pred ++ w.ty.code ++ w.fn ++ w.d
  ++ w.a ++ w.b ++ w.c) (BitVec.ofBool w.xi) 52 3 (by decide)).trans ((word_high (op.code ++ (BitVec.ofBool w.neg) ++ w.pred
  ++ w.ty.code ++ w.fn ++ w.d ++ w.a ++ w.b) w.c 51 3 (by decide)).trans ((word_high (op.code ++ (BitVec.ofBool w.neg) ++
  w.pred ++ w.ty.code ++ w.fn ++ w.d ++ w.a) w.b 41 3 (by decide)).trans ((word_high (op.code ++ (BitVec.ofBool w.neg) ++
  w.pred ++ w.ty.code ++ w.fn ++ w.d) w.a 31 3 (by decide)).trans ((word_high (op.code ++ (BitVec.ofBool w.neg) ++ w.pred ++
  w.ty.code ++ w.fn) w.d 21 3 (by decide)).trans ((word_high (op.code ++ (BitVec.ofBool w.neg) ++ w.pred ++ w.ty.code) w.fn
  11 3 (by decide)).trans ((word_high (op.code ++ (BitVec.ofBool w.neg) ++ w.pred) w.ty.code 5 3 (by decide)).trans
  ((word_low (op.code ++ (BitVec.ofBool w.neg)) w.pred 0 3 (by decide)).trans (word_all w.pred)))))))))
@[simp] theorem laneBits_ty (op : LaneOp) (w : LaneWord) : (laneBits op w).extractLsb' 79 5 = w.ty.code :=
  (word_high (op.code ++ (BitVec.ofBool w.neg) ++ w.pred ++ w.ty.code ++ w.fn ++ w.d ++ w.a ++ w.b ++ w.c ++ (BitVec.ofBool
  w.xi)) w.imm 79 5 (by decide)).trans ((word_high (op.code ++ (BitVec.ofBool w.neg) ++ w.pred ++ w.ty.code ++ w.fn ++ w.d
  ++ w.a ++ w.b ++ w.c) (BitVec.ofBool w.xi) 47 5 (by decide)).trans ((word_high (op.code ++ (BitVec.ofBool w.neg) ++ w.pred
  ++ w.ty.code ++ w.fn ++ w.d ++ w.a ++ w.b) w.c 46 5 (by decide)).trans ((word_high (op.code ++ (BitVec.ofBool w.neg) ++
  w.pred ++ w.ty.code ++ w.fn ++ w.d ++ w.a) w.b 36 5 (by decide)).trans ((word_high (op.code ++ (BitVec.ofBool w.neg) ++
  w.pred ++ w.ty.code ++ w.fn ++ w.d) w.a 26 5 (by decide)).trans ((word_high (op.code ++ (BitVec.ofBool w.neg) ++ w.pred ++
  w.ty.code ++ w.fn) w.d 16 5 (by decide)).trans ((word_high (op.code ++ (BitVec.ofBool w.neg) ++ w.pred ++ w.ty.code) w.fn
  6 5 (by decide)).trans ((word_low (op.code ++ (BitVec.ofBool w.neg) ++ w.pred) w.ty.code 0 5 (by decide)).trans (word_all
  w.ty.code))))))))
@[simp] theorem laneBits_fn (op : LaneOp) (w : LaneWord) : (laneBits op w).extractLsb' 73 6 = w.fn :=
  (word_high (op.code ++ (BitVec.ofBool w.neg) ++ w.pred ++ w.ty.code ++ w.fn ++ w.d ++ w.a ++ w.b ++ w.c ++ (BitVec.ofBool
  w.xi)) w.imm 73 6 (by decide)).trans ((word_high (op.code ++ (BitVec.ofBool w.neg) ++ w.pred ++ w.ty.code ++ w.fn ++ w.d
  ++ w.a ++ w.b ++ w.c) (BitVec.ofBool w.xi) 41 6 (by decide)).trans ((word_high (op.code ++ (BitVec.ofBool w.neg) ++ w.pred
  ++ w.ty.code ++ w.fn ++ w.d ++ w.a ++ w.b) w.c 40 6 (by decide)).trans ((word_high (op.code ++ (BitVec.ofBool w.neg) ++
  w.pred ++ w.ty.code ++ w.fn ++ w.d ++ w.a) w.b 30 6 (by decide)).trans ((word_high (op.code ++ (BitVec.ofBool w.neg) ++
  w.pred ++ w.ty.code ++ w.fn ++ w.d) w.a 20 6 (by decide)).trans ((word_high (op.code ++ (BitVec.ofBool w.neg) ++ w.pred ++
  w.ty.code ++ w.fn) w.d 10 6 (by decide)).trans ((word_low (op.code ++ (BitVec.ofBool w.neg) ++ w.pred ++ w.ty.code) w.fn 0
  6 (by decide)).trans (word_all w.fn)))))))
@[simp] theorem laneBits_d (op : LaneOp) (w : LaneWord) : (laneBits op w).extractLsb' 63 10 = w.d :=
  (word_high (op.code ++ (BitVec.ofBool w.neg) ++ w.pred ++ w.ty.code ++ w.fn ++ w.d ++ w.a ++ w.b ++ w.c ++ (BitVec.ofBool
  w.xi)) w.imm 63 10 (by decide)).trans ((word_high (op.code ++ (BitVec.ofBool w.neg) ++ w.pred ++ w.ty.code ++ w.fn ++ w.d
  ++ w.a ++ w.b ++ w.c) (BitVec.ofBool w.xi) 31 10 (by decide)).trans ((word_high (op.code ++ (BitVec.ofBool w.neg) ++
  w.pred ++ w.ty.code ++ w.fn ++ w.d ++ w.a ++ w.b) w.c 30 10 (by decide)).trans ((word_high (op.code ++ (BitVec.ofBool
  w.neg) ++ w.pred ++ w.ty.code ++ w.fn ++ w.d ++ w.a) w.b 20 10 (by decide)).trans ((word_high (op.code ++ (BitVec.ofBool
  w.neg) ++ w.pred ++ w.ty.code ++ w.fn ++ w.d) w.a 10 10 (by decide)).trans ((word_low (op.code ++ (BitVec.ofBool w.neg) ++
  w.pred ++ w.ty.code ++ w.fn) w.d 0 10 (by decide)).trans (word_all w.d))))))
@[simp] theorem laneBits_a (op : LaneOp) (w : LaneWord) : (laneBits op w).extractLsb' 53 10 = w.a :=
  (word_high (op.code ++ (BitVec.ofBool w.neg) ++ w.pred ++ w.ty.code ++ w.fn ++ w.d ++ w.a ++ w.b ++ w.c ++ (BitVec.ofBool
  w.xi)) w.imm 53 10 (by decide)).trans ((word_high (op.code ++ (BitVec.ofBool w.neg) ++ w.pred ++ w.ty.code ++ w.fn ++ w.d
  ++ w.a ++ w.b ++ w.c) (BitVec.ofBool w.xi) 21 10 (by decide)).trans ((word_high (op.code ++ (BitVec.ofBool w.neg) ++
  w.pred ++ w.ty.code ++ w.fn ++ w.d ++ w.a ++ w.b) w.c 20 10 (by decide)).trans ((word_high (op.code ++ (BitVec.ofBool
  w.neg) ++ w.pred ++ w.ty.code ++ w.fn ++ w.d ++ w.a) w.b 10 10 (by decide)).trans ((word_low (op.code ++ (BitVec.ofBool
  w.neg) ++ w.pred ++ w.ty.code ++ w.fn ++ w.d) w.a 0 10 (by decide)).trans (word_all w.a)))))
@[simp] theorem laneBits_b (op : LaneOp) (w : LaneWord) : (laneBits op w).extractLsb' 43 10 = w.b :=
  (word_high (op.code ++ (BitVec.ofBool w.neg) ++ w.pred ++ w.ty.code ++ w.fn ++ w.d ++ w.a ++ w.b ++ w.c ++ (BitVec.ofBool
  w.xi)) w.imm 43 10 (by decide)).trans ((word_high (op.code ++ (BitVec.ofBool w.neg) ++ w.pred ++ w.ty.code ++ w.fn ++ w.d
  ++ w.a ++ w.b ++ w.c) (BitVec.ofBool w.xi) 11 10 (by decide)).trans ((word_high (op.code ++ (BitVec.ofBool w.neg) ++
  w.pred ++ w.ty.code ++ w.fn ++ w.d ++ w.a ++ w.b) w.c 10 10 (by decide)).trans ((word_low (op.code ++ (BitVec.ofBool
  w.neg) ++ w.pred ++ w.ty.code ++ w.fn ++ w.d ++ w.a) w.b 0 10 (by decide)).trans (word_all w.b))))
@[simp] theorem laneBits_c (op : LaneOp) (w : LaneWord) : (laneBits op w).extractLsb' 33 10 = w.c :=
  (word_high (op.code ++ (BitVec.ofBool w.neg) ++ w.pred ++ w.ty.code ++ w.fn ++ w.d ++ w.a ++ w.b ++ w.c ++ (BitVec.ofBool
  w.xi)) w.imm 33 10 (by decide)).trans ((word_high (op.code ++ (BitVec.ofBool w.neg) ++ w.pred ++ w.ty.code ++ w.fn ++ w.d
  ++ w.a ++ w.b ++ w.c) (BitVec.ofBool w.xi) 1 10 (by decide)).trans ((word_low (op.code ++ (BitVec.ofBool w.neg) ++ w.pred
  ++ w.ty.code ++ w.fn ++ w.d ++ w.a ++ w.b) w.c 0 10 (by decide)).trans (word_all w.c)))
@[simp] theorem laneBits_xi (op : LaneOp) (w : LaneWord) : (laneBits op w).getLsbD 32 = w.xi :=
  word_bit _ _ _ (
    (word_high (op.code ++ (BitVec.ofBool w.neg) ++ w.pred ++ w.ty.code ++ w.fn ++ w.d ++ w.a ++ w.b ++ w.c ++
    (BitVec.ofBool w.xi)) w.imm 32 1 (by decide)).trans ((word_low (op.code ++ (BitVec.ofBool w.neg) ++ w.pred ++ w.ty.code
    ++ w.fn ++ w.d ++ w.a ++ w.b ++ w.c) (BitVec.ofBool w.xi) 0 1 (by decide)).trans (word_all (BitVec.ofBool w.xi))))
@[simp] theorem laneBits_imm (op : LaneOp) (w : LaneWord) : (laneBits op w).extractLsb' 0 32 = w.imm :=
  (word_low (op.code ++ (BitVec.ofBool w.neg) ++ w.pred ++ w.ty.code ++ w.fn ++ w.d ++ w.a ++ w.b ++ w.c ++ (BitVec.ofBool
  w.xi)) w.imm 0 32 (by decide)).trans (word_all w.imm)

end Sys2Proof
end

