-- ==== Sys2Proof/Laws/Paths.lean ====
section
/-! SUPPORT. Operations on the lanes of a group move lanes and nothing else: each keeps `Group.LanesMoved`, so that every register that
holds data is the same after them. -/
namespace Sys2Proof.Machine

theorem Group.LanesMoved.refl (g : Group) : g.LanesMoved g := ⟨_, _, _, _, _, _, _, _, _, _, _, _, _, _, _, rfl⟩

theorem Group.LanesMoved.trans {g h i : Group} (a : g.LanesMoved h) (b : h.LanesMoved i) : g.LanesMoved i := by
  obtain ⟨_, _, _, _, _, _, _, _, _, _, _, _, _, _, _, rfl⟩ := a
  obtain ⟨_, _, _, _, _, _, _, _, _, _, _, _, _, _, _, rfl⟩ := b
  exact ⟨_, _, _, _, _, _, _, _, _, _, _, _, _, _, _, rfl⟩

/-- An operation repeated over a list moves lanes only, if each turn does. -/
theorem Group.LanesMoved.foldl {α : Type} {f : Group → α → Group} (hf : ∀ (g : Group) (x : α), g.LanesMoved (f g x)) :
    ∀ (l : List α) (g : Group), g.LanesMoved (l.foldl f g)
  | [], g => .refl g
  | x :: l, g => (hf g x).trans (Group.LanesMoved.foldl hf l (f g x))

theorem Group.setSlot_moves (g : Group) (k : Nat) (p : Option Path) : g.LanesMoved (g.setSlot k p) :=
  ⟨_, _, _, _, _, _, _, _, _, _, _, _, _, _, _, rfl⟩

theorem Group.setStat_moves (g : Group) (b : Nat) : g.LanesMoved (g.setStat b) := ⟨_, _, _, _, _, _, _, _, _, _, _, _, _, _, _, rfl⟩

theorem Group.push_moves (g : Group) (p : Path) : g.LanesMoved (g.push p) := by
  unfold Group.push; split <;> exact ⟨_, _, _, _, _, _, _, _, _, _, _, _, _, _, _, rfl⟩

theorem Group.popped_moves (g : Group) (st : List Path) : g.LanesMoved (g.popped st) := by
  unfold Group.popped; split <;> exact ⟨_, _, _, _, _, _, _, _, _, _, _, _, _, _, _, rfl⟩

theorem Group.pop_moves (g : Group) (k : Nat) : g.LanesMoved (g.pop k) := by
  unfold Group.pop
  split
  · exact .refl g
  · split
    · split <;> exact (g.popped_moves _).trans (Group.setSlot_moves _ _ _)
    · exact (g.popped_moves _).trans (Group.setSlot_moves _ _ _)

theorem Group.merge_moves {g h : Group} (e : g.merge = some h) : g.LanesMoved h := by
  unfold Group.merge at e
  split at e
  · split at e
    · cases e; exact (g.setSlot_moves _ _).trans (Group.setSlot_moves _ _ _)
    · cases e
  · cases e

theorem Group.refill_moves : ∀ (n : Nat) (g : Group), g.LanesMoved (g.refill n)
  | 0, g => .refl g
  | n + 1, g => by
    unfold Group.refill
    have h0 : g.LanesMoved (if (g.path 0).isNone then g.pop 0 else g) := by
      split
      · exact g.pop_moves 0
      · exact .refl g
    refine h0.trans ?_
    generalize (if (g.path 0).isNone then g.pop 0 else g) = g0
    have h1 : g0.LanesMoved (if (g0.path 1).isNone then g0.pop 1 else g0) := by
      split
      · exact g0.pop_moves 1
      · exact .refl g0
    refine h1.trans ?_
    dsimp only
    generalize (if (g0.path 1).isNone then g0.pop 1 else g0) = g1
    split
    · next e => exact (Group.merge_moves e).trans (Group.refill_moves n _)
    · split
      · exact Group.refill_moves n g1
      · exact .refl g1

theorem Group.place_moves : ∀ (ps : List Path) (g : Group), g.LanesMoved (g.place ps)
  | [], g => .refl g
  | p :: ps, g => by
    unfold Group.place
    split
    · exact (g.setSlot_moves _ _).trans (Group.place_moves ps _)
    · split
      · exact (g.setSlot_moves _ _).trans (Group.place_moves ps _)
      · exact Group.LanesMoved.foldl Group.push_moves _ g

theorem Group.testJoin_moves (g : Group) (i : Nat) : g.LanesMoved (g.testJoin i) := by
  unfold Group.testJoin
  dsimp only
  split
  · exact .refl g
  · exact Group.LanesMoved.trans ⟨_, _, _, _, _, _, _, _, _, _, _, _, _, _, _, rfl⟩ (Group.place_moves _ _)

theorem Group.testJoins_moves (g : Group) : g.LanesMoved g.testJoins := Group.LanesMoved.foldl Group.testJoin_moves _ g

theorem Group.checkLost_moves (g : Group) : g.LanesMoved g.checkLost := by
  unfold Group.checkLost
  dsimp only
  split
  · exact Group.LanesMoved.trans ⟨_, _, _, _, _, _, _, _, _, _, _, _, _, _, _, rfl⟩ (Group.place_moves _ _)
  · exact .refl g

theorem Group.settle_moves (g : Group) : g.LanesMoved g.settle :=
  ((g.refill_moves _).trans (Group.checkLost_moves _)).trans (Group.refill_moves _ _)

theorem Group.incC_moves (g : Group) (f : Fin 12) : g.LanesMoved (g.incC f) := ⟨_, _, _, _, _, _, _, _, _, _, _, _, _, _, _, rfl⟩

theorem Group.decC_moves (g : Group) (f : Fin 12) : g.LanesMoved (g.decC f) := ⟨_, _, _, _, _, _, _, _, _, _, _, _, _, _, _, rfl⟩

theorem Group.closeEntry_moves (g : Group) (e : Option Nat) : g.LanesMoved (g.closeEntry e) :=
  ⟨_, _, _, _, _, _, _, _, _, _, _, _, _, _, _, rfl⟩

theorem Group.joinEntry_moves (g : Group) (p : IssuePlace) : g.LanesMoved (g.joinEntry p) :=
  ⟨_, _, _, _, _, _, _, _, _, _, _, _, _, _, _, rfl⟩

theorem Group.leaveEntry_moves (g : Group) (p : IssuePlace) : g.LanesMoved (g.leaveEntry p) :=
  ⟨_, _, _, _, _, _, _, _, _, _, _, _, _, _, _, rfl⟩

theorem Group.endRepeat_moves (g : Group) : g.LanesMoved g.endRepeat := ⟨_, _, _, _, _, _, _, _, _, _, _, _, _, _, _, rfl⟩

theorem Group.moveOn_moves (g : Group) (k n : Nat) : g.LanesMoved (g.moveOn k n) := by
  unfold Group.moveOn
  split
  · exact .refl g
  · split
    · exact g.setSlot_moves _ _
    · exact ((g.closeEntry_moves _).trans (Group.setSlot_moves _ _ _)).trans (Group.settle_moves _)

theorem Group.laneNext_moves (g : Group) (k : Nat) : g.LanesMoved (g.laneNext k) := by
  unfold Group.laneNext
  split
  · split
    · split
      · exact ⟨_, _, _, _, _, _, _, _, _, _, _, _, _, _, _, rfl⟩
      · exact g.endRepeat_moves.trans (Group.moveOn_moves _ _ _)
    · exact g.moveOn_moves _ _
  · exact g.moveOn_moves _ _

theorem Group.popRedo_moves (g : Group) : g.LanesMoved g.popRedo := by
  unfold Group.popRedo
  split
  · exact ⟨_, _, _, _, _, _, _, _, _, _, _, _, _, _, _, rfl⟩
  · exact .refl g

/-- Moving on after a lane instruction moves lanes only (R41, R45). -/
theorem Group.passed_moves (g : Group) (pl : IssuePlace) : g.LanesMoved (g.passed pl) := by
  unfold Group.passed
  dsimp only
  split
  · exact g.popRedo_moves
  · refine (g.popRedo_moves.trans (Group.laneNext_moves _ pl.pslot)).trans ?_
    exact ⟨_, _, _, _, _, _, _, _, _, _, _, _, _, _, _, rfl⟩

end Sys2Proof.Machine
end

