-- ==== Sys2Proof/Laws/State.lean ====
section
/-! SUPPORT. What each update of the machine and of a group leaves alone, field by field, so that no proof unfolds one. -/
namespace Sys2Proof.Machine

/-! Updates of the machine -/

@[simp] theorem State.setG_others (s : State) (f : Group → Group) : (s.setG f).others = s.others := rfl
@[simp] theorem State.setG_mem (s : State) (f : Group → Group) : (s.setG f).mem = s.mem := rfl
@[simp] theorem State.setG_banks (s : State) (f : Group → Group) : (s.setG f).banks = s.banks := rfl
@[simp] theorem State.setG_porters (s : State) (f : Group → Group) : (s.setG f).porters = s.porters := rfl
@[simp] theorem State.setG_lodges (s : State) (f : Group → Group) : (s.setG f).lodges = s.lodges := rfl
@[simp] theorem State.setG_lodgeEntries (s : State) (f : Group → Group) : (s.setG f).lodgeEntries = s.lodgeEntries := rfl
@[simp] theorem State.setG_regions (s : State) (f : Group → Group) : (s.setG f).regions = s.regions := rfl
@[simp] theorem State.setG_reach (s : State) (f : Group → Group) : (s.setG f).reach = s.reach := rfl
@[simp] theorem State.setG_rooms (s : State) (f : Group → Group) : (s.setG f).rooms = s.rooms := rfl
@[simp] theorem State.setG_halls (s : State) (f : Group → Group) : (s.setG f).halls = s.halls := rfl
@[simp] theorem State.setG_disp (s : State) (f : Group → Group) : (s.setG f).disp = s.disp := rfl
@[simp] theorem State.setG_svc (s : State) (f : Group → Group) : (s.setG f).svc = s.svc := rfl
@[simp] theorem State.setG_now (s : State) (f : Group → Group) : (s.setG f).now = s.now := rfl
@[simp] theorem State.setG_agenda (s : State) (f : Group → Group) : (s.setG f).agenda = s.agenda := rfl
@[simp] theorem State.setG_freeCtr (s : State) (f : Group → Group) : (s.setG f).freeCtr = s.freeCtr := rfl
@[simp] theorem State.setG_g (s : State) (f : Group → Group) : (s.setG f).g = f s.g := rfl
@[simp] theorem State.setS_others (s : State) (r : BitVec 6) (x : Word64) : (s.setS r x).others = s.others := rfl
@[simp] theorem State.setS_mem (s : State) (r : BitVec 6) (x : Word64) : (s.setS r x).mem = s.mem := rfl
@[simp] theorem State.setS_banks (s : State) (r : BitVec 6) (x : Word64) : (s.setS r x).banks = s.banks := rfl
@[simp] theorem State.setS_porters (s : State) (r : BitVec 6) (x : Word64) : (s.setS r x).porters = s.porters := rfl
@[simp] theorem State.setS_lodges (s : State) (r : BitVec 6) (x : Word64) : (s.setS r x).lodges = s.lodges := rfl
@[simp] theorem State.setS_lodgeEntries (s : State) (r : BitVec 6) (x : Word64) : (s.setS r x).lodgeEntries = s.lodgeEntries := rfl
@[simp] theorem State.setS_regions (s : State) (r : BitVec 6) (x : Word64) : (s.setS r x).regions = s.regions := rfl
@[simp] theorem State.setS_reach (s : State) (r : BitVec 6) (x : Word64) : (s.setS r x).reach = s.reach := rfl
@[simp] theorem State.setS_rooms (s : State) (r : BitVec 6) (x : Word64) : (s.setS r x).rooms = s.rooms := rfl
@[simp] theorem State.setS_halls (s : State) (r : BitVec 6) (x : Word64) : (s.setS r x).halls = s.halls := rfl
@[simp] theorem State.setS_disp (s : State) (r : BitVec 6) (x : Word64) : (s.setS r x).disp = s.disp := rfl
@[simp] theorem State.setS_svc (s : State) (r : BitVec 6) (x : Word64) : (s.setS r x).svc = s.svc := rfl
@[simp] theorem State.setS_now (s : State) (r : BitVec 6) (x : Word64) : (s.setS r x).now = s.now := rfl
@[simp] theorem State.setS_agenda (s : State) (r : BitVec 6) (x : Word64) : (s.setS r x).agenda = s.agenda := rfl
@[simp] theorem State.setS_freeCtr (s : State) (r : BitVec 6) (x : Word64) : (s.setS r x).freeCtr = s.freeCtr := rfl
@[simp] theorem State.setS_g (s : State) (r : BitVec 6) (x : Word64) : (s.setS r x).g = s.g.setS r x := rfl
@[simp] theorem State.advance_others (s : State) : s.advance.others = s.others := rfl
@[simp] theorem State.advance_mem (s : State) : s.advance.mem = s.mem := rfl
@[simp] theorem State.advance_banks (s : State) : s.advance.banks = s.banks := rfl
@[simp] theorem State.advance_porters (s : State) : s.advance.porters = s.porters := rfl
@[simp] theorem State.advance_lodges (s : State) : s.advance.lodges = s.lodges := rfl
@[simp] theorem State.advance_lodgeEntries (s : State) : s.advance.lodgeEntries = s.lodgeEntries := rfl
@[simp] theorem State.advance_regions (s : State) : s.advance.regions = s.regions := rfl
@[simp] theorem State.advance_reach (s : State) : s.advance.reach = s.reach := rfl
@[simp] theorem State.advance_rooms (s : State) : s.advance.rooms = s.rooms := rfl
@[simp] theorem State.advance_halls (s : State) : s.advance.halls = s.halls := rfl
@[simp] theorem State.advance_disp (s : State) : s.advance.disp = s.disp := rfl
@[simp] theorem State.advance_svc (s : State) : s.advance.svc = s.svc := rfl
@[simp] theorem State.advance_now (s : State) : s.advance.now = s.now := rfl
@[simp] theorem State.advance_agenda (s : State) : s.advance.agenda = s.agenda := rfl
@[simp] theorem State.advance_freeCtr (s : State) : s.advance.freeCtr = s.freeCtr := rfl
@[simp] theorem State.advance_g (s : State) : s.advance.g = s.g.advance := rfl
@[simp] theorem State.jump_others (s : State) (a : Word64) : (s.jump a).others = s.others := rfl
@[simp] theorem State.jump_mem (s : State) (a : Word64) : (s.jump a).mem = s.mem := rfl
@[simp] theorem State.jump_banks (s : State) (a : Word64) : (s.jump a).banks = s.banks := rfl
@[simp] theorem State.jump_porters (s : State) (a : Word64) : (s.jump a).porters = s.porters := rfl
@[simp] theorem State.jump_lodges (s : State) (a : Word64) : (s.jump a).lodges = s.lodges := rfl
@[simp] theorem State.jump_lodgeEntries (s : State) (a : Word64) : (s.jump a).lodgeEntries = s.lodgeEntries := rfl
@[simp] theorem State.jump_regions (s : State) (a : Word64) : (s.jump a).regions = s.regions := rfl
@[simp] theorem State.jump_reach (s : State) (a : Word64) : (s.jump a).reach = s.reach := rfl
@[simp] theorem State.jump_rooms (s : State) (a : Word64) : (s.jump a).rooms = s.rooms := rfl
@[simp] theorem State.jump_halls (s : State) (a : Word64) : (s.jump a).halls = s.halls := rfl
@[simp] theorem State.jump_disp (s : State) (a : Word64) : (s.jump a).disp = s.disp := rfl
@[simp] theorem State.jump_svc (s : State) (a : Word64) : (s.jump a).svc = s.svc := rfl
@[simp] theorem State.jump_now (s : State) (a : Word64) : (s.jump a).now = s.now := rfl
@[simp] theorem State.jump_agenda (s : State) (a : Word64) : (s.jump a).agenda = s.agenda := rfl
@[simp] theorem State.jump_freeCtr (s : State) (a : Word64) : (s.jump a).freeCtr = s.freeCtr := rfl
@[simp] theorem State.useFree_g (s : State) : s.useFree.g = s.g := rfl
@[simp] theorem State.useFree_others (s : State) : s.useFree.others = s.others := rfl
@[simp] theorem State.useFree_mem (s : State) : s.useFree.mem = s.mem := rfl
@[simp] theorem State.useFree_banks (s : State) : s.useFree.banks = s.banks := rfl
@[simp] theorem State.useFree_porters (s : State) : s.useFree.porters = s.porters := rfl
@[simp] theorem State.useFree_lodges (s : State) : s.useFree.lodges = s.lodges := rfl
@[simp] theorem State.useFree_lodgeEntries (s : State) : s.useFree.lodgeEntries = s.lodgeEntries := rfl
@[simp] theorem State.useFree_regions (s : State) : s.useFree.regions = s.regions := rfl
@[simp] theorem State.useFree_reach (s : State) : s.useFree.reach = s.reach := rfl
@[simp] theorem State.useFree_rooms (s : State) : s.useFree.rooms = s.rooms := rfl
@[simp] theorem State.useFree_halls (s : State) : s.useFree.halls = s.halls := rfl
@[simp] theorem State.useFree_disp (s : State) : s.useFree.disp = s.disp := rfl
@[simp] theorem State.useFree_svc (s : State) : s.useFree.svc = s.svc := rfl
@[simp] theorem State.useFree_now (s : State) : s.useFree.now = s.now := rfl
@[simp] theorem State.useFree_agenda (s : State) : s.useFree.agenda = s.agenda := rfl
@[simp] theorem State.onSvc_g (s : State) (f : Service → Service) : (s.onSvc f).g = s.g := rfl
@[simp] theorem State.onSvc_others (s : State) (f : Service → Service) : (s.onSvc f).others = s.others := rfl
@[simp] theorem State.onSvc_mem (s : State) (f : Service → Service) : (s.onSvc f).mem = s.mem := rfl
@[simp] theorem State.onSvc_banks (s : State) (f : Service → Service) : (s.onSvc f).banks = s.banks := rfl
@[simp] theorem State.onSvc_porters (s : State) (f : Service → Service) : (s.onSvc f).porters = s.porters := rfl
@[simp] theorem State.onSvc_lodges (s : State) (f : Service → Service) : (s.onSvc f).lodges = s.lodges := rfl
@[simp] theorem State.onSvc_lodgeEntries (s : State) (f : Service → Service) : (s.onSvc f).lodgeEntries = s.lodgeEntries := rfl
@[simp] theorem State.onSvc_regions (s : State) (f : Service → Service) : (s.onSvc f).regions = s.regions := rfl
@[simp] theorem State.onSvc_reach (s : State) (f : Service → Service) : (s.onSvc f).reach = s.reach := rfl
@[simp] theorem State.onSvc_rooms (s : State) (f : Service → Service) : (s.onSvc f).rooms = s.rooms := rfl
@[simp] theorem State.onSvc_halls (s : State) (f : Service → Service) : (s.onSvc f).halls = s.halls := rfl
@[simp] theorem State.onSvc_disp (s : State) (f : Service → Service) : (s.onSvc f).disp = s.disp := rfl
@[simp] theorem State.onSvc_now (s : State) (f : Service → Service) : (s.onSvc f).now = s.now := rfl
@[simp] theorem State.onSvc_agenda (s : State) (f : Service → Service) : (s.onSvc f).agenda = s.agenda := rfl
@[simp] theorem State.onSvc_freeCtr (s : State) (f : Service → Service) : (s.onSvc f).freeCtr = s.freeCtr := rfl
@[simp] theorem State.onSvc_svc (s : State) (f : Service → Service) : (s.onSvc f).svc = f s.svc := rfl

/-! Updates of a group -/

@[simp] theorem Group.setS_present (g : Group) (r : BitVec 6) (x : Word64) : (g.setS r x).present = g.present := rfl
@[simp] theorem Group.setS_tag (g : Group) (r : BitVec 6) (x : Word64) : (g.setS r x).tag = g.tag := rfl
@[simp] theorem Group.setS_state (g : Group) (r : BitVec 6) (x : Word64) : (g.setS r x).state = g.state := rfl
@[simp] theorem Group.setS_die (g : Group) (r : BitVec 6) (x : Word64) : (g.setS r x).die = g.die := rfl
@[simp] theorem Group.setS_quad (g : Group) (r : BitVec 6) (x : Word64) : (g.setS r x).quad = g.quad := rfl
@[simp] theorem Group.setS_core (g : Group) (r : BitVec 6) (x : Word64) : (g.setS r x).core = g.core := rfl
@[simp] theorem Group.setS_slot (g : Group) (r : BitVec 6) (x : Word64) : (g.setS r x).slot = g.slot := rfl
@[simp] theorem Group.setS_laneBase (g : Group) (r : BitVec 6) (x : Word64) : (g.setS r x).laneBase = g.laneBase := rfl
@[simp] theorem Group.setS_width (g : Group) (r : BitVec 6) (x : Word64) : (g.setS r x).width = g.width := rfl
@[simp] theorem Group.setS_sAllot (g : Group) (r : BitVec 6) (x : Word64) : (g.setS r x).sAllot = g.sAllot := rfl
@[simp] theorem Group.setS_vAllot (g : Group) (r : BitVec 6) (x : Word64) : (g.setS r x).vAllot = g.vAllot := rfl
@[simp] theorem Group.setS_qAllot (g : Group) (r : BitVec 6) (x : Word64) : (g.setS r x).qAllot = g.qAllot := rfl
@[simp] theorem Group.setS_hAllot (g : Group) (r : BitVec 6) (x : Word64) : (g.setS r x).hAllot = g.hAllot := rfl
@[simp] theorem Group.setS_prio (g : Group) (r : BitVec 6) (x : Word64) : (g.setS r x).prio = g.prio := rfl
@[simp] theorem Group.setS_asn (g : Group) (r : BitVec 6) (x : Word64) : (g.setS r x).asn = g.asn := rfl
@[simp] theorem Group.setS_launch (g : Group) (r : BitVec 6) (x : Word64) : (g.setS r x).launch = g.launch := rfl
@[simp] theorem Group.setS_caravan (g : Group) (r : BitVec 6) (x : Word64) : (g.setS r x).caravan = g.caravan := rfl
@[simp] theorem Group.setS_wg (g : Group) (r : BitVec 6) (x : Word64) : (g.setS r x).wg = g.wg := rfl
@[simp] theorem Group.setS_gidx (g : Group) (r : BitVec 6) (x : Word64) : (g.setS r x).gidx = g.gidx := rfl
@[simp] theorem Group.setS_implicit (g : Group) (r : BitVec 6) (x : Word64) : (g.setS r x).implicit = g.implicit := rfl
@[simp] theorem Group.setS_v (g : Group) (r : BitVec 6) (x : Word64) : (g.setS r x).v = g.v := rfl
@[simp] theorem Group.setS_q (g : Group) (r : BitVec 6) (x : Word64) : (g.setS r x).q = g.q := rfl
@[simp] theorem Group.setS_n (g : Group) (r : BitVec 6) (x : Word64) : (g.setS r x).n = g.n := rfl
@[simp] theorem Group.setS_p (g : Group) (r : BitVec 6) (x : Word64) : (g.setS r x).p = g.p := rfl
@[simp] theorem Group.setS_k (g : Group) (r : BitVec 6) (x : Word64) : (g.setS r x).k = g.k := rfl
@[simp] theorem Group.setS_x (g : Group) (r : BitVec 6) (x : Word64) : (g.setS r x).x = g.x := rfl
@[simp] theorem Group.setS_a (g : Group) (r : BitVec 6) (x : Word64) : (g.setS r x).a = g.a := rfl
@[simp] theorem Group.setS_c (g : Group) (r : BitVec 6) (x : Word64) : (g.setS r x).c = g.c := rfl
@[simp] theorem Group.setS_h (g : Group) (r : BitVec 6) (x : Word64) : (g.setS r x).h = g.h := rfl
@[simp] theorem Group.setS_m (g : Group) (r : BitVec 6) (x : Word64) : (g.setS r x).m = g.m := rfl
@[simp] theorem Group.setS_spc (g : Group) (r : BitVec 6) (x : Word64) : (g.setS r x).spc = g.spc := rfl
@[simp] theorem Group.setS_ended (g : Group) (r : BitVec 6) (x : Word64) : (g.setS r x).ended = g.ended := rfl
@[simp] theorem Group.setS_sentry (g : Group) (r : BitVec 6) (x : Word64) : (g.setS r x).sentry = g.sentry := rfl
@[simp] theorem Group.setS_lbase (g : Group) (r : BitVec 6) (x : Word64) : (g.setS r x).lbase = g.lbase := rfl
@[simp] theorem Group.setS_hbase (g : Group) (r : BitVec 6) (x : Word64) : (g.setS r x).hbase = g.hbase := rfl
@[simp] theorem Group.setS_slots (g : Group) (r : BitVec 6) (x : Word64) : (g.setS r x).slots = g.slots := rfl
@[simp] theorem Group.setS_stack (g : Group) (r : BitVec 6) (x : Word64) : (g.setS r x).stack = g.stack := rfl
@[simp] theorem Group.setS_cached (g : Group) (r : BitVec 6) (x : Word64) : (g.setS r x).cached = g.cached := rfl
@[simp] theorem Group.setS_joins (g : Group) (r : BitVec 6) (x : Word64) : (g.setS r x).joins = g.joins := rfl
@[simp] theorem Group.setS_parked (g : Group) (r : BitVec 6) (x : Word64) : (g.setS r x).parked = g.parked := rfl
@[simp] theorem Group.setS_exited (g : Group) (r : BitVec 6) (x : Word64) : (g.setS r x).exited = g.exited := rfl
@[simp] theorem Group.setS_runs (g : Group) (r : BitVec 6) (x : Word64) : (g.setS r x).runs = g.runs := rfl
@[simp] theorem Group.setS_running (g : Group) (r : BitVec 6) (x : Word64) : (g.setS r x).running = g.running := rfl
@[simp] theorem Group.setS_entries (g : Group) (r : BitVec 6) (x : Word64) : (g.setS r x).entries = g.entries := rfl
@[simp] theorem Group.setS_inflight (g : Group) (r : BitVec 6) (x : Word64) : (g.setS r x).inflight = g.inflight := rfl
@[simp] theorem Group.setS_redo (g : Group) (r : BitVec 6) (x : Word64) : (g.setS r x).redo = g.redo := rfl
@[simp] theorem Group.setS_lastSlot (g : Group) (r : BitVec 6) (x : Word64) : (g.setS r x).lastSlot = g.lastSlot := rfl
@[simp] theorem Group.setS_iss (g : Group) (r : BitVec 6) (x : Word64) : (g.setS r x).iss = g.iss := rfl
@[simp] theorem Group.setS_rep (g : Group) (r : BitVec 6) (x : Word64) : (g.setS r x).rep = g.rep := rfl
@[simp] theorem Group.setS_nextId (g : Group) (r : BitVec 6) (x : Word64) : (g.setS r x).nextId = g.nextId := rfl
@[simp] theorem Group.setS_pts (g : Group) (r : BitVec 6) (x : Word64) : (g.setS r x).pts = g.pts := rfl
@[simp] theorem Group.setS_lct (g : Group) (r : BitVec 6) (x : Word64) : (g.setS r x).lct = g.lct := rfl
@[simp] theorem Group.setS_uac (g : Group) (r : BitVec 6) (x : Word64) : (g.setS r x).uac = g.uac := rfl
@[simp] theorem Group.setS_cvm (g : Group) (r : BitVec 6) (x : Word64) : (g.setS r x).cvm = g.cvm := rfl
@[simp] theorem Group.setS_xf (g : Group) (r : BitVec 6) (x : Word64) : (g.setS r x).xf = g.xf := rfl
@[simp] theorem Group.setS_xe (g : Group) (r : BitVec 6) (x : Word64) : (g.setS r x).xe = g.xe := rfl
@[simp] theorem Group.setS_gstat (g : Group) (r : BitVec 6) (x : Word64) : (g.setS r x).gstat = g.gstat := rfl
@[simp] theorem Group.setS_fmask (g : Group) (r : BitVec 6) (x : Word64) : (g.setS r x).fmask = g.fmask := rfl
@[simp] theorem Group.setS_rc (g : Group) (r : BitVec 6) (x : Word64) : (g.setS r x).rc = g.rc := rfl
@[simp] theorem Group.setS_rip (g : Group) (r : BitVec 6) (x : Word64) : (g.setS r x).rip = g.rip := rfl
@[simp] theorem Group.setS_rgid (g : Group) (r : BitVec 6) (x : Word64) : (g.setS r x).rgid = g.rgid := rfl
@[simp] theorem Group.setS_rgst (g : Group) (r : BitVec 6) (x : Word64) : (g.setS r x).rgst = g.rgst := rfl
@[simp] theorem Group.setS_rgpred (g : Group) (r : BitVec 6) (x : Word64) : (g.setS r x).rgpred = g.rgpred := rfl
@[simp] theorem Group.setS_rgAbort (g : Group) (r : BitVec 6) (x : Word64) : (g.setS r x).rgAbort = g.rgAbort := rfl
@[simp] theorem Group.setS_fcause (g : Group) (r : BitVec 6) (x : Word64) : (g.setS r x).fcause = g.fcause := rfl
@[simp] theorem Group.setS_fpc (g : Group) (r : BitVec 6) (x : Word64) : (g.setS r x).fpc = g.fpc := rfl
@[simp] theorem Group.setS_finfo (g : Group) (r : BitVec 6) (x : Word64) : (g.setS r x).finfo = g.finfo := rfl
@[simp] theorem Group.setS_finfoMask (g : Group) (r : BitVec 6) (x : Word64) : (g.setS r x).finfoMask = g.finfoMask := rfl
@[simp] theorem Group.setS_faddr (g : Group) (r : BitVec 6) (x : Word64) : (g.setS r x).faddr = g.faddr := rfl
@[simp] theorem Group.setS_hmask (g : Group) (r : BitVec 6) (x : Word64) : (g.setS r x).hmask = g.hmask := rfl
@[simp] theorem Group.setS_hrpc (g : Group) (r : BitVec 6) (x : Word64) : (g.setS r x).hrpc = g.hrpc := rfl
@[simp] theorem Group.setS_watch0 (g : Group) (r : BitVec 6) (x : Word64) : (g.setS r x).watch0 = g.watch0 := rfl
@[simp] theorem Group.setS_watch1 (g : Group) (r : BitVec 6) (x : Word64) : (g.setS r x).watch1 = g.watch1 := rfl
@[simp] theorem Group.setS_hmode (g : Group) (r : BitVec 6) (x : Word64) : (g.setS r x).hmode = g.hmode := rfl
@[simp] theorem Group.setS_frame (g : Group) (r : BitVec 6) (x : Word64) : (g.setS r x).frame = g.frame := rfl
@[simp] theorem Group.setS_pending (g : Group) (r : BitVec 6) (x : Word64) : (g.setS r x).pending = g.pending := rfl
@[simp] theorem Group.setS_lost (g : Group) (r : BitVec 6) (x : Word64) : (g.setS r x).lost = g.lost := rfl
@[simp] theorem Group.setS_stopped (g : Group) (r : BitVec 6) (x : Word64) : (g.setS r x).stopped = g.stopped := rfl
@[simp] theorem Group.setS_noWatch (g : Group) (r : BitVec 6) (x : Word64) : (g.setS r x).noWatch = g.noWatch := rfl
@[simp] theorem Group.setS_noWatchLane (g : Group) (r : BitVec 6) (x : Word64) : (g.setS r x).noWatchLane = g.noWatchLane := rfl
@[simp] theorem Group.setS_batches (g : Group) (r : BitVec 6) (x : Word64) : (g.setS r x).batches = g.batches := rfl
@[simp] theorem Group.setS_closedBatches (g : Group) (r : BitVec 6) (x : Word64) : (g.setS r x).closedBatches = g.closedBatches := rfl
@[simp] theorem Group.setS_work (g : Group) (r : BitVec 6) (x : Word64) : (g.setS r x).work = g.work := rfl
@[simp] theorem Group.setS_sb (g : Group) (r : BitVec 6) (x : Word64) : (g.setS r x).sb = g.sb := rfl
@[simp] theorem Group.setS_wait (g : Group) (r : BitVec 6) (x : Word64) : (g.setS r x).wait = g.wait := rfl
@[simp] theorem Group.setS_regroupAt (g : Group) (r : BitVec 6) (x : Word64) : (g.setS r x).regroupAt = g.regroupAt := rfl
@[simp] theorem Group.setS_scalarIssued (g : Group) (r : BitVec 6) (x : Word64) : (g.setS r x).scalarIssued = g.scalarIssued := rfl
@[simp] theorem Group.setS_laneIssued (g : Group) (r : BitVec 6) (x : Word64) : (g.setS r x).laneIssued = g.laneIssued := rfl
@[simp] theorem Group.setS_readySince (g : Group) (r : BitVec 6) (x : Word64) : (g.setS r x).readySince = g.readySince := rfl
@[simp] theorem Group.setS_scalarSince (g : Group) (r : BitVec 6) (x : Word64) : (g.setS r x).scalarSince = g.scalarSince := rfl
@[simp] theorem Group.setS_starved (g : Group) (r : BitVec 6) (x : Word64) : (g.setS r x).starved = g.starved := rfl
@[simp] theorem Group.setS_scalarStarved (g : Group) (r : BitVec 6) (x : Word64) : (g.setS r x).scalarStarved = g.scalarStarved := rfl
@[simp] theorem Group.setS_halted (g : Group) (r : BitVec 6) (x : Word64) : (g.setS r x).halted = g.halted := rfl
@[simp] theorem Group.setS_paused (g : Group) (r : BitVec 6) (x : Word64) : (g.setS r x).paused = g.paused := rfl
@[simp] theorem Group.setS_tickBase (g : Group) (r : BitVec 6) (x : Word64) : (g.setS r x).tickBase = g.tickBase := rfl
@[simp] theorem Group.advance_present (g : Group) : g.advance.present = g.present := rfl
@[simp] theorem Group.advance_tag (g : Group) : g.advance.tag = g.tag := rfl
@[simp] theorem Group.advance_state (g : Group) : g.advance.state = g.state := rfl
@[simp] theorem Group.advance_die (g : Group) : g.advance.die = g.die := rfl
@[simp] theorem Group.advance_quad (g : Group) : g.advance.quad = g.quad := rfl
@[simp] theorem Group.advance_core (g : Group) : g.advance.core = g.core := rfl
@[simp] theorem Group.advance_slot (g : Group) : g.advance.slot = g.slot := rfl
@[simp] theorem Group.advance_laneBase (g : Group) : g.advance.laneBase = g.laneBase := rfl
@[simp] theorem Group.advance_width (g : Group) : g.advance.width = g.width := rfl
@[simp] theorem Group.advance_sAllot (g : Group) : g.advance.sAllot = g.sAllot := rfl
@[simp] theorem Group.advance_vAllot (g : Group) : g.advance.vAllot = g.vAllot := rfl
@[simp] theorem Group.advance_qAllot (g : Group) : g.advance.qAllot = g.qAllot := rfl
@[simp] theorem Group.advance_hAllot (g : Group) : g.advance.hAllot = g.hAllot := rfl
@[simp] theorem Group.advance_prio (g : Group) : g.advance.prio = g.prio := rfl
@[simp] theorem Group.advance_asn (g : Group) : g.advance.asn = g.asn := rfl
@[simp] theorem Group.advance_launch (g : Group) : g.advance.launch = g.launch := rfl
@[simp] theorem Group.advance_caravan (g : Group) : g.advance.caravan = g.caravan := rfl
@[simp] theorem Group.advance_wg (g : Group) : g.advance.wg = g.wg := rfl
@[simp] theorem Group.advance_gidx (g : Group) : g.advance.gidx = g.gidx := rfl
@[simp] theorem Group.advance_implicit (g : Group) : g.advance.implicit = g.implicit := rfl
@[simp] theorem Group.advance_s (g : Group) : g.advance.s = g.s := rfl
@[simp] theorem Group.advance_v (g : Group) : g.advance.v = g.v := rfl
@[simp] theorem Group.advance_q (g : Group) : g.advance.q = g.q := rfl
@[simp] theorem Group.advance_n (g : Group) : g.advance.n = g.n := rfl
@[simp] theorem Group.advance_p (g : Group) : g.advance.p = g.p := rfl
@[simp] theorem Group.advance_k (g : Group) : g.advance.k = g.k := rfl
@[simp] theorem Group.advance_x (g : Group) : g.advance.x = g.x := rfl
@[simp] theorem Group.advance_a (g : Group) : g.advance.a = g.a := rfl
@[simp] theorem Group.advance_c (g : Group) : g.advance.c = g.c := rfl
@[simp] theorem Group.advance_h (g : Group) : g.advance.h = g.h := rfl
@[simp] theorem Group.advance_m (g : Group) : g.advance.m = g.m := rfl
@[simp] theorem Group.advance_ended (g : Group) : g.advance.ended = g.ended := rfl
@[simp] theorem Group.advance_sentry (g : Group) : g.advance.sentry = g.sentry := rfl
@[simp] theorem Group.advance_lbase (g : Group) : g.advance.lbase = g.lbase := rfl
@[simp] theorem Group.advance_hbase (g : Group) : g.advance.hbase = g.hbase := rfl
@[simp] theorem Group.advance_slots (g : Group) : g.advance.slots = g.slots := rfl
@[simp] theorem Group.advance_stack (g : Group) : g.advance.stack = g.stack := rfl
@[simp] theorem Group.advance_cached (g : Group) : g.advance.cached = g.cached := rfl
@[simp] theorem Group.advance_joins (g : Group) : g.advance.joins = g.joins := rfl
@[simp] theorem Group.advance_parked (g : Group) : g.advance.parked = g.parked := rfl
@[simp] theorem Group.advance_exited (g : Group) : g.advance.exited = g.exited := rfl
@[simp] theorem Group.advance_runs (g : Group) : g.advance.runs = g.runs := rfl
@[simp] theorem Group.advance_running (g : Group) : g.advance.running = g.running := rfl
@[simp] theorem Group.advance_entries (g : Group) : g.advance.entries = g.entries := rfl
@[simp] theorem Group.advance_inflight (g : Group) : g.advance.inflight = g.inflight := rfl
@[simp] theorem Group.advance_redo (g : Group) : g.advance.redo = g.redo := rfl
@[simp] theorem Group.advance_lastSlot (g : Group) : g.advance.lastSlot = g.lastSlot := rfl
@[simp] theorem Group.advance_iss (g : Group) : g.advance.iss = g.iss := rfl
@[simp] theorem Group.advance_rep (g : Group) : g.advance.rep = g.rep := rfl
@[simp] theorem Group.advance_nextId (g : Group) : g.advance.nextId = g.nextId := rfl
@[simp] theorem Group.advance_pts (g : Group) : g.advance.pts = g.pts := rfl
@[simp] theorem Group.advance_lct (g : Group) : g.advance.lct = g.lct := rfl
@[simp] theorem Group.advance_uac (g : Group) : g.advance.uac = g.uac := rfl
@[simp] theorem Group.advance_cvm (g : Group) : g.advance.cvm = g.cvm := rfl
@[simp] theorem Group.advance_xf (g : Group) : g.advance.xf = g.xf := rfl
@[simp] theorem Group.advance_xe (g : Group) : g.advance.xe = g.xe := rfl
@[simp] theorem Group.advance_gstat (g : Group) : g.advance.gstat = g.gstat := rfl
@[simp] theorem Group.advance_fmask (g : Group) : g.advance.fmask = g.fmask := rfl
@[simp] theorem Group.advance_rc (g : Group) : g.advance.rc = g.rc := rfl
@[simp] theorem Group.advance_rip (g : Group) : g.advance.rip = g.rip := rfl
@[simp] theorem Group.advance_rgid (g : Group) : g.advance.rgid = g.rgid := rfl
@[simp] theorem Group.advance_rgst (g : Group) : g.advance.rgst = g.rgst := rfl
@[simp] theorem Group.advance_rgpred (g : Group) : g.advance.rgpred = g.rgpred := rfl
@[simp] theorem Group.advance_rgAbort (g : Group) : g.advance.rgAbort = g.rgAbort := rfl
@[simp] theorem Group.advance_fcause (g : Group) : g.advance.fcause = g.fcause := rfl
@[simp] theorem Group.advance_fpc (g : Group) : g.advance.fpc = g.fpc := rfl
@[simp] theorem Group.advance_finfo (g : Group) : g.advance.finfo = g.finfo := rfl
@[simp] theorem Group.advance_finfoMask (g : Group) : g.advance.finfoMask = g.finfoMask := rfl
@[simp] theorem Group.advance_faddr (g : Group) : g.advance.faddr = g.faddr := rfl
@[simp] theorem Group.advance_hmask (g : Group) : g.advance.hmask = g.hmask := rfl
@[simp] theorem Group.advance_hrpc (g : Group) : g.advance.hrpc = g.hrpc := rfl
@[simp] theorem Group.advance_watch0 (g : Group) : g.advance.watch0 = g.watch0 := rfl
@[simp] theorem Group.advance_watch1 (g : Group) : g.advance.watch1 = g.watch1 := rfl
@[simp] theorem Group.advance_hmode (g : Group) : g.advance.hmode = g.hmode := rfl
@[simp] theorem Group.advance_frame (g : Group) : g.advance.frame = g.frame := rfl
@[simp] theorem Group.advance_pending (g : Group) : g.advance.pending = g.pending := rfl
@[simp] theorem Group.advance_lost (g : Group) : g.advance.lost = g.lost := rfl
@[simp] theorem Group.advance_stopped (g : Group) : g.advance.stopped = g.stopped := rfl
@[simp] theorem Group.advance_noWatchLane (g : Group) : g.advance.noWatchLane = g.noWatchLane := rfl
@[simp] theorem Group.advance_batches (g : Group) : g.advance.batches = g.batches := rfl
@[simp] theorem Group.advance_closedBatches (g : Group) : g.advance.closedBatches = g.closedBatches := rfl
@[simp] theorem Group.advance_work (g : Group) : g.advance.work = g.work := rfl
@[simp] theorem Group.advance_sb (g : Group) : g.advance.sb = g.sb := rfl
@[simp] theorem Group.advance_regroupAt (g : Group) : g.advance.regroupAt = g.regroupAt := rfl
@[simp] theorem Group.advance_scalarIssued (g : Group) : g.advance.scalarIssued = g.scalarIssued := rfl
@[simp] theorem Group.advance_laneIssued (g : Group) : g.advance.laneIssued = g.laneIssued := rfl
@[simp] theorem Group.advance_readySince (g : Group) : g.advance.readySince = g.readySince := rfl
@[simp] theorem Group.advance_scalarSince (g : Group) : g.advance.scalarSince = g.scalarSince := rfl
@[simp] theorem Group.advance_starved (g : Group) : g.advance.starved = g.starved := rfl
@[simp] theorem Group.advance_scalarStarved (g : Group) : g.advance.scalarStarved = g.scalarStarved := rfl
@[simp] theorem Group.advance_halted (g : Group) : g.advance.halted = g.halted := rfl
@[simp] theorem Group.advance_paused (g : Group) : g.advance.paused = g.paused := rfl
@[simp] theorem Group.advance_tickBase (g : Group) : g.advance.tickBase = g.tickBase := rfl
@[simp] theorem Group.advance_spc (g : Group) : g.advance.spc = g.spc + 4 := rfl
@[simp] theorem Group.setV_present (g : Group) (r l : Nat) (x : Word32) : (g.setV r l x).present = g.present := rfl
@[simp] theorem Group.setV_tag (g : Group) (r l : Nat) (x : Word32) : (g.setV r l x).tag = g.tag := rfl
@[simp] theorem Group.setV_state (g : Group) (r l : Nat) (x : Word32) : (g.setV r l x).state = g.state := rfl
@[simp] theorem Group.setV_die (g : Group) (r l : Nat) (x : Word32) : (g.setV r l x).die = g.die := rfl
@[simp] theorem Group.setV_quad (g : Group) (r l : Nat) (x : Word32) : (g.setV r l x).quad = g.quad := rfl
@[simp] theorem Group.setV_core (g : Group) (r l : Nat) (x : Word32) : (g.setV r l x).core = g.core := rfl
@[simp] theorem Group.setV_slot (g : Group) (r l : Nat) (x : Word32) : (g.setV r l x).slot = g.slot := rfl
@[simp] theorem Group.setV_laneBase (g : Group) (r l : Nat) (x : Word32) : (g.setV r l x).laneBase = g.laneBase := rfl
@[simp] theorem Group.setV_width (g : Group) (r l : Nat) (x : Word32) : (g.setV r l x).width = g.width := rfl
@[simp] theorem Group.setV_sAllot (g : Group) (r l : Nat) (x : Word32) : (g.setV r l x).sAllot = g.sAllot := rfl
@[simp] theorem Group.setV_vAllot (g : Group) (r l : Nat) (x : Word32) : (g.setV r l x).vAllot = g.vAllot := rfl
@[simp] theorem Group.setV_qAllot (g : Group) (r l : Nat) (x : Word32) : (g.setV r l x).qAllot = g.qAllot := rfl
@[simp] theorem Group.setV_hAllot (g : Group) (r l : Nat) (x : Word32) : (g.setV r l x).hAllot = g.hAllot := rfl
@[simp] theorem Group.setV_prio (g : Group) (r l : Nat) (x : Word32) : (g.setV r l x).prio = g.prio := rfl
@[simp] theorem Group.setV_asn (g : Group) (r l : Nat) (x : Word32) : (g.setV r l x).asn = g.asn := rfl
@[simp] theorem Group.setV_launch (g : Group) (r l : Nat) (x : Word32) : (g.setV r l x).launch = g.launch := rfl
@[simp] theorem Group.setV_caravan (g : Group) (r l : Nat) (x : Word32) : (g.setV r l x).caravan = g.caravan := rfl
@[simp] theorem Group.setV_wg (g : Group) (r l : Nat) (x : Word32) : (g.setV r l x).wg = g.wg := rfl
@[simp] theorem Group.setV_gidx (g : Group) (r l : Nat) (x : Word32) : (g.setV r l x).gidx = g.gidx := rfl
@[simp] theorem Group.setV_implicit (g : Group) (r l : Nat) (x : Word32) : (g.setV r l x).implicit = g.implicit := rfl
@[simp] theorem Group.setV_s (g : Group) (r l : Nat) (x : Word32) : (g.setV r l x).s = g.s := rfl
@[simp] theorem Group.setV_q (g : Group) (r l : Nat) (x : Word32) : (g.setV r l x).q = g.q := rfl
@[simp] theorem Group.setV_n (g : Group) (r l : Nat) (x : Word32) : (g.setV r l x).n = g.n := rfl
@[simp] theorem Group.setV_p (g : Group) (r l : Nat) (x : Word32) : (g.setV r l x).p = g.p := rfl
@[simp] theorem Group.setV_k (g : Group) (r l : Nat) (x : Word32) : (g.setV r l x).k = g.k := rfl
@[simp] theorem Group.setV_x (g : Group) (r l : Nat) (x : Word32) : (g.setV r l x).x = g.x := rfl
@[simp] theorem Group.setV_a (g : Group) (r l : Nat) (x : Word32) : (g.setV r l x).a = g.a := rfl
@[simp] theorem Group.setV_c (g : Group) (r l : Nat) (x : Word32) : (g.setV r l x).c = g.c := rfl
@[simp] theorem Group.setV_h (g : Group) (r l : Nat) (x : Word32) : (g.setV r l x).h = g.h := rfl
@[simp] theorem Group.setV_m (g : Group) (r l : Nat) (x : Word32) : (g.setV r l x).m = g.m := rfl
@[simp] theorem Group.setV_spc (g : Group) (r l : Nat) (x : Word32) : (g.setV r l x).spc = g.spc := rfl
@[simp] theorem Group.setV_ended (g : Group) (r l : Nat) (x : Word32) : (g.setV r l x).ended = g.ended := rfl
@[simp] theorem Group.setV_sentry (g : Group) (r l : Nat) (x : Word32) : (g.setV r l x).sentry = g.sentry := rfl
@[simp] theorem Group.setV_lbase (g : Group) (r l : Nat) (x : Word32) : (g.setV r l x).lbase = g.lbase := rfl
@[simp] theorem Group.setV_hbase (g : Group) (r l : Nat) (x : Word32) : (g.setV r l x).hbase = g.hbase := rfl
@[simp] theorem Group.setV_slots (g : Group) (r l : Nat) (x : Word32) : (g.setV r l x).slots = g.slots := rfl
@[simp] theorem Group.setV_stack (g : Group) (r l : Nat) (x : Word32) : (g.setV r l x).stack = g.stack := rfl
@[simp] theorem Group.setV_cached (g : Group) (r l : Nat) (x : Word32) : (g.setV r l x).cached = g.cached := rfl
@[simp] theorem Group.setV_joins (g : Group) (r l : Nat) (x : Word32) : (g.setV r l x).joins = g.joins := rfl
@[simp] theorem Group.setV_parked (g : Group) (r l : Nat) (x : Word32) : (g.setV r l x).parked = g.parked := rfl
@[simp] theorem Group.setV_exited (g : Group) (r l : Nat) (x : Word32) : (g.setV r l x).exited = g.exited := rfl
@[simp] theorem Group.setV_runs (g : Group) (r l : Nat) (x : Word32) : (g.setV r l x).runs = g.runs := rfl
@[simp] theorem Group.setV_running (g : Group) (r l : Nat) (x : Word32) : (g.setV r l x).running = g.running := rfl
@[simp] theorem Group.setV_entries (g : Group) (r l : Nat) (x : Word32) : (g.setV r l x).entries = g.entries := rfl
@[simp] theorem Group.setV_inflight (g : Group) (r l : Nat) (x : Word32) : (g.setV r l x).inflight = g.inflight := rfl
@[simp] theorem Group.setV_redo (g : Group) (r l : Nat) (x : Word32) : (g.setV r l x).redo = g.redo := rfl
@[simp] theorem Group.setV_lastSlot (g : Group) (r l : Nat) (x : Word32) : (g.setV r l x).lastSlot = g.lastSlot := rfl
@[simp] theorem Group.setV_iss (g : Group) (r l : Nat) (x : Word32) : (g.setV r l x).iss = g.iss := rfl
@[simp] theorem Group.setV_rep (g : Group) (r l : Nat) (x : Word32) : (g.setV r l x).rep = g.rep := rfl
@[simp] theorem Group.setV_nextId (g : Group) (r l : Nat) (x : Word32) : (g.setV r l x).nextId = g.nextId := rfl
@[simp] theorem Group.setV_pts (g : Group) (r l : Nat) (x : Word32) : (g.setV r l x).pts = g.pts := rfl
@[simp] theorem Group.setV_lct (g : Group) (r l : Nat) (x : Word32) : (g.setV r l x).lct = g.lct := rfl
@[simp] theorem Group.setV_uac (g : Group) (r l : Nat) (x : Word32) : (g.setV r l x).uac = g.uac := rfl
@[simp] theorem Group.setV_cvm (g : Group) (r l : Nat) (x : Word32) : (g.setV r l x).cvm = g.cvm := rfl
@[simp] theorem Group.setV_xf (g : Group) (r l : Nat) (x : Word32) : (g.setV r l x).xf = g.xf := rfl
@[simp] theorem Group.setV_xe (g : Group) (r l : Nat) (x : Word32) : (g.setV r l x).xe = g.xe := rfl
@[simp] theorem Group.setV_gstat (g : Group) (r l : Nat) (x : Word32) : (g.setV r l x).gstat = g.gstat := rfl
@[simp] theorem Group.setV_fmask (g : Group) (r l : Nat) (x : Word32) : (g.setV r l x).fmask = g.fmask := rfl
@[simp] theorem Group.setV_rc (g : Group) (r l : Nat) (x : Word32) : (g.setV r l x).rc = g.rc := rfl
@[simp] theorem Group.setV_rip (g : Group) (r l : Nat) (x : Word32) : (g.setV r l x).rip = g.rip := rfl
@[simp] theorem Group.setV_rgid (g : Group) (r l : Nat) (x : Word32) : (g.setV r l x).rgid = g.rgid := rfl
@[simp] theorem Group.setV_rgst (g : Group) (r l : Nat) (x : Word32) : (g.setV r l x).rgst = g.rgst := rfl
@[simp] theorem Group.setV_rgpred (g : Group) (r l : Nat) (x : Word32) : (g.setV r l x).rgpred = g.rgpred := rfl
@[simp] theorem Group.setV_rgAbort (g : Group) (r l : Nat) (x : Word32) : (g.setV r l x).rgAbort = g.rgAbort := rfl
@[simp] theorem Group.setV_fcause (g : Group) (r l : Nat) (x : Word32) : (g.setV r l x).fcause = g.fcause := rfl
@[simp] theorem Group.setV_fpc (g : Group) (r l : Nat) (x : Word32) : (g.setV r l x).fpc = g.fpc := rfl
@[simp] theorem Group.setV_finfo (g : Group) (r l : Nat) (x : Word32) : (g.setV r l x).finfo = g.finfo := rfl
@[simp] theorem Group.setV_finfoMask (g : Group) (r l : Nat) (x : Word32) : (g.setV r l x).finfoMask = g.finfoMask := rfl
@[simp] theorem Group.setV_faddr (g : Group) (r l : Nat) (x : Word32) : (g.setV r l x).faddr = g.faddr := rfl
@[simp] theorem Group.setV_hmask (g : Group) (r l : Nat) (x : Word32) : (g.setV r l x).hmask = g.hmask := rfl
@[simp] theorem Group.setV_hrpc (g : Group) (r l : Nat) (x : Word32) : (g.setV r l x).hrpc = g.hrpc := rfl
@[simp] theorem Group.setV_watch0 (g : Group) (r l : Nat) (x : Word32) : (g.setV r l x).watch0 = g.watch0 := rfl
@[simp] theorem Group.setV_watch1 (g : Group) (r l : Nat) (x : Word32) : (g.setV r l x).watch1 = g.watch1 := rfl
@[simp] theorem Group.setV_hmode (g : Group) (r l : Nat) (x : Word32) : (g.setV r l x).hmode = g.hmode := rfl
@[simp] theorem Group.setV_frame (g : Group) (r l : Nat) (x : Word32) : (g.setV r l x).frame = g.frame := rfl
@[simp] theorem Group.setV_pending (g : Group) (r l : Nat) (x : Word32) : (g.setV r l x).pending = g.pending := rfl
@[simp] theorem Group.setV_lost (g : Group) (r l : Nat) (x : Word32) : (g.setV r l x).lost = g.lost := rfl
@[simp] theorem Group.setV_stopped (g : Group) (r l : Nat) (x : Word32) : (g.setV r l x).stopped = g.stopped := rfl
@[simp] theorem Group.setV_noWatch (g : Group) (r l : Nat) (x : Word32) : (g.setV r l x).noWatch = g.noWatch := rfl
@[simp] theorem Group.setV_noWatchLane (g : Group) (r l : Nat) (x : Word32) : (g.setV r l x).noWatchLane = g.noWatchLane := rfl
@[simp] theorem Group.setV_batches (g : Group) (r l : Nat) (x : Word32) : (g.setV r l x).batches = g.batches := rfl
@[simp] theorem Group.setV_closedBatches (g : Group) (r l : Nat) (x : Word32) : (g.setV r l x).closedBatches = g.closedBatches := rfl
@[simp] theorem Group.setV_work (g : Group) (r l : Nat) (x : Word32) : (g.setV r l x).work = g.work := rfl
@[simp] theorem Group.setV_sb (g : Group) (r l : Nat) (x : Word32) : (g.setV r l x).sb = g.sb := rfl
@[simp] theorem Group.setV_wait (g : Group) (r l : Nat) (x : Word32) : (g.setV r l x).wait = g.wait := rfl
@[simp] theorem Group.setV_regroupAt (g : Group) (r l : Nat) (x : Word32) : (g.setV r l x).regroupAt = g.regroupAt := rfl
@[simp] theorem Group.setV_scalarIssued (g : Group) (r l : Nat) (x : Word32) : (g.setV r l x).scalarIssued = g.scalarIssued := rfl
@[simp] theorem Group.setV_laneIssued (g : Group) (r l : Nat) (x : Word32) : (g.setV r l x).laneIssued = g.laneIssued := rfl
@[simp] theorem Group.setV_readySince (g : Group) (r l : Nat) (x : Word32) : (g.setV r l x).readySince = g.readySince := rfl
@[simp] theorem Group.setV_scalarSince (g : Group) (r l : Nat) (x : Word32) : (g.setV r l x).scalarSince = g.scalarSince := rfl
@[simp] theorem Group.setV_starved (g : Group) (r l : Nat) (x : Word32) : (g.setV r l x).starved = g.starved := rfl
@[simp] theorem Group.setV_scalarStarved (g : Group) (r l : Nat) (x : Word32) : (g.setV r l x).scalarStarved = g.scalarStarved := rfl
@[simp] theorem Group.setV_halted (g : Group) (r l : Nat) (x : Word32) : (g.setV r l x).halted = g.halted := rfl
@[simp] theorem Group.setV_paused (g : Group) (r l : Nat) (x : Word32) : (g.setV r l x).paused = g.paused := rfl
@[simp] theorem Group.setV_tickBase (g : Group) (r l : Nat) (x : Word32) : (g.setV r l x).tickBase = g.tickBase := rfl
@[simp] theorem Group.setQ_present (g : Group) (r l i : Nat) (x : Word32) : (g.setQ r l i x).present = g.present := rfl
@[simp] theorem Group.setQ_tag (g : Group) (r l i : Nat) (x : Word32) : (g.setQ r l i x).tag = g.tag := rfl
@[simp] theorem Group.setQ_state (g : Group) (r l i : Nat) (x : Word32) : (g.setQ r l i x).state = g.state := rfl
@[simp] theorem Group.setQ_die (g : Group) (r l i : Nat) (x : Word32) : (g.setQ r l i x).die = g.die := rfl
@[simp] theorem Group.setQ_quad (g : Group) (r l i : Nat) (x : Word32) : (g.setQ r l i x).quad = g.quad := rfl
@[simp] theorem Group.setQ_core (g : Group) (r l i : Nat) (x : Word32) : (g.setQ r l i x).core = g.core := rfl
@[simp] theorem Group.setQ_slot (g : Group) (r l i : Nat) (x : Word32) : (g.setQ r l i x).slot = g.slot := rfl
@[simp] theorem Group.setQ_laneBase (g : Group) (r l i : Nat) (x : Word32) : (g.setQ r l i x).laneBase = g.laneBase := rfl
@[simp] theorem Group.setQ_width (g : Group) (r l i : Nat) (x : Word32) : (g.setQ r l i x).width = g.width := rfl
@[simp] theorem Group.setQ_sAllot (g : Group) (r l i : Nat) (x : Word32) : (g.setQ r l i x).sAllot = g.sAllot := rfl
@[simp] theorem Group.setQ_vAllot (g : Group) (r l i : Nat) (x : Word32) : (g.setQ r l i x).vAllot = g.vAllot := rfl
@[simp] theorem Group.setQ_qAllot (g : Group) (r l i : Nat) (x : Word32) : (g.setQ r l i x).qAllot = g.qAllot := rfl
@[simp] theorem Group.setQ_hAllot (g : Group) (r l i : Nat) (x : Word32) : (g.setQ r l i x).hAllot = g.hAllot := rfl
@[simp] theorem Group.setQ_prio (g : Group) (r l i : Nat) (x : Word32) : (g.setQ r l i x).prio = g.prio := rfl
@[simp] theorem Group.setQ_asn (g : Group) (r l i : Nat) (x : Word32) : (g.setQ r l i x).asn = g.asn := rfl
@[simp] theorem Group.setQ_launch (g : Group) (r l i : Nat) (x : Word32) : (g.setQ r l i x).launch = g.launch := rfl
@[simp] theorem Group.setQ_caravan (g : Group) (r l i : Nat) (x : Word32) : (g.setQ r l i x).caravan = g.caravan := rfl
@[simp] theorem Group.setQ_wg (g : Group) (r l i : Nat) (x : Word32) : (g.setQ r l i x).wg = g.wg := rfl
@[simp] theorem Group.setQ_gidx (g : Group) (r l i : Nat) (x : Word32) : (g.setQ r l i x).gidx = g.gidx := rfl
@[simp] theorem Group.setQ_implicit (g : Group) (r l i : Nat) (x : Word32) : (g.setQ r l i x).implicit = g.implicit := rfl
@[simp] theorem Group.setQ_s (g : Group) (r l i : Nat) (x : Word32) : (g.setQ r l i x).s = g.s := rfl
@[simp] theorem Group.setQ_v (g : Group) (r l i : Nat) (x : Word32) : (g.setQ r l i x).v = g.v := rfl
@[simp] theorem Group.setQ_n (g : Group) (r l i : Nat) (x : Word32) : (g.setQ r l i x).n = g.n := rfl
@[simp] theorem Group.setQ_p (g : Group) (r l i : Nat) (x : Word32) : (g.setQ r l i x).p = g.p := rfl
@[simp] theorem Group.setQ_k (g : Group) (r l i : Nat) (x : Word32) : (g.setQ r l i x).k = g.k := rfl
@[simp] theorem Group.setQ_x (g : Group) (r l i : Nat) (x : Word32) : (g.setQ r l i x).x = g.x := rfl
@[simp] theorem Group.setQ_a (g : Group) (r l i : Nat) (x : Word32) : (g.setQ r l i x).a = g.a := rfl
@[simp] theorem Group.setQ_c (g : Group) (r l i : Nat) (x : Word32) : (g.setQ r l i x).c = g.c := rfl
@[simp] theorem Group.setQ_h (g : Group) (r l i : Nat) (x : Word32) : (g.setQ r l i x).h = g.h := rfl
@[simp] theorem Group.setQ_m (g : Group) (r l i : Nat) (x : Word32) : (g.setQ r l i x).m = g.m := rfl
@[simp] theorem Group.setQ_spc (g : Group) (r l i : Nat) (x : Word32) : (g.setQ r l i x).spc = g.spc := rfl
@[simp] theorem Group.setQ_ended (g : Group) (r l i : Nat) (x : Word32) : (g.setQ r l i x).ended = g.ended := rfl
@[simp] theorem Group.setQ_sentry (g : Group) (r l i : Nat) (x : Word32) : (g.setQ r l i x).sentry = g.sentry := rfl
@[simp] theorem Group.setQ_lbase (g : Group) (r l i : Nat) (x : Word32) : (g.setQ r l i x).lbase = g.lbase := rfl
@[simp] theorem Group.setQ_hbase (g : Group) (r l i : Nat) (x : Word32) : (g.setQ r l i x).hbase = g.hbase := rfl
@[simp] theorem Group.setQ_slots (g : Group) (r l i : Nat) (x : Word32) : (g.setQ r l i x).slots = g.slots := rfl
@[simp] theorem Group.setQ_stack (g : Group) (r l i : Nat) (x : Word32) : (g.setQ r l i x).stack = g.stack := rfl
@[simp] theorem Group.setQ_cached (g : Group) (r l i : Nat) (x : Word32) : (g.setQ r l i x).cached = g.cached := rfl
@[simp] theorem Group.setQ_joins (g : Group) (r l i : Nat) (x : Word32) : (g.setQ r l i x).joins = g.joins := rfl
@[simp] theorem Group.setQ_parked (g : Group) (r l i : Nat) (x : Word32) : (g.setQ r l i x).parked = g.parked := rfl
@[simp] theorem Group.setQ_exited (g : Group) (r l i : Nat) (x : Word32) : (g.setQ r l i x).exited = g.exited := rfl
@[simp] theorem Group.setQ_runs (g : Group) (r l i : Nat) (x : Word32) : (g.setQ r l i x).runs = g.runs := rfl
@[simp] theorem Group.setQ_running (g : Group) (r l i : Nat) (x : Word32) : (g.setQ r l i x).running = g.running := rfl
@[simp] theorem Group.setQ_entries (g : Group) (r l i : Nat) (x : Word32) : (g.setQ r l i x).entries = g.entries := rfl
@[simp] theorem Group.setQ_inflight (g : Group) (r l i : Nat) (x : Word32) : (g.setQ r l i x).inflight = g.inflight := rfl
@[simp] theorem Group.setQ_redo (g : Group) (r l i : Nat) (x : Word32) : (g.setQ r l i x).redo = g.redo := rfl
@[simp] theorem Group.setQ_lastSlot (g : Group) (r l i : Nat) (x : Word32) : (g.setQ r l i x).lastSlot = g.lastSlot := rfl
@[simp] theorem Group.setQ_iss (g : Group) (r l i : Nat) (x : Word32) : (g.setQ r l i x).iss = g.iss := rfl
@[simp] theorem Group.setQ_rep (g : Group) (r l i : Nat) (x : Word32) : (g.setQ r l i x).rep = g.rep := rfl
@[simp] theorem Group.setQ_nextId (g : Group) (r l i : Nat) (x : Word32) : (g.setQ r l i x).nextId = g.nextId := rfl
@[simp] theorem Group.setQ_pts (g : Group) (r l i : Nat) (x : Word32) : (g.setQ r l i x).pts = g.pts := rfl
@[simp] theorem Group.setQ_lct (g : Group) (r l i : Nat) (x : Word32) : (g.setQ r l i x).lct = g.lct := rfl
@[simp] theorem Group.setQ_uac (g : Group) (r l i : Nat) (x : Word32) : (g.setQ r l i x).uac = g.uac := rfl
@[simp] theorem Group.setQ_cvm (g : Group) (r l i : Nat) (x : Word32) : (g.setQ r l i x).cvm = g.cvm := rfl
@[simp] theorem Group.setQ_xf (g : Group) (r l i : Nat) (x : Word32) : (g.setQ r l i x).xf = g.xf := rfl
@[simp] theorem Group.setQ_xe (g : Group) (r l i : Nat) (x : Word32) : (g.setQ r l i x).xe = g.xe := rfl
@[simp] theorem Group.setQ_gstat (g : Group) (r l i : Nat) (x : Word32) : (g.setQ r l i x).gstat = g.gstat := rfl
@[simp] theorem Group.setQ_fmask (g : Group) (r l i : Nat) (x : Word32) : (g.setQ r l i x).fmask = g.fmask := rfl
@[simp] theorem Group.setQ_rc (g : Group) (r l i : Nat) (x : Word32) : (g.setQ r l i x).rc = g.rc := rfl
@[simp] theorem Group.setQ_rip (g : Group) (r l i : Nat) (x : Word32) : (g.setQ r l i x).rip = g.rip := rfl
@[simp] theorem Group.setQ_rgid (g : Group) (r l i : Nat) (x : Word32) : (g.setQ r l i x).rgid = g.rgid := rfl
@[simp] theorem Group.setQ_rgst (g : Group) (r l i : Nat) (x : Word32) : (g.setQ r l i x).rgst = g.rgst := rfl
@[simp] theorem Group.setQ_rgpred (g : Group) (r l i : Nat) (x : Word32) : (g.setQ r l i x).rgpred = g.rgpred := rfl
@[simp] theorem Group.setQ_rgAbort (g : Group) (r l i : Nat) (x : Word32) : (g.setQ r l i x).rgAbort = g.rgAbort := rfl
@[simp] theorem Group.setQ_fcause (g : Group) (r l i : Nat) (x : Word32) : (g.setQ r l i x).fcause = g.fcause := rfl
@[simp] theorem Group.setQ_fpc (g : Group) (r l i : Nat) (x : Word32) : (g.setQ r l i x).fpc = g.fpc := rfl
@[simp] theorem Group.setQ_finfo (g : Group) (r l i : Nat) (x : Word32) : (g.setQ r l i x).finfo = g.finfo := rfl
@[simp] theorem Group.setQ_finfoMask (g : Group) (r l i : Nat) (x : Word32) : (g.setQ r l i x).finfoMask = g.finfoMask := rfl
@[simp] theorem Group.setQ_faddr (g : Group) (r l i : Nat) (x : Word32) : (g.setQ r l i x).faddr = g.faddr := rfl
@[simp] theorem Group.setQ_hmask (g : Group) (r l i : Nat) (x : Word32) : (g.setQ r l i x).hmask = g.hmask := rfl
@[simp] theorem Group.setQ_hrpc (g : Group) (r l i : Nat) (x : Word32) : (g.setQ r l i x).hrpc = g.hrpc := rfl
@[simp] theorem Group.setQ_watch0 (g : Group) (r l i : Nat) (x : Word32) : (g.setQ r l i x).watch0 = g.watch0 := rfl
@[simp] theorem Group.setQ_watch1 (g : Group) (r l i : Nat) (x : Word32) : (g.setQ r l i x).watch1 = g.watch1 := rfl
@[simp] theorem Group.setQ_hmode (g : Group) (r l i : Nat) (x : Word32) : (g.setQ r l i x).hmode = g.hmode := rfl
@[simp] theorem Group.setQ_frame (g : Group) (r l i : Nat) (x : Word32) : (g.setQ r l i x).frame = g.frame := rfl
@[simp] theorem Group.setQ_pending (g : Group) (r l i : Nat) (x : Word32) : (g.setQ r l i x).pending = g.pending := rfl
@[simp] theorem Group.setQ_lost (g : Group) (r l i : Nat) (x : Word32) : (g.setQ r l i x).lost = g.lost := rfl
@[simp] theorem Group.setQ_stopped (g : Group) (r l i : Nat) (x : Word32) : (g.setQ r l i x).stopped = g.stopped := rfl
@[simp] theorem Group.setQ_noWatch (g : Group) (r l i : Nat) (x : Word32) : (g.setQ r l i x).noWatch = g.noWatch := rfl
@[simp] theorem Group.setQ_noWatchLane (g : Group) (r l i : Nat) (x : Word32) : (g.setQ r l i x).noWatchLane = g.noWatchLane := rfl
@[simp] theorem Group.setQ_batches (g : Group) (r l i : Nat) (x : Word32) : (g.setQ r l i x).batches = g.batches := rfl
@[simp] theorem Group.setQ_closedBatches (g : Group) (r l i : Nat) (x : Word32) : (g.setQ r l i x).closedBatches = g.closedBatches := rfl
@[simp] theorem Group.setQ_work (g : Group) (r l i : Nat) (x : Word32) : (g.setQ r l i x).work = g.work := rfl
@[simp] theorem Group.setQ_sb (g : Group) (r l i : Nat) (x : Word32) : (g.setQ r l i x).sb = g.sb := rfl
@[simp] theorem Group.setQ_wait (g : Group) (r l i : Nat) (x : Word32) : (g.setQ r l i x).wait = g.wait := rfl
@[simp] theorem Group.setQ_regroupAt (g : Group) (r l i : Nat) (x : Word32) : (g.setQ r l i x).regroupAt = g.regroupAt := rfl
@[simp] theorem Group.setQ_scalarIssued (g : Group) (r l i : Nat) (x : Word32) : (g.setQ r l i x).scalarIssued = g.scalarIssued := rfl
@[simp] theorem Group.setQ_laneIssued (g : Group) (r l i : Nat) (x : Word32) : (g.setQ r l i x).laneIssued = g.laneIssued := rfl
@[simp] theorem Group.setQ_readySince (g : Group) (r l i : Nat) (x : Word32) : (g.setQ r l i x).readySince = g.readySince := rfl
@[simp] theorem Group.setQ_scalarSince (g : Group) (r l i : Nat) (x : Word32) : (g.setQ r l i x).scalarSince = g.scalarSince := rfl
@[simp] theorem Group.setQ_starved (g : Group) (r l i : Nat) (x : Word32) : (g.setQ r l i x).starved = g.starved := rfl
@[simp] theorem Group.setQ_scalarStarved (g : Group) (r l i : Nat) (x : Word32) : (g.setQ r l i x).scalarStarved = g.scalarStarved := rfl
@[simp] theorem Group.setQ_halted (g : Group) (r l i : Nat) (x : Word32) : (g.setQ r l i x).halted = g.halted := rfl
@[simp] theorem Group.setQ_paused (g : Group) (r l i : Nat) (x : Word32) : (g.setQ r l i x).paused = g.paused := rfl
@[simp] theorem Group.setQ_tickBase (g : Group) (r l i : Nat) (x : Word32) : (g.setQ r l i x).tickBase = g.tickBase := rfl
@[simp] theorem Group.setP_present (g : Group) (r : BitVec 3) (m x : Mask) : (g.setP r m x).present = g.present := by
  unfold Group.setP; split <;> rfl
@[simp] theorem Group.setP_tag (g : Group) (r : BitVec 3) (m x : Mask) : (g.setP r m x).tag = g.tag := by
  unfold Group.setP; split <;> rfl
@[simp] theorem Group.setP_state (g : Group) (r : BitVec 3) (m x : Mask) : (g.setP r m x).state = g.state := by
  unfold Group.setP; split <;> rfl
@[simp] theorem Group.setP_die (g : Group) (r : BitVec 3) (m x : Mask) : (g.setP r m x).die = g.die := by
  unfold Group.setP; split <;> rfl
@[simp] theorem Group.setP_quad (g : Group) (r : BitVec 3) (m x : Mask) : (g.setP r m x).quad = g.quad := by
  unfold Group.setP; split <;> rfl
@[simp] theorem Group.setP_core (g : Group) (r : BitVec 3) (m x : Mask) : (g.setP r m x).core = g.core := by
  unfold Group.setP; split <;> rfl
@[simp] theorem Group.setP_slot (g : Group) (r : BitVec 3) (m x : Mask) : (g.setP r m x).slot = g.slot := by
  unfold Group.setP; split <;> rfl
@[simp] theorem Group.setP_laneBase (g : Group) (r : BitVec 3) (m x : Mask) : (g.setP r m x).laneBase = g.laneBase := by
  unfold Group.setP; split <;> rfl
@[simp] theorem Group.setP_width (g : Group) (r : BitVec 3) (m x : Mask) : (g.setP r m x).width = g.width := by
  unfold Group.setP; split <;> rfl
@[simp] theorem Group.setP_sAllot (g : Group) (r : BitVec 3) (m x : Mask) : (g.setP r m x).sAllot = g.sAllot := by
  unfold Group.setP; split <;> rfl
@[simp] theorem Group.setP_vAllot (g : Group) (r : BitVec 3) (m x : Mask) : (g.setP r m x).vAllot = g.vAllot := by
  unfold Group.setP; split <;> rfl
@[simp] theorem Group.setP_qAllot (g : Group) (r : BitVec 3) (m x : Mask) : (g.setP r m x).qAllot = g.qAllot := by
  unfold Group.setP; split <;> rfl
@[simp] theorem Group.setP_hAllot (g : Group) (r : BitVec 3) (m x : Mask) : (g.setP r m x).hAllot = g.hAllot := by
  unfold Group.setP; split <;> rfl
@[simp] theorem Group.setP_prio (g : Group) (r : BitVec 3) (m x : Mask) : (g.setP r m x).prio = g.prio := by
  unfold Group.setP; split <;> rfl
@[simp] theorem Group.setP_asn (g : Group) (r : BitVec 3) (m x : Mask) : (g.setP r m x).asn = g.asn := by
  unfold Group.setP; split <;> rfl
@[simp] theorem Group.setP_launch (g : Group) (r : BitVec 3) (m x : Mask) : (g.setP r m x).launch = g.launch := by
  unfold Group.setP; split <;> rfl
@[simp] theorem Group.setP_caravan (g : Group) (r : BitVec 3) (m x : Mask) : (g.setP r m x).caravan = g.caravan := by
  unfold Group.setP; split <;> rfl
@[simp] theorem Group.setP_wg (g : Group) (r : BitVec 3) (m x : Mask) : (g.setP r m x).wg = g.wg := by
  unfold Group.setP; split <;> rfl
@[simp] theorem Group.setP_gidx (g : Group) (r : BitVec 3) (m x : Mask) : (g.setP r m x).gidx = g.gidx := by
  unfold Group.setP; split <;> rfl
@[simp] theorem Group.setP_implicit (g : Group) (r : BitVec 3) (m x : Mask) : (g.setP r m x).implicit = g.implicit := by
  unfold Group.setP; split <;> rfl
@[simp] theorem Group.setP_s (g : Group) (r : BitVec 3) (m x : Mask) : (g.setP r m x).s = g.s := by
  unfold Group.setP; split <;> rfl
@[simp] theorem Group.setP_v (g : Group) (r : BitVec 3) (m x : Mask) : (g.setP r m x).v = g.v := by
  unfold Group.setP; split <;> rfl
@[simp] theorem Group.setP_q (g : Group) (r : BitVec 3) (m x : Mask) : (g.setP r m x).q = g.q := by
  unfold Group.setP; split <;> rfl
@[simp] theorem Group.setP_n (g : Group) (r : BitVec 3) (m x : Mask) : (g.setP r m x).n = g.n := by
  unfold Group.setP; split <;> rfl
@[simp] theorem Group.setP_k (g : Group) (r : BitVec 3) (m x : Mask) : (g.setP r m x).k = g.k := by
  unfold Group.setP; split <;> rfl
@[simp] theorem Group.setP_x (g : Group) (r : BitVec 3) (m x : Mask) : (g.setP r m x).x = g.x := by
  unfold Group.setP; split <;> rfl
@[simp] theorem Group.setP_a (g : Group) (r : BitVec 3) (m x : Mask) : (g.setP r m x).a = g.a := by
  unfold Group.setP; split <;> rfl
@[simp] theorem Group.setP_c (g : Group) (r : BitVec 3) (m x : Mask) : (g.setP r m x).c = g.c := by
  unfold Group.setP; split <;> rfl
@[simp] theorem Group.setP_h (g : Group) (r : BitVec 3) (m x : Mask) : (g.setP r m x).h = g.h := by
  unfold Group.setP; split <;> rfl
@[simp] theorem Group.setP_m (g : Group) (r : BitVec 3) (m x : Mask) : (g.setP r m x).m = g.m := by
  unfold Group.setP; split <;> rfl
@[simp] theorem Group.setP_spc (g : Group) (r : BitVec 3) (m x : Mask) : (g.setP r m x).spc = g.spc := by
  unfold Group.setP; split <;> rfl
@[simp] theorem Group.setP_ended (g : Group) (r : BitVec 3) (m x : Mask) : (g.setP r m x).ended = g.ended := by
  unfold Group.setP; split <;> rfl
@[simp] theorem Group.setP_sentry (g : Group) (r : BitVec 3) (m x : Mask) : (g.setP r m x).sentry = g.sentry := by
  unfold Group.setP; split <;> rfl
@[simp] theorem Group.setP_lbase (g : Group) (r : BitVec 3) (m x : Mask) : (g.setP r m x).lbase = g.lbase := by
  unfold Group.setP; split <;> rfl
@[simp] theorem Group.setP_hbase (g : Group) (r : BitVec 3) (m x : Mask) : (g.setP r m x).hbase = g.hbase := by
  unfold Group.setP; split <;> rfl
@[simp] theorem Group.setP_slots (g : Group) (r : BitVec 3) (m x : Mask) : (g.setP r m x).slots = g.slots := by
  unfold Group.setP; split <;> rfl
@[simp] theorem Group.setP_stack (g : Group) (r : BitVec 3) (m x : Mask) : (g.setP r m x).stack = g.stack := by
  unfold Group.setP; split <;> rfl
@[simp] theorem Group.setP_cached (g : Group) (r : BitVec 3) (m x : Mask) : (g.setP r m x).cached = g.cached := by
  unfold Group.setP; split <;> rfl
@[simp] theorem Group.setP_joins (g : Group) (r : BitVec 3) (m x : Mask) : (g.setP r m x).joins = g.joins := by
  unfold Group.setP; split <;> rfl
@[simp] theorem Group.setP_parked (g : Group) (r : BitVec 3) (m x : Mask) : (g.setP r m x).parked = g.parked := by
  unfold Group.setP; split <;> rfl
@[simp] theorem Group.setP_exited (g : Group) (r : BitVec 3) (m x : Mask) : (g.setP r m x).exited = g.exited := by
  unfold Group.setP; split <;> rfl
@[simp] theorem Group.setP_runs (g : Group) (r : BitVec 3) (m x : Mask) : (g.setP r m x).runs = g.runs := by
  unfold Group.setP; split <;> rfl
@[simp] theorem Group.setP_running (g : Group) (r : BitVec 3) (m x : Mask) : (g.setP r m x).running = g.running := by
  unfold Group.setP; split <;> rfl
@[simp] theorem Group.setP_entries (g : Group) (r : BitVec 3) (m x : Mask) : (g.setP r m x).entries = g.entries := by
  unfold Group.setP; split <;> rfl
@[simp] theorem Group.setP_inflight (g : Group) (r : BitVec 3) (m x : Mask) : (g.setP r m x).inflight = g.inflight := by
  unfold Group.setP; split <;> rfl
@[simp] theorem Group.setP_redo (g : Group) (r : BitVec 3) (m x : Mask) : (g.setP r m x).redo = g.redo := by
  unfold Group.setP; split <;> rfl
@[simp] theorem Group.setP_lastSlot (g : Group) (r : BitVec 3) (m x : Mask) : (g.setP r m x).lastSlot = g.lastSlot := by
  unfold Group.setP; split <;> rfl
@[simp] theorem Group.setP_iss (g : Group) (r : BitVec 3) (m x : Mask) : (g.setP r m x).iss = g.iss := by
  unfold Group.setP; split <;> rfl
@[simp] theorem Group.setP_rep (g : Group) (r : BitVec 3) (m x : Mask) : (g.setP r m x).rep = g.rep := by
  unfold Group.setP; split <;> rfl
@[simp] theorem Group.setP_nextId (g : Group) (r : BitVec 3) (m x : Mask) : (g.setP r m x).nextId = g.nextId := by
  unfold Group.setP; split <;> rfl
@[simp] theorem Group.setP_pts (g : Group) (r : BitVec 3) (m x : Mask) : (g.setP r m x).pts = g.pts := by
  unfold Group.setP; split <;> rfl
@[simp] theorem Group.setP_lct (g : Group) (r : BitVec 3) (m x : Mask) : (g.setP r m x).lct = g.lct := by
  unfold Group.setP; split <;> rfl
@[simp] theorem Group.setP_uac (g : Group) (r : BitVec 3) (m x : Mask) : (g.setP r m x).uac = g.uac := by
  unfold Group.setP; split <;> rfl
@[simp] theorem Group.setP_cvm (g : Group) (r : BitVec 3) (m x : Mask) : (g.setP r m x).cvm = g.cvm := by
  unfold Group.setP; split <;> rfl
@[simp] theorem Group.setP_xf (g : Group) (r : BitVec 3) (m x : Mask) : (g.setP r m x).xf = g.xf := by
  unfold Group.setP; split <;> rfl
@[simp] theorem Group.setP_xe (g : Group) (r : BitVec 3) (m x : Mask) : (g.setP r m x).xe = g.xe := by
  unfold Group.setP; split <;> rfl
@[simp] theorem Group.setP_gstat (g : Group) (r : BitVec 3) (m x : Mask) : (g.setP r m x).gstat = g.gstat := by
  unfold Group.setP; split <;> rfl
@[simp] theorem Group.setP_fmask (g : Group) (r : BitVec 3) (m x : Mask) : (g.setP r m x).fmask = g.fmask := by
  unfold Group.setP; split <;> rfl
@[simp] theorem Group.setP_rc (g : Group) (r : BitVec 3) (m x : Mask) : (g.setP r m x).rc = g.rc := by
  unfold Group.setP; split <;> rfl
@[simp] theorem Group.setP_rip (g : Group) (r : BitVec 3) (m x : Mask) : (g.setP r m x).rip = g.rip := by
  unfold Group.setP; split <;> rfl
@[simp] theorem Group.setP_rgid (g : Group) (r : BitVec 3) (m x : Mask) : (g.setP r m x).rgid = g.rgid := by
  unfold Group.setP; split <;> rfl
@[simp] theorem Group.setP_rgst (g : Group) (r : BitVec 3) (m x : Mask) : (g.setP r m x).rgst = g.rgst := by
  unfold Group.setP; split <;> rfl
@[simp] theorem Group.setP_rgpred (g : Group) (r : BitVec 3) (m x : Mask) : (g.setP r m x).rgpred = g.rgpred := by
  unfold Group.setP; split <;> rfl
@[simp] theorem Group.setP_rgAbort (g : Group) (r : BitVec 3) (m x : Mask) : (g.setP r m x).rgAbort = g.rgAbort := by
  unfold Group.setP; split <;> rfl
@[simp] theorem Group.setP_fcause (g : Group) (r : BitVec 3) (m x : Mask) : (g.setP r m x).fcause = g.fcause := by
  unfold Group.setP; split <;> rfl
@[simp] theorem Group.setP_fpc (g : Group) (r : BitVec 3) (m x : Mask) : (g.setP r m x).fpc = g.fpc := by
  unfold Group.setP; split <;> rfl
@[simp] theorem Group.setP_finfo (g : Group) (r : BitVec 3) (m x : Mask) : (g.setP r m x).finfo = g.finfo := by
  unfold Group.setP; split <;> rfl
@[simp] theorem Group.setP_finfoMask (g : Group) (r : BitVec 3) (m x : Mask) : (g.setP r m x).finfoMask = g.finfoMask := by
  unfold Group.setP; split <;> rfl
@[simp] theorem Group.setP_faddr (g : Group) (r : BitVec 3) (m x : Mask) : (g.setP r m x).faddr = g.faddr := by
  unfold Group.setP; split <;> rfl
@[simp] theorem Group.setP_hmask (g : Group) (r : BitVec 3) (m x : Mask) : (g.setP r m x).hmask = g.hmask := by
  unfold Group.setP; split <;> rfl
@[simp] theorem Group.setP_hrpc (g : Group) (r : BitVec 3) (m x : Mask) : (g.setP r m x).hrpc = g.hrpc := by
  unfold Group.setP; split <;> rfl
@[simp] theorem Group.setP_watch0 (g : Group) (r : BitVec 3) (m x : Mask) : (g.setP r m x).watch0 = g.watch0 := by
  unfold Group.setP; split <;> rfl
@[simp] theorem Group.setP_watch1 (g : Group) (r : BitVec 3) (m x : Mask) : (g.setP r m x).watch1 = g.watch1 := by
  unfold Group.setP; split <;> rfl
@[simp] theorem Group.setP_hmode (g : Group) (r : BitVec 3) (m x : Mask) : (g.setP r m x).hmode = g.hmode := by
  unfold Group.setP; split <;> rfl
@[simp] theorem Group.setP_frame (g : Group) (r : BitVec 3) (m x : Mask) : (g.setP r m x).frame = g.frame := by
  unfold Group.setP; split <;> rfl
@[simp] theorem Group.setP_pending (g : Group) (r : BitVec 3) (m x : Mask) : (g.setP r m x).pending = g.pending := by
  unfold Group.setP; split <;> rfl
@[simp] theorem Group.setP_lost (g : Group) (r : BitVec 3) (m x : Mask) : (g.setP r m x).lost = g.lost := by
  unfold Group.setP; split <;> rfl
@[simp] theorem Group.setP_stopped (g : Group) (r : BitVec 3) (m x : Mask) : (g.setP r m x).stopped = g.stopped := by
  unfold Group.setP; split <;> rfl
@[simp] theorem Group.setP_noWatch (g : Group) (r : BitVec 3) (m x : Mask) : (g.setP r m x).noWatch = g.noWatch := by
  unfold Group.setP; split <;> rfl
@[simp] theorem Group.setP_noWatchLane (g : Group) (r : BitVec 3) (m x : Mask) : (g.setP r m x).noWatchLane = g.noWatchLane := by
  unfold Group.setP; split <;> rfl
@[simp] theorem Group.setP_batches (g : Group) (r : BitVec 3) (m x : Mask) : (g.setP r m x).batches = g.batches := by
  unfold Group.setP; split <;> rfl
@[simp] theorem Group.setP_closedBatches (g : Group) (r : BitVec 3) (m x : Mask) : (g.setP r m x).closedBatches = g.closedBatches := by
  unfold Group.setP; split <;> rfl
@[simp] theorem Group.setP_work (g : Group) (r : BitVec 3) (m x : Mask) : (g.setP r m x).work = g.work := by
  unfold Group.setP; split <;> rfl
@[simp] theorem Group.setP_sb (g : Group) (r : BitVec 3) (m x : Mask) : (g.setP r m x).sb = g.sb := by
  unfold Group.setP; split <;> rfl
@[simp] theorem Group.setP_wait (g : Group) (r : BitVec 3) (m x : Mask) : (g.setP r m x).wait = g.wait := by
  unfold Group.setP; split <;> rfl
@[simp] theorem Group.setP_regroupAt (g : Group) (r : BitVec 3) (m x : Mask) : (g.setP r m x).regroupAt = g.regroupAt := by
  unfold Group.setP; split <;> rfl
@[simp] theorem Group.setP_scalarIssued (g : Group) (r : BitVec 3) (m x : Mask) : (g.setP r m x).scalarIssued = g.scalarIssued := by
  unfold Group.setP; split <;> rfl
@[simp] theorem Group.setP_laneIssued (g : Group) (r : BitVec 3) (m x : Mask) : (g.setP r m x).laneIssued = g.laneIssued := by
  unfold Group.setP; split <;> rfl
@[simp] theorem Group.setP_readySince (g : Group) (r : BitVec 3) (m x : Mask) : (g.setP r m x).readySince = g.readySince := by
  unfold Group.setP; split <;> rfl
@[simp] theorem Group.setP_scalarSince (g : Group) (r : BitVec 3) (m x : Mask) : (g.setP r m x).scalarSince = g.scalarSince := by
  unfold Group.setP; split <;> rfl
@[simp] theorem Group.setP_starved (g : Group) (r : BitVec 3) (m x : Mask) : (g.setP r m x).starved = g.starved := by
  unfold Group.setP; split <;> rfl
@[simp] theorem Group.setP_scalarStarved (g : Group) (r : BitVec 3) (m x : Mask) : (g.setP r m x).scalarStarved = g.scalarStarved := by
  unfold Group.setP; split <;> rfl
@[simp] theorem Group.setP_halted (g : Group) (r : BitVec 3) (m x : Mask) : (g.setP r m x).halted = g.halted := by
  unfold Group.setP; split <;> rfl
@[simp] theorem Group.setP_paused (g : Group) (r : BitVec 3) (m x : Mask) : (g.setP r m x).paused = g.paused := by
  unfold Group.setP; split <;> rfl
@[simp] theorem Group.setP_tickBase (g : Group) (r : BitVec 3) (m x : Mask) : (g.setP r m x).tickBase = g.tickBase := by
  unfold Group.setP; split <;> rfl

/-! Registers read after they are written -/

/-- s[r] reads what was written (R9). -/
@[simp] theorem Group.sreg_setS_same (g : Group) (r : BitVec 6) (x : Word64) : (g.setS r x).sreg r = x := by
  simp [Group.sreg, Group.setS, r.isLt]

/-- The other s registers keep their values. -/
theorem Group.sreg_setS_other (g : Group) {r r' : BitVec 6} (x : Word64) (h : r' ≠ r) : (g.setS r x).sreg r' = g.sreg r' := by
  have : r.toNat ≠ r'.toNat := fun e => h (BitVec.eq_of_toNat_eq e.symm)
  simp [Group.sreg, Group.setS, Vector.getElem?_setIfInBounds, this]

/-- The scalar pc's advance writes no s register. -/
@[simp] theorem Group.sreg_advance (g : Group) (r : BitVec 6) : g.advance.sreg r = g.sreg r := rfl

/-- Lane `l` of v[r] reads what was written (R9). -/
theorem Group.vreg_setV_same (g : Group) {r l : Nat} (x : Word32) (hr : r < 256) (hl : l < 64) : (g.setV r l x).vreg r l = x := by
  simp [Group.vreg, Group.setV, Vector.getElem?_setIfInBounds, hr, hl]

/-- Every other lane of every v register keeps its value. -/
theorem Group.vreg_setV_other (g : Group) {r l r' l' : Nat} (x : Word32) (h : ¬(r' = r ∧ l' = l)) :
    (g.setV r l x).vreg r' l' = g.vreg r' l' := by
  by_cases hr : r' = r
  · subst hr
    have hl : l ≠ l' := fun e => h ⟨rfl, e.symm⟩
    simp only [Group.vreg, Group.setV, Vector.getElem?_setIfInBounds]
    by_cases hb : r' < 256
    · simp [hb, Vector.getElem?_setIfInBounds, hl]
    · simp [hb]
  · simp [Group.vreg, Group.setV, Vector.getElem?_setIfInBounds, Ne.symm hr]

/-- A write to p0 is discarded (R12). -/
@[simp] theorem Group.setP_zero (g : Group) (m x : Mask) : g.setP 0 m x = g := by simp [Group.setP]

/-- p0 reads all ones over the width (R12). -/
@[simp] theorem Group.preg_zero (g : Group) : g.preg 0 = g.full := by simp [Group.preg]

end Sys2Proof.Machine
end

