-- ==== Sys2Proof/Laws/Lane.lean ====
section
/-! SUPPORT. What the commit of a lane instruction writes, lane by lane and register by register (R202). -/
namespace Sys2Proof.Machine

theorem Mask.mem_lanes {m : Mask} {l : Nat} : l ∈ Mask.lanes m ↔ l < 64 ∧ m.getLsbD l = true := by simp [Mask.lanes]

theorem Mask.lanes_nodup (m : Mask) : (Mask.lanes m).Nodup := List.Pairwise.filter _ List.nodup_range

/-! Writes of v registers -/

/-- Writes keep every register but v. -/
theorem Group.writeV_eq (ws : List VWrite) : ∀ g : Group, ∃ v, ws.foldl (fun (g : Group) w => g.setV w.reg w.lane w.val) g = { g with v := v } := by
  induction ws with
  | nil => exact fun g => ⟨g.v, rfl⟩
  | cons w ws ih => intro g; obtain ⟨v, hv⟩ := ih (g.setV w.reg w.lane w.val); exact ⟨v, hv⟩

/-- A register and lane that no write names keeps its value. -/
theorem Group.writeV_other {r l : Nat} : ∀ (ws : List VWrite) (g : Group), (∀ w ∈ ws, ¬(r = w.reg ∧ l = w.lane)) →
    (ws.foldl (fun (g : Group) w => g.setV w.reg w.lane w.val) g).vreg r l = g.vreg r l
  | [], _, _ => rfl
  | w :: ws, g, h => by
    rw [List.foldl_cons, Group.writeV_other ws _ fun x hx => h x (List.mem_cons_of_mem _ hx),
      Group.vreg_setV_other g w.val (h w (List.mem_cons_self ..))]

/-- The writes of one value for each lane of a list (R34). -/
def laneWrites (wide : Bool) (reg : Nat) (ls : List Nat) (x : Nat → Nat) : List VWrite := ls.flatMap fun l => vWrite wide reg l (x l)

theorem vWrite_lane {wide : Bool} {reg l x : Nat} {w : VWrite} (h : w ∈ vWrite wide reg l x) :
    w.lane = l ∧ (w.reg = reg ∨ wide = true ∧ w.reg = reg + 1) := by
  unfold vWrite at h
  cases wide <;> simp at h
  · subst h; exact ⟨rfl, .inl rfl⟩
  · rcases h with rfl | rfl
    · exact ⟨rfl, .inl rfl⟩
    · exact ⟨rfl, .inr ⟨rfl, rfl⟩⟩

/-- Every register and lane after the writes of a value for each lane of a list (R34, R202). -/
theorem Group.writeLanes_vreg (wide : Bool) (reg : Nat) (x : Nat → Nat) {r l : Nat} (hr : r < 256) (hl : l < 64) :
    ∀ (ls : List Nat) (g : Group), ls.Nodup →
      ((laneWrites wide reg ls x).foldl (fun (g : Group) w => g.setV w.reg w.lane w.val) g).vreg r l =
        if l ∈ ls ∧ r = reg then BitVec.ofNat 32 (x l)
        else if l ∈ ls ∧ wide = true ∧ r = reg + 1 then BitVec.ofNat 32 (x l / 2 ^ 32)
        else g.vreg r l
  | [], g, _ => by simp [laneWrites]
  | a :: ls, g, hn => by
    rw [List.nodup_cons] at hn
    have hcons : laneWrites wide reg (a :: ls) x = vWrite wide reg a (x a) ++ laneWrites wide reg ls x := rfl
    rw [hcons, List.foldl_append, Group.writeLanes_vreg wide reg x hr hl ls _ hn.2]
    by_cases hla : l = a
    · subst hla
      simp only [hn.1, false_and, if_false, List.mem_cons, true_or, true_and]
      have h1 : ∀ g : Group, (g.setV reg l (BitVec.ofNat 32 (x l))).vreg r l = if r = reg then BitVec.ofNat 32 (x l) else g.vreg r l := by
        intro g
        split
        · next e => subst e; exact Group.vreg_setV_same g _ hr hl
        · next e => exact Group.vreg_setV_other g _ fun h => e h.1
      cases wide with
      | false => simp [vWrite, h1]
      | true =>
        simp only [vWrite, if_true, List.foldl_cons, List.foldl_nil, true_and]
        by_cases e : r = reg + 1
        · subst e
          rw [Group.vreg_setV_same _ _ hr hl, if_neg (by omega), if_pos rfl]
        · rw [Group.vreg_setV_other _ _ (fun h => e h.1), h1]
          simp [e]
    · have hw : ((vWrite wide reg a (x a)).foldl (fun (g : Group) w => g.setV w.reg w.lane w.val) g).vreg r l = g.vreg r l :=
        Group.writeV_other _ g fun w hw h => hla (h.2.trans (vWrite_lane hw).1)
      simp [hw, hla]

/-! Flags -/

/-- Flags raised in lanes are ORed into those lanes' flags and into no other (R199). -/
theorem Group.raiseFlags_xf (f : Nat → Flags) {l : Nat} (hl : l < 64) : ∀ (ls : List Nat) (g : Group), ls.Nodup →
    (g.raiseFlags (ls.map fun l => (l, f l))).xf[l] = if l ∈ ls then g.xf[l] ||| f l else g.xf[l]
  | [], g, _ => by simp [Group.raiseFlags]
  | a :: ls, g, hn => by
    rw [List.nodup_cons] at hn
    have hc : (g.raiseFlags ((a :: ls).map fun l => (l, f l))).xf =
        ((g.raiseFlags [(a, f a)]).raiseFlags (ls.map fun l => (l, f l))).xf := rfl
    simp only [hc]
    rw [Group.raiseFlags_xf f hl ls _ hn.2]
    by_cases e : l = a
    · subst e; simp [hn.1, Group.raiseFlags, hl]
    · have : a ≠ l := fun h => e h.symm
      simp [e, Group.raiseFlags, this]

/-- Raising flags changes nothing else. -/
theorem Group.raiseFlags_eq (g : Group) (fl : List (Nat × Flags)) : ∃ xf, g.raiseFlags fl = { g with xf := xf } := ⟨_, rfl⟩

/-! Commits -/

theorem LaneCtx.each_v (k : LaneCtx) (wide : Bool) (f : Nat → Nat × Flags) :
    (k.each wide f).v = laneWrites wide k.dReg k.m.lanes fun l => (f l).1 := by
  simp [LaneCtx.each, laneWrites, List.flatMap_map]

theorem LaneCtx.each_xf (k : LaneCtx) (wide : Bool) (f : Nat → Nat × Flags) :
    (k.each wide f).xf = k.m.lanes.map fun l => (l, (f l).2) := by
  simp [LaneCtx.each]

theorem LaneCtx.eachBit_xf (k : LaneCtx) (pd : Nat) (f : Nat → Bool × Flags) :
    (k.eachBit pd f).xf = k.m.lanes.map fun l => (l, (f l).2) := by
  simp [LaneCtx.eachBit]

/-- A commit of values writes v registers and flags and nothing else (R202). -/
theorem Group.commit_each_eq (g : Group) (k : LaneCtx) (wide : Bool) (f : Nat → Nat × Flags) :
    ∃ v xf, g.commit (k.each wide f) = { g with v := v, xf := xf } := by
  obtain ⟨v, hv⟩ := Group.writeV_eq (k.each wide f).v g
  refine ⟨v, ((g.commit (k.each wide f)).xf), ?_⟩
  have : g.commit (k.each wide f) =
      ((k.each wide f).v.foldl (fun (g : Group) w => g.setV w.reg w.lane w.val) g).raiseFlags (k.each wide f).xf := rfl
  rw [this, hv]
  rfl

/-- Every register and lane after a commit of values: the participating lanes of the destination take them (R202). -/
theorem Group.commit_each_vreg (g : Group) (k : LaneCtx) (wide : Bool) (f : Nat → Nat × Flags) {r l : Nat} (hr : r < 256) (hl : l < 64) :
    (g.commit (k.each wide f)).vreg r l =
      if k.m.getLsbD l = true ∧ r = k.dReg then BitVec.ofNat 32 (f l).1
      else if k.m.getLsbD l = true ∧ wide = true ∧ r = k.dReg + 1 then BitVec.ofNat 32 ((f l).1 / 2 ^ 32)
      else g.vreg r l := by
  have : (g.commit (k.each wide f)).vreg r l =
      ((laneWrites wide k.dReg k.m.lanes fun l => (f l).1).foldl (fun (g : Group) w => g.setV w.reg w.lane w.val) g).vreg r l := by
    rw [← LaneCtx.each_v]; rfl
  rw [this, Group.writeLanes_vreg wide k.dReg _ hr hl _ g (Mask.lanes_nodup _)]
  simp [Mask.mem_lanes, hl]

/-- Every lane's flags after a commit of values (R199). -/
theorem Group.commit_each_xf (g : Group) (k : LaneCtx) (wide : Bool) (f : Nat → Nat × Flags) {l : Nat} (hl : l < 64) :
    (g.commit (k.each wide f)).xf[l] = if k.m.getLsbD l = true then g.xf[l] ||| (f l).2 else g.xf[l] := by
  obtain ⟨v, hv⟩ := Group.writeV_eq (k.each wide f).v g
  have : (g.commit (k.each wide f)).xf = (({ g with v := v } : Group).raiseFlags (k.m.lanes.map fun l => (l, (f l).2))).xf := by
    rw [← LaneCtx.each_xf k wide f, ← hv]; rfl
  simp only [this]
  rw [Group.raiseFlags_xf (fun l => (f l).2) hl _ _ (Mask.lanes_nodup _)]
  simp [Mask.mem_lanes, hl]

/-- The lanes that a fold collects into a mask. -/
theorem Mask.collect_getLsbD (f : Nat → Bool) (l : Nat) (hl : l < 64) : ∀ (ls : List Nat) (m : Mask), (∀ x ∈ ls, x < 64) →
    (ls.foldl (fun m x => if f x then m ||| Mask.one x else m) m).getLsbD l = (m.getLsbD l || (decide (l ∈ ls) && f l))
  | [], m, _ => by simp
  | x :: ls, m, h => by
    have hx := h x (List.mem_cons_self ..)
    have one : ∀ x, x < 64 → (Mask.one x).getLsbD l = decide (l = x) := by
      intro x hx
      simp only [Mask.one, BitVec.getLsbD_ofNat, hl, decide_true, Bool.true_and, Nat.testBit_two_pow]
      exact decide_eq_decide.2 ⟨fun h => h.symm, fun h => h.symm⟩
    rw [List.foldl_cons, Mask.collect_getLsbD f l hl ls _ fun y hy => h y (List.mem_cons_of_mem _ hy)]
    by_cases hf : f x = true
    · rw [if_pos hf, BitVec.getLsbD_or, one x hx]
      by_cases e : l = x
      · subst e; simp [hf]
      · simp [e]
    · rw [if_neg hf]
      by_cases e : l = x
      · subst e; simp [hf]
      · simp [e]

/-- A commit of bits writes one predicate and flags and nothing else (R202). -/
theorem Group.commit_eachBit_eq (g : Group) (k : LaneCtx) (pd : Nat) (f : Nat → Bool × Flags) :
    ∃ p xf, g.commit (k.eachBit pd f) = { g with p := p, xf := xf } := by
  refine ⟨(g.commit (k.eachBit pd f)).p, (g.commit (k.eachBit pd f)).xf, ?_⟩
  have : g.commit (k.eachBit pd f) =
      (g.setP (BitVec.ofNat 3 pd) k.m (k.m.lanes.foldl (fun m x => if (f x).1 then m ||| Mask.one x else m) 0)).raiseFlags
        (k.eachBit pd f).xf := by
    simp [Group.commit, LaneCtx.eachBit, List.foldl_map]
  rw [this]
  unfold Group.setP
  split <;> rfl

/-- A predicate register after a write of some lanes of one (R12). -/
theorem Group.setP_getLsbD (g : Group) (j i : BitVec 3) (m x : Mask) {l : Nat} (hl : l < 64) :
    (g.setP j m x).p[i.toNat].getLsbD l =
      if i = j ∧ i ≠ 0 ∧ m.getLsbD l = true then x.getLsbD l else g.p[i.toNat].getLsbD l := by
  by_cases hj : j = 0
  · subst hj
    have hn : ¬(i = 0 ∧ i ≠ 0 ∧ m.getLsbD l = true) := fun h => h.2.1 h.1
    simp only [Group.setP_zero, if_neg hn]
  · have hp : (g.setP j m x).p = g.p.setIfInBounds j.toNat ((g.p[j.toNat] &&& ~~~m) ||| (x &&& m)) := by
      unfold Group.setP; rw [if_neg hj]
    simp only [hp]
    by_cases e : i = j
    · subst e
      simp only [Vector.getElem_setIfInBounds_self, BitVec.getLsbD_or, BitVec.getLsbD_and, BitVec.getLsbD_not, hl, decide_true,
        Bool.true_and]
      have hj' : i ≠ 0#3 := hj
      cases m.getLsbD l <;> simp [hj']
    · have ht : j.toNat ≠ i.toNat := fun h => e (BitVec.eq_of_toNat_eq h.symm)
      have hn : ¬(i = j ∧ i ≠ 0 ∧ m.getLsbD l = true) := fun h => e h.1
      rw [if_neg hn]
      simp [ht]

/-- A predicate after a commit of bits: the participating lanes of the destination take them, and p0 takes none (R12, R202). -/
theorem Group.commit_eachBit_p (g : Group) (k : LaneCtx) (pd : Nat) (f : Nat → Bool × Flags) (i : BitVec 3) {l : Nat} (hl : l < 64) :
    (g.commit (k.eachBit pd f)).p[i.toNat].getLsbD l =
      if i = BitVec.ofNat 3 pd ∧ i ≠ 0 ∧ k.m.getLsbD l = true then (f l).1 else g.p[i.toNat].getLsbD l := by
  have : (g.commit (k.eachBit pd f)).p =
      (g.setP (BitVec.ofNat 3 pd) k.m (k.m.lanes.foldl (fun m x => if (f x).1 then m ||| Mask.one x else m) 0)).p := by
    have : g.commit (k.eachBit pd f) =
        (g.setP (BitVec.ofNat 3 pd) k.m (k.m.lanes.foldl (fun m x => if (f x).1 then m ||| Mask.one x else m) 0)).raiseFlags
          (k.eachBit pd f).xf := by
      simp [Group.commit, LaneCtx.eachBit, List.foldl_map]
    rw [this]; rfl
  simp only [this]
  rw [Group.setP_getLsbD g _ i _ _ hl]
  have c := Mask.collect_getLsbD (fun x => (f x).1) l hl k.m.lanes 0 (fun x hx => (Mask.mem_lanes.1 hx).1)
  simp only [c, Mask.mem_lanes, hl]
  by_cases hm : k.m.getLsbD l = true <;> simp [hm]

/-! What the shared operations of lane instructions answer -/

/-- A lane instruction that issues does its own meaning (R48). -/
theorem laneOp_issues {s : State} {op : LaneOp} {w : LaneWord} {pl : IssuePlace} (body : LaneCtx → State → State) (h : s.Issues op w pl) :
    laneOp op w body s = body (s.g.laneCtx pl w) s := by
  unfold laneOp; rw [h.1]; simp only [h.2]

/-- A lane instruction that a cause of R48 keeps back takes that cause in the lanes of its place. -/
theorem laneOp_barred {s : State} {op : LaneOp} {w : LaneWord} {pl : IssuePlace} {c : Cause} (body : LaneCtx → State → State)
    (hi : s.g.iss = some pl) (hb : (s.g.laneCtx pl w).bars op = some c) : laneOp op w body s = s.laneFault c pl.mask := by
  unfold laneOp; rw [hi]; simp only [hb]

/-- A commit whose flags are none of them enabled traps in no lane (R200). -/
theorem Group.trapLanes_none (g : Group) (c : Commit) (h : ∀ x ∈ c.xf, x.2 &&& g.xe = 0) : g.trapLanes c = 0 := by
  unfold Group.trapLanes
  have : ∀ (l : List (Nat × BitVec 6)) (m : Mask), (∀ x ∈ l, x.2 &&& g.xe = 0) →
      l.foldl (fun m x => if x.2 &&& g.xe = 0 then m else m ||| Mask.one x.1) m = m := by
    intro l
    induction l with
    | nil => intro m _; rfl
    | cons x l ih =>
      intro m h
      rw [List.foldl_cons, if_pos (h x (List.mem_cons_self ..))]
      exact ih m fun y hy => h y (List.mem_cons_of_mem _ hy)
  exact this c.xf 0 h

/-- A commit of values traps in no lane, if no participating lane raises an enabled flag. -/
theorem Group.trapLanes_each (g : Group) (k : LaneCtx) (wide : Bool) (f : Nat → Nat × Flags)
    (h : ∀ l < 64, k.m.getLsbD l = true → (f l).2 &&& g.xe = 0) : g.trapLanes (k.each wide f) = 0 := by
  refine g.trapLanes_none _ fun x hx => ?_
  rw [LaneCtx.each_xf, List.mem_map] at hx
  obtain ⟨l, hl, rfl⟩ := hx
  exact h l (Mask.mem_lanes.1 hl).1 (Mask.mem_lanes.1 hl).2

/-- A commit of bits traps in no lane, if no participating lane raises an enabled flag. -/
theorem Group.trapLanes_eachBit (g : Group) (k : LaneCtx) (pd : Nat) (f : Nat → Bool × Flags)
    (h : ∀ l < 64, k.m.getLsbD l = true → (f l).2 &&& g.xe = 0) : g.trapLanes (k.eachBit pd f) = 0 := by
  refine g.trapLanes_none _ fun x hx => ?_
  rw [LaneCtx.eachBit_xf, List.mem_map] at hx
  obtain ⟨l, hl, rfl⟩ := hx
  exact h l (Mask.mem_lanes.1 hl).1 (Mask.mem_lanes.1 hl).2

/-- An arithmetic lane instruction that does not trap: its writes are made, or go into flight, and the lanes move on (R43, R200). -/
theorem laneAlu_issues {s : State} {op : LaneOp} {w : LaneWord} {pl : IssuePlace} (body : LaneCtx → Commit) (h : s.Issues op w pl)
    (ht : s.g.trapLanes (body (s.g.laneCtx pl w)) = 0) :
    laneAlu op w body s = .next (s.setG fun g =>
      if LaneOp.long op then g.launchLong pl (body (s.g.laneCtx pl w)) [] none false none
      else (g.commit (body (s.g.laneCtx pl w))).passed pl) := by
  unfold laneAlu
  rw [laneOp_issues _ h]
  unfold State.laneResult
  simp only [ht]
  rfl

/-- An arithmetic lane instruction that raises an enabled flag in some lane takes FPX in those lanes and writes nothing (R200). -/
theorem laneAlu_traps {s : State} {op : LaneOp} {w : LaneWord} {pl : IssuePlace} (body : LaneCtx → Commit) (h : s.Issues op w pl)
    (ht : s.g.trapLanes (body (s.g.laneCtx pl w)) ≠ 0) :
    laneAlu op w body s = .next (s.laneFault .fpx (s.g.trapLanes (body (s.g.laneCtx pl w)))
      { flags := s.g.trapFlags (body (s.g.laneCtx pl w)) }) := by
  unfold laneAlu
  rw [laneOp_issues _ h]
  unfold State.laneResult
  simp only [if_pos ht]

end Sys2Proof.Machine
end

