-- ==== Sys2Proof/Laws/Mem.lean ====
section
/-! SUPPORT. Every operation on the memory system keeps the canonical form of its byte stores, and memory at reset has it (log 11). -/
namespace Sys2Proof.Machine

theorem Memory.wf_iff (m : Mem) : Memory.wf m = true ↔ Cells.canonical m.hbm = true ∧ Cells.canonical m.ext = true ∧
    Cells.canonical m.scratch = true ∧ Cells.rising m.cellar = true ∧ Cells.rising m.l2 = true ∧ Cells.rising m.quad = true := by
  simp only [Memory.wf, Bool.and_eq_true, and_assoc]

theorem Memory.wf_reset : Memory.wf State.reset.mem = true := by decide

/-- A fold keeps the form when each of its steps does. -/
theorem Memory.wf_foldl {α : Type} (f : Mem → α → Mem) (hf : ∀ m x, Memory.wf m = true → Memory.wf (f m x) = true) :
    ∀ (l : List α) (m : Mem), Memory.wf m = true → Memory.wf (l.foldl f m) = true
  | [], _, h => h
  | x :: l, m, h => Memory.wf_foldl f hf l (f m x) (hf m x h)

/-! Single stores -/

theorem Mem.wf_hbm {m : Mem} {c : Cells} (h : Memory.wf m = true) (hc : Cells.canonical c = true) : Memory.wf { m with hbm := c } = true := by
  rw [Memory.wf_iff] at *; exact ⟨hc, h.2⟩

theorem Mem.wf_ext {m : Mem} {c : Cells} (h : Memory.wf m = true) (hc : Cells.canonical c = true) : Memory.wf { m with ext := c } = true := by
  rw [Memory.wf_iff] at *; exact ⟨h.1, hc, h.2.2⟩

theorem Mem.wf_scratch {m : Mem} {c : Cells} (h : Memory.wf m = true) (hc : Cells.canonical c = true) :
    Memory.wf { m with scratch := c } = true := by
  rw [Memory.wf_iff] at *; exact ⟨h.1, h.2.1, hc, h.2.2.2⟩

theorem Mem.wf_cellar {m : Mem} {c : Cells} (h : Memory.wf m = true) (hc : Cells.rising c = true) :
    Memory.wf { m with cellar := c } = true := by
  rw [Memory.wf_iff] at *; exact ⟨h.1, h.2.1, h.2.2.1, hc, h.2.2.2.2⟩

theorem Mem.wf_l2 {m : Mem} {c : Cells} (h : Memory.wf m = true) (hc : Cells.rising c = true) : Memory.wf { m with l2 := c } = true := by
  rw [Memory.wf_iff] at *; exact ⟨h.1, h.2.1, h.2.2.1, h.2.2.2.1, hc, h.2.2.2.2.2⟩

theorem Mem.wf_quad {m : Mem} {c : Cells} (h : Memory.wf m = true) (hc : Cells.rising c = true) : Memory.wf { m with quad := c } = true := by
  rw [Memory.wf_iff] at *; exact ⟨h.1, h.2.1, h.2.2.1, h.2.2.2.1, h.2.2.2.2.1, hc⟩

/-! Operations that touch no byte store -/

@[simp] theorem Mem.setPoison_wf (m : Mem) (line : Nat) (p : Bool) : Memory.wf (m.setPoison line p) = Memory.wf m := rfl
@[simp] theorem Mem.note_wf (m : Mem) (kind unit : Nat) : Memory.wf (m.note kind unit) = Memory.wf m := rfl
@[simp] theorem Mem.setEntry_wf (m : Mem) (e : DirEntry) : Memory.wf (m.setEntry e) = Memory.wf m := rfl
@[simp] theorem Mem.setUnit_wf (m : Mem) (a : Nat) (g : BitVec 2) (u : DirUnit) : Memory.wf (m.setUnit a g u) = Memory.wf m := rfl
@[simp] theorem Mem.keepSv_wf (m : Mem) (a n : Nat) : Memory.wf (m.keepSv a n) = Memory.wf m := rfl
@[simp] theorem Mem.dropLines_wf (m : Mem) (q a n : Nat) : Memory.wf (m.dropLines q a n) = Memory.wf m := rfl
@[simp] theorem Mem.giveUp_wf (m : Mem) (a n : Nat) : Memory.wf (m.giveUp a n) = Memory.wf m := rfl
@[simp] theorem Mem.setLine_wf (m : Mem) (q a n : Nat) (st : Moesi) (d : BitVec 128) : Memory.wf (m.setLine q a n st d) = Memory.wf m := rfl
@[simp] theorem Mem.changeLine_wf (m : Mem) (q a : Nat) (st : Moesi) : Memory.wf (m.changeLine q a st) = Memory.wf m := rfl
@[simp] theorem Mem.useLine_wf (m : Mem) (core a : Nat) : Memory.wf (m.useLine core a) = Memory.wf m := rfl
@[simp] theorem Mem.setDrop_wf (m : Mem) (a n : Nat) : Memory.wf (m.setDrop a n) = Memory.wf m := rfl
@[simp] theorem Mem.closeTxn_wf (m : Mem) (u : Nat) : Memory.wf (m.closeTxn u) = Memory.wf m := rfl
@[simp] theorem Mem.putTxn_wf (m : Mem) (t : Txn) : Memory.wf (m.putTxn t) = Memory.wf m := rfl
@[simp] theorem Mem.answerPut_wf (m : Mem) (l : QuadLine) (g : Bool) : Memory.wf (m.answerPut l g) = Memory.wf m := rfl
@[simp] theorem Mem.setLease_wf (m : Mem) (l : LeaseLine) : Memory.wf (m.setLease l) = Memory.wf m := rfl
theorem Mem.hostLeases_wf (m : Mem) (l : List LeaseLine) (n : Nat) (f : List LeaseLine → Stamp) :
    Memory.wf { m with hostLeases := l.take n, hostMts := f (l.drop n) } = Memory.wf m := rfl
@[simp] theorem Mem.setHostLease_wf (m : Mem) (l : LeaseLine) : Memory.wf (m.setHostLease l) = Memory.wf m :=
  Mem.hostLeases_wf m (l :: m.hostLeases.filter fun x => x.line ≠ l.line) 65536 fun d => d.foldl (fun t x => maxS t x.rts) m.hostMts
@[simp] theorem Mem.seen_wf (m : Mem) (t : Stamp) : Memory.wf (m.seen t) = Memory.wf m := rfl
@[simp] theorem Mem.setCopy_wf (m : Mem) (c : LeaseCopy) : Memory.wf (m.setCopy c) = Memory.wf m := rfl
@[simp] theorem Mem.noneStore_wf (m : Mem) (core a : Nat) (b : Byte) : Memory.wf (m.noneStore core a b) = Memory.wf m := rfl
@[simp] theorem Mem.fillTlb_wf (m : Mem) (core die : Nat) (e : TlbEntry) : Memory.wf (m.fillTlb core die e) = Memory.wf m := rfl
@[simp] theorem Mem.setCounters_wf (m : Mem) (c : CounterLine) : Memory.wf (m.setCounters c) = Memory.wf m := rfl
@[simp] theorem Mem.setNode_wf (m : Mem) (n : TreeNode) : Memory.wf (m.setNode n) = Memory.wf m := rfl
theorem Mem.verified_wf (m : Mem) (x : List (Nat × Nat × Nat)) : Memory.wf { m with verified := x } = Memory.wf m := rfl
@[simp] theorem Mem.keepPath_wf (m : Mem) (line : Nat) : Memory.wf (m.keepPath line) = Memory.wf m := Mem.verified_wf m _
@[simp] theorem Mem.setKey_wf (m : Mem) (k : KeySlot) : Memory.wf (m.setKey k) = Memory.wf m := rfl
@[simp] theorem Mem.setMst_wf (m : Mem) (stack lo n v : Nat) : Memory.wf (m.setMst stack lo n v) = Memory.wf m := rfl
@[simp] theorem Mem.mergeMts_wf (m : Mem) (src dst : Nat) : Memory.wf (m.mergeMts src dst) = Memory.wf m := rfl

/-! HBM -/

theorem Mem.setLoc_wf {m : Mem} (l : Loc) (b : Byte) (h : Memory.wf m = true) : Memory.wf (m.setLoc l b) = true := by
  have hb := ((Memory.wf_iff m).1 h).1
  unfold Mem.setLoc
  apply Mem.wf_hbm h
  split
  · exact Cells.canonical_set _ _ hb
  · exact Cells.canonical_set _ _ (Cells.canonical_set _ _ hb)

theorem Mem.putHbm_wf : ∀ (c : Cells) {m : Mem}, Memory.wf m = true → Memory.wf (m.putHbm c) = true
  | [], _, h => h
  | (a, b) :: c, m, h => Mem.putHbm_wf c (Mem.setLoc_wf (m.locate a) b h)

theorem Mem.setHbm_wf : ∀ (bs : List Byte) {m : Mem} (a : Nat), Memory.wf m = true → Memory.wf (m.setHbm a bs) = true
  | [], _, _, h => h
  | b :: bs, m, a, h => Mem.setHbm_wf bs (a + 1) (Mem.setLoc_wf (m.locate a) b h)

theorem Mem.moveByte_wf {m : Mem} (f : Nat) (l : Loc) (h : Memory.wf m = true) : Memory.wf (m.moveByte f l) = true :=
  Mem.setLoc_wf _ _ (Mem.setLoc_wf _ _ h)

/-! Encryption and its counters -/

theorem Mem.remac_wf {m : Mem} (stack level idx : Nat) (h : Memory.wf m = true) : Memory.wf (m.remac stack level idx) = true := by
  unfold Mem.remac; dsimp only; split <;> exact h

theorem Mem.bumpTree_wf : ∀ (n : Nat) {m : Mem} (stack level idx : Nat), Memory.wf m = true → Memory.wf (m.bumpTree n stack level idx) = true
  | 0, _, _, _, _, h => h
  | n + 1, m, stack, level, idx, h => by
    unfold Mem.bumpTree
    refine Mem.bumpTree_wf n stack (level + 1) (idx / 8) ?_
    split
    · exact Mem.remac_wf _ _ _ (by simpa using h)
    · exact Memory.wf_foldl _ (fun _ _ hm => Mem.remac_wf _ _ _ hm) _ _ (by simpa using h)

theorem Mem.encryptLine_wf {m : Mem} (line : Nat) (k : BitVec 13) (p : List Byte) (h : Memory.wf m = true) :
    Memory.wf (m.encryptLine line k p) = true := by
  have step : ∀ m1 : Mem, Memory.wf m1 = true → ∀ x, Memory.wf { m1 with macs := x } = true := fun _ h1 _ => h1
  unfold Mem.encryptLine
  exact step _ (Mem.setHbm_wf _ _ h) _

theorem Mem.writeBackEnc_wf {m : Mem} (line : Nat) (k : BitVec 13) (p : List Byte) (h : Memory.wf m = true) :
    Memory.wf (m.writeBackEnc line k p) = true := by
  unfold Mem.writeBackEnc
  dsimp only
  apply Mem.bumpTree_wf
  split
  · exact Mem.encryptLine_wf line k p (by simpa using h)
  · apply Mem.encryptLine_wf
    apply Memory.wf_foldl
    · intro m x hm
      split
      · exact Mem.encryptLine_wf _ _ _ hm
      · exact hm
    · exact h

/-! Lines of a Cellar slice -/

theorem Mem.cleanSectors_wf {m : Mem} (a n : Nat) (h : Memory.wf m = true) : Memory.wf (m.cleanSectors a n) = true := by
  unfold Mem.cleanSectors; split <;> exact h

theorem Mem.writeBack_wf {m : Mem} (line : Nat) (h : Memory.wf m = true) : Memory.wf (m.writeBack line) = true := by
  have step : ∀ m1 : Mem, Memory.wf m1 = true → ∀ x y, Memory.wf { m1 with bad := x, dead := y } = true := fun _ h1 _ _ => h1
  have hc : Memory.wf { m with cellar := m.cellar.dropRange (line * 128) 128 } = true :=
    Mem.wf_cellar h (Cells.rising_dropRange _ _ ((Memory.wf_iff m).1 h).2.2.2.1)
  unfold Mem.writeBack
  dsimp only
  split
  · exact h
  · apply step
    split
    · exact Mem.putHbm_wf _ hc
    · exact Mem.writeBackEnc_wf _ _ _ hc

theorem Mem.forgetLine_wf {m : Mem} (line : Nat) (h : Memory.wf m = true) : Memory.wf (m.forgetLine line) = true := by
  unfold Mem.forgetLine; split <;> exact h

theorem Mem.dropLease_wf {m : Mem} (line : Nat) (h : Memory.wf m = true) : Memory.wf (m.dropLease line) = true := by
  unfold Mem.dropLease; split <;> exact h

theorem Mem.evictLine_wf {m : Mem} (line : Nat) (h : Memory.wf m = true) : Memory.wf (m.evictLine line) = true := by
  have h1 := Mem.dropLease_wf line h
  unfold Mem.evictLine
  dsimp only
  split
  · exact h1
  · exact Mem.forgetLine_wf _ h1

theorem Mem.flushLine_wf {m : Mem} (line : Nat) (h : Memory.wf m = true) : Memory.wf (m.flushLine line) = true :=
  have hc : ∀ x, Memory.wf { m.writeBack line with chans := x } = true := fun _ => Mem.writeBack_wf line h
  Mem.forgetLine_wf line (hc _)

theorem Mem.makeRoom_wf {m : Mem} (line : Nat) (h : Memory.wf m = true) : Memory.wf (m.makeRoom line) = true := by
  unfold Mem.makeRoom
  dsimp only
  split
  · exact h
  · split
    · exact h
    · split
      · exact h
      · exact Memory.wf_foldl _ (fun _ x hm => Mem.evictLine_wf x hm) _ _ h

theorem Mem.holdLine_wf {m : Mem} (line : Nat) (h : Memory.wf m = true) : Memory.wf (m.holdLine line) = true := by
  have step : ∀ m1 : Mem, Memory.wf m1 = true → ∀ x y, Memory.wf { m1 with lines := x, uses := y } = true := fun _ h1 _ _ => h1
  unfold Mem.holdLine
  dsimp only
  split
  · exact h
  · apply step
    split
    · exact h
    · exact Mem.makeRoom_wf _ h

theorem Mem.bytesToHome_wf {m : Mem} (a n : Nat) (h : Memory.wf m = true) : Memory.wf (m.bytesToHome a n) = true := by
  have hm := (Memory.wf_iff m).1 h
  rw [Memory.wf_iff]
  exact ⟨hm.1, hm.2.1, hm.2.2.1, hm.2.2.2.1, Cells.rising_over _ hm.2.2.2.2.1, Cells.rising_dropRange a n hm.2.2.2.2.2⟩

theorem Mem.bytesToCellar_wf {m : Mem} (a n : Nat) (h : Memory.wf m = true) : Memory.wf (m.bytesToCellar a n) = true := by
  have hm := (Memory.wf_iff m).1 h
  rw [Memory.wf_iff]
  exact ⟨hm.1, hm.2.1, hm.2.2.1, Cells.rising_over _ hm.2.2.2.1, Cells.rising_dropRange a n hm.2.2.2.2.1, hm.2.2.2.2.2⟩

theorem Mem.retag_wf {m : Mem} (line : Nat) (want : Option (BitVec 13)) (h : Memory.wf m = true) : Memory.wf (m.retag line want) = true := by
  have step : ∀ m1 : Mem, Memory.wf m1 = true → ∀ x y, Memory.wf { m1 with tags := x, poison := y } = true := fun _ h1 _ _ => h1
  unfold Mem.retag
  dsimp only
  split
  · exact h
  · refine step _ (Mem.writeBack_wf _ ?_) _ _
    rw [Mem.keepSv_wf]
    exact Mem.bytesToCellar_wf _ _ (Mem.bytesToHome_wf _ _ h)

theorem Mem.fillLine_wf {m : Mem} (line : Nat) (h : Memory.wf m = true) : Memory.wf (m.fillLine line) = true := by
  have step : ∀ (m1 : Mem) x y, Memory.wf { m1 with poison := x, bad := y } = Memory.wf m1 := fun _ _ _ => by simp only [Memory.wf]
  unfold Mem.fillLine
  extract_lets a ours lost forged marks m1 m2
  have hm1 : Memory.wf m1 = true := (step m _ _).trans h
  have hm2 : Memory.wf m2 = true := by
    show Memory.wf (if lost then m1.note 7 (hashLoc a).stack else m1) = true
    clear_value m1 lost
    cases lost
    · exact hm1
    · exact (Mem.note_wf m1 _ _).trans hm1
  clear_value m2 forged
  cases forged
  · rw [if_neg Bool.false_ne_true]
    split
    · exact (Mem.keepPath_wf m2 _).trans hm2
    · exact hm2
  · rw [if_pos rfl]
    exact (Mem.note_wf m2 _ _).trans hm2

theorem Mem.reachLine_wf {m : Mem} (line : Nat) (enc : Bool) (k : BitVec 13) (whole : Bool) (h : Memory.wf m = true) :
    Memory.wf (m.reachLine line enc k whole) = true := by
  unfold Mem.reachLine
  extract_lets want hit m1 m2
  have hm1 : Memory.wf m1 = true := Mem.retag_wf line want h
  apply Mem.holdLine_wf
  show Memory.wf (if hit then m1 else if whole then m1.setPoison line false else m1.fillLine line) = true
  clear_value hit m1
  cases hit
  · rw [if_neg Bool.false_ne_true]
    cases whole
    · exact Mem.fillLine_wf line hm1
    · exact (Mem.setPoison_wf m1 _ _).trans hm1
  · exact hm1

/-! Requests at the channels -/

theorem Mem.writeSector_wf {m : Mem} (r : MemRequest) (x : Nat × Nat) (h : Memory.wf m = true) : Memory.wf (m.writeSector r x) = true :=
  Mem.cleanSectors_wf _ _ (Mem.wf_cellar h (Cells.rising_putBytes _ _ ((Memory.wf_iff m).1 h).2.2.2.1))

theorem Mem.serveLine_wf {m : Mem} (r : MemRequest) (line : Nat) (h : Memory.wf m = true) : Memory.wf (m.serveLine r line) = true := by
  unfold Mem.serveLine
  dsimp only
  split
  · exact Memory.wf_foldl _ (fun _ x hm => Mem.writeSector_wf r x hm) _ _ (Mem.reachLine_wf _ _ _ _ h)
  · exact Mem.reachLine_wf _ _ _ _ h

theorem Mem.serveRequest_wf {m : Mem} (q : ChanReq) (h : Memory.wf m = true) : Memory.wf (m.serveRequest q) = true := by
  unfold Mem.serveRequest
  dsimp only
  split
  · exact Memory.wf_foldl _ (fun _ l hm => Mem.forgetLine_wf l (Mem.writeBack_wf l hm)) _ _ h
  · exact Memory.wf_foldl _ (fun _ l hm => Mem.serveLine_wf _ l hm) _ _ h

theorem Mem.settleChans_wf {m : Mem} (line : Nat) (h : Memory.wf m = true) : Memory.wf (m.settleChans line) = true :=
  Memory.wf_foldl _ (fun _ q hm => Mem.serveRequest_wf q hm) _ m h

theorem Mem.flushParked_wf {m : Mem} (h : Memory.wf m = true) : Memory.wf m.flushParked = true := by
  unfold Mem.flushParked
  split
  · exact Memory.wf_foldl _ (fun _ x hm => Mem.flushLine_wf x hm) _ _ h
  · exact h

/-- An access that reaches its slice keeps the form. -/
theorem Mem.reach_wf {m : Mem} (line : Nat) (enc : Bool) (k : BitVec 13) (whole : Bool) (h : Memory.wf m = true) :
    Memory.wf (m.reach line enc k whole) = true :=
  Mem.reachLine_wf _ _ _ _ (Mem.settleChans_wf _ (Mem.flushParked_wf h))

theorem Mem.flushSlice_wf {m : Mem} (slice : Nat) (h : Memory.wf m = true) : Memory.wf (m.flushSlice slice) = true :=
  Memory.wf_foldl Mem.flushLine (fun _ x hm => Mem.flushLine_wf x hm) _ m h

theorem Mem.flushCellar_wf {m : Mem} (h : Memory.wf m = true) : Memory.wf m.flushCellar = true :=
  Memory.wf_foldl Mem.flushLine (fun _ x hm => Mem.flushLine_wf x hm) _ m h

/-! The directory -/

theorem Mem.quadToHome_wf {m : Mem} (a n : Nat) (h : Memory.wf m = true) : Memory.wf (m.quadToHome a n) = true := by
  unfold Mem.quadToHome; simpa using Mem.bytesToHome_wf a n h

theorem Mem.homeToCellar_wf {m : Mem} (a n : Nat) (h : Memory.wf m = true) : Memory.wf (m.homeToCellar a n) = true := by
  unfold Mem.homeToCellar
  rw [Mem.keepSv_wf]
  exact Mem.bytesToCellar_wf _ _ (Memory.wf_foldl _ (fun _ l hm => Mem.reach_wf l _ _ _ hm) _ _ h)

theorem Mem.hostRecall_wf {m : Mem} (a n : Nat) (h : Memory.wf m = true) : Memory.wf (m.hostRecall a n) = true := by
  unfold Mem.hostRecall
  split
  · exact h
  · dsimp only
    split
    · exact h
    · rw [Mem.setEntry_wf]
      exact Memory.wf_foldl _ (fun _ _ hm => Mem.quadToHome_wf _ _ hm) _ _ h

theorem Mem.discover_wf {m : Mem} (a : Nat) (g : BitVec 2) (h : Memory.wf m = true) : Memory.wf (m.discover a g) = true := by
  unfold Mem.discover; dsimp only; split <;> exact h

theorem Mem.rediscover_wf {m : Mem} (a n : Nat) (h : Memory.wf m = true) : Memory.wf (m.rediscover a n) = true := by
  unfold Mem.rediscover
  split
  · exact h
  · apply Memory.wf_foldl _ _ _ _ h
    intro m l hm
    split
    · exact hm
    · simpa using hm

theorem Mem.recallQuads_wf {m : Mem} (a n : Nat) (h : Memory.wf m = true) : Memory.wf (m.recallQuads a n) = true := by
  have step : ∀ m1 : Mem, Memory.wf m1 = true → ∀ x, Memory.wf { m1 with dir := x } = true := fun _ h1 _ => h1
  unfold Mem.recallQuads
  apply step
  rw [Mem.giveUp_wf]
  exact Mem.quadToHome_wf _ _ (Mem.rediscover_wf _ _ h)

theorem Mem.regrain_wf {m : Mem} (a : Nat) (g : BitVec 2) (h : Memory.wf m = true) : Memory.wf (m.regrain a g) = true := by
  unfold Mem.regrain
  split
  · simpa using h
  · split
    · exact h
    · simpa using Mem.recallQuads_wf _ _ (Mem.hostRecall_wf _ _ h)

theorem Mem.homeReady_wf {m : Mem} (a : Nat) (g : BitVec 2) (h : Memory.wf m = true) : Memory.wf (m.homeReady a g) = true := by
  have h1 := Mem.hostRecall_wf (unitBase a g) (grainSize g) (Mem.regrain_wf (unitBase a g) g h)
  unfold Mem.homeReady
  dsimp only
  split
  · exact Mem.discover_wf _ _ h1
  · exact h1

theorem Mem.serveGetS_wf {m : Mem} (a : Nat) (g : BitVec 2) (core : Nat) (h : Memory.wf m = true) : Memory.wf (m.serveGetS a g core) = true := by
  have h1 := Mem.homeReady_wf a g h
  have h2 := Mem.quadToHome_wf (unitBase a g) (grainSize g) h1
  unfold Mem.serveGetS
  generalize m.homeReady a g = m1 at h1 h2
  simp only
  cases (m1.unit (unitBase a g)).st
  · simp only [Mem.setLine_wf, Mem.setUnit_wf, h1]
  · simp only [Mem.setLine_wf, Mem.setUnit_wf, h1]
  · simp only
    split
    · simp only [Mem.setLine_wf, Mem.setUnit_wf, Mem.giveUp_wf, h2]
    · cases m1.qline (m1.unit (unitBase a g)).owner (unitBase a g) with
      | none => simp only [Mem.setLine_wf, Mem.setUnit_wf, h1]
      | some l =>
        simp only
        split <;> simp only [Mem.setLine_wf, Mem.setUnit_wf, Mem.changeLine_wf, h1]
  · simp only [Mem.setLine_wf, Mem.setUnit_wf, h1]

theorem Mem.serveGetM_wf {m : Mem} (a : Nat) (g : BitVec 2) (core : Nat) (h : Memory.wf m = true) : Memory.wf (m.serveGetM a g core) = true := by
  unfold Mem.serveGetM
  simp only [Mem.setLine_wf, Mem.setUnit_wf, Mem.giveUp_wf]
  exact Mem.homeReady_wf a g h

theorem Mem.dataPhase_wf {m : Mem} (t : Txn) (h : Memory.wf m = true) : Memory.wf (m.dataPhase t) = true := by
  unfold Mem.dataPhase
  dsimp only
  rw [Mem.setUnit_wf]
  exact Mem.quadToHome_wf _ _ h

theorem Mem.putWhole_wf {m : Mem} (l : QuadLine) (h : Memory.wf m = true) : Memory.wf (m.putWhole l) = true := by
  have gone : ∀ m1 : Mem, Memory.wf m1 = true → ∀ x, Memory.wf { m1 with qlines := x } = true := fun _ h1 _ => h1
  have h1 : ∀ (b : Bool) a n, Memory.wf (if b then m.setDrop a n else m) = true := by
    intro b a n
    split
    · simpa using h
    · exact h
  have h2 : ∀ (m1 : Mem) (b : Bool) a n, Memory.wf m1 = true → Memory.wf (if b then m1.quadToHome a n else m1) = true := by
    intro m1 b a n hm
    split
    · exact Mem.quadToHome_wf _ _ hm
    · exact hm
  unfold Mem.putWhole
  extract_lets rest r g mine lost m1 m2
  have hm1 : Memory.wf m1 = true := h1 _ _ _
  have hm2 : Memory.wf m2 = true := gone _ (by
    split
    · exact Mem.quadToHome_wf _ _ hm1
    · exact hm1) _
  split
  · exact gone _ hm1 _
  · split
    · simpa using hm2
    · exact hm2

theorem Mem.serveWhole_wf {m : Mem} (kind addr req : Nat) (g : BitVec 2) (h : Memory.wf m = true) :
    Memory.wf (m.serveWhole kind addr req g) = true := by
  unfold Mem.serveWhole
  split
  · exact Mem.serveGetS_wf _ _ _ h
  · exact Mem.serveGetM_wf _ _ _ h
  · exact Mem.serveGetM_wf _ _ _ h
  · exact Mem.recallQuads_wf _ _ h
  · split
    · exact Mem.putWhole_wf _ h
    · exact h

theorem Mem.settleTxns_wf {m : Mem} (a n : Nat) (h : Memory.wf m = true) : Memory.wf (m.settleTxns a n) = true := by
  have gone : ∀ m1 : Mem, Memory.wf m1 = true → ∀ x, Memory.wf { m1 with qlines := x } = true := fun _ h1 _ => h1
  unfold Mem.settleTxns
  dsimp only
  apply Memory.wf_foldl
  · intro m r hm
    have hq : ∀ x, Memory.wf { m with queue := x } = true := fun _ => hm
    exact Mem.serveWhole_wf _ _ _ _ (hq _)
  · apply Memory.wf_foldl
    · intro m t hm
      have ht : ∀ x, Memory.wf { m with txns := x } = true := fun _ => hm
      split
      · exact gone _ (Mem.dataPhase_wf t (ht _)) _
      · exact Mem.serveWhole_wf _ _ _ _ (ht _)
    · exact h

theorem Mem.recallRange_wf {m : Mem} (a n : Nat) (h : Memory.wf m = true) : Memory.wf (m.recallRange a n) = true :=
  Mem.recallQuads_wf _ _ (Mem.hostRecall_wf _ _ (Mem.settleTxns_wf _ _ h))

theorem Mem.recallHome_wf {m : Mem} (a n : Nat) (h : Memory.wf m = true) : Memory.wf (m.recallHome a n) = true :=
  Mem.homeToCellar_wf _ _ (Mem.recallRange_wf _ _ h)

theorem Mem.getS_wf {m : Mem} (a : Nat) (g : BitVec 2) (core : Nat) (h : Memory.wf m = true) : Memory.wf (m.getS a g core) = true :=
  Mem.serveGetS_wf _ _ _ (Mem.settleTxns_wf _ _ h)

theorem Mem.getM_wf {m : Mem} (a : Nat) (g : BitVec 2) (core : Nat) (h : Memory.wf m = true) : Memory.wf (m.getM a g core) = true :=
  Mem.serveGetM_wf _ _ _ (Mem.settleTxns_wf _ _ h)

theorem Mem.dirLoad_wf {m : Mem} (a : Nat) (g : BitVec 2) (core : Nat) (h : Memory.wf m = true) : Memory.wf (m.dirLoad a g core) = true := by
  unfold Mem.dirLoad
  split
  · simpa using h
  · exact Mem.getS_wf a g core h

theorem Mem.atom_rising {m : Mem} (a : Nat) (h : Memory.wf m = true) : Cells.rising (m.atom a) = true := by
  have hq := ((Memory.wf_iff m).1 h).2.2.2.2.2
  unfold Mem.atom
  generalize m.quad = c at hq ⊢
  generalize List.range 4 = l
  induction l generalizing c with
  | nil => exact hq
  | cons i l ih =>
    apply ih
    dsimp only
    split
    · exact hq
    · exact Cells.rising_put _ _ hq

theorem Mem.dirStore_wf {m : Mem} (a : Nat) (g : BitVec 2) (core : Nat) (b : Byte) (h : Memory.wf m = true) :
    Memory.wf (m.dirStore a g core b) = true := by
  have put : ∀ m2 : Mem, Memory.wf m2 = true → Memory.wf { m2 with quad := (m2.atom a).put a b } = true := fun m2 h2 =>
    Mem.wf_quad h2 (Cells.rising_put _ _ (Mem.atom_rising a h2))
  have lines : ∀ m1 : Mem, Memory.wf m1 = true → ∀ ls, Memory.wf { m1 with qlines := ls } = true := fun _ h1 _ => h1
  unfold Mem.dirStore
  extract_lets m1 m2
  have hm1 : Memory.wf m1 = true := by
    show Memory.wf (if m.hits a (core / 4) g true then m.useLine core a else m.getM a g core) = true
    split
    · simpa using h
    · exact Mem.getM_wf _ _ _ h
  exact put m2 (lines m1 hm1 _)

theorem Mem.finishTxn_wf {m : Mem} (t : Txn) (h : Memory.wf m = true) : Memory.wf (m.finishTxn t) = true :=
  Mem.serveWhole_wf _ _ _ _ (by simpa using h)

theorem Mem.serveTxn_wf {m : Mem} (t : Txn) (h : Memory.wf m = true) : Memory.wf (m.serveTxn t) = true := by
  unfold Mem.serveTxn
  extract_lets u fwd inv
  split
  · exact Mem.finishTxn_wf t h
  · simpa using h

theorem Mem.servePut_wf {m : Mem} (l : QuadLine) (g : BitVec 2) (dirty : Bool) (h : Memory.wf m = true) :
    Memory.wf (m.servePut l g dirty) = true := by
  unfold Mem.servePut
  extract_lets r mine lost m1
  have hm1 : Memory.wf m1 = true := by
    show Memory.wf (Mem.answerPut (if lost then _ else m) _ _) = true
    rw [Mem.answerPut_wf]
    split
    · simpa using h
    · exact h
  split
  · exact hm1
  · split
    · simpa using hm1
    · split
      · simpa using hm1
      · exact hm1

theorem Mem.begin_wf {m : Mem} (r : HomeReq) (h : Memory.wf m = true) : Memory.wf (m.begin r) = true := by
  unfold Mem.begin
  split
  · split
    · exact Mem.servePut_wf _ _ _ h
    · exact h
  · have h1 := Mem.hostRecall_wf (unitBase r.addr r.grain) (grainSize r.grain) (Mem.regrain_wf (unitBase r.addr r.grain) r.grain h)
    dsimp only
    split
    · simpa using h1
    · exact Mem.serveTxn_wf _ h1

theorem Mem.serveQueue_wf : ∀ (n : Nat) {m : Mem}, Memory.wf m = true → Memory.wf (m.serveQueue n) = true
  | 0, _, h => h
  | n + 1, m, h => by
    unfold Mem.serveQueue
    split
    · exact h
    · have hq : ∀ x, Memory.wf { m with queue := x } = true := fun _ => h
      exact Mem.serveQueue_wf n (Mem.begin_wf _ (hq _))

theorem Mem.goOn_wf {m : Mem} (h : Memory.wf m = true) : Memory.wf m.goOn = true := Mem.serveQueue_wf _ h

theorem Mem.arrive_wf {m : Mem} (r : HomeReq) (h : Memory.wf m = true) : Memory.wf (m.arrive r) = true := by
  unfold Mem.arrive
  split
  · exact h
  · have hq : ∀ x, Memory.wf { m with queue := x } = true := fun _ => h
    exact Mem.goOn_wf (hq _)

theorem Mem.request_wf {m : Mem} (kind u r : Nat) (g : BitVec 2) (h : Memory.wf m = true) : Memory.wf (m.request kind u r g) = true := by
  unfold Mem.request
  split
  · exact Mem.arrive_wf _ h
  · exact h

theorem Mem.takePiece_wf {m : Mem} (a : Nat) (h : Memory.wf m = true) : Memory.wf (m.takePiece a) = true := by
  unfold Mem.takePiece
  dsimp only
  rw [Mem.setEntry_wf]
  exact Mem.recallQuads_wf _ _ (Mem.settleTxns_wf _ _ h)

/-! Writes at the slice, and lines that leave a core -/

theorem Mem.plainWrite_wf {m : Mem} (a : Nat) (b : Byte) (h : Memory.wf m = true) : Memory.wf (m.plainWrite a b) = true := by
  have hm := (Memory.wf_iff m).1 h
  unfold Mem.plainWrite
  split
  · exact Mem.wf_cellar h (Cells.rising_put a b hm.2.2.2.1)
  · exact Mem.wf_ext h (Cells.canonical_set a b hm.2.1)

theorem Mem.plainBytes_wf : ∀ (bs : List Byte) {m : Mem} (a : Nat), Memory.wf m = true → Memory.wf (m.plainBytes a bs) = true
  | [], _, _, h => h
  | b :: bs, _, a, h => Mem.plainBytes_wf bs (a + 1) (Mem.plainWrite_wf a b h)

theorem Mem.sliceWriteBytes_wf {m : Mem} (a : Nat) (bs : List Byte) (h : Memory.wf m = true) : Memory.wf (m.sliceWriteBytes a bs) = true := by
  unfold Mem.sliceWriteBytes
  split
  · exact Mem.plainBytes_wf _ _ (Mem.recallHome_wf _ _ h)
  · exact Mem.plainBytes_wf _ _ h

theorem Mem.hostAside_wf {m : Mem} (line : Nat) (h : Memory.wf m = true) : Memory.wf (m.hostAside line) = true := by
  unfold Mem.hostAside
  split
  · exact Memory.wf_foldl _ (fun _ _ hm => Mem.homeToCellar_wf _ _ hm) _ _ (Mem.hostRecall_wf _ _ h)
  · exact h

theorem Mem.writeNone_wf {m : Mem} (x : NoneLine) (h : Memory.wf m = true) : Memory.wf (m.writeNone x) = true := by
  unfold Mem.writeNone
  apply Memory.wf_foldl
  · exact fun m c hm => Mem.plainWrite_wf _ _ hm
  · split
    · exact Mem.hostAside_wf _ (Mem.reach_wf _ _ _ _ h)
    · exact h

theorem Mem.discardNone_wf {m : Mem} (core : Nat) (h : Memory.wf m = true) : Memory.wf (m.discardNone core) = true := by
  have := Memory.wf_foldl Mem.writeNone (fun _ x hm => Mem.writeNone_wf x hm) (m.nones.filter fun x => x.core = core) m h
  exact this

theorem Mem.fetchNone_wf {m : Mem} (core line : Nat) (enc : Bool) (k : BitVec 13) (h : Memory.wf m = true) :
    Memory.wf (m.fetchNone core line enc k) = true := by
  unfold Mem.fetchNone; split <;> exact h

theorem Mem.freeOldest_wf {m : Mem} (q : Nat) (h : Memory.wf m = true) : Memory.wf (m.freeOldest q) = true := by
  have lines : ∀ m1 : Mem, Memory.wf m1 = true → ∀ ls, Memory.wf { m1 with qlines := ls } = true := fun _ h1 _ => h1
  unfold Mem.freeOldest
  split
  · exact h
  · rename_i v _
    have h1 := Mem.settleTxns_wf v.addr v.size h
    dsimp only
    split
    · exact h1
    · split
      · exact lines _ h1 _
      · exact Mem.putWhole_wf _ h1

theorem Mem.evictUnit_wf {m : Mem} (core : Nat) (l : QuadLine) (h : Memory.wf m = true) : Memory.wf (m.evictUnit core l) = true := by
  have lines : ∀ m1 : Mem, Memory.wf m1 = true → ∀ ls, Memory.wf { m1 with qlines := ls } = true := fun _ h1 _ => h1
  unfold Mem.evictUnit
  dsimp only
  split
  · exact lines _ h _
  · split
    · exact lines _ h _
    · apply lines
      split
      · exact h
      · exact Mem.freeOldest_wf _ h

theorem Mem.evictCopies_wf {m : Mem} (core line : Nat) (h : Memory.wf m = true) : Memory.wf (m.evictCopies core line) = true := by
  have step : ∀ m1 : Mem, Memory.wf m1 = true → ∀ x, Memory.wf { m1 with nones := x } = true := fun _ h1 _ => h1
  have copies : ∀ x, Memory.wf { m with copies := x } = true := fun _ => h
  unfold Mem.evictCopies
  extract_lets m2 m3
  exact step m3 (Memory.wf_foldl Mem.writeNone (fun _ x hm => Mem.writeNone_wf x hm) _ m2 (copies _)) _

theorem Mem.evictCached_wf {m : Mem} (core line : Nat) (h : Memory.wf m = true) : Memory.wf (m.evictCached core line) = true :=
  Mem.evictCopies_wf _ _ (Memory.wf_foldl _ (fun _ l hm => Mem.evictUnit_wf _ l hm) _ _ h)

theorem Mem.releaseVictims_wf {m : Mem} (quad : Nat) (h : Memory.wf m = true) : Memory.wf (m.releaseVictims quad) = true := by
  unfold Mem.releaseVictims
  apply Memory.wf_foldl _ _ _ _ h
  intro m l hm
  dsimp only
  split
  · exact Mem.putWhole_wf _ (Mem.settleTxns_wf _ _ hm)
  · exact Mem.settleTxns_wf _ _ hm

/-! Leases -/

theorem Mem.renew_wf {m : Mem} (core line : Nat) (pts : Stamp) (lease : BitVec 8) (h : Memory.wf m = true) :
    Memory.wf (m.renew core line pts lease).1 = true := by
  unfold Mem.renew
  dsimp only
  split <;> simp only [Mem.seen_wf, Mem.setLease_wf] <;> exact h

theorem Mem.leaseJump_wf {m : Mem} (line : Nat) (pts : Stamp) (h : Memory.wf m = true) : Memory.wf (m.leaseJump line pts).1 = true := by
  unfold Mem.leaseJump
  dsimp only
  split <;> simp only [Mem.seen_wf, Mem.setLease_wf] <;> exact h

theorem Mem.hostStamp_wf {m : Mem} (line : Nat) (h : Memory.wf m = true) : Memory.wf (m.hostStamp line) = true := by
  have h1 : Memory.wf (if m.leased line then m.leaseJump line m.hr else (m, m.hr)).1 = true := by
    split
    · exact Mem.leaseJump_wf line m.hr h
    · exact h
  exact h1

/-! Keys, pages and discards -/

theorem Mem.dropOverlays_wf {m : Mem} (a n : Nat) (h : Memory.wf m = true) :
    Memory.wf { m with quad := m.quad.dropRange a n, l2 := m.l2.dropRange a n, cellar := m.cellar.dropRange a n } = true := by
  have hm := (Memory.wf_iff m).1 h
  rw [Memory.wf_iff]
  exact ⟨hm.1, hm.2.1, hm.2.2.1, Cells.rising_dropRange a n hm.2.2.2.1, Cells.rising_dropRange a n hm.2.2.2.2.1,
    Cells.rising_dropRange a n hm.2.2.2.2.2⟩

theorem Mem.discardLine_wf {m : Mem} (line : Nat) (h : Memory.wf m = true) : Memory.wf (m.discardLine line) = true :=
  Mem.dropOverlays_wf (m := ((m.recallRange (line * 128) 128).dropLease line).setPoison line false) (line * 128) 128
    (Mem.dropLease_wf line (Mem.recallRange_wf _ _ h))

theorem Mem.heat_wf {m : Mem} (entry lo : Nat) (h : Memory.wf m = true) : Memory.wf (m.heat entry lo) = true := by
  unfold Mem.heat
  dsimp only
  split
  · exact Mem.sliceWriteBytes_wf _ _ (Mem.reach_wf _ _ _ _ h)
  · exact h

theorem Mem.sweepEntry_wf {m : Mem} (a : Nat) (h : Memory.wf m = true) : Memory.wf (m.sweepEntry a) = true := by
  unfold Mem.sweepEntry
  dsimp only
  split
  · exact Mem.sliceWriteBytes_wf _ _ (Mem.reach_wf _ _ _ _ h)
  · exact h

theorem Mem.sweepLeaves_wf {m : Mem} (t : Nat) (h : Memory.wf m = true) : Memory.wf (m.sweepLeaves t) = true := by
  unfold Mem.sweepLeaves
  apply Memory.wf_foldl _ _ _ _ h
  intro m j hm
  split
  · exact hm
  · exact Mem.sweepEntry_wf _ hm

end Sys2Proof.Machine
end

