-- ==== Sys2Proof/Laws/Ops.lean ====
section
/-! SUPPORT. What each shared operation can do, said once: aborts and faults change no memory, an allotted or privileged instruction runs
its body or faults, and every operation at an ordering point keeps the canonical form of memory. -/
namespace Sys2Proof.Machine

/-- A fold keeps a property of the state when each of its steps does. -/
theorem State.foldl_keeps {α : Type} (P : State → Prop) (f : State → α → State) (hf : ∀ s x, P s → P (f s x)) :
    ∀ (l : List α) (s : State), P s → P (l.foldl f s)
  | [], _, h => h
  | x :: l, s, h => State.foldl_keeps P f hf l (f s x) (hf s x h)

/-! Groups in focus -/

@[simp] theorem State.focus_mem (s : State) (t : Nat) : (s.focus t).mem = s.mem := by
  unfold State.focus
  split
  · rfl
  · split <;> rfl

@[simp] theorem State.onGroup_mem (s : State) (t : Nat) (f : Group → Group) : (s.onGroup t f).mem = s.mem := by
  unfold State.onGroup; split <;> rfl

@[simp] theorem State.onCaravan_mem (s : State) (cv : Nat) (f : Caravan → Caravan) : (s.onCaravan cv f).mem = s.mem := rfl
@[simp] theorem State.setBank_mem (s : State) (b : Bank) : (s.setBank b).mem = s.mem := rfl
@[simp] theorem State.setRoom_mem (s : State) (r : Room) : (s.setRoom r).mem = s.mem := rfl
@[simp] theorem State.setRegion_mem (s : State) (r : Region) : (s.setRegion r).mem = s.mem := rfl
@[simp] theorem State.addEdge_mem (s : State) (die p q : Nat) : (s.addEdge die p q).mem = s.mem := rfl
@[simp] theorem State.dropRegion_mem (s : State) (r : Region) : (s.dropRegion r).mem = s.mem := rfl
@[simp] theorem State.abandonOf_mem (s : State) (t : Nat) : (s.abandonOf t).mem = s.mem := rfl
@[simp] theorem State.abandon_mem (s : State) : s.abandon.mem = s.mem := rfl
@[simp] theorem State.abandon_g (s : State) : s.abandon.g = s.g := rfl

/-! Aborts and faults -/

/-- An abort of one region changes no memory (R343). -/
@[simp] theorem State.abortOne_mem (s : State) (r : Region) (c : AbortCause) (fc ucode : BitVec 8) (nest jump : Bool) :
    (s.abortOne r c fc ucode nest jump).mem = s.mem := by
  unfold State.abortOne
  dsimp only
  split
  · split <;> simp
  · simp

@[simp] theorem State.abortSources_mem : ∀ (n : Nat) (s : State) (die : Nat) (gone : List Nat), (s.abortSources n die gone).mem = s.mem
  | 0, _, _, _ => rfl
  | n + 1, s, die, gone => by
    unfold State.abortSources
    split
    · rfl
    · rw [State.abortSources_mem n]; simp

/-- An abort with all that follows from it changes no memory (R343). -/
@[simp] theorem State.abortRegion_mem (s : State) (r : Region) (c : AbortCause) (fc ucode : BitVec 8) (nest jump : Bool) :
    (s.abortRegion r c fc ucode nest jump).mem = s.mem := by simp [State.abortRegion]

@[simp] theorem State.halt_mem (s : State) (f : FaultRecord) (d : Bool) : (s.halt f d).mem = s.mem := rfl

@[simp] theorem State.enterHandler_mem (s : State) (f : FaultRecord) (pl : Option IssuePlace) (d : Bool) :
    (s.enterHandler f pl d).mem = s.mem := by rw [State.enterHandler, State.useFree_mem, State.setG_mem]

/-- A precise cause does one of three things: the group halts, enters its handler, or stands still until its lane stream has drained and
the vector can be read (R367, R369, R383). -/
theorem State.deliver_cases (s : State) (f : FaultRecord) (pl : Option IssuePlace) :
    s.deliver f pl = s.halt f false ∨
    (s.g.hmode = false ∧ s.g.inflight = [] ∧ s.vectorHeld = false ∧ (s.handler s.g.asn).1 ≠ 0 ∧
      s.deliver f pl = s.abandon.enterHandler f pl false) ∨
    (s.g.hmode = false ∧ (s.g.inflight ≠ [] ∨ s.vectorHeld = true) ∧
      s.deliver f pl = s.abandon.setG fun g => { g with stopped := some (f, pl), wait := g.wait.filter (·.arrived) }) := by
  by_cases h : s.g.hmode = true
  · exact .inl (by rw [State.deliver, if_pos h])
  · have h' : s.g.hmode = false := by simpa using h
    by_cases e : (s.g.inflight.isEmpty && !s.vectorHeld) = true
    · by_cases z : (s.handler s.g.asn).1 = 0
      · exact .inl (by rw [State.deliver, if_neg h, if_pos e, if_pos z])
      · rw [Bool.and_eq_true, List.isEmpty_iff, Bool.not_eq_true'] at e
        exact .inr (.inl ⟨h', e.1, e.2, z, by rw [State.deliver, if_neg h, if_pos (by rw [e.1, e.2]; rfl), if_neg z]⟩)
    · refine .inr (.inr ⟨h', ?_, by rw [State.deliver, if_neg h, if_neg e]⟩)
      cases hi : s.g.inflight with
      | nil => exact .inr (by simpa [hi] using e)
      | cons x l => exact .inl (List.cons_ne_nil _ _)

@[simp] theorem State.deliver_mem (s : State) (f : FaultRecord) (pl : Option IssuePlace) : (s.deliver f pl).mem = s.mem := by
  rcases State.deliver_cases s f pl with h | ⟨_, _, _, _, h⟩ | ⟨_, _, h⟩ <;> rw [h]
  · exact State.halt_mem _ _ _
  · rw [State.enterHandler_mem, State.abandon_mem]
  · rw [State.setG_mem, State.abandon_mem]

@[simp] theorem State.answered_mem (s : State) (c : Cause) : (s.answered c).mem = s.mem := by
  unfold State.answered; split <;> rfl

@[simp] theorem State.answered_regions (s : State) (c : Cause) : (s.answered c).region = s.region := by
  unfold State.answered; split <;> rfl

@[simp] theorem State.raise_mem (s : State) (f : FaultRecord) (pl : Option IssuePlace) : (s.raise f pl).mem = s.mem := by
  unfold State.raise
  dsimp only
  split
  · split <;> simp
  · simp

/-- Outside a region a cause is delivered as it is (R343, R367). -/
theorem State.raise_plain {s : State} (h : s.region = none) (f : FaultRecord) (pl : Option IssuePlace) : s.raise f pl = (s.answered f.cause).deliver f pl := by
  unfold State.raise; dsimp only; rw [State.answered_regions, h]

@[simp] theorem State.scalarFault_mem (s : State) (c : Cause) (i : Info) (a : Word64) (m : Mask) : (s.scalarFault c i a m).mem = s.mem :=
  State.raise_mem _ _ _

@[simp] theorem State.laneFault_mem (s : State) (c : Cause) (m : Mask) (i : Info) (a : Word64) : (s.laneFault c m i a).mem = s.mem := by
  unfold State.laneFault
  split
  · rfl
  · rw [State.raise_mem]; rfl

@[simp] theorem State.deferFault_mem (s : State) (f : FaultRecord) (own : Bool) : (s.deferFault f own).mem = s.mem := by
  unfold State.deferFault
  extract_lets u
  have hu : u.mem = s.mem := State.answered_mem s _
  clear_value u
  rw [← hu]
  split
  · rfl
  · split
    · split <;> rfl
    · split
      · extract_lets s1
        have h1 : s1.mem = u.mem := State.abortRegion_mem _ _ _ _ _ _ _
        clear_value s1
        rw [← h1]
        split <;> rfl
      · split <;> rfl

@[simp] theorem State.conflictWrite_mem (s : State) (line : Nat) : (s.conflictWrite line).mem = s.mem := by
  have go : ∀ (n : Nat) (s : State), (State.conflictWrite.go line n s).mem = s.mem := by
    intro n
    induction n with
    | zero => intro s; rfl
    | succ n ih =>
      intro s
      unfold State.conflictWrite.go
      split
      · rw [ih]; simp
      · rfl
  exact go 128 s

/-- A precise cause of a lane instruction that has issued does one of three things (R368, R369): it halts the group, leaves its
instruction to execute again, or is raised. -/
theorem State.stopAt_cases (s : State) (f : FaultRecord) (pl : IssuePlace) (inHandler : Bool) :
    s.stopAt f pl inHandler = s.halt f false ∨ s.stopAt f pl inHandler = (s.setG fun g => { g with redo := g.redo ++ [pl] }) ∨
      s.stopAt f pl inHandler = s.raise f (some pl) := by
  unfold State.stopAt
  split
  · exact .inl rfl
  · split
    · exact .inr (.inl rfl)
    · exact .inr (.inr rfl)

@[simp] theorem State.stopAt_mem (s : State) (f : FaultRecord) (pl : IssuePlace) (inHandler : Bool) :
    (s.stopAt f pl inHandler).mem = s.mem := by
  rcases State.stopAt_cases s f pl inHandler with h | h | h <;> rw [h]
  · rfl
  · rfl
  · exact State.raise_mem _ _ _

@[simp] theorem State.lateCause_mem (s : State) (e : SbEntry) (c : Cause) : (s.lateCause e c).mem = s.mem := by
  unfold State.lateCause
  extract_lets f
  split
  · split
    · exact State.deferFault_mem _ _ _
    · exact State.stopAt_mem _ _ _ _
  · exact State.deferFault_mem _ _ _

/-! Watched words and logical time: neither changes what memory holds (R101, R327, R353) -/

@[simp] theorem State.wrote_mem (s : State) (hit : Target → Nat → Bool) : (s.wrote hit).mem = s.mem := by
  unfold State.wrote
  extract_lets s1
  have h1 : s1.mem = s.mem := by simp only [s1]; split <;> rfl
  clear_value s1
  split
  · exact h1
  · exact h1

theorem State.wrote_memWf {s : State} (hit : Target → Nat → Bool) (h : s.memWf) : (s.wrote hit).memWf := by
  rw [State.memWf, State.wrote_mem]; exact h

theorem State.withMem_memWf {s : State} {m : Mem} (h : Memory.wf m = true) : ({ s with mem := m } : State).memWf := h

/-- The floor's advance discards copies and changes no byte of memory (R101). -/
theorem State.advanceFloor_memWf {s : State} (h : s.memWf) : s.advanceFloor.memWf := by
  unfold State.advanceFloor
  split
  · exact h
  · exact h

theorem State.leaseJump_memWf {s : State} (line : Nat) (pts : Stamp) (h : s.memWf) : (s.leaseJump line pts).1.memWf :=
  State.advanceFloor_memWf (State.withMem_memWf (Mem.leaseJump_wf line pts h))

theorem State.discardNones_memWf {s : State} (core : Nat) (h : s.memWf) : (s.discardNones core).memWf :=
  State.wrote_memWf _ (State.withMem_memWf (Mem.discardNone_wf core h))

/-- A core's cache keeps within its ways, and memory keeps its form (R127). -/
theorem State.fitCache_memWf : ∀ (n : Nat) {s : State} (core line : Nat), s.memWf → (s.fitCache n core line).memWf
  | 0, _, _, _, h => h
  | n + 1, s, core, line, h => by
    unfold State.fitCache
    extract_lets pins held lines
    split
    · exact h
    · split
      · exact h
      · exact State.fitCache_memWf n core line (State.wrote_memWf _ (State.withMem_memWf (Mem.evictCached_wf core _ h)))

theorem State.fitCore_memWf {s : State} (core pa : Nat) (h : s.memWf) : (s.fitCore core pa).memWf := by
  unfold State.fitCore
  split
  · exact h
  · exact State.foldl_keeps State.memWf _ (fun _ _ hs => State.fitCache_memWf 64 _ _ hs) _ s h

theorem State.fit_memWf {s : State} (pa : Nat) (h : s.memWf) : (s.fit pa).memWf := State.fitCore_memWf _ pa h

theorem State.fitFresh_memWf {s : State} (h : s.memWf) : s.fitFresh.memWf := by
  unfold State.fitFresh
  split
  · exact h
  · have h0 : ({ s with mem := { s.mem with fresh := [] } } : State).memWf := h
    generalize ({ s with mem := { s.mem with fresh := [] } } : State) = u at h0
    exact State.foldl_keeps State.memWf (fun (s : State) (x : Nat × Nat) => s.fitCore x.1 x.2) (fun _ _ hs => State.fitCore_memWf _ _ hs) _ u h0

/-! Checks before an instruction's own meaning (R10, R25, R48, R337) -/

theorem withRegs_ok {rs : List (BitVec 6)} {s : State} (body : State → State) (h : ∀ r ∈ rs, s.g.hasS r = true) :
    withRegs rs body s = body s := by
  unfold withRegs; rw [if_pos]; simpa using h

theorem withRegs_bad {rs : List (BitVec 6)} {s : State} (body : State → State) {r : BitVec 6} (hr : r ∈ rs) (h : s.g.hasS r = false) :
    withRegs rs body s = s.scalarFault .regbound := by
  unfold withRegs; rw [if_neg]; simp only [List.all_eq_true]; intro all; rw [all r hr] at h; exact absurd h (by simp)

theorem privileged_ok {s : State} (body : State → State) (h : s.g.hmode = true) : privileged body s = body s := by
  unfold privileged; rw [if_pos h]

theorem privileged_bad {s : State} (body : State → State) (h : s.g.hmode = false) : privileged body s = s.scalarFault .priv := by
  unfold privileged; rw [if_neg (by simp [h])]

theorem outsideRegion_ok {s : State} (body : State → State) (h : s.region = none) : outsideRegion body s = body s := by
  unfold outsideRegion; rw [h]

theorem outsideRegion_bad {s : State} (body : State → State) {r : Region} (h : s.region = some r) :
    outsideRegion body s = s.abortRegion r .mode 0 0 false true := by
  unfold outsideRegion; rw [h]

/-! Banks -/

/-- A FIFO access is served, or stands in the bank's queue with nothing else changed (R133). -/
theorem State.fifoTurn_cases (s : State) (bank : Nat) (nf ne : Nat) (serve : State → State) :
    (∃ b, s.fifoTurn bank nf ne serve = serve (s.setBank b)) ∨ s.fifoTurn bank nf ne serve = s ∨
      ∃ b, s.fifoTurn bank nf ne serve = s.setBank b := by
  unfold State.fifoTurn
  dsimp only
  split
  · exact .inl ⟨_, rfl⟩
  · split
    · exact .inr (.inl rfl)
    · exact .inr (.inr ⟨_, rfl⟩)

@[simp] theorem State.itemHit_mem (s : State) (g : Group) (off n : Nat) (i : WorkItem) : (s.itemHit g off n i).mem = s.mem := by
  unfold State.itemHit
  split
  · dsimp only
    split
    · rfl
    · exact State.onGroup_mem _ _ _
  · rfl

@[simp] theorem State.operandWrite_mem (s : State) (bank off n : Nat) : (s.operandWrite bank off n).mem = s.mem := by
  unfold State.operandWrite
  apply State.foldl_keeps (fun t => t.mem = s.mem)
  · intro t g h
    split
    · exact h
    · apply State.foldl_keeps (fun u => u.mem = s.mem)
      · intro u i hu; rw [State.itemHit_mem]; exact hu
      · exact h
  · rfl

/-- A write at a bank's port keeps the form of scratch (R19, R158). -/
theorem State.setBankBytes_memWf {s : State} (bank off : Nat) (bs : List Byte) (h : s.memWf) : (s.setBankBytes bank off bs).memWf := by
  apply State.wrote_memWf
  rw [State.memWf, State.operandWrite_mem]
  exact Mem.wf_scratch h (Cells.canonical_setBytes bs _ ((Memory.wf_iff _).1 h).2.2.1)

/-! Loads and stores -/

theorem Mem.reachAll_wf {m : Mem} (ls : List Nat) (h : Memory.wf m = true) :
    Memory.wf (ls.foldl (fun (m : Mem) l => m.reach l false 0 false) m) = true :=
  Memory.wf_foldl (fun (m : Mem) l => m.reach l false 0 false) (fun _ l hm => Mem.reach_wf l false 0 false hm) ls m h

theorem State.noteAccess_memWf {s : State} (g : Group) (va : Word64) (m : Mapping) (k : AccessKind) (h : s.memWf) :
    (s.noteAccess g va m k).memWf := by
  unfold State.noteAccess
  extract_lets w m0
  have h0 : Memory.wf m0 = true := Mem.reachAll_wf _ h
  clear_value m0
  split
  · split
    · apply State.withMem_memWf; rw [Mem.fillTlb_wf]; exact Mem.heat_wf _ _ h
    · apply State.withMem_memWf; rw [Mem.fillTlb_wf]; exact h
  · apply State.withMem_memWf; rw [Mem.fillTlb_wf]; exact Mem.heat_wf _ _ h0

theorem State.notePlace_memWf {s : State} (p : Place) (k : AccessKind) (h : s.memWf) : (s.notePlace p k).memWf := by
  unfold State.notePlace
  split
  · exact State.noteAccess_memWf _ _ _ _ h
  · exact h

theorem Mem.plainCells_wf {m : Mem} (bs : List (Nat × Byte)) (h : Memory.wf m = true) :
    Memory.wf (bs.foldl (fun (m : Mem) x => m.plainWrite x.1 x.2) m) = true :=
  Memory.wf_foldl (fun (m : Mem) (x : Nat × Byte) => m.plainWrite x.1 x.2) (fun _ x hm => Mem.plainWrite_wf x.1 x.2 hm) bs m h

theorem Mem.dirCells_wf {m : Mem} (grain : BitVec 2) (core : Nat) (bs : List (Nat × Byte)) (h : Memory.wf m = true) :
    Memory.wf (bs.foldl (fun (m : Mem) x => m.dirStore x.1 grain core x.2) m) = true :=
  Memory.wf_foldl (fun (m : Mem) (x : Nat × Byte) => m.dirStore x.1 grain core x.2) (fun _ x hm => Mem.dirStore_wf x.1 grain core x.2 hm) bs m h

theorem Mem.noneCells_wf {m : Mem} (core : Nat) (bs : List (Nat × Byte)) (h : Memory.wf m = true) :
    Memory.wf (bs.foldl (fun (m : Mem) x => m.noneStore core x.1 x.2) m) = true :=
  Memory.wf_foldl (fun (m : Mem) (x : Nat × Byte) => m.noneStore core x.1 x.2) (fun m x hm => (Mem.noneStore_wf m core x.1 x.2).trans hm) bs m h

theorem Mem.recallCells_wf {m : Mem} (bs : List (Nat × Byte)) (h : Memory.wf m = true) :
    Memory.wf (bs.foldl (fun (m : Mem) x => m.recallHome x.1 1) m) = true :=
  Memory.wf_foldl (fun (m : Mem) (x : Nat × Byte) => m.recallHome x.1 1) (fun _ x hm => Mem.recallHome_wf x.1 1 hm) bs m h

/-- The bytes of a store to one line keep the form, under every mapping (R86, R89, R97, R102). -/
theorem State.storeLine_memWf {s : State} (pa : Nat) (coh : Coh) (grain : BitVec 2) (enc : Bool) (key : BitVec 13)
    (bs : List (Nat × Byte)) (h : s.memWf) : (s.storeLine pa coh grain enc key bs).memWf := by
  unfold State.storeLine
  extract_lets line core whole reached plain md mn
  have hr : Memory.wf reached = true := by
    simp only [reached]
    split
    · exact Mem.reach_wf _ _ _ _ h
    · exact h
  have hp : ∀ m : Mem, Memory.wf m = true → Memory.wf (plain m) = true := fun m hm => Mem.plainCells_wf bs hm
  have hd : Memory.wf md = true := by
    simp only [md]
    split
    · exact h
    · exact hr
  have hn : Memory.wf mn = true := by
    simp only [mn]
    apply Mem.fetchNone_wf
    split
    · exact h
    · exact Mem.hostAside_wf line hr
  clear_value md mn
  clear_value reached plain
  cases coh
  · dsimp only
    split
    · exact State.fit_memWf pa (State.withMem_memWf (Mem.dirCells_wf grain core bs hd))
    · apply State.withMem_memWf
      apply hp
      split
      · exact Mem.recallCells_wf bs hr
      · exact hr
  · exact State.withMem_memWf (hp _ (Mem.hostAside_wf line hr))
  · dsimp only
    split
    · exact State.fit_memWf pa (State.withMem_memWf (Mem.noneCells_wf core bs hn))
    · exact State.withMem_memWf (hp _ (Mem.hostAside_wf line hr))

theorem State.storeBytes_memWf {s : State} (bs : List (Target × Byte)) (h : s.memWf) : (s.storeBytes bs).memWf := by
  unfold State.storeBytes
  split
  · exact State.storeLine_memWf _ _ _ _ _ _ h
  · apply State.foldl_keeps State.memWf _ _ bs s h
    intro s x hs
    split
    · exact State.setBankBytes_memWf _ _ _ hs
    · exact hs

theorem State.cleanStored_memWf {s : State} (bs : List (Target × Byte)) (h : s.memWf) : (s.cleanStored bs).memWf := by
  unfold State.cleanStored
  split
  · split
    · exact State.withMem_memWf (by rw [Mem.setPoison_wf]; exact h)
    · exact h
  · exact h

theorem State.conflictWrite_memWf {s : State} (line : Nat) (h : s.memWf) : (s.conflictWrite line).memWf := by
  rw [State.memWf, State.conflictWrite_mem]; exact h

/-- Performing a store entry keeps the form (R97, R147, R341). -/
theorem State.performStore_memWf {s : State} (bs : List (Target × Byte)) (pts : Stamp) (h : s.memWf) : (s.performStore bs pts).1.memWf := by
  unfold State.performStore
  split
  · next pa coh _ _ _ _ _ =>
    extract_lets s1
    have h1 : s1.memWf := State.cleanStored_memWf _ (State.storeBytes_memWf _ (State.conflictWrite_memWf (pa / 128) h))
    clear_value s1
    split
    · exact State.wrote_memWf _ (State.leaseJump_memWf _ _ h1)
    · exact State.wrote_memWf _ h1
  · exact State.storeBytes_memWf _ h

@[simp] theorem State.notePoison_wf (s : State) (m : Mem) (a : Nat) : Memory.wf (s.notePoison m a) = Memory.wf m := by
  unfold State.notePoison
  split
  · exact Mem.note_wf _ _ _
  · rfl

/-- Poison met at a place keeps the form. -/
theorem State.poisonMet_memWf {s : State} {m : Mem} (a : Nat) (h : Memory.wf m = true) :
    ({ s with mem := s.notePoison m a } : State).memWf := State.withMem_memWf (by rw [State.notePoison_wf]; exact h)

theorem State.ite_fst_memWf {α : Type} {c : Prop} [Decidable c] {x y : State × α} (hx : x.1.memWf) (hy : y.1.memWf) :
    (if c then x else y).1.memWf := by split <;> assumption

/-- A load outside a region keeps the form (R86, R89, R96, R102). -/
theorem State.plainLoad_memWf {s : State} (p : Place) (n : Nat) (keep lend : Bool) (h : s.memWf) : (s.plainLoad p n keep lend).1.memWf := by
  unfold State.plainLoad
  extract_lets line core caches held reached m0 own answer md gg use mn
  have hr : Memory.wf reached = true := by
    simp only [reached]
    split
    · exact Mem.reach_wf _ _ _ _ h
    · exact h
  have h0 : Memory.wf m0 = true := by
    simp only [m0]
    split
    · exact hr
    · exact Mem.hostAside_wf _ hr
  have hu : ∀ (m : Mem) (c : LeaseCopy), Memory.wf m = true → (use m c).1.memWf := fun m c hm =>
    State.fit_memWf p.pa (State.advanceFloor_memWf (State.withMem_memWf (s := { s with g := { s.g with pts := maxS s.g.pts c.wts } }) hm))
  have hd : Memory.wf md = true := Mem.dirLoad_wf p.pa p.grain core h0
  have hn : Memory.wf mn = true := Mem.fetchNone_wf core line p.enc p.key h0
  clear_value md mn use answer
  clear_value m0 held reached
  refine State.ite_fst_memWf h (State.ite_fst_memWf (State.poisonMet_memWf (s := s) p.pa h0) ?_)
  split
  · exact State.ite_fst_memWf (State.fit_memWf p.pa (State.withMem_memWf hd)) (State.withMem_memWf h0)
  · split
    · exact hu _ _ ((Mem.setCopy_wf _ _).trans h0)
    · have hn := Mem.renew_wf core line s.g.pts s.svc.lease h0
      dsimp only
      generalize m0.renew core line s.g.pts s.svc.lease = z at hn
      apply hu
      split
      · exact (Mem.setCopy_wf _ _).trans hn
      · exact hn
  · exact State.ite_fst_memWf (State.fit_memWf p.pa (State.withMem_memWf hn)) (State.withMem_memWf h0)

theorem State.regionLoad_memWf {s : State} (r : Region) (a n : Nat) (h : s.memWf) : (s.regionLoad r a n).1.memWf := by
  unfold State.regionLoad
  extract_lets line addrs ps value sup depth s1 r1
  refine State.ite_fst_memWf h (State.ite_fst_memWf h ?_)
  split
  · exact h
  · refine State.ite_fst_memWf h ?_
    show Memory.wf (s1.setRegion r1).mem = true
    rw [State.setRegion_mem]
    exact State.foldl_keeps (fun t => Memory.wf t.mem = true) _ (fun t x ht => by rw [State.addEdge_mem]; exact ht) _ s h

theorem State.lineLoad_memWf {s : State} (p : Place) (n : Nat) (keep : Bool) (h : s.memWf) : (s.lineLoad p n keep).1.memWf := by
  unfold State.lineLoad
  split
  · exact State.plainLoad_memWf p n keep keep h
  · next r _ =>
    refine State.ite_fst_memWf h (State.ite_fst_memWf h ?_)
    have h1 := State.plainLoad_memWf p n keep keep h
    generalize s.plainLoad p n keep keep = z at h1
    obtain ⟨s1, res⟩ := z
    cases res
    case fault => exact h1
    all_goals exact State.regionLoad_memWf _ _ _ h1

/-- A fold with an accumulator beside the state keeps the form when each of its steps does. -/
theorem State.foldl_fst_memWf {α β : Type} (f : State × β → α → State × β) (hf : ∀ acc x, acc.1.memWf → (f acc x).1.memWf) :
    ∀ (l : List α) (acc : State × β), acc.1.memWf → (l.foldl f acc).1.memWf
  | [], _, h => h
  | x :: l, acc, h => State.foldl_fst_memWf f hf l (f acc x) (hf acc x h)

/-- Every load keeps the form (R146). -/
theorem State.memLoad_memWf {s : State} (p : Place) (n : Nat) (keep : Bool) (h : s.memWf) : (s.memLoad p n keep).1.memWf := by
  unfold State.memLoad
  apply State.foldl_fst_memWf _ _ _ _ h
  rintro ⟨u, r⟩ x hu
  cases r
  case ok bs =>
    dsimp only
    have h1 := State.lineLoad_memWf (s := u) { p with pa := p.pa + x.1 } x.2 keep hu
    generalize u.lineLoad { p with pa := p.pa + x.1 } x.2 keep = z at h1
    obtain ⟨s1, r1⟩ := z
    cases r1 <;> exact h1
  all_goals exact hu

/-! Fences -/

theorem State.discarded_memWf {s : State} (sc : Scope) (h : s.memWf) :
    (if Scope.quadOrWider sc then s.discardNones s.g.coreNo else s).memWf := by
  split
  · exact State.discardNones_memWf _ h
  · exact h

theorem State.fence_memWf {s : State} (sc : Scope) (h : s.memWf) : (s.fence sc).memWf := by
  unfold State.fence
  extract_lets s1 pts m0 m1
  have h1 : s1.memWf := State.discarded_memWf sc h
  have hm : Memory.wf m1 = true := by
    simp only [m1, m0]
    split
    · exact h1
    · exact h1
  clear_value m1
  clear_value m0
  clear_value s1
  exact State.advanceFloor_memWf (State.withMem_memWf (s := { s1 with g := { s1.g with pts := pts } }) hm)

theorem State.acquire_memWf {s : State} (sc : Scope) (h : s.memWf) : (s.acquire sc).memWf := by
  unfold State.acquire
  extract_lets s1
  have h1 : s1.memWf := State.discarded_memWf sc h
  exact h1

/-! Operations at ordering points -/

theorem State.dropNone_memWf {s : State} (pa : Nat) (h : s.memWf) : (s.dropNone pa).memWf := by
  unfold State.dropNone
  split
  · exact h
  · next x _ =>
    extract_lets m
    have hm : Memory.wf m = true := Mem.writeNone_wf x h
    clear_value m
    have hf : Memory.wf { m with nones := m.nones.filter fun y => !(y.core = s.g.coreNo && y.line = pa / 128) } = true := hm
    exact State.wrote_memWf _ (State.withMem_memWf (s := s) hf)

theorem State.toSlice_memWf {s : State} (pa n : Nat) (coh : Coh) (enc : Bool) (key : BitVec 13) (h : s.memWf) :
    (s.toSlice pa n coh enc key).memWf := by
  unfold State.toSlice
  extract_lets s1 m
  have h1 : s1.memWf := by
    simp only [s1]
    split
    · exact State.dropNone_memWf pa h
    · exact h
  have hm : Memory.wf m = true := Mem.reach_wf _ _ _ _ h1
  clear_value m
  clear_value s1
  split
  · apply State.withMem_memWf
    split
    · exact Mem.recallHome_wf _ _ hm
    · exact Mem.hostAside_wf _ hm
  · exact h1

theorem State.jumpLines_memWf {s : State} (coh : Coh) (pts : Stamp) (lines : List Nat) (h : s.memWf) :
    (s.jumpLines coh pts lines).1.memWf := by
  unfold State.jumpLines
  split
  · refine State.foldl_fst_memWf _ ?_ lines (s, pts) h
    intro acc l ha
    exact State.leaseJump_memWf l pts ha
  · exact h

theorem Mem.plainWrites_wf {m : Mem} (pa n : Nat) (bs : List Byte) (h : Memory.wf m = true) :
    Memory.wf ((List.range n).foldl (fun m i => m.plainWrite (pa + i) (bs[i]?.getD 0)) m) = true :=
  Memory.wf_foldl (fun (m : Mem) (i : Nat) => m.plainWrite (pa + i) (bs[i]?.getD 0)) (fun _ _ hm => Mem.plainWrite_wf _ _ hm) _ m h

/-- A read and write at an ordering point keeps the form, where its stamp does (R146, R163). -/
theorem State.readWrite_memWf {s : State} (t : Target) (n : Nat) (stamp : State → State × Stamp) (f : Nat → Option Nat)
    (hs : ∀ u : State, u.memWf → (stamp u).1.memWf) (h : s.memWf) : (s.readWrite t n stamp f).1.memWf := by
  unfold State.readWrite
  split
  · extract_lets old r
    have hr : r.1.memWf := hs s h
    clear_value r
    refine State.ite_fst_memWf h ?_
    split
    · exact State.setBankBytes_memWf _ _ _ hr
    · exact hr
  · next pa coh _ enc key =>
    extract_lets s1 old s0 s2 r
    have h1 : s1.memWf := State.toSlice_memWf pa n coh enc key h
    have h2 : s2.memWf := by
      simp only [s2]
      split
      · exact State.withMem_memWf (Mem.plainWrites_wf pa n _ (State.conflictWrite_memWf (pa / 128) h1))
      · exact h1
    have hr : r.1.memWf := hs s2 h2
    clear_value r
    clear_value s2
    clear_value s0
    clear_value s1
    refine State.ite_fst_memWf h (State.ite_fst_memWf (State.poisonMet_memWf (s := s1) pa h1) ?_)
    dsimp only
    split
    · exact State.wrote_memWf _ hr
    · exact hr

/-- An indivisible read and write keeps the form (R146, R163). -/
theorem State.indivisible_memWf {s : State} (t : Target) (n : Nat) (pts : Stamp) (f : Nat → Option Nat) (h : s.memWf) :
    (s.indivisible t n pts f).1.memWf := by
  apply State.readWrite_memWf _ _ _ _ _ h
  intro u hu
  cases t
  · exact hu
  · exact State.jumpLines_memWf _ _ _ hu

theorem State.writeDeque_memWf {s : State} (pa : Nat) (d : Deque) (es : List (Nat × Word64)) (h : s.memWf) : (s.writeDeque pa d es).memWf := by
  unfold State.writeDeque
  extract_lets s1
  have h1 : s1.memWf := State.foldl_keeps State.memWf _ (fun _ _ ht => State.conflictWrite_memWf _ ht) es _ (State.conflictWrite_memWf _ h)
  exact State.withMem_memWf
    (Memory.wf_foldl (fun (m : Mem) (e : Nat × Word64) => m.plainBytes (pa + e.1) (leBytes 8 e.2.toNat))
      (fun _ e hm => Mem.plainBytes_wf _ _ hm) es _ (Mem.plainBytes_wf _ pa h1))

theorem State.dequeWrote_memWf {s : State} (coh : Coh) (pts : Stamp) (lines : List Nat) (h : s.memWf) :
    (s.dequeWrote coh pts lines).1.memWf := State.wrote_memWf _ (State.jumpLines_memWf coh pts lines h)

theorem State.dequeBlock_memWf {s : State} (pa : Nat) (coh : Coh) (enc : Bool) (key : BitVec 13) (h : s.memWf) :
    (s.dequeBlock pa coh enc key).memWf :=
  State.foldl_keeps State.memWf _ (fun _ _ hs => State.toSlice_memWf _ _ _ _ _ hs) _ s h

/-- A deque operation keeps the form (R332). -/
theorem State.dequeAt_memWf {s : State} (t : Target) (pts : Stamp) (op : DequeOp) (h : s.memWf) : (s.dequeAt t pts op).1.memWf := by
  unfold State.dequeAt
  split
  · exact h
  · next pa coh _ enc key =>
    extract_lets s1 d
    have h1 : s1.memWf := State.dequeBlock_memWf pa coh enc key h
    clear_value d
    clear_value s1
    refine State.ite_fst_memWf h (State.ite_fst_memWf (State.poisonMet_memWf (s := s1) pa h1) ?_)
    split
    · exact h1
    · exact State.dequeWrote_memWf _ _ _ (State.writeDeque_memWf _ _ _ h1)

theorem State.bulkOne_memWf (pa : Nat) (push : Bool) (acc : State × OpRes × List Nat × Bool) (x : Nat × Word64) (h : acc.1.memWf) :
    (State.bulkOne pa push acc x).1.memWf := by
  obtain ⟨s, r, ls, bad⟩ := acc
  simp only [State.bulkOne]
  refine State.ite_fst_memWf h (State.ite_fst_memWf h ?_)
  split
  · exact State.writeDeque_memWf _ _ _ h
  · exact h

/-- Bulk pushes and pops keep the form (R183). -/
theorem State.bulkAt_memWf {s : State} (t : Target) (pts : Stamp) (push : Bool) (lanes : List (Nat × Word64)) (h : s.memWf) :
    (s.bulkAt t pts push lanes).1.memWf := by
  unfold State.bulkAt
  split
  · exact h
  · next pa coh _ enc key =>
    extract_lets s1
    have h1 : s1.memWf := State.dequeBlock_memWf pa coh enc key h
    clear_value s1
    refine State.ite_fst_memWf h (State.ite_fst_memWf (State.poisonMet_memWf (s := s1) pa h1) (State.ite_fst_memWf h1 ?_))
    have h2 := State.foldl_fst_memWf _ (State.bulkOne_memWf pa push) lanes (s1, ({ stamp := pts } : OpRes), [pa / 128], false) h1
    generalize lanes.foldl (State.bulkOne pa push) (s1, ({ stamp := pts } : OpRes), [pa / 128], false) = z at h2
    obtain ⟨s2, r, ls, bad⟩ := z
    exact State.ite_fst_memWf h1 (State.dequeWrote_memWf _ _ _ h2)

theorem State.combine_memWf {s : State} (t : Target) (pts : Stamp) (lane opc : Nat) (ty : Ty) (v : Nat) (h : s.memWf) :
    (s.combine t pts lane opc ty v).1.memWf := by
  have h1 := State.indivisible_memWf t ty.esize pts (fun old => some (redOp opc ty (old, 0) (v, 0)).1) h
  unfold State.combine
  split
  · next e => rw [e] at h1; exact h1
  · next e => rw [e] at h1; exact h1

theorem State.acceptRed_memWf {s : State} (t : Target) (pts : Stamp) (h : s.memWf) : (s.acceptRed t pts).1.memWf := by
  unfold State.acceptRed
  split
  · exact h
  · exact State.jumpLines_memWf _ _ _ h

/-- A contribution keeps the form (R177). -/
theorem State.redAt_memWf {s : State} (t : Target) (pts : Stamp) (opc : Nat) (ty : Ty) (val : Word64) (die core slot lane : Nat)
    (h : s.memWf) : (s.redAt t pts opc ty val die core slot lane).1.memWf := by
  unfold State.redAt
  split
  · exact h
  · next pa coh grain enc key =>
    refine State.ite_fst_memWf h ?_
    split
    · exact State.combine_memWf _ _ _ _ _ _ h
    · next r _ =>
      extract_lets r1 rest m1 s1
      refine State.ite_fst_memWf ?_ ?_
      · generalize r1.root = z
        obtain ⟨root, fl⟩ := z
        dsimp only
        have h1 := State.combine_memWf (s := s1) (.mem pa coh grain enc key) pts lane r1.opc r1.ty root h
        split
        · next e =>
          rw [e] at h1
          refine State.foldl_fst_memWf _ ?_ r1.late (_, _) h1
          rintro ⟨u, res⟩ x hu
          have h2 := State.combine_memWf (s := u) (.mem pa coh grain enc key) pts lane x.1 x.2.1 x.2.2.toNat hu
          dsimp only
          split
          · next e2 => rw [e2] at h2; exact h2
          · next e2 => rw [e2] at h2; exact h2
        · exact h1
      · exact State.acceptRed_memWf _ _ h

/-- Adds to counters keep the form (R181). -/
theorem State.countAt_memWf (t : TransReg) (pts : Stamp) : ∀ (l : List (Nat × Nat)) {s : State}, s.memWf → (s.countAt t pts l).1.memWf
  | [], _, h => h
  | (id, by_) :: rest, s, h => by
    unfold State.countAt
    split
    · exact State.countAt_memWf t pts rest h
    · have h1 := State.indivisible_memWf (.mem (t.pbase + 4 * id) t.coh t.grain t.enc t.key) 4 pts (fun old => some ((old + by_) % 2 ^ 32)) h
      split
      · next e => rw [e] at h1; exact State.countAt_memWf t pts rest h1
      · next e => rw [e] at h1; exact State.countAt_memWf t pts rest h1

/-- An insertion keeps the form (R181). -/
theorem State.tkiAt_memWf {s : State} (t : Target) (pts : Stamp) (k : Nat) (e : Word32) (hist : Option TransReg) (h : s.memWf) :
    (s.tkiAt t pts k e hist).1.memWf := by
  unfold State.tkiAt
  extract_lets value
  have h1 := State.indivisible_memWf t 16 pts (fun old => some (value (tkiStep k e (tkiEntries old)).1)) h
  split
  · next e1 => rw [e1] at h1; exact h1
  · next s1 old st e1 =>
    rw [e1] at h1
    dsimp only
    split
    · exact h1
    · exact State.countAt_memWf _ _ _ h1

theorem State.drainElem_memWf {s : State} (add : Bool) (ty : Ty) (pts : Stamp) (x : Target × Word64) (h : s.memWf) :
    (s.drainElem add ty pts x).1.memWf := by
  unfold State.drainElem
  split
  · have h1 := State.indivisible_memWf x.1 ty.esize pts (fun old => some (fAdd ty 1 false old x.2.toNat).1) h
    split
    · next e => rw [e] at h1; exact h1
    · next e => rw [e] at h1; exact h1
  · split
    · exact State.setBankBytes_memWf _ _ _ h
    · next pa _ _ _ _ _ =>
      exact State.ite_fst_memWf h (State.ite_fst_memWf (State.poisonMet_memWf (s := s) pa h) (State.performStore_memWf _ _ h))

/-- A tile drain keeps the form (R282). -/
theorem State.drainAt_memWf {s : State} (pts : Stamp) (add : Bool) (ty : Ty) (es : List (Target × Word64)) (h : s.memWf) :
    (s.drainAt pts add ty es).1.memWf := by
  unfold State.drainAt
  refine State.ite_fst_memWf h ?_
  refine State.foldl_fst_memWf _ ?_ es (s, pts, 0, none) h
  rintro ⟨u, t, fl, c⟩ x hu
  have h1 := State.drainElem_memWf add ty pts x hu
  dsimp only
  split
  · next e => rw [e] at h1; exact h1
  · next e => rw [e] at h1; exact h1

/-- Every operation at an ordering point keeps the form (R75). -/
theorem State.opAt_memWf {s : State} (t : Target) (pts : Stamp) (lane : Nat) (o : MemOp) (h : s.memWf) : (s.opAt t pts lane o).1.memWf := by
  cases o with
  | rmw code ty size x y cvm =>
    have h1 := State.indivisible_memWf t size pts (fun old => some (atomicOp code ty x.toNat y.toNat cvm old).1) h
    simp only [State.opAt]
    split
    · next e => rw [e] at h1; exact h1
    · next e => rw [e] at h1; exact h1
  | red opc ty val die core slot l => exact State.redAt_memWf t pts opc ty val die core slot l h
  | tki k e hist => exact State.tkiAt_memWf t pts k e hist h
  | bulk push lanes => exact State.bulkAt_memWf t pts push lanes h
  | drain _ add ty es => exact State.drainAt_memWf pts add ty es h

/-! The store buffer -/

theorem State.lateCause_memWf {s : State} (e : SbEntry) (c : Cause) (h : s.memWf) : (s.lateCause e c).memWf := by
  rw [State.memWf, State.lateCause_mem]; exact h

/-- Performing an entry keeps the form (R148, R169). -/
theorem State.performOne_memWf {s : State} (e : SbEntry) (h : s.memWf) : (s.performOne e).memWf := by
  unfold State.performOne
  split
  · split
    · rw [State.memWf, State.lateCause_mem]
      exact (Mem.note_wf s.mem 5 0).trans h
    · split
      · exact State.performStore_memWf _ _ h
      · rw [State.memWf, State.lateCause_mem]
        exact h
  · next t o _ =>
    split
    · exact State.lateCause_memWf e _ h
    · next o part _ =>
      have h1 := State.opAt_memWf t e.pts (Mask.first e.mask) o h
      split
      · next s1 r e1 =>
        rw [e1] at h1
        extract_lets fl s2
        have h2 : s2.memWf := h1
        clear_value s2
        generalize (if part then some Cause.key else r.late) = c
        cases c with
        | none => exact h2
        | some c => exact State.lateCause_memWf e c h2
      · next e1 => rw [e1] at h1; exact State.lateCause_memWf e _ h1

theorem State.refuseAtomic_memWf {s : State} (l bad : List SbEntry) (h : s.memWf) : (s.refuseAtomic l bad).memWf := by
  unfold State.refuseAtomic
  have h0 : ({ s with mem := s.mem.note 5 0 } : State).memWf := (Mem.note_wf s.mem 5 0).trans h
  generalize ({ s with mem := s.mem.note 5 0 } : State) = u at h0
  have h1 := State.foldl_keeps State.memWf (fun (s : State) (e : SbEntry) => s.setG fun g => g.markPerformed e.id e.pts)
    (fun u e hu => by rw [State.memWf, State.setG_mem]; exact hu) l u h0
  generalize l.foldl (fun (s : State) (e : SbEntry) => s.setG fun g => g.markPerformed e.id e.pts) u = v at h1
  cases bad with
  | nil => exact h1
  | cons e _ => exact State.lateCause_memWf _ _ h1

/-- An entry is performed with its mates, or waits (R70, R147, R385). -/
theorem State.performFree_memWf {s : State} (id : Nat) (h : s.memWf) : (s.performFree id).memWf := by
  unfold State.performFree
  split
  · exact h
  · extract_lets l
    split
    · exact h
    · split
      · exact State.foldl_keeps State.memWf _ (fun _ e hu => State.performOne_memWf e hu) _ s h
      · exact State.refuseAtomic_memWf _ _ h

theorem State.performAll_memWf : ∀ (is : List Nat) {s : State}, s.memWf → (s.performAll is).memWf
  | [], _, h => h
  | i :: is, s, h => by
    unfold State.performAll
    extract_lets s1
    have h1 : s1.memWf := State.performFree_memWf i h
    clear_value s1
    split
    · exact h1
    · exact State.performAll_memWf is h1

theorem State.performEntry_memWf {s : State} (id : Nat) (h : s.memWf) : (s.performEntry id).memWf :=
  State.performAll_memWf _ h

theorem State.performLines_memWf {s : State} (ls : List (Nat ⊕ Nat)) (h : s.memWf) : (s.performLines ls).memWf :=
  State.foldl_keeps State.memWf _ (fun _ _ hu => State.performEntry_memWf _ hu) _ s h

theorem State.performOps_memWf {s : State} (ls : List (Nat ⊕ Nat)) (h : s.memWf) : (s.performOps ls).memWf :=
  State.foldl_keeps State.memWf _ (fun _ _ hu => State.performEntry_memWf _ hu) _ s h

theorem Mem.ackCopy_wf {m : Mem} (core : Nat) (x : Nat × Stamp × Cells) (h : Memory.wf m = true) : Memory.wf (m.ackCopy core x) = true := by
  unfold Mem.ackCopy
  split
  · exact h
  · exact (Mem.setCopy_wf _ _).trans h

theorem State.ackStamp_memWf {s : State} (t : Stamp) (acks : List (Nat × Stamp × Cells)) (h : s.memWf) : (s.ackStamp t acks).memWf :=
  State.withMem_memWf (s := s) (Memory.wf_foldl _ (fun _ x hm => Mem.ackCopy_wf _ x hm) acks s.mem h)

/-- An acknowledgement keeps the form (R148, R149). -/
theorem State.acknowledge_memWf {s : State} (id : Nat) (h : s.memWf) : (s.acknowledge id).memWf := by
  unfold State.acknowledge
  extract_lets s1
  have h1 : s1.memWf := State.performEntry_memWf id h
  clear_value s1
  split
  · exact h1
  · split
    · exact h1
    · rw [State.memWf, State.setG_mem]; exact State.ackStamp_memWf _ _ h1

/-! The service log -/

theorem State.firmWrite_memWf {s : State} (a : Nat) (bs : List Byte) (h : s.memWf) : (s.firmWrite a bs).memWf :=
  State.wrote_memWf _ (State.withMem_memWf
    (Mem.sliceWriteBytes_wf a bs (Mem.reach_wf (a / 128) false 0 false (State.conflictWrite_memWf (a / 128) h))))

theorem State.logOne_memWf {s : State} (i : LogItem) (h : s.memWf) : (s.logOne i).memWf := by
  unfold State.logOne
  extract_lets a s1
  have h1 : s1.memWf := by
    simp only [s1]
    split
    · rw [State.memWf, State.useFree_mem]; exact State.firmWrite_memWf a (s.logEntry i) h
    · exact h
  clear_value s1
  exact h1

theorem State.logAll_memWf : ∀ (l : List LogItem) {s : State}, s.memWf → (s.logAll l).memWf
  | [], _, h => h
  | i :: is, s, h => by
    unfold State.logAll
    split
    · exact h
    · exact State.logAll_memWf is (State.logOne_memWf i h)

/-- Writing the log keeps the form (R391). -/
theorem State.flushLog_memWf {s : State} (h : s.memWf) : s.flushLog.memWf := by
  unfold State.flushLog
  split
  · exact h
  · exact State.logAll_memWf _ h

/-! The host, commits and zeroed banks -/

theorem State.hostPiece_memWf {s : State} (a : Nat) (bs : List Byte) (h : s.memWf) : (s.hostPiece a bs).memWf := by
  unfold State.hostPiece
  extract_lets line s1 m m1 m2 m3
  have hm : Memory.wf m = true := Mem.reach_wf line false 0 false (State.conflictWrite_memWf line h)
  have h1 : Memory.wf m1 = true := Mem.takePiece_wf a hm
  have h2 : Memory.wf m2 = true :=
    Memory.wf_foldl (fun (m : Mem) (i : Nat) => { m with quad := m.atom (a + 4 * i) }) (fun _ i hq => Mem.wf_quad hq (Mem.atom_rising _ hq)) _ m1 h1
  have h3 : Memory.wf m3 = true := by
    simp only [m3]
    split
    · exact Mem.sliceWriteBytes_wf a bs hm
    · exact Mem.wf_quad h2 (Cells.rising_putBytes bs a ((Memory.wf_iff _).1 h2).2.2.2.2.2)
  clear_value m3
  exact State.wrote_memWf _ (State.advanceFloor_memWf (State.withMem_memWf (s := s1) (Mem.hostStamp_wf line (Mem.cleanSectors_wf a bs.length h3))))

theorem State.commitByte_memWf {s : State} (r : Region) (g : Group) (x : Nat × Byte) (h : s.memWf) : (s.commitByte r g x).memWf := by
  unfold State.commitByte
  extract_lets at_ m
  have hr : Memory.wf (s.mem.reach (x.1 / 128) at_.2.1 at_.2.2.1 false) = true := Mem.reach_wf _ _ _ _ h
  have hm : Memory.wf m = true := by
    cases hc : (s.mem.hits x.1 g.quadNo at_.1 true && s.mem.tagOf (x.1 / 128) = (if at_.2.1 then some at_.2.2.1 else none)) with
    | true => rw [show m = s.mem from if_pos hc]; exact h
    | false => rw [show m = s.mem.reach (x.1 / 128) at_.2.1 at_.2.2.1 false from if_neg (by rw [hc]; exact Bool.false_ne_true)]; exact hr
  clear_value m
  exact State.withMem_memWf (Mem.dirStore_wf _ _ _ _ hm)

/-- A commit keeps the form (R342). -/
theorem State.commitRegion_memWf {s : State} (r : Region) (h : s.memWf) : (s.commitRegion r).memWf := by
  unfold State.commitRegion
  split
  · exact h
  · next g _ =>
    extract_lets s0 s1 readers s2 read s3 s4
    have h0 : s0.memWf := State.foldl_keeps State.memWf _ (fun _ x hs => State.commitByte_memWf r g x hs) r.bytes s h
    clear_value s0
    have h1 : s1.memWf := State.wrote_memWf _ h0
    clear_value s1
    have h4 : s4.memWf := State.foldl_keeps State.memWf _ (fun _ l hs => State.fitCore_memWf _ _ hs) _ s3 h1
    rw [State.memWf, State.onGroup_mem]
    exact h4

theorem State.clearBank_memWf {s : State} (n : Nat) (h : s.memWf) : (s.clearBank n).memWf :=
  Mem.wf_scratch h (Cells.canonical_dropRange _ _ ((Memory.wf_iff _).1 h).2.2.1)

end Sys2Proof.Machine
end

