-- ==== Sys2Proof/Laws/PerInstr.lean ====
section
/-! SUPPORT. The family of statements that are made per instruction: which stream an instruction's word belongs to (R20). -/
namespace Sys2Proof.Laws.Stream

/-- No instruction has both a word of the scalar section and a word of the lane section (R20, R22, R31). -/
def Statement (i : Instr) : Prop := encodeScalar i = none ∨ encodeLane i = none

theorem sadd (d a b : BitVec 6) (w : Bool) : Statement (.sadd d a b w) := Or.inr rfl
theorem ssub (d a b : BitVec 6) (w : Bool) : Statement (.ssub d a b w) := Or.inr rfl
theorem smul (d a b : BitVec 6) (w : Bool) : Statement (.smul d a b w) := Or.inr rfl
theorem smulh (d a b : BitVec 6) (w : Bool) : Statement (.smulh d a b w) := Or.inr rfl
theorem sdiv (d a b : BitVec 6) (w : Bool) : Statement (.sdiv d a b w) := Or.inr rfl
theorem srem (d a b : BitVec 6) (w : Bool) : Statement (.srem d a b w) := Or.inr rfl
theorem sand (d a b : BitVec 6) (w : Bool) : Statement (.sand d a b w) := Or.inr rfl
theorem sor (d a b : BitVec 6) (w : Bool) : Statement (.sor d a b w) := Or.inr rfl
theorem sxor (d a b : BitVec 6) (w : Bool) : Statement (.sxor d a b w) := Or.inr rfl
theorem sshl (d a b : BitVec 6) (w : Bool) : Statement (.sshl d a b w) := Or.inr rfl
theorem sshr (d a b : BitVec 6) (w : Bool) : Statement (.sshr d a b w) := Or.inr rfl
theorem ssra (d a b : BitVec 6) (w : Bool) : Statement (.ssra d a b w) := Or.inr rfl
theorem smin (d a b : BitVec 6) (w : Bool) : Statement (.smin d a b w) := Or.inr rfl
theorem smax (d a b : BitVec 6) (w : Bool) : Statement (.smax d a b w) := Or.inr rfl
theorem sclz (d a : BitVec 6) (w : Bool) : Statement (.sclz d a w) := Or.inr rfl
theorem spop (d a : BitVec 6) (w : Bool) : Statement (.spop d a w) := Or.inr rfl
theorem smov (d a : BitVec 6) (w : Bool) : Statement (.smov d a w) := Or.inr rfl
theorem ssel (d a b : BitVec 6) (w : Bool) : Statement (.ssel d a b w) := Or.inr rfl
theorem ssetEq (d a b : BitVec 6) (w : Bool) : Statement (.ssetEq d a b w) := Or.inr rfl
theorem ssetNe (d a b : BitVec 6) (w : Bool) : Statement (.ssetNe d a b w) := Or.inr rfl
theorem ssetLt (d a b : BitVec 6) (w : Bool) : Statement (.ssetLt d a b w) := Or.inr rfl
theorem ssetGe (d a b : BitVec 6) (w : Bool) : Statement (.ssetGe d a b w) := Or.inr rfl
theorem ssetLtn (d a b : BitVec 6) (w : Bool) : Statement (.ssetLtn d a b w) := Or.inr rfl
theorem ssetGen (d a b : BitVec 6) (w : Bool) : Statement (.ssetGen d a b w) := Or.inr rfl
theorem sbfx (d a b : BitVec 6) (w : Bool) : Statement (.sbfx d a b w) := Or.inr rfl
theorem sbfi (d a b : BitVec 6) (w : Bool) : Statement (.sbfi d a b w) := Or.inr rfl
theorem saddi (d a : BitVec 6) (imm : BitVec 14) : Statement (.saddi d a imm) := Or.inr rfl
theorem sandi (d a : BitVec 6) (imm : BitVec 14) : Statement (.sandi d a imm) := Or.inr rfl
theorem sori (d a : BitVec 6) (imm : BitVec 14) : Statement (.sori d a imm) := Or.inr rfl
theorem sxori (d a : BitVec 6) (imm : BitVec 14) : Statement (.sxori d a imm) := Or.inr rfl
theorem sshli (d a : BitVec 6) (imm : BitVec 6) : Statement (.sshli d a imm) := Or.inr rfl
theorem sshri (d a : BitVec 6) (imm : BitVec 6) : Statement (.sshri d a imm) := Or.inr rfl
theorem ssrai (d a : BitVec 6) (imm : BitVec 6) : Statement (.ssrai d a imm) := Or.inr rfl
theorem smuli (d a : BitVec 6) (imm : BitVec 14) : Statement (.smuli d a imm) := Or.inr rfl
theorem slo (d : BitVec 6) (imm : BitVec 20) : Statement (.slo d imm) := Or.inr rfl
theorem shi (d : BitVec 6) (imm : BitVec 20) : Statement (.shi d imm) := Or.inr rfl
theorem shx (d : BitVec 6) (imm : BitVec 20) : Statement (.shx d imm) := Or.inr rfl
theorem sbr (off : BitVec 20) : Statement (.sbr off) := Or.inr rfl
theorem scall (d : BitVec 6) (off : BitVec 20) : Statement (.scall d off) := Or.inr rfl
theorem sret (a : BitVec 6) : Statement (.sret a) := Or.inr rfl
theorem sbc (c : Cond) (a b : BitVec 6) (off : BitVec 11) : Statement (.sbc c a b off) := Or.inr rfl
theorem sloop (a : BitVec 6) (off : BitVec 11) : Statement (.sloop a off) := Or.inr rfl
theorem sexit : Statement .sexit := Or.inr rfl
theorem regroup (p : BitVec 3) : Statement (.regroup p) := Or.inr rfl
theorem lrun (c : Option (Fin 12)) (idx : BitVec 20) : Statement (.lrun c idx) := Or.inr rfl
theorem cwait (m : BitVec 12) : Statement (.cwait m) := Or.inr rfl
theorem sget (d a : BitVec 6) (f : BitVec 8) : Statement (.sget d a f) := Or.inr rfl
theorem sgetp (d : BitVec 6) (r : Pkx) : Statement (.sgetp d r) := Or.inr rfl
theorem sputp (r : Pkx) (a : BitVec 6) : Statement (.sputp r a) := Or.inr rfl
theorem sgetn (d : BitVec 6) (n : BitVec 4) : Statement (.sgetn d n) := Or.inr rfl
theorem sputn (n : BitVec 4) (a : BitVec 6) : Statement (.sputn n a) := Or.inr rfl
theorem sld (d a : BitVec 6) (z : BitVec 2) (off : BitVec 12) : Statement (.sld d a z off) := Or.inr rfl
theorem sst (d a : BitVec 6) (z : BitVec 2) (off : BitVec 12) : Statement (.sst d a z off) := Or.inr rfl
theorem satomLd (d a : BitVec 6) (o : Ord) (sc : Scope) (w64 : Bool) : Statement (.satomLd d a o sc w64) := Or.inr rfl
theorem satomSt (a b : BitVec 6) (o : Ord) (sc : Scope) (w64 : Bool) : Statement (.satomSt a b o sc w64) := Or.inr rfl
theorem satomSwap (d a b : BitVec 6) (o : Ord) (sc : Scope) (w64 : Bool) : Statement (.satomSwap d a b o sc w64) := Or.inr rfl
theorem satomAdd (d a b : BitVec 6) (o : Ord) (sc : Scope) (w64 : Bool) : Statement (.satomAdd d a b o sc w64) := Or.inr rfl
theorem scas (d a b : BitVec 6) (o : Ord) (sc : Scope) (w64 : Bool) : Statement (.scas d a b o sc w64) := Or.inr rfl
theorem aset (n : BitVec 3) (a b : BitVec 6) : Statement (.aset n a b) := Or.inr rfl
theorem aclr (n : BitVec 3) : Statement (.aclr n) := Or.inr rfl
theorem fence (sc : Scope) : Statement (.fence sc) := Or.inr rfl
theorem orf : Statement .orf := Or.inr rfl
theorem pcopy (p a b : BitVec 6) (var : Bool) : Statement (.pcopy p a b var) := Or.inr rfl
theorem pgather (p a b : BitVec 6) (var : Bool) : Statement (.pgather p a b var) := Or.inr rfl
theorem pscatter (p a b : BitVec 6) (var : Bool) : Statement (.pscatter p a b var) := Or.inr rfl
theorem pfill (p a b : BitVec 6) : Statement (.pfill p a b) := Or.inr rfl
theorem plodge (p a b : BitVec 6) : Statement (.plodge p a b) := Or.inr rfl
theorem ppush (p a b : BitVec 6) : Statement (.ppush p a b) := Or.inr rfl
theorem pcancel (d a : BitVec 6) (all : Bool) : Statement (.pcancel d a all) := Or.inr rfl
theorem mtake (m : BitVec 3) (a : BitVec 6) : Statement (.mtake m a) := Or.inr rfl
theorem mgive (m : BitVec 3) (a : BitVec 6) : Statement (.mgive m a) := Or.inr rfl
theorem mfree (m : BitVec 3) : Statement (.mfree m) := Or.inr rfl
theorem mzero (m : BitVec 3) : Statement (.mzero m) := Or.inr rfl
theorem mth (h : BitVec 4) (a : BitVec 6) : Statement (.mth h a) := Or.inr rfl
theorem mma (m : BitVec 3) (a b : BitVec 4) : Statement (.mma m a b) := Or.inr rfl
theorem mmab (m : BitVec 3) (a b : BitVec 4) : Statement (.mmab m a b) := Or.inr rfl
theorem mmas (m : BitVec 3) (a b : BitVec 4) : Statement (.mmas m a b) := Or.inr rfl
theorem mmac (m : BitVec 3) (a b : BitVec 4) : Statement (.mmac m a b) := Or.inr rfl
theorem mfence (d : BitVec 6) : Statement (.mfence d) := Or.inr rfl
theorem mwait (a : BitVec 6) : Statement (.mwait a) := Or.inr rfl
theorem mdrain (m : BitVec 3) (a : BitVec 6) (h : BitVec 4) (subt : BitVec 4) (bat add : Bool) : Statement (.mdrain m a h subt bat add) := Or.inr rfl
theorem mrd (m : BitVec 3) (a : BitVec 6) (f : BitVec 8) : Statement (.mrd m a f) := Or.inr rfl
theorem mwr (m : BitVec 3) (a : BitVec 6) (f : BitVec 8) : Statement (.mwr m a f) := Or.inr rfl
theorem bini (a b : BitVec 6) : Statement (.bini a b) := Or.inr rfl
theorem bara (d a b : BitVec 6) : Statement (.bara d a b) := Or.inr rfl
theorem barw (d a b : BitVec 6) : Statement (.barw d a b) := Or.inr rfl
theorem barx (d a b : BitVec 6) : Statement (.barx d a b) := Or.inr rfl
theorem wword (d a b : BitVec 6) : Statement (.wword d a b) := Or.inr rfl
theorem yield : Statement .yield := Or.inr rfl
theorem dqinit (a b : BitVec 6) : Statement (.dqinit a b) := Or.inr rfl
theorem dqpush (d a b : BitVec 6) : Statement (.dqpush d a b) := Or.inr rfl
theorem dqpop (d a : BitVec 6) : Statement (.dqpop d a) := Or.inr rfl
theorem dqsteal (d a : BitVec 6) : Statement (.dqsteal d a) := Or.inr rfl
theorem rbeg (a : BitVec 6) : Statement (.rbeg a) := Or.inr rfl
theorem rend (d : BitVec 6) : Statement (.rend d) := Or.inr rfl
theorem rabort (a : BitVec 6) : Statement (.rabort a) := Or.inr rfl
theorem rstat (d a : BitVec 6) : Statement (.rstat d a) := Or.inr rfl
theorem tdecl (d a b : BitVec 6) : Statement (.tdecl d a b) := Or.inr rfl
theorem bkmode (d a b : BitVec 6) : Statement (.bkmode d a b) := Or.inr rfl
theorem launch (d a : BitVec 6) : Statement (.launch d a) := Or.inr rfl
theorem evsig (d a b : BitVec 6) : Statement (.evsig d a b) := Or.inr rfl
theorem evwait (d a b : BitVec 6) : Statement (.evwait d a b) := Or.inr rfl
theorem trap (a : BitVec 6) : Statement (.trap a) := Or.inr rfl
theorem sysret (a : BitVec 6) : Statement (.sysret a) := Or.inr rfl
theorem brk : Statement .brk := Or.inr rfl
theorem sysrd (d a : BitVec 6) : Statement (.sysrd d a) := Or.inr rfl
theorem syswr (a b : BitVec 6) : Statement (.syswr a b) := Or.inr rfl
theorem pgmap (d a : BitVec 6) : Statement (.pgmap d a) := Or.inr rfl
theorem tlbi (d a b : BitVec 6) : Statement (.tlbi d a b) := Or.inr rfl
theorem iadd (w : LaneWord) : Statement (.iadd w) := Or.inl rfl
theorem isub (w : LaneWord) : Statement (.isub w) := Or.inl rfl
theorem imul (w : LaneWord) : Statement (.imul w) := Or.inl rfl
theorem imulh (w : LaneWord) : Statement (.imulh w) := Or.inl rfl
theorem imad (w : LaneWord) : Statement (.imad w) := Or.inl rfl
theorem idiv (w : LaneWord) : Statement (.idiv w) := Or.inl rfl
theorem irem (w : LaneWord) : Statement (.irem w) := Or.inl rfl
theorem iabs (w : LaneWord) : Statement (.iabs w) := Or.inl rfl
theorem ineg (w : LaneWord) : Statement (.ineg w) := Or.inl rfl
theorem imin (w : LaneWord) : Statement (.imin w) := Or.inl rfl
theorem imax (w : LaneWord) : Statement (.imax w) := Or.inl rfl
theorem iand (w : LaneWord) : Statement (.iand w) := Or.inl rfl
theorem ior (w : LaneWord) : Statement (.ior w) := Or.inl rfl
theorem ixor (w : LaneWord) : Statement (.ixor w) := Or.inl rfl
theorem inot (w : LaneWord) : Statement (.inot w) := Or.inl rfl
theorem ishl (w : LaneWord) : Statement (.ishl w) := Or.inl rfl
theorem ishr (w : LaneWord) : Statement (.ishr w) := Or.inl rfl
theorem isra (w : LaneWord) : Statement (.isra w) := Or.inl rfl
theorem irot (w : LaneWord) : Statement (.irot w) := Or.inl rfl
theorem ibfx (w : LaneWord) : Statement (.ibfx w) := Or.inl rfl
theorem ibfi (w : LaneWord) : Statement (.ibfi w) := Or.inl rfl
theorem ipop (w : LaneWord) : Statement (.ipop w) := Or.inl rfl
theorem iclz (w : LaneWord) : Statement (.iclz w) := Or.inl rfl
theorem ibrev (w : LaneWord) : Statement (.ibrev w) := Or.inl rfl
theorem icmp (w : LaneWord) : Statement (.icmp w) := Or.inl rfl
theorem fadd (w : LaneWord) : Statement (.fadd w) := Or.inl rfl
theorem fsub (w : LaneWord) : Statement (.fsub w) := Or.inl rfl
theorem fmul (w : LaneWord) : Statement (.fmul w) := Or.inl rfl
theorem ffma (w : LaneWord) : Statement (.ffma w) := Or.inl rfl
theorem fdiv (w : LaneWord) : Statement (.fdiv w) := Or.inl rfl
theorem fsqrt (w : LaneWord) : Statement (.fsqrt w) := Or.inl rfl
theorem fmin (w : LaneWord) : Statement (.fmin w) := Or.inl rfl
theorem fmax (w : LaneWord) : Statement (.fmax w) := Or.inl rfl
theorem fabs (w : LaneWord) : Statement (.fabs w) := Or.inl rfl
theorem fneg (w : LaneWord) : Statement (.fneg w) := Or.inl rfl
theorem fcmp (w : LaneWord) : Statement (.fcmp w) := Or.inl rfl
theorem fclass (w : LaneWord) : Statement (.fclass w) := Or.inl rfl
theorem frnd (w : LaneWord) : Statement (.frnd w) := Or.inl rfl
theorem fsc (w : LaneWord) : Statement (.fsc w) := Or.inl rfl
theorem fexpGet (w : LaneWord) : Statement (.fexpGet w) := Or.inl rfl
theorem fexpPut (w : LaneWord) : Statement (.fexpPut w) := Or.inl rfl
theorem fexpCvmget (w : LaneWord) : Statement (.fexpCvmget w) := Or.inl rfl
theorem fexpCvmput (w : LaneWord) : Statement (.fexpCvmput w) := Or.inl rfl
theorem fexpXeget (w : LaneWord) : Statement (.fexpXeget w) := Or.inl rfl
theorem fexpXeput (w : LaneWord) : Statement (.fexpXeput w) := Or.inl rfl
theorem cvt (w : LaneWord) : Statement (.cvt w) := Or.inl rfl
theorem cpack (w : LaneWord) : Statement (.cpack w) := Or.inl rfl
theorem cunpk (w : LaneWord) : Statement (.cunpk w) := Or.inl rfl
theorem mov (w : LaneWord) : Statement (.mov w) := Or.inl rfl
theorem sel (w : LaneWord) : Statement (.sel w) := Or.inl rfl
theorem plog (w : LaneWord) : Statement (.plog w) := Or.inl rfl
theorem shfl (w : LaneWord) : Statement (.shfl w) := Or.inl rfl
theorem shup (w : LaneWord) : Statement (.shup w) := Or.inl rfl
theorem shdn (w : LaneWord) : Statement (.shdn w) := Or.inl rfl
theorem bcast (w : LaneWord) : Statement (.bcast w) := Or.inl rfl
theorem voteAny (w : LaneWord) : Statement (.voteAny w) := Or.inl rfl
theorem voteAll (w : LaneWord) : Statement (.voteAll w) := Or.inl rfl
theorem voteBallot (w : LaneWord) : Statement (.voteBallot w) := Or.inl rfl
theorem redg (w : LaneWord) : Statement (.redg w) := Or.inl rfl
theorem scang (w : LaneWord) : Statement (.scang w) := Or.inl rfl
theorem gsort (w : LaneWord) : Statement (.gsort w) := Or.inl rfl
theorem gtopk (w : LaneWord) : Statement (.gtopk w) := Or.inl rfl
theorem gmerge (w : LaneWord) : Statement (.gmerge w) := Or.inl rfl
theorem sin (w : LaneWord) : Statement (.sin w) := Or.inl rfl
theorem cos (w : LaneWord) : Statement (.cos w) := Or.inl rfl
theorem ex2 (w : LaneWord) : Statement (.ex2 w) := Or.inl rfl
theorem lg2 (w : LaneWord) : Statement (.lg2 w) := Or.inl rfl
theorem rcp (w : LaneWord) : Statement (.rcp w) := Or.inl rfl
theorem rsq (w : LaneWord) : Statement (.rsq w) := Or.inl rfl
theorem tanh (w : LaneWord) : Statement (.tanh w) := Or.inl rfl
theorem qpack (w : LaneWord) : Statement (.qpack w) := Or.inl rfl
theorem qunpk (w : LaneWord) : Statement (.qunpk w) := Or.inl rfl
theorem qdot (w : LaneWord) : Statement (.qdot w) := Or.inl rfl
theorem qsc (w : LaneWord) : Statement (.qsc w) := Or.inl rfl
theorem qadd (w : LaneWord) : Statement (.qadd w) := Or.inl rfl
theorem qproj (w : LaneWord) : Statement (.qproj w) := Or.inl rfl
theorem qrot (w : LaneWord) : Statement (.qrot w) := Or.inl rfl
theorem qmov (w : LaneWord) : Statement (.qmov w) := Or.inl rfl
theorem qnorm (w : LaneWord) : Statement (.qnorm w) := Or.inl rfl
theorem qld (w : LaneWord) : Statement (.qld w) := Or.inl rfl
theorem qst (w : LaneWord) : Statement (.qst w) := Or.inl rfl
theorem ld (w : LaneWord) : Statement (.ld w) := Or.inl rfl
theorem st (w : LaneWord) : Statement (.st w) := Or.inl rfl
theorem atom (w : LaneWord) : Statement (.atom w) := Or.inl rfl
theorem cas (w : LaneWord) : Statement (.cas w) := Or.inl rfl
theorem red (w : LaneWord) : Statement (.red w) := Or.inl rfl
theorem tki (w : LaneWord) : Statement (.tki w) := Or.inl rfl
theorem bpush (w : LaneWord) : Statement (.bpush w) := Or.inl rfl
theorem bpop (w : LaneWord) : Statement (.bpop w) := Or.inl rfl
theorem lbra (w : LaneWord) : Statement (.lbra w) := Or.inl rfl
theorem ljmp (w : LaneWord) : Statement (.ljmp w) := Or.inl rfl
theorem lsetk (w : LaneWord) : Statement (.lsetk w) := Or.inl rfl
theorem ljoin (w : LaneWord) : Statement (.ljoin w) := Or.inl rfl
theorem lend (w : LaneWord) : Statement (.lend w) := Or.inl rfl
theorem lexit (w : LaneWord) : Statement (.lexit w) := Or.inl rfl
theorem lnop (w : LaneWord) : Statement (.lnop w) := Or.inl rfl
theorem repeatPrefix (p : Prefix) : Statement (.repeatPrefix p) := Or.inl rfl
theorem clauseStart (h : ClauseHeader) : Statement (.clauseStart h) := Or.inl rfl
theorem clauseEnd (t e : Nat) : Statement (.clauseEnd t e) := Or.inl rfl
theorem longLatencyCompletion (t e : Nat) : Statement (.longLatencyCompletion t e) := Or.inl rfl
theorem laneRunStart (t : Nat) : Statement (.laneRunStart t) := Or.inl rfl
theorem laneRunEnd (t : Nat) : Statement (.laneRunEnd t) := Or.inl rfl
theorem regroupMove (t : Nat) : Statement (.regroupMove t) := Or.inl rfl
theorem groupStarved (t : Nat) : Statement (.groupStarved t) := Or.inl rfl
theorem memoryRequest (r : MemRequest) : Statement (.memoryRequest r) := Or.inl rfl
theorem channelBatch (ch : Nat) : Statement (.channelBatch ch) := Or.inl rfl
theorem batchAgeLimit (ch : Nat) : Statement (.batchAgeLimit ch) := Or.inl rfl
theorem channelRetireStart (stack f : Nat) : Statement (.channelRetireStart stack f) := Or.inl rfl
theorem blockRebuild (stack : Nat) : Statement (.blockRebuild stack) := Or.inl rfl
theorem dataChannelFailure (stack c : Nat) : Statement (.dataChannelFailure stack c) := Or.inl rfl
theorem parityChannelFailure (stack g : Nat) : Statement (.parityChannelFailure stack g) := Or.inl rfl
theorem bankSelfTest (stack ch bank : Nat) : Statement (.bankSelfTest stack ch bank) := Or.inl rfl
theorem bankSelfTestEnd (stack : Nat) (repaired : Bool) : Statement (.bankSelfTestEnd stack repaired) := Or.inl rfl
theorem drainPrepare (t e slice : Nat) : Statement (.drainPrepare t e slice) := Or.inl rfl
theorem drainCommit (t e : Nat) : Statement (.drainCommit t e) := Or.inl rfl
theorem memsideOperation (t e : Nat) : Statement (.memsideOperation t e) := Or.inl rfl
theorem redContribution (t e : Nat) : Statement (.redContribution t e) := Or.inl rfl
theorem tkiInsertion (t e : Nat) : Statement (.tkiInsertion t e) := Or.inl rfl
theorem dequeOperation (t e : Nat) : Statement (.dequeOperation t e) := Or.inl rfl
theorem keyPurgeComplete (slot : Nat) : Statement (.keyPurgeComplete slot) := Or.inl rfl
theorem gets (u r : Nat) (g : BitVec 2) : Statement (.gets u r g) := Or.inl rfl
theorem getm (u r : Nat) (g : BitVec 2) : Statement (.getm u r g) := Or.inl rfl
theorem upg (u r : Nat) (g : BitVec 2) : Statement (.upg u r g) := Or.inl rfl
theorem pute (u q : Nat) : Statement (.pute u q) := Or.inl rfl
theorem putx (u q : Nat) : Statement (.putx u q) := Or.inl rfl
theorem fwds (u q : Nat) : Statement (.fwds u q) := Or.inl rfl
theorem fwdm (u q : Nat) : Statement (.fwdm u q) := Or.inl rfl
theorem recallOwner (u q : Nat) : Statement (.recallOwner u q) := Or.inl rfl
theorem inv (u q : Nat) : Statement (.inv u q) := Or.inl rfl
theorem invack (u q : Nat) : Statement (.invack u q) := Or.inl rfl
theorem grant (u q : Nat) : Statement (.grant u q) := Or.inl rfl
theorem grantStale (u q : Nat) : Statement (.grantStale u q) := Or.inl rfl
theorem dataPhase (u q : Nat) : Statement (.dataPhase u q) := Or.inl rfl
theorem probe (u q : Nat) : Statement (.probe u q) := Or.inl rfl
theorem discovery (u : Nat) : Statement (.discovery u) := Or.inl rfl
theorem directoryEviction (u : Nat) : Statement (.directoryEviction u) := Or.inl rfl
theorem quadEviction (u q : Nat) : Statement (.quadEviction u q) := Or.inl rfl
theorem hostRead (pa n : Nat) : Statement (.hostRead pa n) := Or.inl rfl
theorem hostWrite (pa : Nat) (data : List Byte) : Statement (.hostWrite pa data) := Or.inl rfl
theorem leaseRenewal (core line : Nat) (pts : Stamp) : Statement (.leaseRenewal core line pts) := Or.inl rfl
theorem leaseWrite (t e : Nat) : Statement (.leaseWrite t e) := Or.inl rfl
theorem acknowledgement (t e : Nat) : Statement (.acknowledgement t e) := Or.inl rfl
theorem tick : Statement .tick := Or.inl rfl
theorem tmaxExchange (received : List Stamp) : Statement (.tmaxExchange received) := Or.inl rfl
theorem floorCatchup : Statement .floorCatchup := Or.inl rfl
theorem pageWalk (t : Nat) (va : Word64) (k : AccessKind) : Statement (.pageWalk t va k) := Or.inl rfl
theorem heatSweep (asn : Nat) : Statement (.heatSweep asn) := Or.inl rfl
theorem porterPiece (core slot : Nat) : Statement (.porterPiece core slot) := Or.inl rfl
theorem porterCommandEnd (core slot : Nat) : Statement (.porterCommandEnd core slot) := Or.inl rfl
theorem fifoAccessServed (t e : Nat) : Statement (.fifoAccessServed t e) := Or.inl rfl
theorem modeSwitchComplete (quad bank : Nat) : Statement (.modeSwitchComplete quad bank) := Or.inl rfl
theorem innkeeperGrant (hall : Nat) : Statement (.innkeeperGrant hall) := Or.inl rfl
theorem headAgeing (t : Nat) : Statement (.headAgeing t) := Or.inl rfl
theorem bLoadComplete (hall : Nat) : Statement (.bLoadComplete hall) := Or.inl rfl
theorem streamStart (hall : Nat) : Statement (.streamStart hall) := Or.inl rfl
theorem streamEnd (hall : Nat) : Statement (.streamEnd hall) := Or.inl rfl
theorem operationCommit (hall : Nat) : Statement (.operationCommit hall) := Or.inl rfl
theorem roomPortWork (t : Nat) : Statement (.roomPortWork t) := Or.inl rfl
theorem roomPortWorkEnd (t : Nat) : Statement (.roomPortWorkEnd t) := Or.inl rfl
theorem batchComplete (t : Nat) : Statement (.batchComplete t) := Or.inl rfl
theorem roomHandover (t : Nat) : Statement (.roomHandover t) := Or.inl rfl
theorem roomRelease (hall room : Nat) : Statement (.roomRelease hall room) := Or.inl rfl
theorem mtakeGrant (hall room : Nat) : Statement (.mtakeGrant hall room) := Or.inl rfl
theorem mtakeTimeout (t : Nat) : Statement (.mtakeTimeout t) := Or.inl rfl
theorem watchWake (t : Nat) : Statement (.watchWake t) := Or.inl rfl
theorem watchPoll (t : Nat) : Statement (.watchPoll t) := Or.inl rfl
theorem waitTimeout (t : Nat) : Statement (.waitTimeout t) := Or.inl rfl
theorem regionCommit (die e : Nat) : Statement (.regionCommit die e) := Or.inl rfl
theorem regionAbort (t : Nat) (c : AbortCause) : Statement (.regionAbort t c) := Or.inl rfl
theorem implicitRerun (t : Nat) : Statement (.implicitRerun t) := Or.inl rfl
theorem groupRetire (t : Nat) : Statement (.groupRetire t) := Or.inl rfl
theorem hostLaunch (rec : List Byte) (tag : BitVec 16) : Statement (.hostLaunch rec tag) := Or.inl rfl
theorem dependenceMet (l dep : Nat) : Statement (.dependenceMet l dep) := Or.inl rfl
theorem caravanPlace (die : Nat) : Statement (.caravanPlace die) := Or.inl rfl
theorem headWaitLimit (die : Nat) : Statement (.headWaitLimit die) := Or.inl rfl
theorem launchComplete (l : Nat) : Statement (.launchComplete l) := Or.inl rfl
theorem preciseFaultEntry (t : Nat) : Statement (.preciseFaultEntry t) := Or.inl rfl
theorem deferredCauseArrival (t e : Nat) (own : Bool) : Statement (.deferredCauseArrival t e own) := Or.inl rfl
theorem deferredFaultEntry (t : Nat) : Statement (.deferredFaultEntry t) := Or.inl rfl
theorem preemptRequest (die : Nat) (val : Word64) : Statement (.preemptRequest die val) := Or.inl rfl
theorem preemptHalt (cv : Nat) : Statement (.preemptHalt cv) := Or.inl rfl
theorem contextImageComplete (cv : Nat) : Statement (.contextImageComplete cv) := Or.inl rfl
theorem preemptRelease (die : Nat) (val : Word64) : Statement (.preemptRelease die val) := Or.inl rfl
theorem caravanRestore (cv : Nat) : Statement (.caravanRestore cv) := Or.inl rfl
theorem reset : Statement .reset := Or.inl rfl
theorem functionReady (f : Func) : Statement (.functionReady f) := Or.inl rfl
theorem functionOutOfService (f : Func) : Statement (.functionOutOfService f) := Or.inl rfl
theorem hallRowRemap (hall : Nat) (rows : BitVec 272) : Statement (.hallRowRemap hall rows) := Or.inl rfl
theorem linkTraining (port : Nat) (lo hi : BitVec 8) : Statement (.linkTraining port lo hi) := Or.inl rfl
theorem flitCrcError (port : Nat) : Statement (.flitCrcError port) := Or.inl rfl
theorem peerTimeout (t e : Nat) : Statement (.peerTimeout t e) := Or.inl rfl
theorem firmwareVerify (img sig : List Byte) (version : BitVec 8) : Statement (.firmwareVerify img sig version) := Or.inl rfl
theorem attestationReply (nonce : List Byte) (pa : Nat) : Statement (.attestationReply nonce pa) := Or.inl rfl
theorem keyLoad (val : Word64) : Statement (.keyLoad val) := Or.inl rfl
theorem keyDestroy (val : Word64) : Statement (.keyDestroy val) := Or.inl rfl
theorem keyctlReservedOp (val : Word64) : Statement (.keyctlReservedOp val) := Or.inl rfl
theorem lodgeWayChange (die : Nat) (val : Word64) : Statement (.lodgeWayChange die val) := Or.inl rfl
theorem lodgeFlush (die : Nat) (val : Word64) : Statement (.lodgeFlush die val) := Or.inl rfl
theorem lodgeChangeEnd (die : Nat) : Statement (.lodgeChangeEnd die) := Or.inl rfl
theorem slogbaseWrite (val : Word64) : Statement (.slogbaseWrite val) := Or.inl rfl
theorem checkpointStart (val : Word64) : Statement (.checkpointStart val) := Or.inl rfl
theorem checkpointEnd (ok : Bool) : Statement (.checkpointEnd ok) := Or.inl rfl
theorem clockStepDown (cause : BitVec 2) (power : BitVec 12) : Statement (.clockStepDown cause power) := Or.inl rfl
theorem clockStepUp : Statement .clockStepUp := Or.inl rfl
theorem registerWrite (off : Nat) (val : Word64) : Statement (.registerWrite off val) := Or.inl rfl
theorem hostAtomic (pa : Nat) (op : HostAtomicOp) (w64 : Bool) (x y : Word64) : Statement (.hostAtomic pa op w64 x y) := Or.inl rfl

end Sys2Proof.Laws.Stream
end

