-- ==== Sys2Proof/Tests/Slice0.lean ====
section
/-! SUPPORT. Words put together from the manual's encodings, ill-formed terms, the witnesses of the statements' hypotheses, and single
steps with results worked out by hand. -/
set_option Elab.async false
namespace Sys2Proof.Tests
open Sys2Proof Sys2Proof.Machine

/-! ## Decoding: words put together field by field from the tables of R22 to R28, R31 to R40 and R44 -/

theorem test_decode_scalar_integer :
    ([(0x06958D80, .sadd 41 22 13 true),
      (0x06958D81, .ssub 41 22 13 true),
      (0x06958D82, .smul 41 22 13 true),
      (0x06958D83, .smulh 41 22 13 true),
      (0x06958D84, .sdiv 41 22 13 true),
      (0x06958D85, .srem 41 22 13 true),
      (0x06958D86, .sand 41 22 13 true),
      (0x06958D87, .sor 41 22 13 true),
      (0x06958D88, .sxor 41 22 13 true),
      (0x06958D89, .sshl 41 22 13 true),
      (0x06958D8A, .sshr 41 22 13 true),
      (0x06958D8B, .ssra 41 22 13 true),
      (0x06958D8C, .smin 41 22 13 true),
      (0x06958D8D, .smax 41 22 13 true),
      (0x0695808E, .sclz 41 22 true),
      (0x0695808F, .spop 41 22 true),
      (0x06958090, .smov 41 22 true),
      (0x06958D91, .ssel 41 22 13 true),
      (0x06958D92, .ssetEq 41 22 13 true),
      (0x06958D93, .ssetNe 41 22 13 true),
      (0x06958D94, .ssetLt 41 22 13 true),
      (0x06958D95, .ssetGe 41 22 13 true),
      (0x06958D96, .ssetLtn 41 22 13 true),
      (0x06958D97, .ssetGen 41 22 13 true),
      (0x06958D98, .sbfx 41 22 13 true),
      (0x06958D99, .sbfi 41 22 13 true)] : List (Nat × Instr)).all
      (fun x => decodeTableWord 32 x.1 = some x.2) = true := by decide

theorem test_decode_scalar_immediate :
    ([(0x0A95AA93, .saddi 41 22 10899),
      (0x0E95AA93, .sandi 41 22 10899),
      (0x1295AA93, .sori 41 22 10899),
      (0x1695AA93, .sxori 41 22 10899),
      (0x1A95802B, .sshli 41 22 43),
      (0x1E95802B, .sshri 41 22 43),
      (0x2295802B, .ssrai 41 22 43),
      (0x2695AA93, .smuli 41 22 10899),
      (0x2A99ABCD, .slo 41 633805),
      (0x2E99ABCD, .shi 41 633805),
      (0x3299ABCD, .shx 41 633805)] : List (Nat × Instr)).all
      (fun x => decodeTableWord 32 x.1 = some x.2) = true := by decide

theorem test_decode_scalar_flow :
    ([(0x4009ABCD, .sbr 633805),
      (0x4699ABCD, .scall 41 633805),
      (0x48058000, .sret 22),
      (0x4E2C6CC3, .sbc .ltn 22 13 1219),
      (0x502C04C3, .sloop 22 1219),
      (0x54000000, .sexit),
      (0x58018000, .regroup 6),
      (0x60B9ABCD, .lrun (some 11) 633805)] : List (Nat × Instr)).all
      (fun x => decodeTableWord 32 x.1 = some x.2) = true := by decide

theorem test_decode_scalar_state :
    ([(0x640009E5, .cwait 2533),
      (0x6A9580A7, .sget 41 22 167),
      (0x6E90C002, .sgetp 41 (.x 3)),
      (0x70758001, .sputp (.k 7) 22),
      (0x76928000, .sgetn 41 10)] : List (Nat × Instr)).all
      (fun x => decodeTableWord 32 x.1 = some x.2) = true := by decide

theorem test_decode_scalar_memory :
    ([(0x78C58000, .sputn 12 22),
      (0x8295A9E5, .sld 41 22 2 2533),
      (0x8695A9E5, .sst 41 22 2 2533),
      (0x8A95804C, .satomLd 41 22 .acq .quad true),
      (0x88058D95, .satomSt 22 13 .rel .pkg true),
      (0x8A958DBE, .satomSwap 41 22 13 .ar .dom true),
      (0x8A958DBB, .satomAdd 41 22 13 .ar .dom false),
      (0x8E958DDC, .scas 41 22 13 .ar .sys true),
      (0x90558D00, .aset 5 22 13),
      (0x94500000, .aclr 5),
      (0x98000005, .fence .dom)] : List (Nat × Instr)).all
      (fun x => decodeTableWord 32 x.1 = some x.2) = true := by decide

theorem test_decode_scalar_porter :
    ([(0x9C000000, .orf),
      (0xA2958D01, .pcopy 41 22 13 true),
      (0xA6958D01, .pgather 41 22 13 true),
      (0xAA958D01, .pscatter 41 22 13 true),
      (0xAE958D00, .pfill 41 22 13),
      (0xB2958D00, .plodge 41 22 13),
      (0xB6958D00, .ppush 41 22 13)] : List (Nat × Instr)).all
      (fun x => decodeTableWord 32 x.1 = some x.2) = true := by decide

theorem test_decode_scalar_rooms :
    ([(0xBA900001, .pcancel 41 0 true),
      (0xC0558000, .mtake 5 22),
      (0xC4558000, .mgive 5 22),
      (0xC8500000, .mfree 5),
      (0xCC500000, .mzero 5),
      (0xD0D58000, .mth 13 22),
      (0xD4524E00, .mma 5 9 14),
      (0xD4524E01, .mmab 5 9 14),
      (0xD4524E02, .mmas 5 9 14),
      (0xD4524E03, .mmac 5 9 14),
      (0xDA900000, .mfence 41),
      (0xDC058000, .mwait 22),
      (0xE0558B69, .mdrain 5 22 11 6 true true),
      (0xE455805A, .mrd 5 22 90)] : List (Nat × Instr)).all
      (fun x => decodeTableWord 32 x.1 = some x.2) = true := by decide

theorem test_decode_scalar_sync :
    ([(0xE855805A, .mwr 5 22 90),
      (0xEC058D00, .bini 22 13),
      (0xEE958D01, .bara 41 22 13),
      (0xEE958D02, .barw 41 22 13),
      (0xEE958D03, .barx 41 22 13),
      (0xEE958D04, .wword 41 22 13),
      (0xEC000005, .yield),
      (0xEC058D06, .dqinit 22 13),
      (0xEE958D07, .dqpush 41 22 13),
      (0xEE958008, .dqpop 41 22),
      (0xEE958009, .dqsteal 41 22),
      (0xEC05800A, .rbeg 22),
      (0xEE90000B, .rend 41),
      (0xEC05800C, .rabort 22),
      (0xEE95800D, .rstat 41 22),
      (0xEE958D0E, .tdecl 41 22 13)] : List (Nat × Instr)).all
      (fun x => decodeTableWord 32 x.1 = some x.2) = true := by decide

theorem test_decode_scalar_system :
    ([(0xEE958D0F, .bkmode 41 22 13),
      (0xF2958000, .launch 41 22),
      (0xF2958D01, .evsig 41 22 13),
      (0xF2958D02, .evwait 41 22 13),
      (0xF4058000, .trap 22),
      (0xF4058001, .sysret 22),
      (0xF4000002, .brk),
      (0xF6958003, .sysrd 41 22),
      (0xF4058D04, .syswr 22 13),
      (0xF6958005, .pgmap 41 22),
      (0xF6958D06, .tlbi 41 22 13)] : List (Nat × Instr)).all
      (fun x => decodeTableWord 32 x.1 = some x.2) = true := by decide

/-- One legal word of every lane operation. -/
def laneWords : List (LaneOp × LaneWord) :=
  [(.iadd, ⟨true, 3, .i32, 2, 0x81, 0x102, 0x235, 0x0, false, 0x0⟩),
   (.isub, ⟨true, 3, .i32, 2, 0x81, 0x102, 0x235, 0x0, false, 0x0⟩),
   (.imul, ⟨true, 3, .i32, 2, 0x81, 0x102, 0x235, 0x0, false, 0x0⟩),
   (.imulh, ⟨false, 0, .n32, 0, 0x81, 0x102, 0x312, 0x0, false, 0x0⟩),
   (.imad, ⟨false, 7, .i16, 4, 0x81, 0x2, 0x203, 0x1f4, false, 0x0⟩),
   (.idiv, ⟨false, 0, .i64, 0, 0x82, 0x104, 0x206, 0x0, false, 0x0⟩),
   (.irem, ⟨false, 0, .n64, 0, 0x82, 0x104, 0x0, 0x0, true, 0xfffffff9⟩),
   (.iabs, ⟨false, 0, .i8, 2, 0x81, 0x102, 0x0, 0x0, false, 0x0⟩),
   (.ineg, ⟨false, 0, .i8, 2, 0x81, 0x102, 0x0, 0x0, false, 0x0⟩),
   (.imin, ⟨false, 0, .n16, 0, 0x81, 0x102, 0x235, 0x0, false, 0x0⟩),
   (.imax, ⟨false, 0, .n16, 0, 0x81, 0x102, 0x235, 0x0, false, 0x0⟩),
   (.ibfx, ⟨false, 0, .n16, 0, 0x81, 0x102, 0x235, 0x0, false, 0x0⟩),
   (.iand, ⟨false, 0, .b64, 0, 0x82, 0x104, 0x206, 0x0, false, 0x0⟩),
   (.ior, ⟨false, 0, .b64, 0, 0x82, 0x104, 0x206, 0x0, false, 0x0⟩),
   (.ixor, ⟨false, 0, .b64, 0, 0x82, 0x104, 0x206, 0x0, false, 0x0⟩),
   (.inot, ⟨false, 0, .b32, 0, 0x81, 0x310, 0x0, 0x0, false, 0x0⟩),
   (.ipop, ⟨false, 0, .b32, 0, 0x81, 0x310, 0x0, 0x0, false, 0x0⟩),
   (.iclz, ⟨false, 0, .b32, 0, 0x81, 0x310, 0x0, 0x0, false, 0x0⟩),
   (.ibrev, ⟨false, 0, .b32, 0, 0x81, 0x310, 0x0, 0x0, false, 0x0⟩),
   (.ishl, ⟨false, 0, .i32, 2, 0x81, 0x102, 0x0, 0x0, true, 0x1f⟩),
   (.ishr, ⟨false, 0, .b32, 0, 0x81, 0x102, 0x203, 0x0, false, 0x0⟩),
   (.isra, ⟨false, 0, .b32, 0, 0x81, 0x102, 0x203, 0x0, false, 0x0⟩),
   (.irot, ⟨false, 0, .b32, 0, 0x81, 0x102, 0x203, 0x0, false, 0x0⟩),
   (.ibfi, ⟨false, 0, .n32, 0, 0x81, 0x102, 0x203, 0x1f4, false, 0x0⟩),
   (.icmp, ⟨false, 0, .i64, 45, 0x0, 0x104, 0x206, 0x0, false, 0x0⟩),
   (.fadd, ⟨true, 3, .f32, 44, 0x81, 0x102, 0x203, 0x0, false, 0x0⟩),
   (.fsub, ⟨true, 3, .f32, 44, 0x81, 0x102, 0x203, 0x0, false, 0x0⟩),
   (.fmul, ⟨true, 3, .f32, 44, 0x81, 0x102, 0x203, 0x0, false, 0x0⟩),
   (.fdiv, ⟨true, 3, .f32, 44, 0x81, 0x102, 0x203, 0x0, false, 0x0⟩),
   (.ffma, ⟨false, 0, .f16, 10, 0x81, 0x102, 0x203, 0x1f4, false, 0x0⟩),
   (.fsqrt, ⟨false, 0, .f64, 16, 0x82, 0x104, 0x0, 0x0, false, 0x0⟩),
   (.fmin, ⟨false, 0, .bf16, 1, 0x81, 0x102, 0x203, 0x0, false, 0x0⟩),
   (.fmax, ⟨false, 0, .bf16, 1, 0x81, 0x102, 0x203, 0x0, false, 0x0⟩),
   (.fabs, ⟨false, 0, .f64, 0, 0x82, 0x104, 0x0, 0x0, false, 0x0⟩),
   (.fneg, ⟨false, 0, .f64, 0, 0x82, 0x104, 0x0, 0x0, false, 0x0⟩),
   (.fcmp, ⟨false, 0, .f32, 55, 0x0, 0x102, 0x302, 0x0, false, 0x0⟩),
   (.fclass, ⟨false, 0, .f64, 0, 0x81, 0x104, 0x0, 0x0, false, 0x0⟩),
   (.frnd, ⟨false, 0, .f16, 33, 0x81, 0x102, 0x0, 0x0, false, 0x0⟩),
   (.fsc, ⟨false, 0, .f32, 28, 0x81, 0x102, 0x203, 0x0, false, 0x0⟩),
   (.fexpGet, ⟨false, 0, .b32, 0, 0x81, 0x0, 0x0, 0x0, false, 0x0⟩),
   (.fexpPut, ⟨false, 0, .b32, 1, 0x0, 0x181, 0x0, 0x0, false, 0x0⟩),
   (.fexpCvmget, ⟨false, 0, .b64, 2, 0x82, 0x0, 0x0, 0x0, false, 0x0⟩),
   (.fexpCvmput, ⟨false, 0, .b64, 3, 0x0, 0x205, 0x0, 0x0, false, 0x0⟩),
   (.fexpXeget, ⟨false, 0, .b32, 4, 0x81, 0x0, 0x0, 0x0, false, 0x0⟩),
   (.fexpXeput, ⟨false, 0, .b32, 5, 0x0, 0x205, 0x0, 0x0, false, 0x0⟩),
   (.cvt, ⟨false, 0, .e4m3, 10, 0x81, 0x102, 0x0, 0xa, false, 0x0⟩),
   (.cpack, ⟨false, 0, .e2m3, 2, 0x81, 0x102, 0x0, 0xa, false, 0x0⟩),
   (.cunpk, ⟨false, 0, .i32, 0, 0x81, 0x102, 0x0, 0x10, false, 0x0⟩),
   (.mov, ⟨false, 0, .b64, 0, 0x82, 0x0, 0x0, 0x0, true, 0xdeadbeef⟩),
   (.sel, ⟨false, 0, .b32, 0, 0x81, 0x102, 0x203, 0xb, false, 0x0⟩),
   (.plog, ⟨false, 0, .i8, 45, 0x0, 0x9, 0x4, 0x0, false, 0x0⟩),
   (.shfl, ⟨false, 0, .b32, 0, 0x81, 0x102, 0x1f4, 0x0, false, 0x0⟩),
   (.shup, ⟨false, 0, .b64, 0, 0x82, 0x104, 0x205, 0x0, false, 0x0⟩),
   (.shdn, ⟨false, 0, .b64, 0, 0x82, 0x104, 0x205, 0x0, false, 0x0⟩),
   (.bcast, ⟨false, 0, .b64, 0, 0x82, 0x104, 0x205, 0x0, false, 0x0⟩),
   (.voteAny, ⟨false, 0, .i8, 40, 0x0, 0xa, 0x0, 0x0, false, 0x0⟩),
   (.voteAll, ⟨false, 0, .i8, 49, 0x0, 0x5, 0x0, 0x0, false, 0x0⟩),
   (.voteBallot, ⟨false, 0, .b64, 2, 0x82, 0x9, 0x0, 0x0, false, 0x0⟩),
   (.redg, ⟨false, 0, .f32, 16, 0x81, 0x102, 0x0, 0x0, false, 0x0⟩),
   (.scang, ⟨false, 0, .f32, 16, 0x81, 0x102, 0x0, 0x0, false, 0x0⟩),
   (.gsort, ⟨false, 0, .f32, 3, 0x81, 0x102, 0x183, 0x0, false, 0x0⟩),
   (.gtopk, ⟨false, 0, .i32, 1, 0x81, 0x102, 0x205, 0x0, false, 0x0⟩),
   (.gmerge, ⟨false, 0, .n32, 1, 0x81, 0x102, 0x183, 0x0, false, 0x0⟩),
   (.sin, ⟨false, 0, .f32, 0, 0x81, 0x302, 0x0, 0x0, false, 0x0⟩),
   (.cos, ⟨false, 0, .f32, 0, 0x81, 0x302, 0x0, 0x0, false, 0x0⟩),
   (.ex2, ⟨false, 0, .f32, 0, 0x81, 0x302, 0x0, 0x0, false, 0x0⟩),
   (.lg2, ⟨false, 0, .f32, 0, 0x81, 0x302, 0x0, 0x0, false, 0x0⟩),
   (.rcp, ⟨false, 0, .f32, 0, 0x81, 0x302, 0x0, 0x0, false, 0x0⟩),
   (.rsq, ⟨false, 0, .f32, 0, 0x81, 0x302, 0x0, 0x0, false, 0x0⟩),
   (.tanh, ⟨false, 0, .f32, 0, 0x81, 0x302, 0x0, 0x0, false, 0x0⟩),
   (.qpack, ⟨false, 0, .q, 32, 0x4, 0x20, 0x0, 0x9, false, 0x0⟩),
   (.qunpk, ⟨false, 0, .f32, 27, 0x20, 0x4, 0x0, 0x0, false, 0x0⟩),
   (.qdot, ⟨false, 0, .f32, 38, 0x81, 0x8, 0xc, 0x0, false, 0x0⟩),
   (.qsc, ⟨false, 0, .q, 33, 0x4, 0x8, 0x205, 0x0, false, 0x0⟩),
   (.qadd, ⟨false, 0, .q, 33, 0x4, 0x8, 0xc, 0x0, false, 0x0⟩),
   (.qproj, ⟨false, 0, .q, 33, 0x4, 0x8, 0xc, 0x0, false, 0x0⟩),
   (.qrot, ⟨false, 0, .q, 0, 0x3, 0x5, 0x7, 0x0, false, 0x0⟩),
   (.qmov, ⟨false, 0, .q, 16, 0x2, 0xe, 0x0, 0x0, false, 0x0⟩),
   (.qnorm, ⟨false, 0, .f32, 11, 0x81, 0xf, 0x0, 0x0, false, 0x0⟩),
   (.qld, ⟨false, 0, .q, 36, 0x4, 0x205, 0x0, 0x18, false, 0x40⟩),
   (.qst, ⟨false, 0, .q, 16, 0x2, 0x7, 0x0, 0x0, false, 0xfffffff0⟩),
   (.ld, ⟨false, 0, .f32, 11, 0x84, 0x3, 0x1f4, 0x12, false, 0x100⟩),
   (.st, ⟨false, 0, .b64, 16, 0x84, 0x205, 0x1f4, 0x8, false, 0xfffffff8⟩),
   (.atom, ⟨false, 0, .n64, 38, 0x82, 0x106, 0x300, 0x65, false, 0x0⟩),
   (.cas, ⟨false, 0, .b64, 22, 0x84, 0x205, 0x300, 0x6, false, 0x0⟩),
   (.red, ⟨false, 0, .f32, 4, 0x81, 0x2, 0x205, 0x84, false, 0x0⟩),
   (.tki, ⟨false, 0, .bf16, 33, 0x81, 0x106, 0x102, 0x1e0, false, 0x0⟩),
   (.bpush, ⟨false, 0, .b64, 20, 0x82, 0x205, 0x300, 0xe3, false, 0x0⟩),
   (.bpop, ⟨false, 0, .b64, 2, 0x82, 0x1, 0x300, 0x3, false, 0x0⟩),
   (.lbra, ⟨true, 3, .i8, 0, 0x0, 0x0, 0x0, 0x0, false, 0xfffff⟩),
   (.ljmp, ⟨false, 0, .i8, 0, 0x0, 0x0, 0x0, 0x0, false, 0x12345⟩),
   (.lsetk, ⟨false, 0, .i8, 57, 0x0, 0xc, 0x0, 0x0, false, 0x0⟩),
   (.ljoin, ⟨false, 0, .i8, 6, 0x0, 0x0, 0x0, 0x0, false, 0x0⟩),
   (.lend, ⟨false, 2, .i8, 0, 0x0, 0x0, 0x0, 0x0, false, 0x0⟩),
   (.lexit, ⟨true, 7, .i8, 0, 0x0, 0x0, 0x0, 0x0, false, 0x0⟩),
   (.lnop, ⟨false, 0, .i8, 0, 0x0, 0x0, 0x0, 0x0, false, 0x0⟩)]

theorem test_decode_lane :
    ([0x01B10440A051A80000000000, 0x02B10440A051A80000000000, 0x03B10440A051A80000000000,
      0x04030040A058900000000000, 0x0570884080501BE800000000, 0x060180412090300000000000,
      0x0703804120800001FFFFFFF9, 0x08000440A040000000000000, 0x09000440A040000000000000,
      0x0A028040A051A80000000000, 0x0B028040A051A80000000000, 0x14028040A051A80000000000,
      0x0C0900412090300000000000, 0x0D0900412090300000000000, 0x0E0900412090300000000000,
      0x0F088040E200000000000000, 0x16088040E200000000000000, 0x17088040E200000000000000,
      0x18088040E200000000000000, 0x10010440A04000010000001F, 0x11088040A050180000000000,
      0x12088040A050180000000000, 0x13088040A050180000000000, 0x15030040A0501BE800000000,
      0x1901DA002090300000000000, 0x20B55840A050180000000000, 0x21B55840A050180000000000,
      0x22B55840A050180000000000, 0x24B55840A050180000000000, 0x23041440A0501BE800000000,
      0x2505A0412080000000000000, 0x26048240A050180000000000, 0x27048240A050180000000000,
      0x280580412080000000000000, 0x290580412080000000000000, 0x2A056E002058100000000000,
      0x2B058040A080000000000000, 0x2C044240A040000000000000, 0x2D053840A050180000000000,
      0x2E0880408000000000000000, 0x2E0882003020000000000000, 0x2E0904410000000000000000,
      0x2E09060040A0000000000000, 0x2E0888408000000000000000, 0x2E088A0040A0000000000000,
      0x30061440A040001400000000, 0x31078440A040001400000000, 0x32010040A040002000000000,
      0x3309004100000001DEADBEEF, 0x34088040A050181600000000, 0x35005A000120200000000000,
      0x40088040A04FA00000000000, 0x410900412090280000000000, 0x420900412090280000000000,
      0x430900412090280000000000, 0x440050000140000000000000, 0x4400620000A0000000000000,
      0x440904410120000000000000, 0x45052040A040000000000000, 0x46052040A040000000000000,
      0x47050640A04C180000000000, 0x48010240A050280000000000, 0x49030240A04C180000000000,
      0x50050040E040000000000000, 0x51050040E040000000000000, 0x52050040E040000000000000,
      0x53050040E040000000000000, 0x54050040E040000000000000, 0x55050040E040000000000000,
      0x56050040E040000000000000, 0x6009C0020400001200000000, 0x610536100080000000000000,
      0x62054C408100600000000000, 0x6309C2020110280000000000, 0x6409C2020100600000000000,
      0x6509C2020100600000000000, 0x6609800180A0380000000000, 0x6709A00101C0000000000000,
      0x6805164081E0000000000000, 0x6909C80240A0003000000040, 0x6A09A00100E00000FFFFFFF0,
      0x70051642006FA02400000100, 0x7109204240AFA010FFFFFFF8, 0x7203CC4120D800CA00000000,
      0x73092C4240B8000C00000000, 0x740508408050290800000000, 0x7504C240A0C813C000000000,
      0x7609284140B801C600000000, 0x770904410038000600000000, 0x80B0000000000000000FFFFF,
      0x810000000000000000012345, 0x820072000180000000000000, 0x83000C000000000000000000,
      0x842000000000000000000000, 0x85F000000000000000000000, 0x860000000000000000000000] : List Nat).map (decodeTableWord 96) =
      laneWords.map (fun x => some (x.1.instr x.2)) := by decide


theorem test_decode_clause_header :
    decodeTableWord 96 0xFFA058E76000000000000000 = some (.clauseStart ⟨0xA05, true, 1, true, 9, 13, true⟩) := by decide
theorem test_decode_repeat_prefix :
    decodeTableWord 96 0xFEAEAE400000000000000000 = some (.repeatPrefix ⟨0x2B, 5, 2, 7, 1⟩) := by decide
/-- Words that chapters 02 and 03 print with their assembly text. -/
theorem test_decode_printed :
    decodeTableWord 32 0x60200040 = some (.lrun (some 2) 0x40) ∧ decodeTableWord 32 0x4D0627FB = some (.sbc .lt 3 4 0x7FB) ∧
    decodeTableWord 32 0x28600040 = some (.slo 6 0x40) ∧ decodeTableWord 32 0x306FFFF0 = some (.shx 6 0xFFFF0) ∧
    decodeTableWord 32 0x64000002 = some (.cwait 2) ∧
    decodeTableWord 96 0xFF0098808000000000000000 = some (.clauseStart ⟨9, true, 1, false, 0, 2, false⟩) ∧
    decodeTableWord 96 0xFE0D24000000000000000000 = some (.repeatPrefix ⟨3, 2, 2, 2, 0⟩) ∧
    decodeTableWord 96 0x200580040200C00000000000 = some (.fadd ⟨false, 0, .f64, 0, 8, 16, 24, 0, false, 0⟩) ∧
    decodeTableWord 96 0x200500020040180000000000 = some (.fadd ⟨false, 0, .f32, 0, 4, 2, 3, 0, false, 0⟩) ∧
    decodeTableWord 96 0x03010000E200000100000003 = some (.imul ⟨false, 0, .i32, 0, 1, 0x310, 0, 0, true, 3⟩) ∧
    decodeTableWord 96 0x010100010030180000000000 = some (.iadd ⟨false, 0, .i32, 0, 2, 1, 0x203, 0, false, 0⟩) := by decide
/-- Reserved codes and fields that must be zero are refused (R23, R25 to R28, R33, R39, R40, R44, R47). -/
theorem test_decode_refuses :
    ([0x00000000, 0x34000000, 0x5C000000, 0x7C000000, 0xF8000000, 0xFFFFFFFF, 0x04000020, 0x0400001A, 0x0695818E, 0x1800A040, 0x40100000,
      0x4F000000, 0x50800000, 0x61000000 ||| 0x00C00000, 0x6C000003, 0x6C020000, 0x74040000, 0x880000E0, 0x8C000001, 0x90800000, 0x98000007,
      0xA0000002, 0xAC000001, 0xC0800000, 0xD4000004, 0xE0000002, 0xEC000010, 0xEC100005, 0xF0000003, 0xF4000007, 0xF4000103] :
      List Nat).map (decodeTableWord 32) = List.replicate 31 none ∧
    ([0x00 * 2 ^ 88, 0x1A * 2 ^ 88, 0x2F * 2 ^ 88, 0x78 * 2 ^ 88, 0xFD * 2 ^ 88, 0x33 * 2 ^ 88 + 20 * 2 ^ 79, 0x2E * 2 ^ 88 + 17 * 2 ^ 79 + 6 * 2 ^ 73,
      0x44 * 2 ^ 88 + 3 * 2 ^ 73, 0xFF * 2 ^ 88 + 1, 0xFF * 2 ^ 88 + 2 ^ 71, 0xFE * 2 ^ 88 + 1] : List Nat).map (decodeTableWord 96) =
      List.replicate 11 none := by decide

/-! ## Well-formedness: for each check, a term that it refuses -/

/-- A lane word with FN, a field or the immediate outside what its own instruction allows. -/
def spoiled (op : LaneOp) (w : LaneWord) : LaneWord :=
  match op with
  | .plog => { w with a := 16 }
  | .fcmp => { w with ty := .i32 }
  | .icmp => { w with fn := 6 }
  | .fexpCvmput => { w with a := 0x310 }
  | .sel => { w with c := 16 }
  | .voteAny | .voteAll | .voteBallot => { w with a := 16 }
  | .ld => { w with c := 7 }
  | .st => { w with c := 2 <<< 3 }
  | .atom => { w with c := 7 <<< 5 }
  | .cas => { w with fn := w.fn ||| 1 }
  | .red => { w with fn := 2 <<< 4 }
  | .tki => { w with c := 1 <<< 3 }
  | .bpush | .bpop => { w with b := 0 }
  | .lbra | .ljmp => { w with imm := 0x100000 }
  | .lsetk => { w with fn := 4 }
  | .ljoin | .lend | .lexit | .lnop => { w with imm := 1 }
  | _ => { w with fn := 0x3F }

theorem test_wf_lane_own : laneWords.all (fun x => !(x.1.instr (spoiled x.1 x.2)).wf) = true := by decide
theorem test_wf_lane_type :
    laneWords.all (fun x => !(x.1.instr { x.2 with ty := if x.2.ty = .q then .i8 else .q }).wf) = true := by decide
theorem test_wf_lane_negated_p0 : laneWords.all (fun x => !(x.1.instr { x.2 with neg := true, pred := 0 }).wf) = true := by decide
theorem test_wf_lane_unused_field :
    laneWords.all (fun x => (laneShape x.1 x.2).d ≠ .zero || !(x.1.instr { x.2 with d := 1 }).wf) = true ∧
    laneWords.all (fun x => (laneShape x.1 x.2).a ≠ .zero || !(x.1.instr { x.2 with a := 1 }).wf) = true ∧
    laneWords.all (fun x => (laneShape x.1 x.2).b ≠ .zero || !(x.1.instr { x.2 with b := 1 }).wf) = true ∧
    laneWords.all (fun x => (laneShape x.1 x.2).c ≠ .zero || !(x.1.instr { x.2 with c := 1 }).wf) = true := by decide
theorem test_wf_lane_immediate :
    laneWords.all (fun x => (laneShape x.1 x.2).imm || x.2.xi || !(x.1.instr { x.2 with imm := 1 }).wf) = true ∧
    laneWords.all (fun x => ((laneShape x.1 x.2).xi && !(laneShape x.1 x.2).imm) || !(x.1.instr { x.2 with xi := true, b := 0 }).wf) = true := by
  decide
/-- An odd register for a pair, s64, an unassigned special code, 1.0 under b32, a special destination, an unaligned direction. -/
theorem test_wf_lane_operand :
    ([.iadd ⟨false, 0, .i64, 0, 2, 0x05, 2, 0, false, 0⟩, .iadd ⟨false, 0, .i32, 0, 2, 0x240, 2, 0, false, 0⟩,
      .iadd ⟨false, 0, .i32, 0, 2, 0x303, 2, 0, false, 0⟩, .mov ⟨false, 0, .b32, 0, 2, 0, 0x302, 0, false, 0⟩,
      .iadd ⟨false, 0, .i32, 0, 0x300, 1, 2, 0, false, 0⟩, .qmov ⟨false, 0, .q, 32, 2, 4, 0, 0, false, 0⟩,
      .gtopk ⟨false, 0, .i32, 0, 2, 3, 0x310, 0, false, 0⟩] : List Instr).all (fun i => !i.wf) = true := by decide
theorem test_wf_header :
    ([⟨0, true, 12, false, 0, 0, false⟩, ⟨0, false, 1, false, 0, 0, false⟩, ⟨0, false, 0, true, 12, 0, false⟩,
      ⟨0, false, 0, false, 1, 0, false⟩, ⟨0, true, 3, true, 3, 0, false⟩] : List ClauseHeader).all
      (fun h => !(Instr.clauseStart h).wf) = true := by decide
theorem test_wf_scalar :
    ([.satomLd 1 2 .rel .quad true, .satomLd 1 2 .plain .quad true, .satomSt 1 2 .acq .quad true, .satomSwap 1 2 3 .plain .wg true,
      .satomAdd 1 2 3 .plain .die true, .scas 1 2 3 .plain .sys true, .cwait 0, .mdrain 0 1 2 3 false true, .wword 1 2 63, .mth 1 63,
      .pcopy 62 1 2 true, .pcopy 63 1 2 false, .pgather 61 1 2 true, .pscatter 62 1 2 false, .pfill 63 1 2, .ppush 63 1 2, .plodge 62 1 2,
      .pcancel 1 2 true] : List Instr).all (fun i => !i.wf) = true := by decide
/-- A prefix governs no control instruction, steps no s operand and keeps pairs and direction spans aligned (R44, R239). -/
theorem test_wf_prefix :
    ([(⟨1, 0, 0, 0, 0⟩, .lnop, ⟨false, 0, .i8, 0, 0, 0, 0, 0, false, 0⟩), (⟨1, 0, 1, 0, 0⟩, .iadd, ⟨false, 0, .i32, 0, 2, 0x203, 4, 0, false, 0⟩),
      (⟨1, 1, 0, 0, 0⟩, .iadd, ⟨false, 0, .i64, 0, 2, 4, 6, 0, false, 0⟩), (⟨1, 0, 0, 1, 0⟩, .iadd, ⟨false, 0, .i32, 0, 2, 3, 0, 0, true, 5⟩),
      (⟨1, 1, 0, 0, 0⟩, .qmov, ⟨false, 0, .q, 16, 2, 4, 0, 0, false, 0⟩), (⟨1, 0, 0, 0, 1⟩, .iadd, ⟨false, 0, .i32, 0, 2, 3, 4, 0, false, 0⟩)] :
      List (Prefix × LaneOp × LaneWord)).all (fun x => laneLegal x.2.1 x.2.2 && !prefixLegal x.1 x.2.1 x.2.2) = true := by decide

/-! ## Small states -/

/-- `g` with some s registers, in the snapshot of its lane run too. -/
def withS (g : Group) (l : List (Nat × Word64)) : Group :=
  let s := l.foldl (fun v x => v.setIfInBounds x.1 x.2) g.s
  { g with s := s, runs := g.runs.map fun r => { r with s := s } }

/-- Lane 0 of slot 0 at the only slot of its clause. -/
def tPlace : IssuePlace := ⟨0, 0, 0, 1, some 0, none, false⟩

/-- A group of 16 lanes with owner tag 7, in Caravan 3 of launch 5, at core 0: it waits for nothing, and a lane run of it issues. -/
def tGroup : Group :=
  { Group.absent with
    present := true, state := .resident, tag := 7, caravan := 3, launch := 5, running := true,
    runs := [⟨0, none, Group.absent.s, Group.absent.x, Group.absent.a⟩], slots := #v[some ⟨0, 0, some 0, 1, false, []⟩, none],
    entries := [⟨0, 0, [], 0, false, none⟩], iss := some tPlace, nextId := 1 }

/-- Addresses 0 to 2^29 − 1 lie at 2^29 with every permission, in DIR. -/
def tMap : Mapping := { va := 0, size := 2 ^ 29, pa := 2 ^ 29, key := 0, enc := false, grain := 0, coh := .dir, xwr := 7, entry := 2 ^ 30 }

def tBank (n : Nat) (m : BankMode) : Bank := ⟨n, m, some 3, 1, 0, 0, 0, [], false⟩

def tLaunch : Launch := ⟨5, 0, 0, 0, [], [], true, 0, 0, 1, 1, 0, false, 0, 0, none, false, false⟩

def tCaravan : Caravan :=
  ⟨3, 5, 0, .resident, 0, 0, 7, [(0, 0), (1, 1), (2, 2)], false, false, false, false, [], [], [], [], false, [], none, false, 0⟩

/-- The group in focus, its Caravan with bank 0 in SCRATCH mode, bank 1 a FIFO and bank 2 in CACHE mode, and every function ready. -/
def T : State :=
  { State.reset with
    g := tGroup, mem := { Mem.reset with coreTlb := [(0, ⟨0, tMap, true⟩)] }, banks := [tBank 0 .scratch, tBank 1 .fifo, tBank 2 .cache],
    disp := { Disp.reset with launches := [tLaunch], caravans := [tCaravan], nextTag := 8, nextCaravan := 4, nextLaunch := 6 },
    svc := { Service.reset with rdymap := BitVec.ofNat 768 (2 ^ 704 - 1) } }

/-- T with some s registers. -/
def TS (l : List (Nat × Word64)) : State := { T with g := withS tGroup l }

def onG (s : State) (f : Group → Group) : State := { s with g := f s.g }

def withCaravan (s : State) (c : Caravan) : State := { s with disp := { s.disp with caravans := [c] } }
def withMem (s : State) (m : Mem) : State := { s with mem := m }
/-- A region that `rbeg` has opened for the group, and a state with it. -/
def tRegion : Region := ⟨0, 0, 7, .run, [], [], [], [], 0, [], false⟩
def inRegion (s : State) : State := { s with regions := [tRegion] }

def isOk {σ ε α : Type} (p : σ × Except ε α) : Bool := match p.2 with | .ok _ => true | .error _ => false

theorem ok_of {σ ε α : Type} (p : σ × Except ε α) (h : isOk p = true) : ∃ s v, p = (s, .ok v) := by
  obtain ⟨s, e | v⟩ := p
  · simp [isOk] at h
  · exact ⟨s, v, rfl⟩

theorem error_of {σ ε α : Type} (p : σ × Except ε α) (h : isOk p = false) : ∃ s e, p = (s, .error e) := by
  obtain ⟨s, e | v⟩ := p
  · exact ⟨s, e, rfl⟩
  · simp [isOk] at h

def isJust {ε α : Type} [DecidableEq α] (p : Except ε α) (v : α) : Bool := match p with | .ok x => decide (x = v) | .error _ => false

theorem ok_eq {ε α : Type} [DecidableEq α] (p : Except ε α) (v : α) (h : isJust p v = true) : p = .ok v := by
  cases p with
  | error e => simp [isJust] at h
  | ok x => simp only [isJust, decide_eq_true_eq] at h; rw [h]

theorem read_of (p : State × PorterRead) (h : (p.2 matches .ok _) = true) : ∃ s bs, p = (s, .ok bs) := by
  obtain ⟨s, r⟩ := p
  cases r with
  | ok bs => exact ⟨s, bs, rfl⟩
  | _ => simp at h

theorem ok_of' {ε α : Type} (p : Except ε α) (h : (p matches .ok _) = true) : ∃ v, p = .ok v := by
  cases p with
  | ok v => exact ⟨v, rfl⟩
  | error e => simp at h

theorem error_of' {ε α : Type} (p : Except ε α) (h : (p matches .error _) = true) : ∃ v, p = .error v := by
  cases p with
  | ok v => simp at h
  | error e => exact ⟨e, rfl⟩

theorem some_of {α : Type} (p : Option α) (h : p.isSome = true) : ∃ v, p = some v := by
  cases p with
  | some v => exact ⟨v, rfl⟩
  | none => simp at h

/-! ## Witnesses: states and operands that meet the hypotheses of each statement -/

theorem witness_ScalarRoundTrip : (Instr.slo 63 0xFFFFF).wf = true ∧ (encodeScalar (.slo 63 0xFFFFF)).isSome = true := by decide
theorem witness_LaneRoundTrip : laneWords.all (fun x => (x.1.instr x.2).wf && (encodeLane (x.1.instr x.2)).isSome) = true := by decide
theorem witness_WordsAreUnique :
    ∃ i j, decodeScalar 0xF4000003#32 = .ok i ∧ decodeLane (BitVec.ofNat 96 (0x86 * 2 ^ 88)) = .ok j :=
  ⟨.sysrd 0 0, .lnop ⟨false, 0, .i8, 0, 0, 0, 0, 0, false, 0⟩, rfl, rfl⟩

/-- Whether a fetch answers bytes that decode to an instruction with a property. -/
def decodesTo {σ ε : Type} (p : σ × Except ε (List Byte)) (f : Instr → Bool) : Bool :=
  match p.2 with
  | .ok bs => match decodeBytes bs with
    | .ok i => f i
    | .error _ => false
  | .error _ => false

theorem decodes_of {σ ε : Type} (p : σ × Except ε (List Byte)) (f : Instr → Bool) (h : decodesTo p f = true) :
    ∃ s bs i, p = (s, .ok bs) ∧ decodeBytes bs = .ok i ∧ f i = true := by
  obtain ⟨s, e | bs⟩ := p
  · simp [decodesTo] at h
  · cases hd : decodeBytes bs with
    | error e => simp [decodesTo, hd] at h
    | ok i => exact ⟨s, bs, i, rfl, hd, by simpa [decodesTo, hd] using h⟩

theorem witness_StepRunsTheScalarWord : let s := State.reset.withFetchWord 32 0x08000007
    (s.scalarReady = true ∧ s.fetchHeld s.g.spc 4 = false) ∧
      ∃ s1 bs i, s.stampScalar.openOwn.fetch s.g.spc 4 = (s1, .ok bs) ∧ decodeBytes bs = .ok i ∧ decide (i = .saddi 0 0 7) = true :=
  ⟨by decide +kernel, decodes_of _ _ (by decide +kernel)⟩

theorem witness_StepRunsTheLaneWord : let s := State.reset.withFetchWord 96 (0x86 * 2 ^ 88)
    let pl : IssuePlace := ⟨0, 0, 0, 0xFFFF, some 0, none, false⟩
    (s.g.present = true ∧ s.g.nextPlace 0 = some pl ∧ s.readySlot = some 0) ∧
      ∃ s1 bs i, (s.stampLane pl).fetch (s.g.laneAddr pl.index) 12 = (s1, .ok bs) ∧ decodeBytes bs = .ok i ∧ pl.fits i = true :=
  ⟨by decide +kernel, decodes_of _ _ (by decide +kernel)⟩

theorem witness_StepRunsTheScalarWord_illegal : let s := State.reset.withFetchWord 32 0
    (s.scalarReady = true ∧ s.fetchHeld s.g.spc 4 = false ∧ (decodeBytes [0, 0, 0, 0] matches .error _) = true) ∧
      (match (s.stampScalar.openOwn.fetch s.g.spc 4).2 with | .ok bs => decide (bs = [0, 0, 0, 0]) | .error _ => false) = true :=
  ⟨by decide +kernel, by decide +kernel⟩

theorem witness_StepKeepsMemoryForm : let s := State.reset.withFetchWord 32 0x08000007
    s.memWf ∧ (step s matches .next _) = true := ⟨by unfold State.memWf; decide +kernel, by decide +kernel⟩

/-- In handler mode with 4 s registers, every instruction that names s5 passes what is tested before its registers. -/
theorem witness_RegisterBound : let s : State := { T with g := { tGroup with sAllot := 4, hmode := true } }
    s.g.hasS 5 = false ∧ s.TestsRegs (.smov 5 0 false) ∧ s.TestsRegs (.barx 5 0 5) ∧ s.TestsRegs (.tlbi 0 1 5) ∧ s.TestsRegs (.sysret 5) ∧
      ∀ i ∈ [Instr.smov 5 0 false, .barx 5 0 5, .tlbi 0 1 5, .sysret 5, .satomAdd 0 5 1 .acq .quad true, .pcopy 5 0 1 true, .mdrain 0 5 0 0 false false,
        .sgetn 5 0, .slo 5 0, .syswr 5 0], 5 ∈ sregs i := by
  refine ⟨by decide +kernel, trivial, fun h => absurd h (by decide +kernel), ⟨rfl, fun h => absurd h (by decide +kernel)⟩, rfl, by decide +kernel⟩

theorem witness_scalar_registers :
    T.HasRegs [63, 0, 62] ∧ (tGroup.sAllot, ({ tGroup with sAllot := 16 } : Group).hasS 16, ({ tGroup with sAllot := 16 } : Group).hasS 15) = (64, false, true) ∧
      (saluRows.any fun row => row.instr 0 0 1 false ≠ row.instr 0 0 2 false) = true ∧ 64 ≤ (64 : BitVec 14).toNat ∧
      (0x1FFFFFFFFFFFFFF#64).extractLsb' 59 5 = 0#5 ∧ (0xF800000000000000#64).extractLsb' 59 5 = 0x1F#5 := by
  unfold State.HasRegs; decide +kernel

/-- s5 a multiple of 4 and not, no region, and one that `rbeg` opened. -/
theorem witness_ScalarControlFlow :
    ((TS [(5, 0x1000)]).sreg 5).extractLsb' 0 2 = 0#2 ∧ ((TS [(5, 0x1002)]).sreg 5).extractLsb' 0 2 ≠ 0#2 ∧ T.region = none ∧
      (inRegion T).region = some tRegion ∧
      (0x4F000000#32).extractLsb' 26 6 = 0x13#6 ∧ 6 ≤ ((0x4F000000#32).extractLsb' 23 3).toNat := by decide +kernel

/-- `lrun` and `cwait` with room and without, and registers inside and outside the allotments. -/
theorem witness_LaneRunsAndStateMoves : let full : State := { T with g := { tGroup with runs := List.replicate 4 tGroup.snapshot, c := Vector.replicate 12 63 } }
    (T.g.runs.length < 4 ∧ T.g.c[11].toNat < 63) ∧ ¬full.g.runs.length < 4 ∧ ¬full.g.c[11].toNat < 63 ∧
      (∀ f : Fin 12, (0xFFF#12).getLsbD f = true → T.g.c[f] = 0#6) ∧ ¬(∀ f : Fin 12, (0xFFF#12).getLsbD f = true → full.g.c[f] = 0#6) ∧
      (255#8).toNat < T.g.vAllot ∧ ({ tGroup with vAllot := 8 } : Group).vAllot ≤ (8#8).toNat ∧ (15#4).toNat < T.g.qAllot ∧
      ({ tGroup with qAllot := 4 } : Group).qAllot ≤ (4#4).toNat := by decide +kernel

/-- Every lane operation issues at T, and with XE = 0 no lane takes a trap. -/
theorem test_every_lane_word_issues : laneWords.all (fun x => (T.g.laneCtx tPlace x.2).bars x.1 = none) = true := by decide +kernel

theorem issues_T (x : LaneOp × LaneWord) (hx : x ∈ laneWords) : T.Issues x.1 x.2 tPlace :=
  ⟨rfl, by simpa using List.all_eq_true.1 test_every_lane_word_issues x hx⟩

theorem noTrap_T (k : LaneCtx) (f : Nat → Flags) : NoTrap T k f := fun _ _ _ => BitVec.and_zero

theorem witness_of_op (op : LaneOp) (h : op ∈ laneWords.map (·.1)) : ∃ w, T.Issues op w tPlace ∧ ∀ k f, NoTrap T k f := by
  obtain ⟨x, hx, rfl⟩ := List.mem_map.1 h
  exact ⟨x.2, issues_T x hx, noTrap_T⟩

theorem witness_of_rows {α : Type} (l : List α) (op : α → LaneOp) (h : l.all (fun r => decide (op r ∈ laneWords.map (·.1))) = true) :
    ∀ r ∈ l, ∃ w, T.Issues (op r) w tPlace ∧ ∀ k f, NoTrap T k f :=
  fun r hr => witness_of_op (op r) (of_decide_eq_true (List.all_eq_true.1 h r hr))

theorem witness_LaneResults : ∀ row ∈ laneIntegerRows ++ laneBitRows ++ laneFloatRows ++ laneLongRows, ∃ w, T.Issues row.op w tPlace ∧ ∀ k f, NoTrap T k f :=
  witness_of_rows _ LaneRow.op (by decide +kernel)
/-- 1.0 and 2.0 in binary32: an exact sum in range, and one that rounds; the reciprocal and the root of 4.0 in the binade of 2^-2 and 2^-1. -/
theorem witness_FloatingResultsAreRounded :
    (unpack .f32 0x3F800000).num = some 1 ∧ (unpack .f32 0x40000000).num = some 2 ∧ (2 : Rat) ≠ 0 ∧
    (∃ v, finite .f32 v ∧ exactly (1 + 2) v ≠ .gt ∧ exactly (1 + 2) (-v) ≠ .lt) ∧ (unpack .e4m3 (0x7E % 2 ^ tyBits .e4m3)).num = some 448 ∧
    intMin .i8 ≤ 2 ∧ 2 ≤ intMax .i8 ∧ zeroCode ≠ 0 ∧ invalidCode ≠ 0 :=
  ⟨by decide +kernel, by decide +kernel, by decide +kernel, ⟨4, ⟨0x40800000, by decide +kernel, by decide +kernel⟩, by decide +kernel, by decide +kernel⟩,
   by decide +kernel⟩

theorem witness_ReciprocalsAreWithinAnUlp : (unpack .f32 (0x40800000#32).toNat).num = some 4 ∧ (4 : Rat) ≠ 0 ∧
    (pow2 (-2) ≤ 1 / (4 : Rat) ∧ 1 / (4 : Rat) < pow2 (-2 + 1)) ∧ (0 : Rat) < 4 ∧ pow2 (2 * (-1)) * 4 ≤ 1 ∧ 1 < pow2 (2 * (-1) + 2) * 4 := by
  decide +kernel

theorem witness_CrossLaneAndPredicateResults :
    (∀ row ∈ crossLaneRows, ∃ w, T.Issues row.op w tPlace ∧ ∀ k f, NoTrap T k f) ∧
    (∀ row ∈ predicateRows, ∃ w, T.Issues row.op w tPlace ∧ ∀ k f, NoTrap T k f) ∧
    ∀ op ∈ [LaneOp.fexpPut, .fexpCvmput, .fexpXeput], ∃ w, T.Issues op w tPlace ∧ ∀ k f, NoTrap T k f :=
  ⟨witness_of_rows _ LaneRow.op (by decide +kernel),
   witness_of_rows _ BitRow.op (by decide +kernel),
   fun op h => witness_of_op op (by revert op; decide +kernel)⟩
theorem witness_PackAndSortResults : ∀ op ∈ [LaneOp.cpack, .cunpk, .gsort, .gtopk, .gmerge], ∃ w, T.Issues op w tPlace ∧ ∀ k f, NoTrap T k f :=
  fun op h => witness_of_op op (by revert op; decide +kernel)

/-- Directions write with XE = 0; `qdot` meets all of the width and not all of it; a predicate that holds no lane leaves none. -/
theorem witness_DirectionResults :
    (∀ row ∈ directionRows, ∃ w, T.Issues row.op w tPlace ∧ ∀ x : Flags, x &&& T.g.xe = 0) ∧
    (∀ op ∈ [LaneOp.qdot, .qnorm, .qunpk], ∃ w, T.Issues op w tPlace ∧ ∀ k f, NoTrap T k f) ∧
    (T.g.laneCtx tPlace ⟨false, 0, .f32, 0, 1, 8, 12, 0, false, 0⟩).m ≠ T.g.full ∧
    (T.g.laneCtx { tPlace with mask := 0xFFFF } ⟨false, 0, .f32, 0, 1, 8, 12, 0, false, 0⟩).m = T.g.full ∧
    (T.g.laneCtx tPlace ⟨false, 1, .q, 0, 1, 8, 12, 0, false, 0⟩).m = 0 :=
  ⟨fun row h => (witness_of_rows _ DirRow.op (by decide +kernel) row h).imp
    fun _ hw => ⟨hw.1, fun _ => BitVec.and_zero⟩,
   fun op h => witness_of_op op (by revert op; decide +kernel), by decide +kernel, by decide +kernel, by decide +kernel⟩
/-- Whether each access reaches what a list says. -/
def reaches (f : Nat × Word64 × Word64 → Except TransFault Reach) : List (Nat × Word64 × Word64) → List LaneAcc → Bool
  | [], [] => true
  | x :: l, a :: accs => (x.1 = a.lane && x.2.1 = a.va && match f x with | .ok r => r = a.reach | .error _ => false) && reaches f l accs
  | _, _ => false

theorem reaches_eq (f : Nat × Word64 × Word64 → Except TransFault Reach) (l : List (Nat × Word64 × Word64)) (accs : List LaneAcc)
    (h : reaches f l accs = true) :
    l.map (fun x => (x.1, x.2.1, f x)) = accs.map fun a => (a.lane, a.va, .ok a.reach) := by
  induction l generalizing accs with
  | nil => cases accs with
    | nil => rfl
    | cons a as => simp [reaches] at h
  | cons x l ih => cases accs with
    | nil => simp [reaches] at h
    | cons a as =>
      simp only [reaches, Bool.and_eq_true, decide_eq_true_eq] at h
      obtain ⟨⟨⟨h1, h2⟩, h3⟩, h4⟩ := h
      cases hf : f x with
      | error e => simp [hf] at h3
      | ok r => simp [hf] at h3; simp [ih as h4, h1, h2, hf, h3]

theorem loads_of (p : State × List (Nat × LoadRes)) (h : p.2.all (fun x => x.2 matches .ok _) = true) :
    ∃ (s : State) (rs : List (Nat × List Byte)), p = (s, rs.map fun x => (x.1, .ok x.2)) := by
  refine ⟨p.1, p.2.map fun x => (x.1, x.2.bytes), Prod.ext rfl ?_⟩
  rw [List.map_map]
  refine (List.map_id p.2).symm.trans (List.map_congr_left fun x hx => ?_)
  have hx := List.all_eq_true.1 h x hx
  obtain ⟨i, r⟩ := x
  cases r <;> simp_all [LoadRes.bytes]

/-- An access of lane or part `i` to DIR memory that T maps. -/
def tAcc (i : Nat) (va : Word64) : LaneAcc := ⟨i, va, .mem ⟨va, 2 ^ 29 + va.toNat, .dir, 0, false, 0, some tMap⟩⟩

/-- The state that the translation of some accesses leaves. -/
def noted (s : State) (f : AccessForm) (accs : List LaneAcc) : State :=
  accs.foldl (fun s a => match a.reach with | .mem p => s.notePlace p f.kind | .win _ => s) s

theorem resolved_T (s : State) (k : LaneCtx) (bk : Nat) (f : AccessForm) (l : List (Nat × Word64 × Word64)) (accs : List LaneAcc)
    (hb : (bk ≠ 0 ∧ (l.all (fun x => decide (x.2.1.toNat % f.al = 0)) = true ∧ s.laneHeld k bk f l = false) ∧ reaches (fun x => s.reachVa f x.2.1) l accs = true ∧
      accs.all (fun a => (!s.g.hmode && !s.g.noWatchLane &&
        (watches s.g.watch0 a.va f.n f.store || watches s.g.watch1 a.va f.n f.store)) = false) = true) ∧
      s.lineHeld (accs.flatMap (LaneAcc.lines f.n)) = false ∧
      (s.g.sb.any fun e => !e.performed && e.op matches .op .. &&
        e.lines.any fun x => (accs.flatMap (LaneAcc.lines f.n)).contains x) = false) :
    s.Resolved k bk f l accs (noted s f accs) := by
  obtain ⟨⟨h0, ⟨h1, h6⟩, h2, h3⟩, h4, h5⟩ := hb
  refine ⟨{}, s, fun x hx => by simpa using List.all_eq_true.1 h1 x hx, h6, by rw [if_neg h0], ?_, ?_, h4, fun _ => h5, rfl⟩
  · simpa [h0] using reaches_eq _ l accs h2
  · exact fun a ha => by simpa only [decide_eq_true_eq] using List.all_eq_true.1 h3 a ha

/-- T with the s registers that the memory instructions below take: s5 an address, s8 the threads of a control word. -/
def tMem : State := TS [(5, 0x1000), (6, 0xFFFFF00000000040)]

/-- A word of BK 1 with the address in s5, or in a scratch window at s6. -/
def memWord (ty : Ty) (fn : BitVec 6) (a : BitVec 10) (c : BitVec 10 := 0) (b : BitVec 10 := 0x300) : LaneWord :=
  ⟨false, 0, ty, 0x10 ||| fn, 4, a, b, c, false, 0⟩

/-- Lane 5: 6 is 4 and 2. -/
theorem witness_CrossLaneAndPredicateResults_scan : (6 : Nat) ≤ 64 ∧ [2, 1].Pairwise (· > ·) ∧ ([2, 1].map (2 ^ ·)).sum = 6 ∧
    nodesFrom (T.g.laneCtx tPlace (memWord .i32 0 0)).redStep (T.g.laneCtx tPlace (memWord .i32 0 0)).leaf 0 [2, 1] ≠ [] := by
  refine ⟨by decide, by decide, by decide, by simp [nodesFrom]⟩

theorem witness_LaneLoadResults : let w := memWord .b64 3 0x205 2
    let k := tMem.g.laneCtx tPlace w
    let accs := [tAcc 0 0x1000]
    tMem.Issues .ld w tPlace ∧ tMem.Resolved k w.bk ⟨32, 32, false, .load, false⟩ (k.laneAddrs w.ty.esize) accs (noted tMem ⟨32, 32, false, .load, false⟩ accs) ∧
      accessBytes w = 32 ∧ PlainAccesses accs ∧
      ∃ (s2 : State) (rs : List (Nat × List Byte)), (noted tMem ⟨32, 32, false, .load, false⟩ accs).hintedLoads 32 w.hint accs = (s2, rs.map fun x => (x.1, .ok x.2)) :=
  ⟨⟨rfl, by decide +kernel⟩, resolved_T _ _ _ _ _ _ (by decide +kernel), by decide +kernel, List.forall_mem_singleton.2 trivial, loads_of _ (by decide +kernel)⟩

/-- A valid translation register over addresses 0 to 0xFFFF, and a state whose lane run holds it as a0. -/
def tReg : TransReg := { v := true, pbase := 2 ^ 29, req := 0x10000, limit := 0x10000, xwr := 7 }
def tRegs : State := onG tMem fun g => { g with runs := g.runs.map fun r => { r with a := r.a.set 0 tReg } }

/-- A load of BK 0, through a0; and a histogram that `tki` may use. -/
theorem witness_LaneLoadResults_register : let w : LaneWord := { memWord .b64 3 0x205 2 with fn := 3, a := 0, b := 0x205 }
    let k := tRegs.g.laneCtx tPlace w
    let f : AccessForm := ⟨32, 32, false, .load, false⟩
    let accs : List LaneAcc := [⟨0, 0x1000, .mem ⟨0x1000, 2 ^ 29 + 0x1000, .dir, 0, false, 0, none⟩⟩]
    w.bk = 0 ∧ tRegs.Issues .ld w tPlace ∧ tRegs.Resolved k w.bk f (k.laneAddrs w.ty.esize) accs (noted tRegs f accs) ∧
      tRegs.histFault tReg = .ok tReg := by
  refine ⟨by decide +kernel, ⟨rfl, by decide +kernel⟩, ⟨tReg, tRegs, by decide +kernel, by decide +kernel, ?_, ?_, by decide +kernel, by decide +kernel, fun _ => by decide +kernel, rfl⟩, ok_eq _ _ (by decide +kernel)⟩
  · rw [if_pos (by decide +kernel)]
    have h : tRegs.freshReg tRegs.g (tRegs.g.laneCtx tPlace { memWord .b64 3 0x205 2 with fn := 3, a := 0, b := 0x205 }).treg = .ok tReg :=
      ok_eq _ _ (by decide +kernel)
    rw [h]; exact ⟨rfl, by rw [if_neg (by decide +kernel)]⟩
  · exact reaches_eq (fun x => if (0 : Nat) = 0 then tRegs.reachReg _ tReg x.2.2 else tRegs.reachVa _ x.2.1) _ _ (by decide +kernel)

/-- A load of a bank, at the last bytes of it. -/
theorem witness_LaneLoadResults_bank : let w : LaneWord := { memWord .i8 0 0x206 with imm := 0xFFBF }
    let k := tMem.g.laneCtx tPlace w
    let accs := [⟨0, 0xFFFFF0000000FFFF, .win (.scratch 0 65535)⟩]
    tMem.Issues .ld w tPlace ∧ tMem.Resolved k w.bk ⟨1, 1, false, .load, false⟩ (k.laneAddrs w.ty.esize) accs (noted tMem ⟨1, 1, false, .load, false⟩ accs) ∧
      PlainAccesses accs :=
  ⟨⟨rfl, by decide +kernel⟩, resolved_T _ _ _ _ _ _ (by decide +kernel), List.forall_mem_singleton.2 trivial⟩

/-- `st` of one byte to memory, and of four 64-bit elements, with room in the store buffer. -/
theorem witness_LaneStoresAreBuffered : let w := memWord .b64 1 0x205
    let k := tMem.g.laneCtx tPlace w
    let f : AccessForm := ⟨32, 32, true, .store, false⟩
    let accs := [tAcc 0 0x1000]
    let buf := accs.map fun a => (a.lane, a.storeBytes (k.storeData a.lane))
    tMem.Issues .st w tPlace ∧ tMem.Resolved k w.bk f (k.laneAddrs w.ty.esize) accs (noted tMem f accs) ∧ PlainAccesses accs ∧ accessBytes w = 32 ∧
      (noted tMem f accs).region = none ∧ LaneWord.order w = .plain ∧ anyOverlap buf = false ∧
      (noted tMem f accs).g.sbRoom ((storeEntries buf).flatMap fun e => e.2.map fun y => y.1.line) ((storeEntries buf).map fun e => e.1.length).sum = true :=
  ⟨⟨rfl, by decide +kernel⟩, resolved_T _ _ _ _ _ _ (by decide +kernel), List.forall_mem_singleton.2 trivial, by decide +kernel⟩

/-- In a region, at a place that a load-store of the region may take, and past its store's bytes. -/
theorem witness_LaneStoresAreBuffered_region : let s := inRegion tMem
    let w := memWord .b64 1 0x205
    let accs := [tAcc 0 0x1000]
    let ps := (accs.map fun a => (a.lane, a.storeBytes ((s.g.laneCtx tPlace w).storeData a.lane))).filterMap fun x => placeBytes x.2
    s.Resolved (s.g.laneCtx tPlace w) w.bk ⟨32, 32, true, .store, false⟩ ((s.g.laneCtx tPlace w).laneAddrs w.ty.esize) accs
        (noted s ⟨32, 32, true, .store, false⟩ accs) ∧ (noted s ⟨32, 32, true, .store, false⟩ accs).region = some tRegion ∧
      (∃ t, (noted s ⟨32, 32, true, .store, false⟩ accs).regionStores ps = .ok t) ∧
      (∃ c, ({ noted s ⟨32, 32, true, .store, false⟩ accs with banks := (List.range 16).map fun n => tBank n .scratch } : State).regionStores ps = .error c) ∧
      s.mem.keyServes (2 ^ 29 + 0x1000) false 0 = true ∧ s.g.sbRoom [] 0 = true ∧ LaneAcc.inDir ⟨0, 0x1000, .mem ⟨0x1000, 2 ^ 29 + 0x1000, .none, 0, false, 0, none⟩⟩ = false ∧
      s.mayRelease .rel .dom ∧ s.mayRelease .acq .dom :=
  ⟨resolved_T _ _ _ _ _ _ (by decide +kernel), by decide +kernel, ok_of' _ (by decide +kernel), error_of' _ (by decide +kernel), by decide +kernel,
   by decide +kernel, by decide +kernel, fun _ => by decide +kernel, fun h => by cases h⟩

theorem witness_LaneAtomicsAreSent : let s := inRegion tMem
    (s.region = some tRegion ∧ s.Issues .atom (memWord .i32 0 0x205) tPlace ∧ s.Issues .cas (memWord .i32 0 0x205) tPlace) ∧ tMem.region = none :=
  ⟨⟨by decide +kernel, ⟨rfl, by decide +kernel⟩, ⟨rfl, by decide +kernel⟩⟩, by decide +kernel⟩

theorem witness_LaneAtomicsAreSent_atom : let w := memWord .i64 0 0x205
    let k := tMem.g.laneCtx tPlace w
    let f : AccessForm := ⟨8, 8, true, .atomic, false⟩
    let accs := [tAcc 0 0x1000]
    let ops (f : Nat → MemOp) : LaneOps := accs.filterMap fun a => a.target.map fun x => (a.lane, 1, x, f a.lane)
    (tMem.Issues .atom w tPlace ∧ tMem.Issues .cas w tPlace) ∧ tMem.Resolved k w.bk f (k.laneAddrs w.ty.esize) accs (noted tMem f accs) ∧ PlainAccesses accs ∧
      LaneWord.order w = .plain ∧ (∀ f, sameTargets (ops f) = false) ∧
      ∀ g, (noted tMem f accs).g.sbRoom ((ops g).map fun x => x.2.2.1.line) ((ops g).foldl (fun n x => n + x.2.1) 0) = true :=
  ⟨⟨⟨rfl, by decide +kernel⟩, ⟨rfl, by decide +kernel⟩⟩, resolved_T _ _ _ _ _ _ (by decide +kernel), List.forall_mem_singleton.2 trivial, by decide +kernel,
   fun _ => rfl, fun _ => rfl⟩

theorem witness_LaneAtomicsAreSent_red : let w := memWord .i32 0 0x205
    let k := tMem.g.laneCtx tPlace w
    let f : AccessForm := ⟨4, 4, true, .atomic, true⟩
    let accs := [tAcc 0 0x1000]
    tMem.Issues .red w tPlace ∧ tMem.Resolved k w.bk f (k.oneAddr w.ty.esize) accs (noted tMem f accs) ∧ k.m ≠ 0 ∧ LaneWord.order w = .plain ∧
      accs = [⟨0, k.address w.bk (k.offset w.ty.esize 0) 0, .mem ⟨0x1000, 2 ^ 29 + 0x1000, .dir, 0, false, 0, some tMap⟩⟩] ∧ tMem.g.xe = 0 ∧
      (noted tMem f accs).g.sbRoom [.inr ((2 ^ 29 + 0x1000) / 128)] 1 = true :=
  ⟨⟨rfl, by decide +kernel⟩, resolved_T _ _ _ _ _ _ (by decide +kernel), by decide +kernel⟩

theorem witness_LaneAtomicsAreSent_tki : let w := memWord .bf16 0 0x205 0 0x300
    let k := tMem.g.laneCtx tPlace w
    let f : AccessForm := ⟨16, 16, true, .atomic, true⟩
    let accs := [tAcc 0 0x1000]
    tMem.Issues .tki w tPlace ∧ tMem.Resolved k w.bk f (k.laneAddrs 2) accs (noted tMem f accs) ∧ w.var = false ∧ tMem.g.xe = 0 ∧
      (accs.filter fun a => !tkiInvalid (k.dSrc .bf16 a.lane)) = accs ∧
      (noted tMem f accs).g.sbRoom (accs.filterMap fun a => a.target.map (·.line)) 1 = true ∧ ∀ a ∈ accs, a.isMem = true :=
  ⟨⟨rfl, by decide +kernel⟩, resolved_T _ _ _ _ _ _ (by decide +kernel), by decide +kernel⟩

theorem witness_LaneAtomicsAreSent_bulk : let w := memWord .b64 0 0x205
    let k := tMem.g.laneCtx tPlace w
    let f : AccessForm := ⟨64, 64, true, .atomic, true⟩
    let accs := [tAcc 0 0x1000]
    (tMem.Issues .bpush w tPlace ∧ tMem.Issues .bpop w tPlace) ∧ tMem.Resolved k w.bk f (k.oneAddr 8) accs (noted tMem f accs) ∧
      (noted tMem f accs).g.sbRoom [.inr ((2 ^ 29 + 0x1000) / 128)] k.m.lanes.length = true :=
  ⟨⟨⟨rfl, by decide +kernel⟩, ⟨rfl, by decide +kernel⟩⟩, resolved_T _ _ _ _ _ _ (by decide +kernel), by decide +kernel⟩

/-- The address that a target names in its memory or bank. -/
def targetKey : Target → Nat
  | .mem pa .. => pa
  | .bank _ o => o

/-- Buffers whose bytes lie in 64-byte blocks of their own do not overlap. -/
theorem apart (base : Nat) (l : List (Nat × List (Target × Byte))) (h : (l.all fun x => x.2.all fun t => targetKey t.1 / 64 = base + x.1) = true)
    (hn : (l.map (·.1)).Nodup) : anyOverlap l = false := by
  induction l with
  | nil => rfl
  | cons x xs ih =>
    simp only [List.all_cons, Bool.and_eq_true, List.map_cons, List.nodup_cons] at h hn
    simp only [anyOverlap, ih h.2 hn.2, Bool.or_false, List.any_eq_false]
    intro y hy ho
    simp only [overlaps, List.any_eq_true, decide_eq_true_eq] at ho
    obtain ⟨a, ha, b, hb, hab⟩ := ho
    have h1 := of_decide_eq_true (List.all_eq_true.1 h.1 a ha)
    have h2 := of_decide_eq_true (List.all_eq_true.1 (List.all_eq_true.1 h.2 y hy) b hb)
    rw [hab] at h1
    have : x.1 = y.1 := by omega
    exact hn.1 (this ▸ List.mem_map_of_mem hy)

/-- A direction of one register in a group of 16 lanes has a record of nine parts. -/
theorem witness_DirectionMemoryResults : let w : LaneWord := ⟨false, 0, .q, 4, 2, 0x206, 0, 0, false, 0⟩
    let k := tMem.g.laneCtx tPlace w
    let f : AccessForm := ⟨64, 64, false, .load, false⟩
    let h : AccessForm := ⟨64, 64, true, .store, false⟩
    let accs := (List.range 9).map fun i => (⟨i, 0xFFFFF00000000040 + BitVec.ofNat 64 (64 * i), .win (.scratch 0 (64 + 64 * i))⟩ : LaneAcc)
    let buf := accs.map fun a => (a.lane, a.storeBytes (((recordBytes (k.g.direction k.dDir w.qspan).read).drop (64 * a.lane)).take 64))
    ((tMem.Issues .qld w tPlace ∧ tMem.Issues .qst w tPlace) ∧ k.m ≠ 0 ∧ tMem.region = none) ∧
      (tMem.Resolved k w.qbk f k.recordAddrs accs (noted tMem f accs) ∧ tMem.Resolved k w.qbk h k.recordAddrs accs (noted tMem h accs)) ∧ PlainAccesses accs ∧
      (∃ (s2 : State) (rs : List (Nat × List Byte)), (noted tMem f accs).hintedLoads 64 w.hint accs = (s2, rs.map fun x => (x.1, .ok x.2))) ∧
      (tMem.g.xe = 0 ∧ ∀ x ∈ buf, x.2 ≠ []) ∧ anyOverlap buf = false ∧
      (noted tMem h accs).g.sbRoom ((storeEntries buf).flatMap fun e => e.2.map fun y => y.1.line) 1 = true :=
  ⟨⟨⟨⟨rfl, by decide +kernel⟩, ⟨rfl, by decide +kernel⟩⟩, by decide +kernel⟩,
   ⟨resolved_T _ _ _ _ _ _ (by decide +kernel), resolved_T _ _ _ _ _ _ (by decide +kernel)⟩,
   fun a ha => by obtain ⟨i, _, rfl⟩ := List.mem_map.1 ha; trivial,
   loads_of _ (by decide +kernel), by decide +kernel,
   apart 1 _ (by decide +kernel) (by decide +kernel), by decide +kernel⟩

/-- With no participating lane. -/
theorem witness_DirectionMemoryResults_none : let w : LaneWord := ⟨false, 1, .q, 4, 2, 0x205, 0, 0, false, 0⟩
    (tMem.Issues .qld w tPlace ∧ tMem.Issues .qst w tPlace) ∧ (tMem.g.laneCtx tPlace w).m = 0 :=
  ⟨⟨⟨rfl, by decide +kernel⟩, ⟨rfl, by decide +kernel⟩⟩, by decide +kernel⟩

/-- The paths and words of lane control, with a participating lane and without. -/
theorem witness_LaneControlMoves :
    (T.g.path tPlace.pslot = some ⟨0, 0, some 0, 1, false, []⟩ ∧ tPlace.pslot < 2) ∧
    (∀ op ∈ [LaneOp.ljmp, .lbra, .ljoin, .lend, .lexit, .lsetk, .lnop], ∃ w, T.Issues op w tPlace ∧ ∀ k f, NoTrap T k f) ∧
    (T.g.laneCtx tPlace ⟨false, 1, .i8, 2, 0, 0, 0, 0, false, 0xFFFF⟩).m = 0 ∧ (T.g.laneCtx tPlace ⟨false, 0, .i8, 2, 0, 0, 0, 0, false, 0xFFFF⟩).m ≠ 0 :=
  ⟨⟨rfl, by decide⟩, fun op h => witness_of_op op (by revert op; decide +kernel), by decide +kernel, by decide +kernel⟩

/-- A header that may start and one that may not. -/
theorem witness_ClausesRunAndEnd_start : let h : ClauseHeader := ⟨0xFFF, true, 11, false, 0, 15, true⟩
    let full : State := { T with g := { tGroup with c := Vector.replicate 12 63 } }
    (T.g.iss = some tPlace ∧ headerLegal h = true ∧ T.g.path 0 = some ⟨0, 0, some 0, 1, false, []⟩ ∧ T.g.redo = []) ∧
      ((∀ f : Fin 12, h.wait.getLsbD f = true → T.g.c[f] = 0#6) ∧ ∀ f ∈ ClauseHeader.sets h, T.g.c[f].toNat < 63) ∧
      ¬(∀ f : Fin 12, h.wait.getLsbD f = true → full.g.c[f] = 0#6) := by decide +kernel

/-- Lane words 1 and 2 of the group in focus: a prefix and the word that it governs. -/
def tPrefix (w : Nat) : State :=
  let s := State.reset.withFetchWord 96 (0xFE * 2 ^ 88 + 2 ^ 79)
  { s with g := { s.g with iss := some ⟨0, 0, 0, 0xFFFF, some 0, none, false⟩ }, mem := s.mem.putCode (2 ^ 29 + 24) (natToBytes 12 w) }

theorem fetchesLane (s : State) (i : BitVec 20) (f : Instr → Bool)
    (h : (match (s.fetchLane i).2 with | .ok (.ok j) => f j | _ => false) = true) : ∃ s1 j, s.fetchLane i = (s1, .ok (.ok j)) ∧ f j = true := by
  rcases hs : s.fetchLane i with ⟨s1, e | e | j⟩
  · simp [hs] at h
  · simp [hs] at h
  · exact ⟨s1, j, rfl, by simpa [hs] using h⟩

/-- A prefix in the last slot; before a word that it governs, with D stepped by 1; and before one that it does not. -/
theorem witness_ClausesRunAndEnd_prefix : let p : Prefix := ⟨0, 1, 0, 0, 0⟩
    ((T.g.entry tPlace.entry).map (·.len)).getD 0 ≤ tPlace.slot ∧
    (∀ x ∈ [(0x010100010030180000000000, true), (0x860000000000000000000000, false)], let s := tPrefix x.1
      0 < ((s.g.entry (some 0)).map (·.len)).getD 0 ∧
      ∃ s1 j, s.fetchLane 2 = (s1, .ok (.ok j)) ∧ (match j.lane? with | some y => prefixLegal p y.1 y.2 == x.2 | none => false) = true) := by
  refine ⟨by decide +kernel, fun x hx => ?_⟩
  simp only [List.mem_cons, List.not_mem_nil, or_false] at hx
  rcases hx with rfl | rfl
  · exact ⟨by decide +kernel, fetchesLane _ _ _ (by decide +kernel)⟩
  · exact ⟨by decide +kernel, fetchesLane _ _ _ (by decide +kernel)⟩

/-- An instruction in flight with no answer to wait for, and one that waits for one. -/
def tInFlight (waits : List Nat) : InFlight := ⟨4, tPlace, {}, waits, none, false, none, 0, false, false⟩

theorem witness_ClausesRunAndEnd_events :
    let e : ClauseEntry := ⟨0, 0, [11, 3], 0, true, none⟩
    let idle : Group := { tGroup with slots := #v[none, none], entries := [], running := false }
    (T.g.hasTag 7 = true ∧ ({ tGroup with entries := [e] } : Group).entries = e :: []) ∧ (idle.lanesRun = true ∧ idle.runs ≠ [] ∧ idle.hmode = false ∧ idle.liveLanes ≠ 0) ∧
      (({ idle with running := true } : Group).lanesRun = true ∧ ({ idle with running := true } : Group).runOver = true) ∧
      (({ tGroup with inflight := [tInFlight []] } : Group).inflight.find? (fun x => x.id = 4) = some (tInFlight []) ∧
        ({ tGroup with inflight := [tInFlight []] } : Group).mayComplete (tInFlight []) = true ∧ ∀ x ∈ (tInFlight []).commit.xf, x.2 &&& (tInFlight []).xe = 0) ∧
      ({ tGroup with inflight := [tInFlight [9]] } : Group).mayComplete (tInFlight [9]) = false := by decide +kernel

theorem witness_RegroupMovesLanes :
    let g : Group := { tGroup with regroupAt := some 1, runs := [], running := false, slots := #v[none, none], entries := [] }
    let s : State := { T with g := g }
    (T.group 7 = some T.g ∧ (T.workgroup T.g).all Group.atRegroup = false) ∧
      s.group 7 = some g ∧ s.workgroup g ≠ [] ∧ (s.workgroup g).all Group.atRegroup = true ∧ g.width ≤ 64 ∧
      (s.workgroup g).all (fun h => h.width = g.width && decide (s.group h.tag = some h)) = true := by decide +kernel

theorem witness_MemoryReadsWhatWasWritten : (Memory.wf T.mem = true ∧ T.memWf ∧ T.mem.Quiet) ∧ isOwn (2 ^ 29 + 0x1000) = true ∧
    T.mem.tagOf ((2 ^ 29 + 0x1000) / 128) = none ∧ T.Clean (2 ^ 29 + 0x1000) 16 ∧ (2 ^ 29 + 0x1000) % 16 = 0 ∧ (2 ^ 29 + 0x1000) % 128 + 16 ≤ 128 := by
  unfold State.memWf Mem.Quiet State.Clean; decide +kernel

theorem loadRes_of (p : State × LoadRes) (h : (p.2 matches .ok _) = true) : ∃ s bs, p = (s, .ok bs) := by
  obtain ⟨s, r⟩ := p
  cases r with
  | ok bs => exact ⟨s, bs, rfl⟩
  | _ => simp at h

/-- Address space 0 by tables: ASTB 0x10000, a root at 0x20000, a table at 0x30000 whose entry 0 maps 512 MiB at 2^29. -/
def tWalk : State :=
  let put (c : Cells) (a x : Nat) : Cells := c.putBytes a (leBytes 8 x)
  { T with mem := { Mem.reset with cellar := put (put (put [] 0x10000 (1 + 2 * 2 ^ 16)) 0x20000 (2 ^ 52 + 3 * 2 ^ 16)) 0x30000 (2 ^ 52 + 2 ^ 29 + 7) },
           svc := { T.svc with astb := 0x10000 } }

/-- Every bank of core 0 in SCRATCH mode. -/
def tNoCache : State := { T with banks := (List.range 16).map fun n => tBank n .scratch }

/-- No function is ready, so that a walk waits. -/
def tHeldWalk : State := { tWalk with svc := { tWalk.svc with rdymap := 0 } }

/-- Addresses of a scalar access: unaligned, without a mapping, mapped and watched, mapped and free. -/
theorem witness_ScalarLoadResults : let s := TS [(5, 0x1000), (6, 0x1001), (7, 0x20000000)]
    let w : State := { s with g := { s.g with watch0 := 0xE000000000001000 } }
    s.HasRegs [4, 5] ∧ (s.sreg 6).toNat % 4 ≠ 0 ∧ (inWindow (s.sreg 7) = false ∧ (∃ f, s.place s.g (s.sreg 7) .load = .error f) ∧
      ∃ f, s.place s.g (s.sreg 7) .store = .error f) ∧ (s.sreg 5).toNat % 8 = 0 ∧ inWindow (s.sreg 5) = false ∧ (∃ p, s.place s.g (s.sreg 5) .load = .ok p) ∧
      (∃ p, s.place s.g (s.sreg 5) .store = .ok p) ∧ s.g.watched (s.sreg 5) 8 false = false ∧ s.g.watched (s.sreg 5) 8 true = false ∧ s.LinesFree [.inr ((2 ^ 29 + 0x1000) / 128)] ∧
      (∃ s1 bs, (s.notePlace ⟨0x1000, 2 ^ 29 + 0x1000, .dir, 0, false, 0, some tMap⟩ .load).memLoad ⟨0x1000, 2 ^ 29 + 0x1000, .dir, 0, false, 0, some tMap⟩ 8 = (s1, .ok bs)) ∧
      w.g.watched (w.sreg 5) 8 false = true ∧ s.walkHeld s.g (s.sreg 5) = false ∧ s.walkHeld s.g (s.sreg 7) = false ∧ tHeldWalk.walkHeld tHeldWalk.g 0x1000 = true :=
  ⟨by unfold State.HasRegs; decide +kernel, by decide +kernel, ⟨by decide +kernel, error_of' _ (by decide +kernel), error_of' _ (by decide +kernel)⟩, by decide +kernel,
   by decide +kernel, ok_of' _ (by decide +kernel), ok_of' _ (by decide +kernel), by decide +kernel, by decide +kernel, ⟨by decide +kernel, by decide +kernel⟩, loadRes_of _ (by decide +kernel), by decide +kernel⟩

theorem witness_ScalarLoadResults_bank : let s := T
    s.window s.g.caravan 0xFFFFF00000000040 8 false = .scratch 0 64 ∧ s.LinesFree [.inl (scratchKey 0 64 / 128)] ∧
      s.window s.g.caravan 0xFFFFF00000018000 4 false = .fill 1 ∧ s.window s.g.caravan 0xFFFFF00000018004 4 false = .free 1 ∧
      s.window s.g.caravan 0xFFFFF00000010000 4 false = .head 1 0 ∧
      s.window s.g.caravan 0xFFFFF00000020000 4 false = .violation ∧ inWindow 0xFFFFF00000FFFFF8 = true ∧
      s.bankPoisoned 0 64 8 = false ∧ (withMem s { s.mem with bankPoison := [scratchKey 0 64 / 128] }).bankPoisoned 0 64 8 = true :=
  ⟨by decide +kernel, ⟨by decide +kernel, by decide +kernel⟩, by decide +kernel⟩

/-- A store-buffer entry of bytes to memory, at 2^29 + 0x1000. -/
def tEntry (performed : Bool) : SbEntry :=
  ⟨4, 1, 3, 0, 1, none, false, .store [(.mem (2 ^ 29 + 0x1000) .dir 0 false 0, 0x5A), (.mem (2 ^ 29 + 0x1001) .dir 0 false 0, 0xA5)], performed, 0, [], [], []⟩

def withSb (s : State) (es : List SbEntry) : State := { s with g := { s.g with sb := es } }

/-- Sixty-four entries of lines of their own leave no room for another line. -/
def tFull : List SbEntry := (List.range 64).map fun i => { tEntry false with id := i, op := .store [(.bank 0 (128 * i), 0)] }

theorem witness_ScalarStoreResults : let s := TS [(5, 0x1000)]
    let p : Place := ⟨0x1000, 2 ^ 29 + 0x1000, .dir, 0, false, 0, some tMap⟩
    let r := inRegion s
    (s.HasRegs [4, 5] ∧ s.region = none ∧ s.g.watched (s.sreg 5) 8 true = false) ∧
    ((s.notePlace p .store).g.sbRoom ((p.targets (leBytes 8 7)).map fun y => y.1.line) 1 &&
      !(s.notePlace p .store).lineHeld ((p.targets (leBytes 8 7)).map fun y => y.1.line)) = true ∧
    (withSb s tFull).g.sbRoom ((p.targets (leBytes 8 7)).map fun y => y.1.line) 1 = false ∧ (withSb s [tEntry false]).fenceReady .dom = false ∧
    s.fenceReady .dom = true ∧ (r.region = some tRegion ∧ p.coh = .dir ∧ ∃ t, (r.notePlace p .store).regionStore tRegion p (leBytes 8 7) = .ok t) ∧
    (let e := inRegion { tNoCache with g := s.g }
     e.region = some tRegion ∧ ∃ c, (e.notePlace p .store).regionStore tRegion p (leBytes 8 7) = .error c) ∧
    (s.mem.keyServes p.pa p.enc p.key = true ∧ s.mem.keyServes p.pa true 9 = false ∧ s.walkHeld s.g (s.sreg 5) = false ∧
      s.atFifo 0xFFFFF00000014000 8 true = true ∧ inWindow 0xFFFFF00000014000 = true) ∧
    (∃ q, (withMem r { r.mem with coreTlb := [(0, ⟨0, { tMap with coh := .none }, true⟩)] }).place s.g 0x1000 .store = .ok q) ∧
    s.window s.g.caravan 0xFFFFF0000000FFF8 8 true = .scratch 0 65528 ∧
      s.g.sbRoom ((bankTargets 0 65528 (leBytes 8 7)).map fun y => y.1.line) 1 = true ∧ s.lineHeld ((bankTargets 0 65528 (leBytes 8 7)).map fun y => y.1.line) = false :=
  ⟨⟨by unfold State.HasRegs; decide +kernel, by decide +kernel⟩, by decide +kernel, by decide +kernel, by decide +kernel, by decide +kernel,
   ⟨by decide +kernel, by decide +kernel, ok_of' _ (by decide +kernel)⟩, ⟨by decide +kernel, error_of' _ (by decide +kernel)⟩, by decide +kernel, ok_of' _ (by decide +kernel), by decide +kernel⟩

theorem witness_AcknowledgedStoresAreInMemory : let e := tEntry false
    let s := withSb T [e]
    (s.g.hasTag 7 = true ∧ s.memWf ∧ s.g.sb = e :: [] ∧ e.performed = false ∧ e.flags = []) ∧ s.hasCache s.g = true ∧
      s.regions = [] ∧ s.mem.staged = [] ∧ s.mem.Quiet ∧ s.anyWaits e.lines = false ∧ isOwn (2 ^ 29 + 0x1001) = true ∧ s.mem.tagOf ((2 ^ 29 + 0x1001) / 128) = none := by
  unfold State.memWf Mem.Quiet; decide +kernel

theorem witness_ScalarAtomicResults : let s := TS [(5, 0x1000), (6, 0x1001)]
    let t : Target := .mem (2 ^ 29 + 0x1000) .dir 0 false 0
    (s.HasRegs [4, 5, 6] ∧ s.region = none ∧ (inRegion s).region = some tRegion ∧ (s.sreg 6).toNat % 4 ≠ 0) ∧
    s.g.watched (s.sreg 5) 8 true = false ∧ (inWindow (s.sreg 5) = false ∧ ∃ p, s.place s.g (s.sreg 5) .atomic = .ok p) ∧
    (s.window s.g.caravan 0xFFFFF00000000040 8 true = .scratch 0 64 ∧ inWindow 0xFFFFF00000000040 = true) ∧ s.lineHeld [t.line] = false ∧
    (s.walkHeld s.g (s.sreg 5) = false ∧ s.g.sbRoom [t.line] 1 = true ∧ (withSb s tFull).g.sbRoom [t.line] 1 = false) ∧
    (s.g.sb.any fun e => !e.performed && e.lines.any fun l => [t.line].contains l) = false ∧ ((withSb s [tEntry true]).fenceReady .dom = false ∧ s.fenceReady .dom = true) ∧
    (∃ s3 x, s.indivisible t 8 s.g.pts (fun v => some (v + 1)) = (s3, .ok x)) ∧
    ∃ s3 c, (withMem s { s.mem with dead := [(2 ^ 29 + 0x1000) / 32] }).indivisible t 8 s.g.pts (fun v => some (v + 1)) = (s3, .error c) :=
  ⟨⟨by unfold State.HasRegs; decide +kernel, by decide +kernel⟩, by decide +kernel, ⟨by decide +kernel, ok_of' _ (by decide +kernel)⟩, by decide +kernel,
   by decide +kernel, by decide +kernel, by decide +kernel, by decide +kernel, ok_of _ (by decide +kernel), error_of _ (by decide +kernel)⟩

theorem witness_TranslationRegistersAndFences : let s := TS [(5, 0x1000), (6, 8), (7, 0xFFFFF00000000000)]
    (s.HasRegs [5, 6] ∧ s.sreg 4 = 0 ∧ s.sreg 6 ≠ 0 ∧ inWindow (s.sreg 7) = true ∧ inWindow (s.sreg 5) = false) ∧
    (∃ f, T.formReg 0 0x1000 8 = .error f) ∧ (∃ r, tWalk.formReg 0 0x1000 8 = .ok r) ∧
    (T.formHeld T.g 0x1000 = false ∧ tHeldWalk.formHeld tHeldWalk.g 0x1000 = true) ∧
    (∃ e ∈ (withSb s [tEntry true]).g.sb, (withSb s [tEntry true]).entryInScope s.g .sys e = true) ∧
    ∃ e ∈ (withSb s tFull).g.sb, e.performed = false ∧ SbEntry.toBank e = true :=
  ⟨⟨by unfold State.HasRegs; decide +kernel, by decide +kernel⟩, error_of' _ (by decide +kernel), ok_of' _ (by decide +kernel), by decide +kernel, by decide +kernel, by decide +kernel⟩

/-- Eight commands fill a Porter. -/
def tCommands : List PorterCmd := (List.range 8).map fun i => { T.portCmd 3 0 0 0 1 0 0 0 with slot := i }

theorem witness_PorterCommandsAreIssued : let s := TS [(8, 0x100), (9, 0x2000), (5, 0x1000), (6, 0xFFFFF00000000000), (11, 0), (12, 3)]
    (s.HasRegs (62 :: 63 :: (List.range 4).map fun i => (8 : BitVec 6) + BitVec.ofNat 6 i) ∧ s.region = none ∧ (inRegion s).region = some tRegion) ∧
    ((s.sreg (11 + 1)).toNat % 8 ≠ 0 ∧ (s.sreg (8 + 1)).toNat % 8 = 0 ∧ (s.sreg 8).toNat % 2 ^ 32 ≠ 0 ∧ (s.sreg 11).toNat % 2 ^ 32 = 0) ∧
    s.porterSlot s.g.coreNo = some 0 ∧ s.olderIssuer = false ∧ s.slotless s.g.coreNo = [] ∧
      ({ s with porters := [{ T.portCmd 3 0 0 0 1 0 0 0 with slot := 9 }] } : State).slotless s.g.coreNo ≠ [] ∧ ({ s with porters := tCommands } : State).porterSlot s.g.coreNo = none ∧
    (inWindow (s.sreg 6) = true ∧ inWindow (s.sreg 5) = false ∧ s.walkHeld s.g (s.sreg 5) = false) ∧ (∃ q, s.place s.g (s.sreg 5) .load = .ok q) ∧
    (tCommands.map fun c => (c.core, c.slot)).Nodup :=
  ⟨⟨by unfold State.HasRegs; decide +kernel, by decide +kernel⟩, by decide +kernel, by decide +kernel, by decide +kernel, by decide +kernel, by decide +kernel,
   by decide +kernel, by decide +kernel, ok_of' _ (by decide +kernel), by decide +kernel⟩

/-- A fill to memory and to a bank, with an arrival word in memory. -/
def tFill (dst arrival : Word64) : PorterCmd := { T.portCmd 3 0 0 0 1 0 0 0 with dst := dst, arrival := arrival, rowLen := 256, pattern := 0x0102030405060708 }
/-- A push to the FIFO of window bank 1. -/
def tPush : PorterCmd := { tFill 0xFFFFF00000010000 0 with kind := 5, src := 0x1000 }

theorem witness_PorterPiecesMove : let c := tFill 0x1000 0x2000
    let d := tFill 0xFFFFF00000000040 0
    let s : State := { T with porters := [c] }
    (s.command c.core c.slot = some c ∧ c.row < c.rows ∧ s.g.hasTag c.tag = true ∧ s.g.state ≠ .saved ∧ c.slot < 8) ∧ (∃ s1 ix, s.rowIndex c = (s1, .ok ix)) ∧
    (∃ s2 bs, s.pieceBytes c 0 128 = (s2, .ok bs)) ∧ (s.arrivalHeld c = false ∧ s.walkHeld s.g 0x1000 = false) ∧ (∃ arr, s.arrivalTarget c = .ok arr) ∧
    ((d.addrs 0).2 = 0xFFFFF00000000040 ∧ s.window s.g.caravan 0xFFFFF00000000040 64 true = .scratch 0 64 ∧ s.lineHeld [.inl (scratchKey 0 64 / 128)] = false) ∧
    ((c.addrs 0).2 = 0x1000 ∧ inWindow 0x1000 = false ∧ (∃ q, s.place s.g 0x1000 .store = .ok q) ∧ s.mem.keyServes (2 ^ 29 + 0x1000) false 0 = true ∧
      s.unrouted (2 ^ 29 + 0x1000) = false ∧ s.lineHeld [.inr ((2 ^ 29 + 0x1000) / 128)] = false) :=
  ⟨by decide +kernel, read_of _ (by decide +kernel), read_of _ (by decide +kernel), by decide +kernel, ok_of' _ (by decide +kernel), by decide +kernel,
   ⟨by decide +kernel, by decide +kernel, ok_of' _ (by decide +kernel), by decide +kernel⟩⟩

theorem witness_PorterPiecesMove_push :
    (inWindow tPush.dst = true ∧ T.bankOf T.g.caravan (tPush.dst.toNat % 2 ^ 24 / 65536) = some 1 ∧ (T.bank 1).mode = .fifo ∧ T.porterTurn tPush.who 1 0 1 = true ∧
      ({ T with banks := [{ tBank 1 .fifo with waiters := [⟨7, none, 0, 1, false, none⟩] }] } : State).porterTurn tPush.who 1 0 1 = false ∧ T.arrivalHeld tPush = false) ∧
    (∃ s1 bs, T.porterReadAll tPush.who (tPush.src + BitVec.ofNat 64 tPush.done) 32 = (s1, .ok bs)) ∧ (∃ arr, T.arrivalTarget tPush = .ok arr) ∧
    (T.lodges[tPush.core / 64]?.getD ⟨0, 0, false, none, []⟩).nent = 0 ∧ tPush.rows ≤ { tPush with row := 1 }.row ∧
    (let c := { tFill 0x1000 0 with slot := 9 }
     let s : State := { T with porters := [c] }
     s.command c.core c.slot = some c ∧ 8 ≤ c.slot ∧ s.porterSlot c.core = some 0 ∧ (s.slotless c.core).head? = some c) :=
  ⟨by decide +kernel, read_of _ (by decide +kernel), ok_of' _ (by decide +kernel), by decide +kernel⟩

/-- Window banks 0, 1 and 2 of the Caravan are in SCRATCH, FIFO and CACHE mode. -/
theorem witness_QuadMemoryChanges : let s := TS [(4, 1), (5, 2), (6, 0xA2), (7, 0), (8, 1)]
    let one : Bank := { tBank 1 .fifo with fill := 1, tail := 1 }
    (s.HasRegs [3, 4, 7] ∧ s.region = none ∧ bankModeOf (s.sreg 7) = some (.cache, 0) ∧ bankModeOf (s.sreg 8) = some (.scratch, 0) ∧ bankModeOf (s.sreg 6) = some (.fifo, 10)) ∧
    (s.bankOf s.g.caravan 0 = some 0 ∧ s.bankOf s.g.caravan 1 = some 1 ∧ s.bankOf s.g.caravan 2 = some 2) ∧
    ((s.bank 0).mode = .scratch ∧ (s.bank 1).mode = .fifo ∧ (s.bank 2).mode = .cache ∧ (s.bank 0).switching = false ∧ (s.bank 1).fill = 0 ∧
      s.bankBusy 0 = false ∧ s.bankBusy 1 = false ∧ s.bankBusy 2 = false ∧ s.g.hasArrived = false ∧ s.regions = [] ∧ s.memWf ∧
      (onG s fun g => { g with wait := some ⟨0, 0, true, none, false, none, none, false, false, 0, false, 0⟩ }).g.hasArrived = true) ∧
    (({ s with banks := [one] } : State).bank 1).fill ≠ 0 ∧ (({ s with banks := [{ tBank 2 .scratch with switching := true }] } : State).bank (0 * 64 + 2)).switching = true ∧
    (let w : FifoWait := ⟨7, none, 0, 1, false, none⟩
     let x : FifoWait := ⟨8, none, 2, 0, false, none⟩
     let b : Bank := { one with waiters := [x, w] }
     (({ s with banks := [b] } : State).bank 1).waiters = [x] ++ w :: [] ∧ x.tag ≠ w.tag ∧ w.needFill ≤ b.fill ∧ w.needFree ≤ b.free ∧ b.fill < x.needFill ∧
      b.fill ≠ 0 ∧ x.tag ≠ s.g.tag ∧ ¬x.needFill ≤ b.fill ∧
      (let y : FifoWait := ⟨8, none, 0, b.free + 1, false, none⟩
       y.tag ≠ s.g.tag ∧ b.free < y.needFree ∧ 1 ≤ b.fill)) ∧
    ((T.lodges[0]).flush = false ∧ (8 : Word64).toNat % 16 ≤ 8 ∧ (8 : Word64).toNat % 16 ≠ (T.lodges[0]).lway ∧ (T.porters.any fun c => c.kind = 4 && c.core / 64 = 0 && !c.barred) = false ∧
      (∃ l : Lodge, l.flush = true ∧ l.newWay ≠ none ∧ l.queued = []) ∧ ∃ c ∈ [{ tPush with kind := 4 }], (c.kind = 4 && c.core / 64 = 0 && !c.barred) = true) := by
  refine ⟨by unfold State.HasRegs; decide +kernel, by decide +kernel, by unfold State.memWf; decide +kernel, by decide +kernel, by decide +kernel, by decide +kernel,
    ⟨by decide +kernel, by decide +kernel, by decide +kernel, by decide +kernel, ⟨⟨0, 0, true, some 1, []⟩, by decide⟩, by decide +kernel⟩⟩


/-- Room 2 of Hall 0, owned through m0, and the group that owns it, with two handles of one element of bf16 (the second with a block mask). -/
def tRoom : Room := ⟨0, 2, 7, 0, none, []⟩
def tHandle (fmtb : Nat) : Handle := ⟨true, BitVec.ofNat 118 (2 ^ 56 + 64 * 2 ^ 80 + fmtb * 2 ^ 96)⟩
def tOwner : Group :=
  { withS tGroup [(5, 0x1000), (6, 0x0A000000), (10, 0), (11, 0), (12, 2 ^ 56), (13, 64 * 2 ^ 16 + 0x1000 * 2 ^ 32), (15, 2 ^ 60)] with
    m := tGroup.m.set 0 (some 2), h := (tGroup.h.set 3 (tHandle 0x1000)).set 4 (tHandle 0x1010) }
def tOther : Group := { tGroup with tag := 6, gidx := 1, slot := 1 }
def TR : State :=
  { T with g := tOwner, others := [tOther], rooms := [tRoom],
           mem := { T.mem with scratch := [(scratchKey 0 0x1000, 9), (scratchKey 0 0x1010, 9), (scratchKey 0 0x1011, 0x80)] } }
def tItem (op : RoomOp) (st : WorkStage) : WorkItem := ⟨9, 2, op, st, none, 0, some 0, false, [], [], [], 0, false⟩
def tMat (kind : Nat) (a b : Nat) : MatOp := ⟨kind, tHandle a, tHandle b, TR.formatBlock (tHandle a), TR.formatBlock (tHandle b)⟩
/-- Eight Rooms that other groups own. -/
def tRooms : List Room := (List.range 8).map fun n => { tRoom with num := n, owner := 6 }

theorem witness_RoomsChangeHands :
    (TR.HasRegs [12, 13, 6] ∧ TR.region = none ∧ TR.g.quadNo = 0) ∧ (TR.g.m[(0#3).toNat] ≠ none ∧ TR.g.m[(1#3).toNat] = none) ∧
    ((TS [(5, 2)]).sreg 5).toNat % 16 < 8 ∧ (TR.roomAt 0 2 = some tRoom ∧ tRoom.owner = TR.g.tag) ∧ (TR.hall 0).takers = [] ∧ TR.fitting 0 15 = some 0 ∧
    ({ TR with rooms := tRooms } : State).fitting 0 15 = none ∧ (TR.pend 0 2 = 0 ∧ TR.giveTarget 0xFFF = none ∧ (TR.giveTarget 0x1001).isSome = true) ∧
    ((onG TR fun g => { g with work := [tItem .zero .queued] }).pend 0 2 ≠ 0 ∧ TR.g.wait = none) ∧
    ((15#4).toNat < TR.g.hAllot ∧ TR.sreg 10 = 0 ∧ TR.sreg (10 + 1) = 0 ∧ TR.sreg 12 ≠ 0 ∧ (TR.sreg 13).extractLsb' 54 10 = 0#10 ∧
      (⟨true, (TR.sreg 13).extractLsb' 0 54 ++ TR.sreg 12⟩ : Handle).good = true ∧ (TR.sreg 15).extractLsb' 54 10 ≠ 0#10) := by
  unfold State.HasRegs; decide +kernel

/-- Sixteen items fill the queue. -/
def tQueue : List WorkItem := (List.range 16).map fun i => { tItem .zero .queued with id := i }

theorem witness_RoomWorkIsQueued :
    (TR.region = none ∧ TR.g.liveLanes = TR.g.full ∧ TR.g.m[(0#3).toNat] = some (BitVec.ofNat 3 tRoom.num) ∧ tRoom.num < 8 ∧ tRoom.hall = TR.g.quadNo ∧
      TR.roomAt tRoom.hall tRoom.num = some tRoom ∧ tRoom.owner = TR.g.tag) ∧ (TR.g.work.length < 16 ∧ 16 ≤ ({ tOwner with work := tQueue } : Group).work.length) ∧
    ((3#4).toNat < TR.g.hAllot ∧ (∀ k ∈ [0, 1, 2], TR.handleEarly (tMat k 0x1000 0x1000) = false ∧ (tMat k 0x1000 0x1000).badFormat = false ∧
        TR.handleLate (tMat k 0x1000 0x1000) = false) ∧ TR.handleEarly (tMat 3 0x1010 0x1000) = false ∧ (tMat 3 0x1010 0x1000).badFormat = false ∧
        TR.handleLate (tMat 3 0x1010 0x1000) = false ∧ TR.handleEarly ⟨0, {}, {}, 0, 0⟩ = true ∧ (tMat 0 0x1010 0x1000).badFormat = true ∧ TR.handleEarly (tMat 0 0x1010 0x1000) = false) ∧
    (TR.HasRegs [6] ∧ TR.g.rowCause (RoomCtl.of (TR.sreg 6)) 4 (fun t => t = .f32 || t = .f64) = none ∧ TR.g.rowCause (RoomCtl.of (TR.sreg 6)) 4 drainTy = none) ∧
    ((∃ i ∈ ({ tOwner with work := tQueue } : Group).work, i.room = tRoom.num) ∧ (∀ i ∈ TR.g.work, i.room ≠ tRoom.num) ∧ TR.g.xe = 0 ∧
      TR.g.width ≤ 64) := by
  unfold State.HasRegs; decide +kernel

theorem witness_RoomWorkIsQueued_drain : let x := TR.g.h[(3#4).toNat]
    let ty := efmt (TR.formatBlock x)
    TR.HasRegs [5] ∧ (3#4).toNat < TR.g.hAllot ∧ ty = .bf16 ∧ TR.drainHandle x ty false = false ∧ drainFormat (TR.formatBlock x) false false = false ∧
      (TR.sreg 5).toNat % ty.esize = 0 ∧ (match TR.drainPlaces ty.esize false (drainAddrs x (TR.sreg 5) ty.esize) with
        | .ok ts => decide (ts = [.mem (2 ^ 29 + 0x1000) .dir 0 false 0])
        | .error _ => false) = true ∧ TR.g.sbRoom [Target.line (.mem (2 ^ 29 + 0x1000) .dir 0 false 0)] 1 = true := by
  unfold State.HasRegs; decide +kernel

theorem witness_RoomWorkIsQueued_batches : let g : Group := { tOwner with closedBatches := [0], batches := 1 }
    (TR.g.closedBatches.length < 128 ∧ 128 ≤ ({ tOwner with closedBatches := List.range 128 } : Group).closedBatches.length) ∧
      (∃ k ∈ g.closedBatches, g.awaits 0 k = true) ∧ (∀ k ∈ TR.g.closedBatches, TR.g.awaits 255 k = false) ∧ g.closedBatches = 0 :: [] ∧
      (∀ i ∈ g.work, i.batch ≠ some 0) ∧ ∃ i ∈ ({ g with work := [{ tItem .zero .queued with batch := some 0 }] } : Group).work, i.batch = some 0 := by decide +kernel

/-- A product at a stage, with the Hall that has come as far. -/
def atStage (st : WorkStage) (shadow stream : Option (Nat × Nat)) (ended : List (Nat × Nat)) : State :=
  { TR with g := { tOwner with work := [tItem (.mma (tMat 0 0x1000 0x1000)) st] }, halls := [⟨0, 0, 0, shadow, stream, ended, [], [], 0⟩] }

theorem witness_TheHallWorks : let g (st : WorkStage) := (atStage st none none []).g
    let i (st : WorkStage) := tItem (.mma (tMat 0 0x1000 0x1000)) st
    let isWork (s : State) (st : WorkStage) : Bool := (s.workOf (7, 9)).any fun y => y.1.tag = 7 && y.2 = i st
    (((atStage .queued none none []).hall 0).shadow = none ∧ ((atStage .queued none none []).chooseHead 0).any (fun y => y.1.tag = 7 && y.2 = i .queued) = true) ∧
    (((atStage .granted (some (7, 9)) none []).hall 0).shadow = some (7, 9) ∧ isWork (atStage .granted (some (7, 9)) none []) .granted = true) ∧
    (((atStage .loaded (some (7, 9)) none []).hall 0).stream = none ∧ isWork (atStage .loaded (some (7, 9)) none []) .loaded = true ∧ (g .loaded).clearFor (i .loaded) = true) ∧
    (let b : Group := { g .loaded with work := [{ tItem .zero .queued with id := 8 }, i .loaded] }
     b.clearFor (i .loaded) = false ∧ b.before 9 ≠ []) ∧
    ((atStage .streaming none (some (7, 9)) []).hall 0).stream = some (7, 9) ∧
    (((atStage .streamed none none [(7, 9)]).hall 0).ended = [(7, 9)] ∧ isWork (atStage .streamed none none [(7, 9)]) .streamed = true ∧ (g .streamed).before 9 = [] ∧
      (atStage .streamed none none [(7, 9)]).roomAt 0 2 = some tRoom ∧ (g .streamed).hasTag 7 = true) ∧
    ((g .queued).head = some (i .queued) ∧ (i .queued).headSince = some 0) := by decide +kernel

/-- A product of one row that streams 16 cycles, in a Caravan that is asked to halt: it is near its end; and one whose A lies on a line in error. -/
theorem witness_TheHallWorks_halt : let s (st : WorkStage) := withCaravan (atStage st (some (7, 9)) none []) { tCaravan with preempt := true }
    let i (st : WorkStage) := tItem (.mma (tMat 0 0x1000 0x1000)) st
    ((s .loaded).caravan 3).any (·.preempt) = true ∧ (s .loaded).nearEnd (s .loaded).g (i .loaded) = true ∧ (s .granted).nearEnd (s .granted).g (i .granted) = false ∧
      TR.opPoisoned 3 (tMat 0 0x1000 0x1000) = false := by decide +kernel

theorem witness_TheRoomPortWorks :
    let w : Wait := ⟨0, 0, false, none, false, some 1048576, some (0, 5), false, false, 0, false, 0⟩
    let queued (op : RoomOp) := onG TR fun g => { g with work := [tItem op .queued] }
    (TR.g.hasTag 7 = true ∧ TR.g.state ≠ .saved ∧ TR.g.paused = false ∧ TR.roomAt TR.g.quadNo 2 = some tRoom) ∧
    (∀ op ∈ [RoomOp.zero, .write false 0 0 [[1, 2]], .drain 0 0 1 1 .f32 (some 4) 0 0], (queued op).g.work.find? (fun i => !i.isMma && i.stage = .queued && (queued op).g.clearFor i) = some (tItem op .queued)) ∧
    ((roomConvert .f32 0 (tRoom.element false 0 0)).2 ||| tRoom.flags) &&& 0 = 0 ∧ (1#6 &&& 1#6) ≠ 0 ∧
    (let g := (onG TR fun g => { g with work := [tItem .zero .port] }).g
     g.work = tItem .zero .port :: [] ∧ (tItem .zero .port).isMma = false ∧ g.portOver (tItem .zero .port) = true ∧ g.portOver (tItem .zero .queued) = false) ∧
    ((onG TR fun g => { g with wait := some w }).g.wait = some w ∧ w.give = some (0, 5)) ∧
    (let s : State := { TR with halls := [⟨0, 0, 0, none, none, [], [], [(7, 15, 1)], 0⟩] }
     (s.hall s.g.quadNo).takers = [(7, 15, 1)] ∧ s.fitting s.g.quadNo 15 = some 0 ∧ ((s.hall s.g.quadNo).takers.any fun x => x.1 = 7) = true) ∧
    (({ TR with rooms := [{ tRoom with owner := 99 }] } : State).givenUp { tRoom with owner := 99 } = true ∧ TR.givenUp tRoom = false) := by decide +kernel

/-- The target of the address 0x1000, and cells with an 8-byte value there. -/
def tTarget : Target := .mem (2 ^ 29 + 0x1000) .dir 0 false 0
def tCells (l : List (Nat × Nat)) : Cells := l.foldl (fun c x => c.putBytes (2 ^ 29 + x.1) (leBytes 8 x.2)) []
def withCells (s : State) (l : List (Nat × Nat)) : State := { s with mem := { s.mem with cellar := tCells l } }
def isVal {σ ε α : Type} (p : σ × Except ε α) (f : α → Bool) : Bool := match p.2 with | .ok x => f x | .error _ => false

theorem val_of {σ ε α : Type} (p : σ × Except ε α) (f : α → Bool) (h : isVal p f = true) : ∃ s v, p = (s, .ok v) ∧ f v = true := by
  obtain ⟨s, e | v⟩ := p
  · simp [isVal] at h
  · exact ⟨s, v, rfl, h⟩

theorem syncAt_of (s : State) (va : Word64) (n al : Nat) (k : AccessKind) (t : Target)
    (h : (!s.walkHeld s.g va k && isJust (s.syncTarget va n k) t && decide (va.toNat % al = 0) &&
      !s.g.watched va n (needsW k) && !s.lineHeld [t.line] && !(s.g.sb.any fun e => !e.performed && e.lines.any fun l => [t.line].contains l)) = true) :
    s.SyncAt va n al k t := by
  simp only [Bool.and_eq_true, Bool.not_eq_true', decide_eq_true_eq] at h
  exact ⟨h.1.1.1.2, h.1.1.1.1.1, ok_eq _ _ h.1.1.1.1.2, h.1.1.2, h.1.2, h.2⟩

/-- The barrier word 0x1000: complete with nothing in it, and open with 5 threads awaited. -/
theorem witness_BarriersAndWaits : let s := TS [(5, 0x1000), (6, 0x0000000500000003), (7, 0x70000)]
    let o := withCells s [(0x1008, 5 * 2 ^ 40)]
    let r := inRegion s
    (s.HasRegs [4, 5, 6] ∧ s.g.hasS (6 + 1) = true ∧ s.region = none ∧ r.region = some tRegion ∧ WaitCtl.of (s.sreg 7) = none ∧
      WaitCtl.of (s.sreg 6) = some ⟨5, (WaitCtl.of (s.sreg 6)).elim .sys (·.scope), 3⟩ ∧ s.g.hasArrived = false ∧ (s.noteVa 0x1000 .atomic).fenceReady .sys = true ∧
      (withSb s [tEntry true]).fenceReady .sys = false ∧ s.g.sbRoom [tTarget.line] 1 = true ∧
      (onG s fun g => { g with wait := some ⟨0, 0, true, none, false, none, none, false, false, 0, false, 0⟩ }).g.hasArrived = true ∧ Cond.ofCode (BitVec.ofNat 3 3) = some .ge ∧ 3 % 8 < 6) ∧
    (s.SyncAt 0x1000 16 16 .store tTarget ∧ s.SyncAt 0x1000 16 16 .atomic tTarget ∧ s.SyncAt 0x1000 16 16 .load tTarget ∧ s.SyncAt 0x1000 8 8 .load tTarget) ∧
    (∃ s2 v, s.indivisible tTarget 16 s.g.pts (fun _ => some 1) = (s2, .ok v)) ∧ (∃ s2 v, s.indivisible tTarget 8 s.g.pts (fun x => some (arrive 3 x)) = (s2, .ok v)) ∧
    (let d := withMem s { s.mem with dead := [(2 ^ 29 + 0x1000) / 32] }
     (∃ s2 k, d.indivisible tTarget 16 s.g.pts (fun _ => some 1) = (s2, .error k)) ∧ (∃ s2 k, d.indivisible tTarget 8 s.g.pts (fun x => some (arrive 3 x)) = (s2, .error k)) ∧
       ∃ s2 k, (d.noteVa 0x1000 .load).currentRead tTarget 16 = (s2, .error k)) ∧
    (∃ s1 x, (s.noteVa 0x1000 .load).currentRead tTarget 16 = (s1, .ok x) ∧ barrierDone x = true) ∧
    (∃ s1 x, (o.noteVa 0x1000 .load).currentRead tTarget 16 = (s1, .ok x) ∧ (!barrierDone x) = true) ∧
    (∃ s1 x, (s.noteVa 0x1000 .load).currentRead tTarget 8 = (s1, .ok x) ∧ condHolds .ge (BitVec.ofNat 64 x) 0 = true) ∧
    (∃ s1 x, (s.noteVa 0x1000 .load).currentRead tTarget 8 = (s1, .ok x) ∧ (!condHolds .ge (BitVec.ofNat 64 x) (s.sreg 7)) = true) :=
  ⟨by unfold State.HasRegs; decide +kernel, ⟨syncAt_of _ _ _ _ _ _ (by decide +kernel), syncAt_of _ _ _ _ _ _ (by decide +kernel),
    syncAt_of _ _ _ _ _ _ (by decide +kernel), syncAt_of _ _ _ _ _ _ (by decide +kernel)⟩, ok_of _ (by decide +kernel), ok_of _ (by decide +kernel),
    ⟨error_of _ (by decide +kernel), error_of _ (by decide +kernel), error_of _ (by decide +kernel)⟩, val_of _ _ (by decide +kernel), val_of _ _ (by decide +kernel), val_of _ _ (by decide +kernel), val_of _ _ (by decide +kernel)⟩

/-- A parked group, with a watch and without, before and after the 1,024 cycles of a poll and the limit of its wait. -/
theorem witness_BarriersAndWaits_parked : let w : Wait := ⟨0, 0, false, none, false, some 1024, none, true, false, 0, false, 0⟩
    let s := onG T fun g => { g with wait := some w }
    let late : State := { s with now := 1024 }
    s.g.hasTag 7 = true ∧ s.g.wait = some w ∧ w.parked = true ∧ ({ w with watch := some tTarget } : Wait).watch.isSome = true ∧ w.watch = none ∧
      ({ w with written := true } : Wait).written = true ∧ w.written = false ∧ w.polled + 1024 ≤ late.now ∧ s.now < w.polled + 1024 ∧ w.since + 1024 ≤ late.now ∧ s.now < w.since + 1024 ∧ w.limit = some 1024 ∧ w.arrived = false ∧ ({ w with arrived := true } : Wait).arrived = true ∧
      (0 : Nat) < 2 ^ 64 := by decide +kernel

/-- A deque of 3 entries with 0, 1 and 3 in it, its bottom at the wrap, and its descriptor at 0x1000. -/
theorem witness_DequesHoldInOrder : let e (b t : Nat) : Deque := ⟨b, t, 3, true, true⟩
    let s := TS [(5, 0x1000), (6, 3), (7, 0xFFFFF00000000040), (8, 0x1020)]
    let full := withCells s [(0x1000, 3 * 256 + 1), (0x1008, 3 * 2 ^ 32)]
    ((e 0 (2 ^ 32 - 1)).size = 1 ∧ (e 0 0).size = 0 ∧ (e 2 (2 ^ 32 - 1)).size = (e 0 0).cap ∧ (5 : Word64) ≠ dequeEmpty) ∧
    (s.HasRegs [4, 5, 6] ∧ (inRegion s).region = some tRegion ∧ s.region = none ∧ (s.sreg 8).toNat % 64 ≠ 0 ∧ (s.sreg 5).toNat % 64 = 0 ∧
      (s.sreg 7).toNat % 64 = 0 ∧ inWindow (s.sreg 7) = true ∧ inWindow (s.sreg 5) = false ∧ s.g.watched (s.sreg 5) 64 true = false ∧
      (∀ i < 16, s.lineHeld [.inr (tTarget.line.elim id id + i)] = false) ∧ s.g.sb = [] ∧ s.walkHeld s.g (s.sreg 5) = false ∧ s.fenceReady .dom = true ∧
      (withSb s [tEntry true]).fenceReady .dom = false ∧ s.g.sbRoom [tTarget.line] 1 = true ∧ (∃ f ∈ ([.nomap] : List Cause), f = .nomap)) ∧ s.syncTarget (s.sreg 5) 64 .atomic = .ok tTarget ∧
    (∀ op ∈ [DequeOp.init 3, .push 9, .pop, .steal], ∃ s2 v, full.dequeAt tTarget full.g.pts op = (s2, .ok v)) ∧
    ∀ op ∈ [DequeOp.init 0, .push 9, .pop, .steal], ∃ s2 c, s.dequeAt tTarget s.g.pts op = (s2, .error c) := by
  refine ⟨by decide +kernel, by unfold State.HasRegs; decide +kernel, ok_eq _ _ (by decide +kernel), fun op h => ?_, fun op h => ?_⟩ <;>
    simp only [List.mem_cons, List.not_mem_nil, or_false] at h <;> rcases h with rfl | rfl | rfl | rfl
  · exact ok_of _ (by decide +kernel)
  · exact ok_of _ (by decide +kernel)
  · exact ok_of _ (by decide +kernel)
  · exact ok_of _ (by decide +kernel)
  · exact error_of _ (by decide +kernel)
  · exact error_of _ (by decide +kernel)
  · exact error_of _ (by decide +kernel)
  · exact error_of _ (by decide +kernel)

theorem witness_RegionsRun : let s := TS [(5, 0x1000), (6, 0x1002)]
    let quiet := onG s fun g => { g with running := false, runs := [], slots := #v[none, none], entries := [] }
    let ended : Region := { tRegion with st := .ended, bytes := [(2 ^ 29, 7)] }
    (s.HasRegs [4, 5] ∧ s.region = none ∧ (s.sreg 6).toNat % 4 ≠ 0 ∧ (s.sreg 5).toNat % 4 = 0) ∧
    (quiet.g.runsOver = true ∧ quiet.g.uac = 0 ∧ quiet.freeRegion quiet.g.die = some 0 ∧ s.g.runsOver = false) ∧
    ((inRegion s).region = some tRegion ∧ tRegion.implicit = false ∧ (inRegion quiet).g.runsOver = true) ∧
    ({ s with regions := [{ tRegion with implicit := true }] } : State).region = some { tRegion with implicit := true } ∧
    (s.g.hasTag 7 = true ∧ (inRegion s).regions = [tRegion] ∧ tRegion.owner = 7 ∧ tRegion.st = .run ∧ s.caravan s.g.caravan = some tCaravan ∧ tCaravan.toPreempt = false ∧ ({ tCaravan with preempt := true } : Caravan).toPreempt = true) ∧
    (s.memWf ∧ (∀ x ∈ ended.bytes, isOwn x.1 = true) ∧ Cells.rising ended.bytes = true ∧ ended.owner = 7 ∧ ended.st = .ended ∧ s.mem.Quiet ∧ (∀ y ∈ ended.attrs, y.2.2.1 = false) ∧
      s.commitWaits ended = false ∧ ({ s with svc := { s.svc with rdymap := 0 } } : State).commitWaits ended = true ∧ s.fenceReady .pkg = true ∧
      (withSb s [tEntry true]).fenceReady .pkg = false ∧ s.mem.txns = [] ∧ s.mem.queue = [] ∧ ∀ x ∈ ended.bytes, s.mem.tagOf (x.1 / 128) = none) := by
  unfold State.HasRegs State.memWf Mem.Quiet; decide +kernel

/-- The block of a declaration that counts one contribution of f32 from slot 0, at 0x2000. -/
theorem witness_DeclarationsAndEvents : let s := TS [(5, 0x1000), (6, 0x2000), (7, 0x2008), (8, 5)]
    let blk := withCells s [(0x2000, (Ty.code .f32).toNat), (0x2010, 1)]
    let rec0 : RedRecord := ⟨2 ^ 29 + 0x1000, .f32, 0, [], [], [], 0, []⟩
    let has := withMem s { s.mem with reds := [rec0] }
    (s.HasRegs [4, 5, 6] ∧ s.region = none ∧ inWindow (s.sreg 5) = false ∧ s.mem.keyServes (2 ^ 29 + 0x1000) false 0 = true ∧ s.sreg 4 = 0 ∧
      s.mem.redRecord (2 ^ 29 + 0x1000) = none ∧ (has.mem.redRecord (2 ^ 29 + 0x1000)).isSome = true ∧ (s.sreg 7).toNat % 16 ≠ 0 ∧ s.sreg 6 ≠ 0 ∧
      (s.sreg 6).toNat % 16 = 0 ∧ (s.sreg 5).toNat % 4 = 0 ∧ s.g.sbRoom [tTarget.line] 1 = true ∧ s.g.watched (s.sreg 6) 144 false = false ∧
      ((vaParts (s.sreg 6) 3 144).any fun x => blk.blockHeld x.1 x.2) = false ∧ (blk.blockFault (vaParts (s.sreg 6) 3 144)).isNone = true ∧
      (blk.blockFault (vaParts 0x20000000 3 144)).isSome = true ∧
      (onG s fun g => { g with watch0 := 0xE000000000002000 }).g.watched (s.sreg 6) 144 false = true) ∧ s.SyncAt 0x1000 1 1 .atomic tTarget ∧ s.syncTarget (s.sreg 5) 1 .atomic = .ok tTarget ∧
    16 ≤ (((List.range 16).map fun i => { rec0 with target := rec0.target + 4 * i }).filter fun x => s.mem.leaseSlice x.target = s.mem.leaseSlice rec0.target).length ∧
    (∃ s1 bs, blk.readBlock (vaParts (s.sreg 6) 3 144) = (s1, .ok bs) ∧ decide ((RedRecord.of 0 bs).map (·.ty.esize) = some 4) = true) ∧
    ((blk.readBlock (vaParts (s.sreg 6) 3 144)).1.sreg 5 = s.sreg 5) ∧
    (blk.readBlock (vaParts (s.sreg 6) 3 144)).1.syncTarget (s.sreg 5) 4 .atomic = .ok tTarget ∧
    (s.SyncAt 0x1000 8 8 .atomic tTarget ∧ (s.noteVa 0x1000 .atomic).fenceReady .sys = true) ∧
    (∃ s2 v, s.indivisible tTarget 8 s.g.pts (fun x => some (x + 1)) = (s2, .ok v)) ∧ s.SyncAt 0x1000 8 8 .load tTarget ∧
    (∃ s1 x, (s.noteVa 0x1000 .load).currentRead tTarget 8 = (s1, .ok x) ∧ decide (((s.sreg 4).toNat ≤ x) ∧ x < (s.sreg 8).toNat) = true) := by
  refine ⟨by unfold State.HasRegs; decide +kernel, syncAt_of _ _ _ _ _ _ (by decide +kernel), ok_eq _ _ (by decide +kernel), by decide +kernel, val_of _ _ (by decide +kernel),
    by decide +kernel, ok_eq _ _ (by decide +kernel), ⟨syncAt_of _ _ _ _ _ _ (by decide +kernel), by decide +kernel⟩,
    ok_of _ (by decide +kernel), syncAt_of _ _ _ _ _ _ (by decide +kernel), val_of _ _ (by decide +kernel)⟩

/-! ## The memory system -/

/-- A request for two sectors, one line apart, of the block at 2^29. -/
def tReq (kind : BitVec 4) : MemRequest := ⟨kind, 5, 3, 1, false, 0, 0, BitVec.ofNat 41 (2 ^ 29 / 2048), 0x11, List.replicate 64 7⟩
def tLines : List CellarLine := [⟨2 ^ 22, 0⟩]
def tChan (aged : Bool) : ChanReq := ⟨3, some 0, tReq 0, [2 ^ 22, 2 ^ 22 + 1], false, aged⟩
/-- A frame's worth of lines in each of sixteen frames of one set. -/
def tSet : List CellarLine := (List.range 16).map fun i => ⟨2 ^ 22 + 2 ^ 21 * (i + 1), i⟩

theorem witness_TheCellarServesRequests : let m := { T.mem with lines := tLines }
    (T.mem.notes = [] ∧ ({ tReq 0 with scnt := 0 } : MemRequest).ok = false ∧ T.log2n = 0) ∧
    (∀ r ∈ [tReq 0, tReq 1], r.ok = true ∧ isOwn r.addr = true ∧ r.lines.any T.lineWaits = false ∧ r.enc = false ∧ (∀ l ∈ r.lines, m.tagOf l = none)) ∧
    ((tReq 0).writes = false ∧ T.mem.running.contains (T.mem.slice (tReq 0).addr, 5, 3) = false ∧ (tReq 0).lines = [2 ^ 22, 2 ^ 22 + 1] ∧
      (m.lines.any fun x => x.line = 2 ^ 22) = true ∧ (m.lines.any fun x => x.line = 2 ^ 22 + 1) = false) ∧
    ((tReq 1).writes = true ∧ T.memWf ∧ (m.frames ((tReq 1).addr / 128)).any (fun x => x.1 = (tReq 1).addr / 2048) = true ∧
      (T.mem.frames ((tReq 1).addr / 128)).length < 16 ∧ T.regions = [] ∧ T.mem.staged = [] ∧ (∀ st < 16, T.mem.mst st 9 1 = 0) ∧
      (∀ l ∈ ({ tReq 1 with } : MemRequest).lines, (withMem T { T.mem with lines := [⟨2 ^ 22, 0⟩, ⟨2 ^ 22 + 1, 0⟩] }).mem.lines.any (fun x => x.line = l) = true)) ∧
    (T.mem.keyServes (tReq 0).addr false 0 = true) ∧
    pickFrame [(1, true, 3), (2, false, 9), (3, false, 4)] = some 3 := by
  unfold State.memWf; decide +kernel

theorem witness_TheCellarServesRequests_channel : let s (aged : Bool) : State := { T with mem := { T.mem with chans := [tChan aged] }, now := 602 }
    let mine (aged : Bool) := (s aged).mem.chans.filter fun x => x.ch = 3 && !x.lines.any (s aged).lineWaits
    (oldestRequest (mine false) = some (tChan false) ∧ oldestRequest (mine true) = some (tChan true) ∧ (∀ l ∈ (tChan false).lines, l / 16 = 2 ^ 18) ∧
      chanClosure (fun x => x = tChan false || x.req.grp = 5) (mine false) = [tChan false]) ∧
    (((s false).mem.chans.filter fun x => x.ch = 3 && !x.aged).find? fun x => x.since.any fun n => 602 ≤ (s false).now - n) = some (tChan false) ∧
    ((s true).mem.chans.all fun x => x.ch ≠ 3 || x.aged) = true ∧
    (let k : KeySlot := ⟨9, .purge, [], []⟩
     let p := withMem T { T.mem with keys := [k] }
     k ∈ p.mem.keys ∧ k.slot = 9 ∧ k.st = .purge ∧ 9 < 2 ^ 13 ∧ (∀ x ∈ p.mem.tags, x.2.toNat ≠ 9) ∧
       ∃ x ∈ (withMem T { T.mem with tags := [(2 ^ 22, 9)] }).mem.tags, x.2.toNat = 9) := by decide +kernel

theorem witness_ChannelsRetireAndFail : let s := T
    let one (p : Nat) := withMem T ((T.mem.setMst 0 18 2 1).setMst 0 25 20 p)
    let bist := withMem T (T.mem.setMst 0 9 1 1)
    (s.log2n = 0 ∧ (0 : Nat) < 16 ∧ s.memWf) ∧ (s.mem.mode 0 = 0 ∧ s.mem.mst 0 9 1 = 0) ∧ (bist.mem.mst 0 9 1 = 1 ∧ bist.memWf) ∧
    ((one 0).mem.mode 0 = 1 ∧ (one 0).mem.rbptr 0 < 1015808 ∧ (one 1015807).mem.rbptr 0 + 1 = 1015808 ∧ (one 0).memWf) ∧
    (s.mem.failed.contains (0, 4) = false ∧ s.mem.rbptr 0 = 0 ∧ s.mem.pfail 0 3 = false ∧ s.mem.tags = [] ∧ (∀ c ∈ s.mem.cellar, isOwn c.1 = true)) := by
  unfold State.memWf; decide +kernel

def tOp (t : Target) (o : MemOp) : SbEntry := { tEntry false with op := .op t o }
def tLease : Target := .mem (2 ^ 29 + 0x1000) .lease 0 false 0
def tDrain (performed : Bool) : SbEntry :=
  { tOp tTarget (.drain true true .f32 [(tTarget, 0x3F800000)]) with performed := performed }

theorem witness_SlicesPerformOperations : let s := withSb T [tEntry false]
    let full := withCells T [(0x1000, 3 * 256 + 1), (0x1008, 3 * 2 ^ 32)]
    let red : MemOp := .red 0 .f32 0x3F800000 0 0 0 3
    let rec0 : RedRecord := ⟨2 ^ 29 + 0x1000, .f32, 0, [[2], []], [], [], 0, []⟩
    (∀ e ∈ [tOp tTarget (.rmw 0 .i32 4 7 0 0), tOp tTarget red, tOp tTarget (.tki 2 0x80000000 none), tOp tTarget (.bulk true [(0, 7)]),
        { tEntry false with op := .store [(tLease, 0x5A)] }, tDrain false],
      s.g.hasTag 7 = true ∧ (withSb T [e]).g.sb = e :: [] ∧ e.performed = false ∧ (withSb T [e]).mates e = [e] ∧ (withSb T [e]).entryWaits e = false ∧
        (withSb T [e]).refuses e = false ∧ e.lost tTarget = false) ∧
    (let e := tOp (.mem (2 ^ 29 + 0x1000) .dir 0 true 9) (.rmw 0 .i32 4 7 0 0)
     ({ e with gone := [9] } : SbEntry).lost (.mem (2 ^ 29 + 0x1000) .dir 0 true 9) = true ∧ e.isRmw = true ∧ (tOp tTarget red).isRed = true) ∧
    (s.mem.redRecord (2 ^ 29 + 0x1000) = none ∧ (withMem s { s.mem with reds := [rec0] }).mem.redRecord (2 ^ 29 + 0x1000) = some rec0 ∧
      (rec0.take 0 .f32 0x3F800000 0 0 0).full = false ∧ s.mem.notes = []) ∧
    (∃ s1 v, s.indivisible tTarget 4 0 (fun v => some (atomicOp 0 .i32 7 0 0 v).1) = (s1, .ok v)) ∧
    (∃ s1 v, s.indivisible tTarget 4 0 (fun v => some (redOp 0 .f32 (v, 0) (0x3F800000, 0)).1) = (s1, .ok v)) ∧
    (∃ s1 v, s.indivisible tTarget 16 0 (fun v => some v) = (s1, .ok v)) ∧ (∃ s1 v, full.bulkAt tTarget 0 true [(0, 7)] = (s1, .ok v)) ∧
    (s.noRoute tLease = false ∧ s.targetServed tLease = true) ∧
    ((tDrain false).adds = true ∧ (∃ x, s.pieceSlices (tDrain false) = [x] ∧ s.pieceLines (tDrain false) x ≠ []) ∧ s.mem.staged = []) ∧
    (let other := withMem s { s.mem with staged := [⟨6, 1, s.pieceSlice tTarget, [tTarget.line]⟩] }
     (other.mem.staged.any fun p => !(p.tag = 7 && p.e = 4) && p.lines.any fun l => (tDrain false).lines.contains l) = true) ∧
    (let own := withMem s { s.mem with staged := [⟨7, 4, s.pieceSlice tTarget, [tTarget.line]⟩] }
     ∀ x ∈ own.pieceSlices (tDrain false), ∃ p ∈ own.mem.staged, p.tag = 7 ∧ p.e = 4 ∧ p.slice = x) :=
  ⟨by decide +kernel, by decide +kernel, by decide +kernel, ok_of _ (by decide +kernel), ok_of _ (by decide +kernel), ok_of _ (by decide +kernel), ok_of _ (by decide +kernel),
    by decide +kernel, ⟨by decide +kernel, ⟨T.pieceSlice tTarget, by decide +kernel, by decide +kernel⟩, by decide +kernel⟩, by decide +kernel, by decide +kernel⟩

/-! ## The directory -/

/-- A memory whose block at 2^29 has a record of 32-byte units, the first as given, with lines and transactions. -/
def tDir (u : DirUnit) (ls : List QuadLine) (ts : List Txn) : Mem :=
  { T.mem with dir := [{ DirEntry.fresh (2 ^ 29 / 512) 0 with units := u :: List.replicate 15 ⟨.u, 0, 0⟩ }], qlines := ls, txns := ts }
def tHeld (q : Nat) (st : Moesi) (victim : Bool) : QuadLine := ⟨q, 2 ^ 29, 32, st, 0, [0], 0, victim, none, false⟩
def tTxn (kind : Nat) (inv acks : List Nat) (fwd : Option Nat) (probes : List Nat) : Txn := ⟨2 ^ 29, 1, kind, 0, inv, acks, fwd, probes⟩

/-- A drop counter at `n` (R90). -/
def dropped (m : Mem) (n : Nat) : Mem := { m with drops := [(dropKey (2 ^ 29), n)] }
theorem dropped_count (m : Mem) (n : Nat) : (dropped m n).dropCount (2 ^ 29) = n := by simp [dropped, Mem.dropCount]

theorem rest_of (m : Mem) (b : Nat) (g : BitVec 2)
    (h : (isOwn b && decide (g ≠ 3) && decide (b % grainSize g = 0) && m.queue.isEmpty && m.txns.all (fun t => t.addr + grainSize t.grain ≤ b || b + grainSize g ≤ t.addr) &&
      (m.dirEntry b).all fun e => decide (e.grain = g) && decide (e.host = 0) && decide (e.units.length = 512 / grainSize g)) = true) :
    m.AtRest b g := by
  simp only [Bool.and_eq_true, decide_eq_true_eq, List.all_eq_true, Bool.or_eq_true, Option.all_eq_true_iff_get, List.isEmpty_iff] at h
  refine ⟨h.1.1.1.1.1, h.1.1.1.1.2, h.1.1.1.2, h.1.1.2, h.1.2, fun e he => ?_⟩
  have := h.2 (by simp [he])
  simp only [he, Option.get_some] at this
  exact ⟨this.1.1, this.1.2, this.2⟩

theorem witness_TheDirectoryKeepsValues : (withMem T (tDir ⟨.x, 0, 0⟩ [tHeld 0 .m false] [])).memWf ∧
    (tDir ⟨.x, 0, 0⟩ [tHeld 0 .m false] []).hits (2 ^ 29) 0 0 true = true ∧ (tDir ⟨.x, 0, 0⟩ [tHeld 0 .m false] []).hits (2 ^ 29) 0 0 false = true := by
  unfold State.memWf; decide +kernel

/-- Units at rest in U, U with a dropped record, S, O and X, asked for by quad 1. -/
theorem witness_TheHomeServesRequests : let b := 2 ^ 29
    (∀ u ∈ [(⟨.u, 0, 0⟩ : DirUnit), ⟨.s, 0, 8⟩, ⟨.o, 2, 12⟩, ⟨.x, 2, 0⟩], (tDir u [] []).AtRest b 0 ∧ (tDir u [] []).unit b = u ∧
      (tDir u [] []).hits b 1 0 false = false ∧ (tDir u [] []).hits b 1 0 true = false) ∧
    (let m := dropped (tDir ⟨.u, 0, 0⟩ [] []) 1
     m.AtRest b 0 ∧ (m.unit b).st = .u ∧ m.dropCount b ≠ 0 ∧ m.hits b 1 0 false = false) ∧
    (pvQuads 8 1 = [3] ∧ pvQuads (pvBit 1) 1 = []) := by
  refine ⟨fun u h => ?_, ⟨rest_of _ _ _ (by decide +kernel), by decide +kernel, ?_, by decide +kernel⟩, by decide +kernel⟩
  · simp only [List.mem_cons, List.not_mem_nil, or_false] at h
    rcases h with rfl | rfl | rfl | rfl <;> exact ⟨rest_of _ _ _ (by decide +kernel), by decide +kernel⟩
  · rw [dropped_count]; decide

theorem open_of (m : Mem) (b : Nat) (t : Txn) (h : (decide (t.addr = b) && decide (m.txns = [t]) && (m.dirEntry b).isSome) = true)
    (hr : ({ m with txns := [] } : Mem).AtRest b t.grain) : m.Open b t := by
  simp only [Bool.and_eq_true, decide_eq_true_eq] at h
  exact ⟨h.1.1, h.1.2, h.2, hr⟩

/-- A transaction of every kind and stage that the statement speaks of, open on a unit, with the line that its owner holds. -/
def tOpen : List (DirUnit × QuadLine × Txn) :=
  [(⟨.x, 2, 0⟩, tHeld 2 .m false, tTxn 0 [] [] (some 2) []), (⟨.o, 2, 0⟩, tHeld 2 .o false, tTxn 0 [] [] (some 2) []),
   (⟨.x, 2, 0⟩, tHeld 2 .e false, tTxn 1 [] [] (some 2) []), (⟨.o, 2, 8⟩, tHeld 2 .o false, tTxn 2 [3] [4] (some 2) []),
   (⟨.s, 2, 8⟩, tHeld 3 .s false, tTxn 1 [] [3] none []), (⟨.u, 0, 0⟩, tHeld 2 .e false, tTxn 0 [] [] none [5]),
   (⟨.u, 0, 0⟩, tHeld 2 .e false, tTxn 0 [] [] none []), (⟨.o, 2, 8⟩, tHeld 2 .o false, tTxn 4 [] [] (some 2) []),
   (⟨.o, 2, 8⟩, tHeld 2 .o false, { tTxn 5 [] [] (some 2) [] with req := 2 })]

theorem witness_TheHomeServesRequests_open : ∀ x ∈ tOpen, let m := tDir x.1 [x.2.1] [x.2.2]
    m.Open (2 ^ 29) x.2.2 ∧ m.unit (2 ^ 29) = x.1 ∧ m.qline x.2.1.quad (2 ^ 29) = some x.2.1 := by
  intro x h
  simp only [tOpen, List.mem_cons, List.not_mem_nil, or_false] at h
  rcases h with rfl | rfl | rfl | rfl | rfl | rfl | rfl | rfl | rfl <;>
    exact ⟨open_of _ _ _ (by decide +kernel) (rest_of _ _ _ (by decide +kernel)), by decide +kernel⟩

theorem witness_TheHomeServesRequests_discovery : let m := dropped (tDir ⟨.u, 0, 0⟩ [tHeld 2 .e false] [tTxn 0 [] [] none []]) 1
    m.dropCount (2 ^ 29) ≠ 0 ∧ (m.qlines.find? fun l => !l.taken && l.meets (2 ^ 29) 1 && (l.st = .e || l.st = .m)) = some (tHeld 2 .e false) ∧
    (([] : List QuadLine).find? fun l => !l.taken && l.meets (2 ^ 29) 1 && (l.st = .e || l.st = .m)) = none :=
  ⟨by rw [dropped_count]; decide, by decide +kernel, by decide +kernel⟩

/-- Sixteen entries of the victim buffer of quad 2. -/
def tVictims : List QuadLine := (List.range 16).map fun i => { tHeld 2 .m true with addr := 2 ^ 30 + 32 * i }

theorem witness_UnitsAreWrittenBack : let b := 2 ^ 29
    (∀ u ∈ [(⟨.u, 0, 0⟩ : DirUnit), ⟨.x, 2, 0⟩, ⟨.o, 2, 0⟩, ⟨.s, 0, 8⟩], (tDir u [] []).AtRest b 0 ∧ ((tDir u [] []).dirEntry b).isSome = true) ∧
    ((tDir ⟨.x, 2, 0⟩ [] []).dropCount b ≠ 15 ∧ (dropped (tDir ⟨.x, 2, 0⟩ [] []) 15).dropCount b = 15 ∧ (dropped (tDir ⟨.x, 2, 0⟩ [] []) 15).AtRest b 0) ∧ pvQuads 8 32 ≠ [] ∧
    (∀ st ∈ [Moesi.s, .m], (tDir ⟨.x, 2, 0⟩ [tHeld 2 st false] []).qline 2 b = some (tHeld 2 st false) ∧ (tHeld 2 st false).victim = false) ∧
    (T.regions = [] ∧ T.mem.nones = [] ∧ (b / 128) ∈ (onG { T with regions := [{ tRegion with bytes := [(b, 7)] }] } fun g => { g with quad := 0 }).pinned (4 * 0)) ∧
    ((tDir ⟨.x, 2, 0⟩ [tHeld 2 .m false] []).qlines.filter fun x => x.quad = 2 && x.victim).length < 16 ∧
    ((tDir ⟨.x, 2, 0⟩ (tHeld 2 .m false :: tVictims) []).qlines.filter fun x => x.quad = 2 && x.victim).length = 16 ∧
    (∀ x ∈ [(Moesi.e, DirSt.x, 2), (.m, .x, 2), (.o, .o, 2), (.e, .x, 3), (.m, .x, 3)], let m := tDir ⟨x.2.1, x.2.2, 0⟩ [tHeld 2 x.1 true] []
      m.AtRest b 0 ∧ m.victimOf b 2 = some (tHeld 2 x.1 true) ∧ m.dropCount b = 0) ∧
    (∀ gr, let l : QuadLine := { tHeld 2 .m true with granted := gr }
      (tDir ⟨.x, 2, 0⟩ [l] []).victimOf b 2 = some l) ∧
    ((tDir ⟨.o, 2, 8⟩ [] [{ tTxn 5 [] [] (some 2) [] with req := 2 }]).victimOf b 2 = none) := by
  refine ⟨fun u h => ?_, ⟨by decide +kernel, dropped_count _ _, rest_of _ _ _ (by decide +kernel)⟩, by decide +kernel, by decide +kernel, by decide +kernel, by decide +kernel, by decide +kernel, fun x h => ?_, fun gr => ?_, by decide +kernel⟩
  · simp only [List.mem_cons, List.not_mem_nil, or_false] at h
    rcases h with rfl | rfl | rfl | rfl <;> exact ⟨rest_of _ _ _ (by decide +kernel), by decide +kernel⟩
  · simp only [List.mem_cons, List.not_mem_nil, or_false] at h
    rcases h with rfl | rfl | rfl | rfl | rfl <;> exact ⟨rest_of _ _ _ (by decide +kernel), by decide +kernel⟩
  · rcases gr with _ | _ | _ <;> decide +kernel

/-! ## Time, the host and launches -/

theorem witness_LogicalTimeAdvances : let host := 2 ^ 51 / 128
    let l := withMem T { T.mem with lines := [⟨2 ^ 22, 0⟩] }
    (∀ line ∈ [2 ^ 22, host], l.hostWaits line = false ∧ l.unrouted (line * 128) = false ∧ isAbsent (line * 128) = false ∧ (isOwn (line * 128) = true → (l.mem.lines.any fun x => x.line = line) = true)) ∧
    (l.memWf ∧ l.mem.Quiet ∧ l.regions = [] ∧ tHeldWalk.hostWaits 2 = true ∧ (l.mem.cached 0).length < l.cacheWays 0 0 ∧
      (maxS l.mem.tmax (maxS (l.mem.leaseLine (2 ^ 22)).rts (0 + l.svc.lease.setWidth 32)) - l.svc.tfloor).toNat < 2 ^ 30 + 2 ^ 28) ∧
    (T.cacheWays (0 / 4) (0 % 4) ≠ 0 ∧ tNoCache.cacheWays (0 / 4) (0 % 4) = 0) ∧ (isHost (host * 128) = true ∧ nodeOf (host * 128) = 0 ∧ isHost (2 ^ 22 * 128) = false) ∧
    (T.now / 1024 ≤ T.svc.ticks ∧ T.svc.ticks < ({ T with now := 1024 } : State).now / 1024) ∧
    (([] : List Stamp).foldl maxS T.mem.tmax - T.svc.tfloor).toNat < 2 ^ 30 + 2 ^ 28 ∧
    2 ^ 30 + 2 ^ 28 ≤ ([(0x50000000 : Stamp)].foldl maxS T.mem.tmax - T.svc.tfloor).toNat := by unfold State.memWf Mem.Quiet; decide +kernel

theorem witness_HostAndWalks : (tWalk.memWf ∧ tWalk.log2n = 0 ∧ tWalk.mem.tags = [] ∧ tWalk.mem.Quiet ∧ tHeldWalk.memWf ∧ tHeldWalk.mem.Quiet) ∧ (isHost (2 ^ 51) = true ∧ nodeOf (2 ^ 51) = 0) ∧
    (isOwn 0x103F = true ∧ isOwn (0x103F + 1 - 1) = true ∧ (∀ i, 0x103F / 128 ≤ i → i ≤ (0x103F + 1) / 128 → tWalk.hostWaits i = false) ∧
      tWalk.mem.leases = [] ∧ tWalk.mem.copies = [] ∧ 0x103F % 64 + 1 ≤ 64) ∧
    (0x1000 % 8 = 0 ∧ tWalk.hostWaits (0x1000 / 128) = false ∧ tWalk.Clean 0x1000 8) ∧
    (tWalk.g.hasTag 7 = true ∧ (tWalk.walkHeld tWalk.g 0x1000 = false ∧ tHeldWalk.walkHeld tHeldWalk.g 0x1000 = true) ∧ (∃ f, tWalk.lookup tWalk.g 0x8000000000000000 .load = .error f) ∧
      tWalk.lookup tWalk.g 0x1000 .store = .ok { tMap with entry := 0x30000 } ∧ tWalk.tlbFind tWalk.g 0x1000 = none ∧ isOwn 0x30000 = true ∧ 0x30000 % 8 = 0) ∧
    (0xFFFFFFFFFFFFFFFF < 2 ^ 64) := by
  refine ⟨by unfold State.memWf Mem.Quiet; decide +kernel, by decide +kernel, ⟨by decide +kernel, by decide +kernel, fun i h1 h2 => ?_, by decide +kernel⟩, by unfold State.Clean; decide +kernel,
    ⟨by decide +kernel, by decide +kernel, error_of' _ (by decide +kernel), ok_eq _ _ (by decide +kernel), by decide +kernel⟩, by decide⟩
  have : i = 32 ∨ i = 33 := by omega
  rcases this with rfl | rfl <;> decide +kernel

/-- A record of 4 Caravans of one group of 16 lanes, with 64 s and 8 v registers. -/
def tRecord : Nat := 0x1000 + 0x2000 * 2 ^ 64 + 63 * 2 ^ 169 + 2 ^ 188 + 4 * 2 ^ 192
def tHanded : Launch := Launch.of 0 (BitVec.ofNat 512 tRecord) 0x1000 0
def tRecorded (rec : Nat) : State :=
  { tWalk with g := withS tGroup [(5, 0x1000), (6, 0x1002), (7, 0xFFFFF00000000000)],
               mem := { tWalk.mem with cellar := tWalk.mem.cellar.putBytes (2 ^ 29 + 0x1000) (leBytes 64 rec) } }
def readIs (p : State × PorterRead) (f : State → List Byte → Bool) : Bool := match p with | (s, .ok bs) => f s bs | _ => false

theorem readIs_of (p : State × PorterRead) (f : State → List Byte → Bool) (h : readIs p f = true) : ∃ s bs, p = (s, .ok bs) ∧ f s bs = true := by
  obtain ⟨s, r⟩ := p
  cases r with
  | ok bs => exact ⟨s, bs, rfl, h⟩
  | _ => simp [readIs] at h

/-- The line of the word at 0x1000 is valid in its slice. -/
def tLine (s : State) : State := withMem s { s.mem with lines := [⟨(2 ^ 29 + 0x1000) / 128, 0⟩] }
def tWith (l : Launch) : State := { T with disp := { T.disp with launches := [l] } }
/-- A launch with a dependence to be met and one that is met. -/
def tWaiting : Launch := { tLaunch with ready := false, deps := [(tTarget, 5, false), (tTarget, 1, true)] }
def tDone : Launch :=
  { tLaunch with retired := 1, words := (List.range 9).map fun k => .mem (2 ^ 29 + 0x2000 + 8 * k) .dir 0 false 0 }

theorem witness_LaunchesAreTaken : let s := tRecorded tRecord
    (s.HasRegs [4, 5] ∧ (inRegion s).region = some tRegion ∧ s.region = none ∧ (s.sreg 6).toNat % 64 ≠ 0 ∧ (s.sreg 7).toNat % 64 = 0 ∧ inWindow (s.sreg 7) = true ∧
      (s.sreg 5).toNat % 64 = 0 ∧ inWindow (s.sreg 5) = false ∧ s.walkHeld s.g (s.sreg 5) = false ∧ s.g.watched (s.sreg 5) 64 false = false ∧ s.fenceReady .pkg = true ∧
      (withSb s [tEntry true]).fenceReady .pkg = false) ∧ (∃ p, s.place s.g (s.sreg 5) .load = .ok p) ∧
    (∃ s1 bs, (s.fence .pkg).porterRead (s.g.coreNo, 1024) 0x1000 64 = (s1, .ok bs) ∧ decide (s1.refusal (Launch.of s1.g.die (BitVec.ofNat 512 (leNat bs)) 0x1000 s1.g.pts) = 0) = true) ∧
    (∃ s1 bs, ((tRecorded 0).fence .pkg).porterRead (s.g.coreNo, 1024) 0x1000 64 = (s1, .ok bs) ∧
      decide (s1.refusal (Launch.of s1.g.die (BitVec.ofNat 512 (leNat bs)) 0x1000 s1.g.pts) = 1) = true) ∧
    (s.recordWaits 0 (leBytes 64 tRecord) = false ∧ ({ s with svc := { s.svc with rdymap := 0 } } : State).recordWaits 0 (leBytes 64 tRecord) = true) ∧
    (s.refusal tHanded = 0 ∧ tHanded.badFormat = false ∧ ({ tHanded with record := tHanded.record + 1 } : Launch).sentry.toNat % 4 ≠ 0 ∧
      ({ tHanded with record := tHanded.record + 1 } : Launch).badFormat = false ∧ recField ({ tHanded with record := 0 } : Launch).record 188 4 ≠ 1 ∧
      (∀ x ∈ s.disp.launches, x.id < s.disp.nextLaunch) ∧ tHanded.ready = false ∧ tHanded.stale = false ∧ tHanded.blockVas = [] ∧ tHanded.depsUsed = [] ∧ tHanded.gridPtr = false) ∧
    ((tWith tWaiting).launch? 5 = some tWaiting ∧ tWaiting.stale = false ∧ (tWith tWaiting).wordWaits tTarget = false ∧ ({ tWith tWaiting with svc := { T.svc with rdymap := 0 } } : State).wordWaits tTarget = true ∧
      (tWith tWaiting).mem.keyServes (2 ^ 29 + 0x1000) false 0 = true ∧ (let u := (tLine (tWith tWaiting)).reachWord tTarget; ∀ k < 8, u.poisoned u.mem (2 ^ 29 + 0x1000 + k) = false) ∧
      ((tLine (tWith tWaiting)).reachWord tTarget).mem.peek (2 ^ 29 + 0x1000) 8 = 0 ∧ ((tLine (withCells (tWith tWaiting) [(0x1000, 5)])).reachWord tTarget).mem.peek (2 ^ 29 + 0x1000) 8 = 5) ∧
    (let x : Launch := { tLaunch with ready := false, deps := [], words := [tTarget] }
     let u : State := { tWith x with svc := { T.svc with rdymap := 0 } }
     (tWith x).launch? 5 = some x ∧ x.stale = false ∧ x.deps[0]? = none ∧ x.gridPtr = false ∧ x.words.any (tWith x).wordWaits = false ∧
       u.launch? 5 = some x ∧ x.words.any u.wordWaits = true ∧ tLaunch.ready = true ∧ (∃ e ∈ tWaiting.deps, e.2.2 = false) ∧ tWaiting.deps[2]? = none) ∧
    ((tWith tDone).launch? 5 = some tDone ∧ tDone.ready = true ∧ tDone.n ≤ tDone.retired ∧ tLaunch.retired < tLaunch.n ∧ ({ tDone with words := [] } : Launch).words = [] ∧
      (tWith tDone).memWf ∧ (tWith tDone).mem.Quiet ∧ tDone.words.any (tWith tDone).wordWaits = false ∧ (∀ k ∈ [0, 1, 6], let pa := 2 ^ 29 + 0x2000 + 8 * k
        tDone.words[k]? = some (.mem pa .dir 0 false 0) ∧ isOwn pa = true ∧ pa % 8 = 0 ∧ (tWith tDone).mem.tagOf (pa / 128) = none ∧
          (tWith tDone).Clean pa 8)) :=
  ⟨by unfold State.HasRegs; decide +kernel, ok_of' _ (by decide +kernel), readIs_of _ (fun s bs => decide (s.refusal (Launch.of s.g.die (BitVec.ofNat 512 (leNat bs)) 0x1000 s.g.pts) = 0)) (by decide +kernel),
    readIs_of _ (fun s bs => decide (s.refusal (Launch.of s.g.die (BitVec.ofNat 512 (leNat bs)) 0x1000 s.g.pts) = 1)) (by decide +kernel), by decide +kernel, by decide +kernel,
    by decide +kernel, by decide +kernel, by unfold State.memWf Mem.Quiet State.Clean; decide +kernel⟩

/-- A launch with a Caravan to place, and a context pool of 16 GiB. -/
def tFresh : Launch := { tHanded with id := 5, ready := true, n := 4 }
def tPool : State := { (tWith tFresh) with disp := { (tWith tFresh).disp with caravans := [] }, svc := { T.svc with ctxpool := 16 } }
def tHead : Cand := ⟨[], tFresh, [tFresh.wants]⟩
/-- No quad is ready. -/
def tNoQuad : State := { tPool with svc := { tPool.svc with rdymap := BitVec.ofNat 768 (2 ^ 64 - 1 + 3 * 2 ^ 128) } }
def tRetiring : State :=
  onG T fun g => { g with state := .retiring, running := false, runs := [], slots := #v[none, none], entries := [] }

theorem head_fits : tPool.fits tHead = some [⟨1, 0⟩] := by
  have h : tPool.plan false (tPool.held tHead) tHead.wants [] = some ([⟨1, 0⟩], true) := by decide +kernel
  have hp : tPool.poolRoom tHead = true := by
    have h1 : tPool.disp.poolUsed + tHead.wants.length * (Config.imageBytes tHead.launch.record).toNat = (Config.imageBytes tHead.launch.record).toNat := by
      have h2 : tPool.disp.poolUsed = 0 := by decide +kernel
      have h3 : tHead.wants.length = 1 := rfl
      rw [h2, h3]; omega
    have h4 : tPool.svc.ctxpool.toNat % 2 ^ 16 * 2 ^ 30 = 2 ^ 34 := by decide +kernel
    have h5 := (Config.imageBytes tHead.launch.record).isLt
    simp only [State.poolRoom, h1, h4, Bool.or_eq_true, decide_eq_true_eq]
    exact .inr (by omega)
  simp [State.fits, h, hp]

theorem witness_CaravansArePlacedAndRetire :
    (tPool.dispatcherReady 0 = true ∧ tPool.checkpointing = false ∧ tPool.order 0 = tHead :: [] ∧ tHead.caravans = [] ∧ (tPool.displace 0).fits tHead = some [⟨1, 0⟩] ∧
      ∀ g ∈ tPool.others, g.caravan ≠ tPool.disp.nextCaravan ∧ g.tag < tPool.disp.nextTag) ∧
    (tNoQuad.dispatcherReady 0 = true ∧ tNoQuad.checkpointing = false ∧ tNoQuad.order 0 = [tHead] ∧ tNoQuad.fits tHead = none ∧ tNoQuad.disp.reserved[0]? = some none) ∧
    State.reset.dispatcherReady 0 = false ∧
    (let s := tWith { tFresh with headSince := some 0 }
     (s.order 0).any (fun h => s.headSince h = some 0) = true ∧ 0 + 4096 ≤ ({ s with now := 4096 } : State).now ∧ s.now < 0 + 4096) ∧
    (T.g.hasTag 7 = true ∧ T.mayRetire = false ∧ tRetiring.g.hasTag 7 = true ∧ tRetiring.mayRetire = true ∧ tRetiring.region = none) ∧
    ((∃ g ∈ [tOther], g.caravan = tRetiring.g.caravan ∧ g.wg = tRetiring.g.wg ∧ g.state ≠ .retired) ∧ (∀ g ∈ tRetiring.others, g.caravan = tRetiring.g.caravan → g.state = .retired)) ∧
    (tLaunch.stale = false ∧ tRetiring.blockWaits tLaunch = false ∧ ({ tWith tWaiting with svc := { T.svc with rdymap := 0 } } : State).blockWaits { tLaunch with words := [tTarget] } = true) ∧
    (let r : State := { T with disp := { T.disp with reserved := T.disp.reserved.set 0 (some ⟨some 9, 5, []⟩) } }
     r.disp.reserved[0]? = some (some ⟨some 9, 5, []⟩) ∧ ((r.order 0).head?.all fun h => !Reservation.isFor ⟨some 9, 5, []⟩ h) = true) ∧
    (tRetiring.caravan tRetiring.g.caravan = some tCaravan ∧ tRetiring.launch? tRetiring.g.launch = some tLaunch ∧ tLaunch.wgs ≤ tCaravan.wgRetired.length + 1) ∧
    ((withCaravan tRetiring { tCaravan with rerun := true }).caravan 3 = some { tCaravan with rerun := true } ∧ tRetiring.g.state = .retiring ∧ tRetiring.g.hmode = false ∧
      tCaravan.rerun = false) :=
  ⟨⟨by decide +kernel, by decide +kernel, by decide +kernel, rfl, head_fits, by decide +kernel⟩, by decide +kernel, by decide +kernel, by decide +kernel, by decide +kernel,
    by decide +kernel, by decide +kernel, by decide +kernel, by decide +kernel, by decide +kernel⟩

/-! ## Faults and privilege -/

/-- Address space 0 with a handler at 0x8000, lane base 0x9000. -/
def tHandled (s : State) : State :=
  { s with mem := { s.mem with cellar := (s.mem.cellar.putBytes 0x70000 (leBytes 8 0x8000)).putBytes 0x70008 (leBytes 8 0x9000) },
           svc := { s.svc with hvbase := 0x70000 } }
def tRecordOf (c : Cause) : FaultRecord := ⟨c, 0, 0, 1, 0x40, none⟩
def tFlight : InFlight := ⟨1, tPlace, {}, [], none, false, none, 0, false, false⟩

theorem witness_FaultsEnterTheHandler : let s := tHandled T
    let stopped := onG s fun g => { g with stopped := some (tRecordOf .nomap, some tPlace) }
    let pend (n : Nat) := onG s fun g => { g with pending := List.replicate n (tRecordOf .fpx) }
    (s.HasRegs [5] ∧ s.region = none ∧ s.g.hmode = false ∧ (s.handler s.g.asn).1 ≠ 0 ∧ s.g.inflight = [] ∧ (T.handler T.g.asn).1 = 0 ∧ s.g.hasTag 7 = true) ∧
    ((onG s fun g => { g with inflight := [tFlight] }).g.inflight ≠ [] ∧ (onG s fun g => { g with hmode := true }).g.hmode = true) ∧
    (stopped.g.stopped = some (tRecordOf .nomap, some tPlace) ∧ s.g.paused = false ∧ s.g.halted = false ∧ s.g.state ≠ .saved ∧ s.g.state ≠ .retired ∧ s.g.stopped = none) ∧
    ((onG s fun g => { g with halted := true }).g.halted = true ∧ (tRecordOf .fpx).ins = none) ∧
    (s.vectorHeld = false ∧ ({ s with svc := { s.svc with rdymap := 0 } } : State).vectorHeld = true) ∧
    (let e : SbEntry := { tEntry false with op := .store [(.mem (2 ^ 29 + 0x1000) .dir 0 true 9, 0x5A)] }
     let u := withSb s [e]
     u.g.sb = e :: [] ∧ e.performed = false ∧ u.mates e = [e] ∧ u.entryWaits e = false ∧ u.region = none ∧
       u.noRoute (.mem (2 ^ 29 + 0x1000) .dir 0 true 9) = false ∧ (u.targetServed (.mem (2 ^ 29 + 0x1000) .dir 0 true 9) && !e.lost (.mem (2 ^ 29 + 0x1000) .dir 0 true 9)) = false ∧
       e.inHandler = false ∧ ({ e with inHandler := true } : SbEntry).inHandler = true ∧ u.g.lost = false) ∧
    (s.g.pending.length < 8 ∧ 8 ≤ (pend 8).g.pending.length ∧ (pend 1).g.pending = tRecordOf .fpx :: [] ∧ (pend 1).g.takesDeferred = true ∧ s.g.pending = []) := by
  unfold State.HasRegs; decide +kernel

/-- A group in its handler, whose frame is that of an entry for a cause. -/
def tEntered (c : Cause) (lane : Option IssuePlace) (deferred : Bool) : State :=
  let s := tHandled (TS [(5, 0), (6, 1), (7, 2), (8, 3)])
  onG s fun g => g.enter (tRecordOf c) lane deferred (s.handler s.g.asn) 0
def frameOf (s : State) (f : Frame → Bool) : Bool := s.g.frame.any f

theorem frame_of (s : State) (f : Frame → Bool) (h : frameOf s f = true) : ∃ fr, s.g.frame = some fr ∧ f fr = true := by
  simpa [frameOf, Option.any_eq_true] using h

theorem witness_SysretReturns :
    (T.g.hmode = false ∧ (tEntered .trap none false).g.hmode = true ∧ (tEntered .trap none false).HasRegs [5, 6, 7, 8] ∧ (tEntered .trap none false).region = none ∧
      (∀ r : Fin 4, ((tEntered .trap none false).sreg (5 + BitVec.ofNat 6 r)).toNat % 4 = r) ∧ ((TS [(5, 2)]).sreg 5).toNat % 4 ≠ 3 ∧
      ((tEntered .trap none false).g.implicit && (tEntered .trap none false).g.rgst.toNat % 16 = 5) = false ∧ (tEntered .trap none false).g.gone = 0) ∧
    (∃ fr, (tEntered .trap none false).g.frame = some fr ∧ (decide (fr.deferred = false) && decide (fr.lane = none) && decide (fr.record.cause = .trap) &&
      decide (fr.stack = []) && decide (∀ i : Fin 8, fr.joins[i] = []) && decide (fr.slots[1] = none) && fr.slots[0].all fun p => decide (p.mask ≠ 0)) = true) ∧
    (∃ fr, (tEntered .fpx none true).g.frame = some fr ∧ fr.deferred = true) ∧ (∃ fr, (tEntered .watch none false).g.frame = some fr ∧ decide (fr.record.cause = .watch) = true) ∧
    ∃ fr, (tEntered .nomap (some tPlace) false).g.frame = some fr ∧ decide (fr.deferred = false ∧ fr.lane = some tPlace) = true :=
  ⟨by unfold State.HasRegs; decide +kernel, frame_of _ (fun fr => decide (fr.deferred = false) && decide (fr.lane = none) && decide (fr.record.cause = .trap) &&
      decide (fr.stack = []) && decide (∀ i : Fin 8, fr.joins[i] = []) && decide (fr.slots[1] = none) && fr.slots[0].all fun p => decide (p.mask ≠ 0)) (by decide +kernel),
    frame_of _ (·.deferred) (by decide +kernel), frame_of _ (fun fr => decide (fr.record.cause = .watch)) (by decide +kernel),
    frame_of _ (fun fr => decide (fr.deferred = false ∧ fr.lane = some tPlace)) (by decide +kernel)⟩

theorem witness_SystemRegistersAreReached : let s := tEntered .trap none false
    let n (i : Nat) := onG s fun g => withS g [(9, BitVec.ofNat 64 i)]
    (T.g.hmode = false ∧ s.g.hmode = true ∧ s.HasRegs [4, 9] ∧ s.region = none ∧ s.g.width ≤ 64 ∧ 0 < s.g.width ∧ s.g.frame.isSome = true) ∧
    ∀ i < 24, ((n i).sreg 9).toNat % 256 = i := by
  unfold State.HasRegs; decide +kernel

/-- Page tables: entry 0 of the root points to a table whose entry 0 is a leaf of level 2 or points to a table of level 3; the pool lies at `pool`. -/
def tPages (pool e2 : Nat) (more : List (Nat × Nat)) : State :=
  let put (c : Cells) (x : Nat × Nat) : Cells := c.putBytes x.1 (leBytes 8 x.2)
  let s := tEntered .nomap none false
  { s with g := withS s.g [(9, 0x1000), (10, 0x8000000000000000), (11, 0x30000010), (12, 0)],
           mem := { s.mem with coreTlb := [], cellar := (((0x10000, 1 + 2 * 2 ^ 16) :: (0x10008, pool) :: (0x20000, 2 ^ 52 + 3 * 2 ^ 16) :: (0x30000, e2) :: more).foldl put s.mem.cellar) },
           svc := { s.svc with astb := 0x10000 } }
def tLeaf2 : Nat := 2 ^ 52 + 2 ^ 59 + 7
def tTable3 : Nat := 2 ^ 52 + 8 * 2 ^ 16
def tPoolAt (head count frame : Nat) : List (Nat × Nat) := [(0x60000, head), (0x60008, count), (0x60010, 0x68000), (0x68000, frame)]
/-- The same with a run of 32 pages, whose entries lie above everything else. -/
def tRun : State :=
  let s := tPages 0x60000 tTable3 (tPoolAt 0 1 1)
  let run : Cells := (List.range 32).flatMap fun j => (leBytes 8 (2 ^ 52 + 2 ^ 58 + 2 ^ 59 + j * 2 ^ 16 + 7)).zipIdx.map fun x => (0x80000 + 8 * j + x.2, x.1)
  { s with mem := { s.mem with cellar := s.mem.cellar ++ run } }

theorem witness_PagesAreMappedAndRemoved : let s := tPages 0x60000 tLeaf2 (tPoolAt 0 1 0x2000)
    (s.g.hmode = true ∧ s.HasRegs [4, 9, 10, 11] ∧ s.region = none ∧ s.memWf ∧ s.mem.tags = [] ∧ s.mem.Quiet ∧ s.regions = [] ∧ s.pgmapHeld (s.pool s.g.asn) (s.sreg 9) = false ∧
      ({ s with svc := { s.svc with rdymap := 0 } } : State).pgmapHeld 0x60000 (s.sreg 9) = true ∧ isOwn 0x60000 = true ∧ isOwn 0x30000 = true) ∧ (∃ f, s.leafOf s.g.asn (s.sreg 10) = .error f) ∧
    (s.leafOf s.g.asn (s.sreg 9) = .ok (0x30000, 2, false) ∧ bits (s.mem.peek 0x30000 8) 59 1 = 1 ∧ s.pool s.g.asn = 0x60000 ∧ s.poolAbsent 0x60000 = false ∧
      s.mem.peek 0x60000 8 < s.mem.peek 0x60008 8 ∧ s.mem.peek (s.mem.peek 0x60010 8 % 2 ^ 52 + 8 * s.mem.peek 0x60000 8) 8 % 2 ^ 36 % 2 ^ 13 = 0) ∧
    ((tPages 0 (tLeaf2 + 2 ^ 16) []).leafOf 0 0x1000 = .ok (0x30000, 2, true) ∧ (tPages 0 (2 ^ 52 + 7) []).leafOf 0 0x1000 = .ok (0x30000, 2, false) ∧
      bits ((tPages 0 (2 ^ 52 + 7) []).mem.peek 0x30000 8) 59 1 = 0) ∧
    isAbsent ((tPages (2 ^ 50) tLeaf2 []).pool 0) = true ∧ (tPages 0x60000 tLeaf2 (tPoolAt 1 1 0)).mem.peek 0x60008 8 ≤ (tPages 0x60000 tLeaf2 (tPoolAt 1 1 0)).mem.peek 0x60000 8 ∧
    (tRun.leafOf 0 0x1000 = .ok (0x80000, 3, false) ∧ bits (tRun.mem.peek 0x80000 8) 58 1 = 1 ∧ tRun.poolAbsent 0x60000 = false) ∧
    ((tPages 0x60000 tTable3 ((0x80000, tLeaf2) :: tPoolAt 0 1 1)).leafOf 0 0x1000 = .ok (0x80000, 3, false)) ∧
    (((s.sreg 11).extractLsb' 28 3).toNat = 3 ∧ ((s.sreg 12).extractLsb' 28 3).toNat ≠ 3 ∧ ((s.sreg 12).extractLsb' 28 3).toNat ≠ 4) ∧
    (let c : Cover := ⟨0, some 0, 0, 0x100000⟩
     (∀ l ∈ s.disp.launches, l.stale = false ∧ ¬(({ c with asn := 5 } : Cover).onDie l.die = true ∧ l.asn = ({ c with asn := 5 } : Cover).asn)) ∧
     s.plodgePending c = false ∧ ({ s with porters := [{ tPush with kind := 4, src := 0x1000 }] } : State).plodgePending { c with lo := 0, n := 0 } = true ∧ s.translatedPending c = false ∧ (withSb s [tEntry false]).translatedPending c = true ∧ c.onDie s.g.die = true ∧ s.g.state ≠ .retired ∧ s.g.state ≠ .saved) := by
  refine ⟨by unfold State.HasRegs State.memWf Mem.Quiet; decide +kernel, error_of' _ (by decide +kernel), ⟨ok_eq _ _ (by decide +kernel), by decide +kernel⟩,
    ⟨ok_eq _ _ (by decide +kernel), ok_eq _ _ (by decide +kernel), by decide +kernel⟩, by decide +kernel, by decide +kernel,
    ⟨ok_eq _ _ (by decide +kernel), by decide +kernel⟩, ok_eq _ _ (by decide +kernel), by decide +kernel, by decide +kernel⟩

/-! ## Pre-emption and service -/

def tSavedCaravan (st : CState) : Caravan := { tCaravan with st := st, saved := st = .saved, bankMap := [] }
/-- A saved Caravan, or one that waits to be run again, whose turn it is. -/
def tSaved (st : CState) : State :=
  { (withCaravan T (tSavedCaravan st)) with g := { tGroup with state := .saved, paused := true }, banks := [] }

theorem witness_CaravansAreSavedAndRestored : let v : Word64 := 0xF000000000000000
    let cos := withCaravan (tWith { tLaunch with cos := true }) tCaravan
    let asked := withCaravan T { tCaravan with preempt := true }
    (T.disp.caravans[0]? = some tCaravan ∧ tCaravan.st = .resident ∧ T.targets v tCaravan = true ∧ T.targets (v + 1) tCaravan = false ∧
      (∀ l, T.launch? tCaravan.launch = some l → l.cos = false) ∧ (tSavedCaravan .saved).st ≠ .resident) ∧
    ((∃ l, cos.launch? tCaravan.launch = some l ∧ l.cos = true) ∧ ∃ x ∈ cos.disp.caravans, x.st = .resident ∧ x.launch = tCaravan.launch ∧ cos.targets v x = true) ∧
    (T.caravan 3 = some tCaravan ∧ T.regions = [] ∧ (∀ g ∈ T.others, g.present = true) ∧ (T.groups.map (·.tag)).Nodup ∧ tCaravan.toPreempt = false) ∧
    (({ tCaravan with preempt := true } : Caravan).toPreempt = true ∧ asked.mayHalt 3 = true ∧ tCaravan.rerun = false) ∧
    (let s := onG T fun g => { g with paused := true }
     s.members 3 ≠ [] ∧ s.standing 3 = true ∧ s.unitStands tCaravan = true ∧ T.unitStands tCaravan = false ∧ s.memWf ∧ (tCaravan.bankMap.map (·.1)).Nodup ∧ T.standing 3 = false) ∧
    (∀ st ∈ [CState.saved, .queued], let s := tSaved st
      s.caravan 3 = some (tSavedCaravan st) ∧ s.launch? 5 = some tLaunch ∧ s.dispatcherReady tLaunch.die = true ∧ s.checkpointing = false ∧
        (s.nextPlace tLaunch.die).any (fun y => y.1.caravans = [3] && y.2.length = 1) = true) ∧
    ((tSavedCaravan .saved).restorable = true ∧ (tSavedCaravan .queued).restorable = false) ∧
    (let c : Caravan := { tSavedCaravan .saved with image := 2 ^ 30 }
     let written := withMem (tSaved .saved) { T.mem with cellar := Cells.putBytes [] (2 ^ 30) (leBytes 8 0x143494D47) }
     c.image % 64 = 0 ∧ isOwn c.image = true ∧ isOwn (c.image + 63) = true ∧ T.headerHeld c = false ∧ ({ T with svc := { T.svc with rdymap := 0 } } : State).headerHeld c = true ∧
       written.badVersion c = false ∧ (tSaved .saved).badVersion c = true ∧ (∃ l, T.launch? c.launch = some l)) := by
  refine ⟨by decide +kernel, ⟨⟨_, rfl, rfl⟩, by decide +kernel⟩, by decide +kernel, by decide +kernel, by unfold State.memWf; decide +kernel, by decide +kernel, by decide +kernel,
    by decide +kernel, by decide +kernel, by decide +kernel, by decide +kernel, by decide +kernel, by decide +kernel, by decide +kernel, ⟨tLaunch, by decide +kernel⟩⟩

def tPeer : Target := .mem (5 * 2 ^ 52) .dir 0 false 0

theorem witness_FunctionsComeAndGo : let r := State.reset
    let bad := { T with svc := { T.svc with rdymap := BitVec.ofNat 768 (2 ^ 704 + 2 ^ 720) } }
    (T.svc.rdymap.getLsbD 704 = false ∧ (T.svc.rdymap.getLsbD 720 || T.halls.any fun h => h.num = 0 && h.st = 2) = false ∧ T.svc.keyctl.getLsbD 63 = false ∧
      T.mem.mode (0 / 32) = 0 ∧ (let f := withMem T ((T.mem.setMst 0 18 2 2).setMst 0 25 20 1015808)
        f.mem.mode 0 ≠ 0 ∧ f.mem.rbptr 0 = 1015808 ∧ f.mem.rch 0 = 0) ∧ (∀ i ∈ [0, 64, 128, 130, 148, 149, 192, 703], T.svc.rdymap.getLsbD i = true) ∧ r.svc.rdymap.getLsbD 0 = false ∧ bad.svc.rdymap.getLsbD 704 = true ∧ bad.svc.rdymap.getLsbD 720 = true) ∧
    (let b : State := { T with svc := { T.svc with firmware := [[1]], trained := [3, 18] } }
     b.bootable = true ∧ T.bootable = false ∧ ({ b with svc := { b.svc with badImage := true } } : State).bootable = false ∧ b.svc.trained.contains 3 = true ∧ T.svc.trained.contains 3 = false ∧
       ({ T with svc := { T.svc with ckptctl := 0x8000000000000000 } } : State).checkpointing = true ∧ T.svc.rdymap.getLsbD (130 + 3) = true) ∧
    (r.quiesced 0 = true ∧ TR.quiesced 0 = false) ∧ (T.log2n = 0 ∧ (0#8).toNat ≤ 1 ∧ 1 ≤ (1#8).toNat ∧ 1 < (2#8).toNat ∧ T.svc.rdymap.getLsbD 148 = true ∧ r.svc.rdymap.getLsbD 148 = false) ∧
    (let e : SbEntry := { tEntry false with op := .store [(tPeer, 1)] }
     (withSb T [e]).g.sb = e :: [] ∧ e.performed = false ∧ nodeOf (5 * 2 ^ 52) ≠ 0 ∧ T.region = none ∧ T.g.hasTag 7 = true ∧ T.g.state ≠ .retired ∧ T.g.halted = false ∧
       e.inHandler = false ∧ e.ins = none ∧ T.g.pending.length < 8) := by decide +kernel

/-- The outcome of a signature, of an unwrapped key and of a route to a node is free: whichever it is, it meets one of the hypotheses. -/
theorem witness_ThePackageIsServed : let s := onG T id
    let fw : State := { T with svc := { T.svc with firmware := [List.replicate 64 1] } }
    let busy : State := { T with svc := { T.svc with keyctl := 0x8000000000000000 } }
    let ckpt : State := { T with svc := { T.svc with ckptctl := 0x8000000000000000 } }
    (s.log2n = 0 ∧ (1 : BitVec 8) ≠ 0 ∧ ∀ img sig, Config.falconVerify (Config.shake256 img 64) sig = false ∨ Config.falconVerify (Config.shake256 img 64) sig = true) ∧
    ((List.replicate 32 (0 : Byte)).length = 32 ∧ fw.svc.firmware ≠ [] ∧ fw.memWf ∧ fw.mem.tags = [] ∧ fw.mem.Quiet ∧ fw.mem.failed = [] ∧ isOwn 0x1000 = true ∧
      ∀ bs : List Byte, bs.length ≤ 64 + 8 + 2 + 32 + 1280 → isOwn (0x1000 + bs.length - 1) = true) ∧
    (busy.svc.keyctl.getLsbD 63 = true ∧ s.svc.keyctl.getLsbD 63 = false ∧ s.keyStoresReady = true ∧ State.reset.keyStoresReady = false ∧ (s.mem.keySlot 9).st = .free ∧
      ((withMem s { s.mem with keys := [⟨9, .live, [], []⟩] }).mem.keySlot 9).st = .live ∧ isOwn 0 = true ∧ isOwn (0 + 71) = true) ∧
    ((0 : BitVec 2) = 0 ∧ (1#2).getLsbD 0 = decide (2500 < (3000#12).toNat) ∧ (2#2).getLsbD 0 = decide (2500 < (100#12).toNat) ∧ (1#2).getLsbD 0 ≠ decide (2500 < (100#12).toNat) ∧
      (∃ c ∈ ckpt.disp.caravans, c.st = .resident) ∧ ∀ c ∈ (withCaravan ckpt (tSavedCaravan .saved)).disp.caravans, c.st ≠ .resident) ∧
    (s.checkpointing = false ∧ ckpt.checkpointing = true ∧ s.safeTier 0 = false ∧ ∀ node, s.safeTier node = false ∨ s.safeTier node = true) ∧ (∀ x : Option (List (BitVec 8)), x = none ∨ ∃ k, x = some k) := by
  refine ⟨⟨by decide +kernel, by decide, fun img sig => by cases Config.falconVerify (Config.shake256 img 64) sig <;> simp⟩, ⟨by decide, by decide +kernel, by unfold State.memWf; decide +kernel, by decide +kernel, by unfold Mem.Quiet; decide +kernel, by decide +kernel, by decide +kernel, fun bs h => ?_⟩,
    by decide +kernel, by decide +kernel, ⟨by decide +kernel, by decide +kernel, by decide +kernel, fun n => by cases (onG T id).safeTier n <;> simp⟩, fun x => by cases x <;> simp⟩
  simp only [isOwn, decide_eq_true_eq]
  unfold dieBytes; omega

/-! ## One step of one instruction, with results worked out by hand from the manual's rules -/

/-- s[4] after one scalar instruction with s4, s5 and s6 as given. -/
def scalarValue (i : Instr) (d a b : Word64) : Option Word64 :=
  match exec i (TS [(4, d), (5, a), (6, b)]) with
  | .next t => some (t.sreg 4)
  | _ => none

theorem test_scalar_integer_results :
    ([(.sadd 4 5 6 true, 0, 0x7FFFFFFF, 1, 0xFFFFFFFF80000000), (.sadd 4 5 6 false, 0, 0xFFFFFFFFFFFFFFFF, 2, 1), (.ssub 4 5 6 false, 0, 0, 1, 0xFFFFFFFFFFFFFFFF),
      (.smul 4 5 6 false, 0, 0x100000001, 0x100000001, 0x0000000200000001), (.smulh 4 5 6 false, 0, 0x8000000000000000, 2, 0xFFFFFFFFFFFFFFFF),
      (.sdiv 4 5 6 false, 0, 0xFFFFFFFFFFFFFFF9, 2, 0xFFFFFFFFFFFFFFFD), (.sdiv 4 5 6 false, 0, 0x8000000000000000, 0xFFFFFFFFFFFFFFFF, 0x8000000000000000),
      (.srem 4 5 6 false, 0, 0xFFFFFFFFFFFFFFF9, 2, 0xFFFFFFFFFFFFFFFF), (.sshl 4 5 6 false, 0, 3, 65, 6), (.sshr 4 5 6 false, 0, 0x8000000000000000, 63, 1),
      (.ssra 4 5 6 true, 0, 0x80000000, 31, 0xFFFFFFFFFFFFFFFF), (.smin 4 5 6 false, 0, 0xFFFFFFFFFFFFFFFF, 1, 0xFFFFFFFFFFFFFFFF), (.smax 4 5 6 false, 0, 0xFFFFFFFFFFFFFFFF, 1, 1),
      (.sclz 4 5 true, 0, 1, 0, 31), (.sclz 4 5 false, 0, 0, 0, 64), (.spop 4 5 false, 0, 0xFF00000000000001, 0, 9), (.ssel 4 5 6 false, 0, 7, 9, 9),
      (.ssel 4 5 6 false, 1, 7, 9, 7), (.ssetLt 4 5 6 false, 0, 0xFFFFFFFFFFFFFFFF, 0, 1), (.ssetLtn 4 5 6 false, 0, 0xFFFFFFFFFFFFFFFF, 0, 0),
      (.sbfx 4 5 6 false, 0, 0xABCD, 0x10804, 0xBC), (.sbfx 4 5 6 false, 0, 0xABCD, 0x00804, 0xFFFFFFFFFFFFFFBC), (.sbfi 4 5 6 false, 0x1111, 0xFF, 0x0404, 0x11F1)] :
        List (Instr × Word64 × Word64 × Word64 × Word64)).all (fun x => scalarValue x.1 x.2.1 x.2.2.1 x.2.2.2.1 = some x.2.2.2.2) = true := by decide +kernel

theorem test_scalar_immediate_results :
    ([(.saddi 4 5 0x3FFF, 0, 5, 4), (.sandi 4 5 0x3FF0, 0, 0xFF, 0xF0), (.sori 4 5 0x2000, 0, 1, 0xFFFFFFFFFFFFE001), (.sxori 4 5 1, 0, 3, 2), (.sshli 4 5 63, 0, 3, 0x8000000000000000),
      (.sshri 4 5 4, 0, 0xF0, 0xF), (.ssrai 4 5 4, 0, 0x8000000000000000, 0xF800000000000000), (.smuli 4 5 0x3FFE, 0, 3, 0xFFFFFFFFFFFFFFFA), (.slo 4 0x80000, 0, 0, 0xFFFFFFFFFFF80000),
      (.shi 4 0x12345, 0xFFFFFFFFFFFFFFFF, 0, 0xFFFFFF12345FFFFF), (.shx 4 0x80000, 0x0000001234512345, 0, 0xF800001234512345)] :
        List (Instr × Word64 × Word64 × Word64)).all (fun x => scalarValue x.1 x.2.1 x.2.2.1 0 = some x.2.2.2) = true := by decide +kernel

/-- Where the scalar stream goes on, from 0x100. -/
def goesTo (i : Instr) (a b : Word64) : Option Word64 :=
  match exec i (onG (TS [(5, a), (6, b)]) fun g => { g with spc := 0x100 }) with
  | .next t => some t.g.spc
  | _ => none

theorem test_scalar_flow : goesTo (.sbr 0x10) 0 0 = some 0x140 ∧ goesTo (.sbr 0xFFFFF) 0 0 = some 0xFC ∧ goesTo (.sbc .lt 5 6 2) 0xFFFFFFFFFFFFFFFF 0 = some 0x108 ∧
    goesTo (.sbc .ltn 5 6 2) 0xFFFFFFFFFFFFFFFF 0 = some 0x104 ∧ goesTo (.sret 5) 0x2000 0 = some 0x2000 ∧ goesTo (.sloop 5 0x7FF) 2 0 = some 0xFC ∧
    goesTo (.sloop 5 0x7FF) 1 0 = some 0x104 ∧ scalarValue (.scall 4 1) 0 0 0 = some 4 := by decide +kernel

/-- The value that a lane instruction writes to v4, and to v5 for a pair, in lane 0, from the first `n` of s5, s6 and s7. -/
def laneValue (n : Nat) (i : LaneWord → Instr) (ty : Ty) (a b c : Word64) : Option Nat :=
  match exec (i ⟨false, 0, ty, 0, 4, 0x205, if 2 ≤ n then 0x206 else 0, if n = 3 then 0x207 else 0, false, 0⟩) (TS [(5, a), (6, b), (7, c)]) with
  | .next t =>
    match t.g.inflight with
    | f :: _ => some (f.commit.v.foldr (fun x n => x.val.toNat + 2 ^ 32 * n) 0)
    | [] => some ((t.g.vreg 4 0).toNat + if ty.wide then 2 ^ 32 * (t.g.vreg 5 0).toNat else 0)
  | _ => none

theorem test_lane_integer_results :
    ([(2, .iadd, .i32, 0x7FFFFFFF, 1, 0, 0x80000000), (2, .iadd, .i64, 0xFFFFFFFF, 1, 0, 0x100000000), (2, .isub, .i32, 0, 1, 0, 0xFFFFFFFF), (2, .imul, .i32, 0x10001, 0x10001, 0, 0x20001),
      (2, .imulh, .i32, 0x80000000, 2, 0, 0xFFFFFFFF), (3, .imad, .i32, 3, 5, 7, 22), (2, .idiv, .i32, 0xFFFFFFF9, 2, 0, 0xFFFFFFFD), (2, .irem, .i32, 0xFFFFFFF9, 2, 0, 0xFFFFFFFF),
      (1, .iabs, .i32, 0xFFFFFFFB, 0, 0, 5), (1, .ineg, .i32, 5, 0, 0, 0xFFFFFFFB), (2, .imin, .i32, 0xFFFFFFFF, 1, 0, 0xFFFFFFFF), (2, .imax, .n32, 0xFFFFFFFF, 1, 0, 0xFFFFFFFF),
      (2, .iand, .b32, 0xFF00, 0x0FF0, 0, 0x0F00), (2, .ior, .b32, 0xFF00, 0x0FF0, 0, 0xFFF0), (2, .ixor, .b32, 0xFF00, 0x0FF0, 0, 0xF0F0), (1, .inot, .b32, 0xFF, 0, 0, 0xFFFFFF00),
      (1, .ipop, .b32, 0xF0F0, 0, 0, 8), (1, .iclz, .b32, 1, 0, 0, 31), (1, .ibrev, .b32, 1, 0, 0, 0x80000000)] :
        List (Nat × (LaneWord → Instr) × Ty × Word64 × Word64 × Word64 × Nat)).all
      (fun x => laneValue x.1 x.2.1 x.2.2.1 x.2.2.2.1 x.2.2.2.2.1 x.2.2.2.2.2.1 = some x.2.2.2.2.2.2) = true := by decide +kernel

/-- 1.0, 1.5, 2.0 and 3.0 are 3F800000, 3FC00000, 40000000 and 40400000 in binary32. -/
theorem test_lane_float_results :
    ([(2, .fadd, .f32, 0x3F800000, 0x3F800000, 0, 0x40000000), (2, .fadd, .f32, 0x3F800000, 0x33000000, 0, 0x3F800000), (2, .fsub, .f32, 0x3FC00000, 0x3F800000, 0, 0x3F000000),
      (2, .fmul, .f32, 0x3FC00000, 0x40000000, 0, 0x40400000), (3, .ffma, .f32, 0x3FC00000, 0x40000000, 0x3F800000, 0x40800000), (2, .fdiv, .f32, 0x40400000, 0x40000000, 0, 0x3FC00000),
      (1, .fsqrt, .f32, 0x40800000, 0, 0, 0x40000000), (2, .fmin, .f32, 0x3F800000, 0xBF800000, 0, 0xBF800000), (2, .fmax, .f32, 0x3F800000, 0x40000000, 0, 0x40000000),
      (1, .fabs, .f32, 0xBF800000, 0, 0, 0x3F800000), (1, .fneg, .f32, 0x3F800000, 0, 0, 0xBF800000), (2, .fadd, .f64, 0x3FF0000000000000, 0x3FF0000000000000, 0, 0x4000000000000000),
      (2, .fadd, .f32, 0x7F800000, 0xFF800000, 0, 0x7FC00000), (2, .fmul, .f32, 0x7F7FFFFF, 0x40000000, 0, 0x7F800000)] :
        List (Nat × (LaneWord → Instr) × Ty × Word64 × Word64 × Word64 × Nat)).all
      (fun x => laneValue x.1 x.2.1 x.2.2.1 x.2.2.2.1 x.2.2.2.2.1 x.2.2.2.2.2.1 = some x.2.2.2.2.2.2) = true := by decide +kernel

/-- A trap outside handler mode without a handler halts the group; `aclr` clears V and `cwait` of no flag is ILLEGAL. -/
theorem test_system_steps :
    (match exec (.trap 5) (TS [(5, 7)]) with | .next t => decide (t.g.halted = true ∧ t.g.fcause = Cause.trap.code) | _ => false) = true ∧
    (match exec (.trap 5) (tHandled (TS [(5, 7)])) with | .next t => decide (t.g.hmode = true ∧ t.g.spc = 0x8000 ∧ t.g.lbase = 0 ∧ t.g.hbase = 0x9000 ∧ t.g.finfo = 0x7000000) | _ => false) = true ∧
    (match exec (.sysrd 4 5) (tHandled (TS [])) with | .next t => decide (t.g.fcause = Cause.priv.code) | _ => false) = true := by decide +kernel

end Sys2Proof.Tests
end

/-! SUPPORT. A cause that is taken writes no register of the allotment, and a scalar word that names a register beyond it does nothing but
raise REGBOUND (R10, R48, R343, R367). -/
namespace Sys2Proof.Machine

/-! Registers through an abort and through the entry of a handler -/

/-- What R9 to R12 have a group hold besides its s registers, with its owner tag and its allotment of s registers. -/
def Group.held (g : Group) :=
  (g.tag, g.sAllot, g.v, g.q, g.n, g.p, g.k, g.x, g.a, g.h, g.m)

/-- `h` holds every register that `g` has: the s registers of the allotment and all the others. -/
def Group.KeepsRegs (g h : Group) : Prop := h.held = g.held ∧ ∀ r : Fin 64, r.val < g.sAllot → h.s[r] = g.s[r]

theorem Group.KeepsRegs.refl (g : Group) : g.KeepsRegs g := ⟨rfl, fun _ _ => rfl⟩

theorem Group.KeepsRegs.sAllot_eq {g h : Group} (k : g.KeepsRegs h) : h.sAllot = g.sAllot := congrArg (·.2.1) k.1

theorem Group.KeepsRegs.trans {g h i : Group} (a : g.KeepsRegs h) (b : h.KeepsRegs i) : g.KeepsRegs i :=
  ⟨b.1.trans a.1, fun r hr => (b.2 r (a.sAllot_eq.symm ▸ hr)).trans (a.2 r hr)⟩

/-- Moving lanes writes no register (R202). -/
theorem Group.LanesMoved.keepsRegs {g h : Group} (m : g.LanesMoved h) : g.KeepsRegs h := by
  obtain ⟨_, _, _, _, _, _, _, _, _, _, _, _, _, _, _, rfl⟩ := m
  exact ⟨rfl, fun _ _ => rfl⟩

theorem Group.stopRuns_keepsRegs (g : Group) : g.KeepsRegs g.stopRuns :=
  (Group.LanesMoved.foldl Group.decC_moves _ g).keepsRegs.trans ⟨rfl, fun _ _ => rfl⟩

/-- An abort takes a region's group to its abort address or ends it, and writes none of its registers (R343). -/
theorem Group.abortRegion_keepsRegs (g : Group) (r : Region) (c : AbortCause) (fc ucode : BitVec 8) (nest jump : Bool) :
    g.KeepsRegs (g.abortRegion r c fc ucode nest jump) := by
  refine g.stopRuns_keepsRegs.trans ?_
  unfold Group.abortRegion
  extract_lets g1
  have h1 : g.stopRuns.KeepsRegs g1 := ⟨rfl, fun _ _ => rfl⟩
  clear_value g1
  refine h1.trans ?_
  by_cases hi : r.implicit = true
  · rw [if_pos hi]
    split
    · exact .refl g1
    · exact ⟨rfl, fun _ _ => rfl⟩
  · rw [if_neg hi]
    split
    · exact ⟨rfl, fun _ _ => rfl⟩
    · exact .refl g1

/-- The entry of a handler leaves s56 to s63 unspecified only beyond the allotment (R370). -/
theorem Group.enter_keepsRegs (g : Group) (f : FaultRecord) (pl : Option IssuePlace) (deferred : Bool) (vec : Word64 × Word64) (occ : Nat) :
    g.KeepsRegs (g.enter f pl deferred vec occ) := by
  unfold Group.enter
  extract_lets fr g1
  have h1 : g.KeepsRegs g1 := ⟨rfl, fun _ _ => rfl⟩
  clear_value g1 fr
  refine ⟨?_, fun r hr => ?_⟩
  · rw [← h1.1]
    unfold Group.held
    rfl
  · simp [Nat.not_le.mpr hr]

theorem State.onGroup_keepsRegs (s : State) (t : Nat) {f : Group → Group} (hf : ∀ g : Group, g.KeepsRegs (f g)) :
    s.g.KeepsRegs (s.onGroup t f).g := by
  unfold State.onGroup
  split
  · exact hf s.g
  · exact .refl s.g

theorem State.abortOne_keepsRegs (s : State) (r : Region) (c : AbortCause) (fc ucode : BitVec 8) (nest jump : Bool) :
    s.g.KeepsRegs (s.abortOne r c fc ucode nest jump).g := by
  have h1 := ((s.abandonOf r.owner).dropRegion r).onGroup_keepsRegs r.owner
    fun g => g.abortRegion_keepsRegs r c fc ucode nest jump
  unfold State.abortOne
  split
  · split <;> exact h1
  · exact h1

theorem State.abortSources_keepsRegs : ∀ (n : Nat) (s : State) (die : Nat) (gone : List Nat), s.g.KeepsRegs (s.abortSources n die gone).g
  | 0, s, _, _ => .refl s.g
  | n + 1, s, die, gone => by
    unfold State.abortSources
    split
    · exact .refl s.g
    · exact (s.abortOne_keepsRegs ..).trans (State.abortSources_keepsRegs n ..)

/-- An abort with all that follows from it writes no register (R343). -/
theorem State.abortRegion_keepsRegs (s : State) (r : Region) (c : AbortCause) (fc ucode : BitVec 8) (nest jump : Bool) :
    s.g.KeepsRegs (s.abortRegion r c fc ucode nest jump).g :=
  (s.abortOne_keepsRegs ..).trans (State.abortSources_keepsRegs ..)

/-- A precise cause that is delivered writes no register of the allotment, whichever of its three ends it comes to (R367, R369). -/
theorem State.deliver_keepsRegs (s : State) (f : FaultRecord) (pl : Option IssuePlace) : s.g.KeepsRegs (s.deliver f pl).g := by
  rcases s.deliver_cases f pl with h | ⟨_, _, _, _, h⟩ | ⟨_, _, h⟩ <;> rw [h]
  · exact ⟨rfl, fun _ _ => rfl⟩
  · exact s.g.enter_keepsRegs ..
  · exact ⟨rfl, fun _ _ => rfl⟩

theorem State.answered_keepsRegs (s : State) (c : Cause) : s.g.KeepsRegs (s.answered c).g := by
  unfold State.answered
  split <;> exact ⟨rfl, fun _ _ => rfl⟩

/-- A precise cause writes no register of the allotment, inside a region or outside (R343, R367). -/
theorem State.raise_keepsRegs (s : State) (f : FaultRecord) (pl : Option IssuePlace) : s.g.KeepsRegs (s.raise f pl).g := by
  refine (s.answered_keepsRegs f.cause).trans ?_
  unfold State.raise
  extract_lets u
  split
  · next r _ =>
    have h1 := u.abortRegion_keepsRegs r .fault f.cause.code 0 false true
    dsimp only
    split
    · exact h1.trans (State.deliver_keepsRegs ..)
    · exact h1
  · exact u.deliver_keepsRegs f pl

/-- Nor does it write memory: a scalar word that faults has no other effect (R48). -/
theorem State.scalarFault_keepsRegs (s : State) (c : Cause) (i : Info) (a : Word64) (m : Mask) :
    s.KeepsRegs (s.scalarFault c i a m) := by
  obtain ⟨held, hs⟩ := s.raise_keepsRegs ⟨c, fpcScalar s.g.spc, i.word, m, a, none⟩ none
  simp only [Group.held, Prod.mk.injEq] at held
  obtain ⟨tag, -, v, q, n, p, k, x, ra, h, rm⟩ := held
  exact ⟨s.scalarFault_mem c i a m, tag, hs, v, q, n, p, k, x, ra, h, rm⟩

/-! Words that test something before their registers -/

theorem withControl_ok {rs : List (BitVec 6)} {reserved : State → Bool} {s : State} (body : State → State)
    (h : (∀ r ∈ rs, s.g.hasS r = true) → reserved s = false) : withControl rs reserved body s = body s := by
  unfold withControl
  rw [if_neg]
  simp only [Bool.and_eq_true, List.all_eq_true, not_and, Bool.not_eq_true]
  exact h

/-- A word with a wait control word that is not reserved raises REGBOUND for each register that it names (R10, R323). -/
theorem withCtl_bad {d a b : BitVec 6} {more : List (BitVec 6)} {ok : WaitCtl → Bool} {s : State} (body : WaitCtl → State → State)
    {r : BitVec 6} (hr : r ∈ d :: a :: b :: more) (h : s.g.hasS r = false)
    (hc : s.g.hasS b = true → ∃ c, WaitCtl.of (s.sreg b) = some c ∧ ok c = true) :
    withCtl d a b more ok body s = s.scalarFault .regbound := by
  unfold withCtl
  cases hb : s.g.hasS b with
  | false => exact withRegs_bad _ (List.mem_singleton_self b) hb
  | true =>
    obtain ⟨c, ec, oc⟩ := hc hb
    rw [withRegs_ok _ (by simpa using hb), ec]
    have ne : r ≠ b := fun e => by rw [e, hb] at h; exact Bool.noConfusion h
    have hr' : r ∈ d :: a :: more := by simpa [ne] using hr
    dsimp only
    rw [if_pos oc]
    exact withRegs_bad _ hr' h

theorem withCtl_bad_any {d a b : BitVec 6} {s : State} (body : WaitCtl → State → State) {r : BitVec 6} (hr : r ∈ [d, a, b])
    (h : s.g.hasS r = false) (hc : s.g.hasS b = true → (WaitCtl.of (s.sreg b)).isSome = true) :
    withCtl d a b [] (fun _ => true) body s = s.scalarFault .regbound :=
  withCtl_bad body hr h fun hb => (Option.isSome_iff_exists.mp (hc hb)).imp fun _ e => ⟨e, rfl⟩

theorem execBkmode_regbound {d a b : BitVec 6} {s : State} {r : BitVec 6} (hr : r ∈ [d, a, b]) (h : s.g.hasS r = false)
    (hc : s.g.hasS b = true → (bankModeOf (s.sreg b)).isSome = true) : execBkmode d a b s = .next (s.scalarFault .regbound) := by
  refine congrArg Host.Outcome.next ?_
  cases hb : s.g.hasS b with
  | false => exact withRegs_bad _ (List.mem_singleton_self b) hb
  | true =>
    obtain ⟨⟨mode, z⟩, em⟩ := Option.isSome_iff_exists.mp (hc hb)
    rw [withRegs_ok _ (by simpa using hb), em]
    have ne : r ≠ b := fun e => by rw [e, hb] at h; exact Bool.noConfusion h
    have hr' : r ∈ [d, a] := by simpa [ne] using hr
    exact withRegs_bad _ hr' h

theorem execPgmap_regbound {d a : BitVec 6} {s : State} {r : BitVec 6} (hr : r ∈ [d, a]) (h : s.g.hasS r = false) (hm : s.g.hmode = true) :
    execPgmap d a s = .next (s.scalarFault .regbound) := by
  have stays : (s.g.hmode && s.g.hasS d && s.g.hasS a && s.region.isNone) = false := by
    have named : r = d ∨ r = a := by simpa only [List.mem_cons, List.not_mem_nil, or_false] using hr
    rcases named with rfl | rfl
    · rw [h, Bool.and_false, Bool.false_and, Bool.false_and]
    · rw [h, Bool.and_false, Bool.false_and]
  unfold execPgmap
  rw [stays]
  split
  · exact congrArg Host.Outcome.next ((privileged_ok _ hm).trans (withRegs_bad _ hr h))
  · exact congrArg Host.Outcome.next ((privileged_ok _ hm).trans (withRegs_bad _ hr h))

/-- A privileged word with a control word that is not reserved, in handler mode (R25, R48). -/
theorem privilegedControl_bad {rs ctl : List (BitVec 6)} {reserved : State → Bool} {s : State} (body : State → State) {r : BitVec 6}
    (hr : r ∈ rs) (h : s.g.hasS r = false) (hm : s.g.hmode = true) (hc : (∀ x ∈ ctl, s.g.hasS x = true) → reserved s = false) :
    withControl ctl reserved (privileged (withRegs rs body)) s = s.scalarFault .regbound :=
  ((withControl_ok _ hc).trans (privileged_ok _ hm)).trans (withRegs_bad _ hr h)

/-- A scalar word that names a register beyond the allotment raises REGBOUND and does nothing else (R10, R48). -/
theorem exec_regbound {s : State} {i : Instr} {r : BitVec 6} (hr : r ∈ sregs i) (h : s.g.hasS r = false) (ht : s.TestsRegs i) :
    exec i s = .next (s.scalarFault .regbound) := by
  cases i with
  | sadd | ssub | smul | smulh | sdiv | srem | sand | sor | sxor | sshl | sshr | ssra | smin | smax | sclz | spop | smov | ssel | ssetEq
  | ssetNe | ssetLt | ssetGe | ssetLtn | ssetGen | sbfx | sbfi | saddi | sandi | sori | sxori | sshli | sshri | ssrai | smuli | slo | shi
  | shx | scall | sret | sbc | sloop | sget | sgetp | sputp | sgetn | sputn | sld | sst | satomLd | satomSt | satomSwap | satomAdd | scas
  | aset | pcopy | pgather | pscatter | pfill | plodge | ppush | pcancel | mtake | mgive | mth | mfence | mwait | mdrain | mrd | mwr | bini
  | dqinit | dqpush | dqpop | dqsteal | rbeg | rend | rabort | rstat | tdecl | launch | evsig | evwait | trap =>
    exact congrArg Host.Outcome.next (withRegs_bad _ hr h)
  | bara | barw | barx => exact congrArg Host.Outcome.next (withCtl_bad_any _ hr h ht)
  | wword d a b =>
    refine congrArg Host.Outcome.next (withCtl_bad _ hr h fun hb => ?_)
    obtain ⟨c, ec, oc⟩ := ht hb
    exact ⟨c, ec, decide_eq_true oc⟩
  | bkmode => exact execBkmode_regbound hr h ht
  | sysret a =>
    have out : ¬ ∀ x ∈ [a], s.g.hasS x = true := fun all => by rw [all r hr] at h; exact Bool.noConfusion h
    exact congrArg Host.Outcome.next (privilegedControl_bad _ hr h ht fun all => absurd all out)
  | sysrd | syswr | tlbi =>
    refine congrArg Host.Outcome.next (privilegedControl_bad _ hr h ht.1 fun all => ?_)
    simpa using ht.2 (all _ (List.mem_singleton_self _))
  | pgmap => exact execPgmap_regbound hr h ht
  | _ => exact absurd hr List.not_mem_nil

/-- Settles O11: every scalar word tests its registers before its own meaning, and a precise cause writes none of them. -/
theorem registerBound : Obligations.RegisterBound := by
  unfold Obligations.RegisterBound
  rintro s i ⟨r, hr, h⟩ ht
  exact ⟨exec_regbound hr h ht, s.scalarFault_keepsRegs ..⟩

end Sys2Proof.Machine

/-! SUPPORT. Scalar loads outcome by outcome, and the two instructions that make them (R161, R163). -/
namespace Sys2Proof.Machine

/-! What a scalar load meets before it reads -/

theorem State.unwatched_ok {s : State} {va : Word64} {n : Nat} {store : Bool} (k : State) (h : s.g.watched va n store = false) :
    s.unwatched va n store k = k := by
  unfold State.unwatched; rw [h]; rfl

theorem State.unwatched_bad {s : State} {va : Word64} {n : Nat} {store : Bool} (k : State) (h : s.g.watched va n store = true) :
    s.unwatched va n store k = s.scalarFault .watch {} va := by
  unfold State.unwatched; rw [h]; rfl

theorem State.afterWalk_held {s : State} {va : Word64} {k : AccessKind} (cont : State) (h : s.walkHeld s.g va k = true) :
    s.afterWalk va k cont = s := by
  unfold State.afterWalk; rw [h]; rfl

theorem State.afterWalk_ok {s : State} {va : Word64} {k : AccessKind} (cont : State) (h : s.walkHeld s.g va k = false) :
    s.afterWalk va k cont = cont := by
  unfold State.afterWalk; rw [h]; rfl

/-- A load of free lines goes on at once (R76, R147, R383). -/
theorem State.LinesFree.goes_on {s : State} {ls : List (Nat ⊕ Nat)} (h : s.LinesFree ls) (k : State) : s.unheld ls (s.afterOps ls k) = k := by
  unfold State.unheld
  rw [h.1]
  exact if_neg (fun e => Bool.noConfusion (h.2.symm.trans e))

/-! Scalar loads of memory (R17, R112, R161) -/

section
variable {s : State} {va : Word64} {n : Nat} (k : State → Nat → State)

theorem State.scalarLoad_held (hw : inWindow va = false) (h : s.walkHeld s.g va = true) : s.scalarLoad va n k = s := by
  rw [State.scalarLoad, hw]; exact State.afterWalk_held _ h

theorem State.scalarLoad_untranslated {f : TransFault} (hw : inWindow va = false) (hh : s.walkHeld s.g va = false)
    (hp : s.place s.g va .load = .error f) : s.scalarLoad va n k = s.scalarFault f.cause f.info va := by
  rw [State.scalarLoad, hw, hp]; exact State.afterWalk_ok _ hh

theorem State.scalarLoad_watched {p : Place} (hw : inWindow va = false) (hh : s.walkHeld s.g va = false)
    (hp : s.place s.g va .load = .ok p) (h : s.g.watched va n false = true) : s.scalarLoad va n k = s.scalarFault .watch {} va := by
  rw [State.scalarLoad, hw, hp]; exact (State.afterWalk_ok _ hh).trans (State.unwatched_bad _ h)

theorem State.scalarLoad_memory {p : Place} {s1 : State} {bs : List Byte} (hw : inWindow va = false) (hh : s.walkHeld s.g va = false)
    (hp : s.place s.g va .load = .ok p) (h : s.g.watched va n false = false) (hl : s.LinesFree [.inr (p.pa / 128)])
    (hr : (s.notePlace p .load).memLoad p n = (s1, .ok bs)) : s.scalarLoad va n k = k s1 (leNat bs) := by
  rw [State.scalarLoad, hw, hp]
  refine ((State.afterWalk_ok _ hh).trans (State.unwatched_ok _ h)).trans ((hl.goes_on _).trans ?_)
  rw [hr]; rfl

/-! Scalar loads of the scratch window (R17, R131, R132, R389) -/

theorem State.scalarLoad_scratch {b o : Nat} (hw : inWindow va = true) (h : s.g.watched va n false = false)
    (hx : s.window s.g.caravan va n false = .scratch b o) (hl : s.LinesFree [.inl (scratchKey b o / 128)]) :
    s.scalarLoad va n k = if s.bankPoisoned b o n then s.scalarFault .poison else k s (leNat (s.scratchLoad b o n)) := by
  rw [State.scalarLoad, hw, hx]
  refine (State.unwatched_ok _ h).trans ((hl.goes_on _).trans ?_)
  unfold State.scratchAnswer
  split <;> rfl

theorem State.scalarLoad_fill {b : Nat} (hw : inWindow va = true) (h : s.g.watched va n false = false)
    (hx : s.window s.g.caravan va n false = .fill b) : s.scalarLoad va n k = k s (s.bank b).fill := by
  rw [State.scalarLoad, hw, hx]; exact State.unwatched_ok _ h

theorem State.scalarLoad_free {b : Nat} (hw : inWindow va = true) (h : s.g.watched va n false = false)
    (hx : s.window s.g.caravan va n false = .free b) : s.scalarLoad va n k = k s (s.bank b).free := by
  rw [State.scalarLoad, hw, hx]; exact State.unwatched_ok _ h

theorem State.scalarLoad_violation (hw : inWindow va = true) (hx : s.window s.g.caravan va n false = .violation) :
    s.scalarLoad va n k = s.scalarFault .nomap {} va := by
  rw [State.scalarLoad, hw, hx]; rfl

end

/-! The two instructions that load (R161, R163) -/

/-- What `sld` and `satom.ld` both do with an address: `atomic` keeps an access from FIFO banks, `after` comes between the value and the
next word. -/
def State.loadInto (s : State) (d : BitVec 6) (va : Word64) (n : Nat) (after : State → State) (atomic : Bool) : State :=
  if va.toNat % n ≠ 0 then s.scalarFault .align {} va
  else if atomic && s.atFifo va n false then s.scalarFault .nomap {} va
  else s.scalarLoad va n fun t v => (after (t.setS d (BitVec.ofNat 64 v))).advance

theorem exec_sld {s : State} {d a : BitVec 6} (h : s.HasRegs [d, a]) (z : BitVec 2) (off : BitVec 12) :
    exec (.sld d a z off) s =
      .next (s.loadInto d (s.sreg a + off.signExtend 64 * BitVec.ofNat 64 (2 ^ z.toNat)) (2 ^ z.toNat) (fun s => s) false) :=
  congrArg Host.Outcome.next (withRegs_ok _ h)

theorem exec_satomLd {s : State} {d a : BitVec 6} (h : s.HasRegs [d, a]) (o : Ord) (sc : Scope) (w : Bool) :
    exec (.satomLd d a o sc w) s =
      .next (s.loadInto d (s.sreg a) (if w then 8 else 4) (fun s' => s'.acquireIf o sc (!inWindow (s.sreg a))) true) :=
  congrArg Host.Outcome.next (withRegs_ok _ h)

section
variable {s : State} {d : BitVec 6} {va : Word64} {n : Nat} {after : State → State} {atomic : Bool}

theorem State.loadInto_unaligned (h : va.toNat % n ≠ 0) : s.loadInto d va n after atomic = s.scalarFault .align {} va := if_pos h

theorem State.loadInto_fifo (ha : va.toNat % n = 0) (hk : atomic = true) (h : s.atFifo va n false = true) :
    s.loadInto d va n after atomic = s.scalarFault .nomap {} va := by
  rw [State.loadInto, if_neg (not_not_intro ha), hk, h]; rfl

theorem State.loadInto_load (ha : va.toNat % n = 0) (h : atomic = true → s.atFifo va n false = false) :
    s.loadInto d va n after atomic = s.scalarLoad va n fun t v => (after (t.setS d (BitVec.ofNat 64 v))).advance := by
  rw [State.loadInto, if_neg (not_not_intro ha), if_neg]
  simpa using h

theorem State.loadInto_plain (ha : va.toNat % n = 0) :
    s.loadInto d va n after false = s.scalarLoad va n fun t v => (after (t.setS d (BitVec.ofNat 64 v))).advance :=
  State.loadInto_load ha nofun

theorem State.atFifo_memory {store : Bool} (hw : inWindow va = false) : s.atFifo va n store = false := by
  unfold State.atFifo; rw [hw]; rfl

theorem State.atFifo_scratch {store : Bool} {b o : Nat} (hx : s.window s.g.caravan va n store = .scratch b o) :
    s.atFifo va n store = false := by
  unfold State.atFifo; rw [hx]; exact Bool.and_false _

theorem State.atFifo_notScratch {store : Bool} (hw : inWindow va = true) (hx : ∀ b o, s.window s.g.caravan va n store ≠ .scratch b o) :
    s.atFifo va n store = true := by
  unfold State.atFifo
  rw [hw]
  split
  · next e => exact absurd e (hx _ _)
  · rfl

end

/-- Settles O27: both instructions are `State.loadInto`, whose outcome is that of the scalar load at its address. -/
theorem scalarLoadResults : Obligations.ScalarLoadResults := by
  unfold Obligations.ScalarLoadResults
  intro s d a z off o sc w hregs x hx
  have run : exec x.1 s = .next (s.loadInto d x.2.1 x.2.2.1 x.2.2.2.1 x.2.2.2.2) := by
    simp only [List.mem_cons, List.not_mem_nil, or_false] at hx
    rcases hx with rfl | rfl
    · exact exec_sld hregs z off
    · exact exec_satomLd hregs o sc w
  clear hx
  obtain ⟨i, va, n, after, atomic⟩ := x
  dsimp only at run ⊢
  simp only [run, Host.Outcome.next.injEq]
  refine ⟨State.loadInto_unaligned, fun ha hw hh => ?_, fun ha hw hh => ?_, fun ha hw hu => ?_⟩
  · rw [State.loadInto_load ha fun _ => State.atFifo_memory hw]
    exact State.scalarLoad_held _ hw hh
  · rw [State.loadInto_load ha fun _ => State.atFifo_memory hw]
    exact ⟨fun f hp => State.scalarLoad_untranslated _ hw hh hp, fun p hp ht => State.scalarLoad_watched _ hw hh hp ht,
      fun p hp hu hl s1 bs hr => State.scalarLoad_memory _ hw hh hp hu hl hr⟩
  · have nomap : atomic = true → (∀ b o, s.window s.g.caravan va n false ≠ .scratch b o) →
        s.loadInto d va n after atomic = s.scalarFault .nomap {} va := fun hk hx =>
      State.loadInto_fifo ha hk (State.atFifo_notScratch hw hx)
    refine ⟨fun b i hb hl => ?_, fun b hb => ?_, fun b hb => ?_, fun b i hb hk => nomap hk (by simp [hb]), fun hb => ?_⟩
    · rw [State.loadInto_load ha fun _ => State.atFifo_scratch hb, State.scalarLoad_scratch _ hw hu hb hl]
      exact ⟨fun ok => if_neg (by simp [ok]), fun bad => if_pos bad⟩
    · cases atomic with
      | true => exact nomap rfl (by simp [hb])
      | false => exact (State.loadInto_plain ha).trans (State.scalarLoad_fill _ hw hu hb)
    · cases atomic with
      | true => exact nomap rfl (by simp [hb])
      | false => exact (State.loadInto_plain ha).trans (State.scalarLoad_free _ hw hu hb)
    · cases atomic with
      | true => exact nomap rfl (by simp [hb])
      | false => exact (State.loadInto_plain ha).trans (State.scalarLoad_violation _ hw hb)

end Sys2Proof.Machine

/-! SUPPORT. RSTAMP, TMAX and HR through the work of the Cellar slices: serving requests, filling and writing back lines and recalling the
adapter's pieces move data and timestamps of lines, and none of these three (R94, R101, R105, R151). -/
namespace Sys2Proof.Machine

/-- RSTAMP, TMAX and HR: the times that the package keeps outside its slices (R101, R105, R151). -/
def Mem.stamps (m : Mem) : Stamp × Stamp × Stamp := (m.rstamp, m.tmax, m.hr)

section
variable (m : Mem)

theorem Mem.foldl_stamps {α : Type} {f : Mem → α → Mem} (hf : ∀ m x, (f m x).stamps = m.stamps) :
    ∀ (l : List α) (m : Mem), (l.foldl f m).stamps = m.stamps
  | [], _ => rfl
  | x :: l, m => (Mem.foldl_stamps hf l (f m x)).trans (hf m x)

/-! HBM and its encryption -/

@[simp] theorem Mem.setLoc_stamps (l : Loc) (b : Byte) : (m.setLoc l b).stamps = m.stamps := rfl

@[simp] theorem Mem.putHbm_stamps : ∀ (c : Cells) (m : Mem), (m.putHbm c).stamps = m.stamps
  | [], _ => rfl
  | (_, _) :: c, _ => Mem.putHbm_stamps c _

@[simp] theorem Mem.setHbm_stamps : ∀ (bs : List Byte) (m : Mem) (a : Nat), (m.setHbm a bs).stamps = m.stamps
  | [], _, _ => rfl
  | _ :: bs, _, a => Mem.setHbm_stamps bs _ (a + 1)

@[simp] theorem Mem.setNode_stamps (n : TreeNode) : (m.setNode n).stamps = m.stamps := rfl
@[simp] theorem Mem.setCounters_stamps (c : CounterLine) : (m.setCounters c).stamps = m.stamps := rfl

@[simp] theorem Mem.remac_stamps (stack level idx : Nat) : (m.remac stack level idx).stamps = m.stamps := by
  unfold Mem.remac; dsimp only; split <;> rfl

@[simp] theorem Mem.bumpTree_stamps : ∀ (n : Nat) (m : Mem) (stack level idx : Nat), (m.bumpTree n stack level idx).stamps = m.stamps
  | 0, _, _, _, _ => rfl
  | n + 1, m, stack, level, idx => by
    rw [Mem.bumpTree, Mem.bumpTree_stamps n]
    split
    · simp only [Mem.remac_stamps, Mem.setNode_stamps]
    · exact Mem.foldl_stamps (fun m i => m.remac_stamps ..) _ _

@[simp] theorem Mem.encryptLine_stamps (line : Nat) (k : BitVec 13) (p : List Byte) : (m.encryptLine line k p).stamps = m.stamps := by
  have step (m : Mem) (x : List (Nat × List Byte)) : ({ m with macs := x } : Mem).stamps = m.stamps := rfl
  rw [Mem.encryptLine, step, Mem.setHbm_stamps]

@[simp] theorem Mem.writeBackEnc_stamps (line : Nat) (k : BitVec 13) (p : List Byte) : (m.writeBackEnc line k p).stamps = m.stamps := by
  rw [Mem.writeBackEnc, Mem.bumpTree_stamps]
  split
  · simp only [Mem.encryptLine_stamps, Mem.setCounters_stamps]
  · rw [Mem.encryptLine_stamps, Mem.foldl_stamps, Mem.setCounters_stamps]
    intro m x
    split
    · exact m.encryptLine_stamps ..
    · rfl

/-! Lines of a slice -/

theorem Mem.withCellar_stamps (c : Cells) : ({ m with cellar := c } : Mem).stamps = m.stamps := rfl

@[simp] theorem Mem.writeBack_stamps (line : Nat) : (m.writeBack line).stamps = m.stamps := by
  have step (m : Mem) (x y : List Nat) : ({ m with bad := x, dead := y } : Mem).stamps = m.stamps := rfl
  unfold Mem.writeBack
  dsimp only
  split
  · rfl
  · rw [step]
    split
    · rw [Mem.putHbm_stamps, Mem.withCellar_stamps]
    · rw [Mem.writeBackEnc_stamps, Mem.withCellar_stamps]

@[simp] theorem Mem.forgetLine_stamps (line : Nat) : (m.forgetLine line).stamps = m.stamps := by
  unfold Mem.forgetLine; split <;> rfl

@[simp] theorem Mem.dropLease_stamps (line : Nat) : (m.dropLease line).stamps = m.stamps := by
  unfold Mem.dropLease; split <;> rfl

@[simp] theorem Mem.evictLine_stamps (line : Nat) : (m.evictLine line).stamps = m.stamps := by
  unfold Mem.evictLine
  dsimp only
  split
  · exact m.dropLease_stamps line
  · exact (Mem.forgetLine_stamps ..).trans (m.dropLease_stamps line)

@[simp] theorem Mem.flushLine_stamps (line : Nat) : (m.flushLine line).stamps = m.stamps :=
  (Mem.forgetLine_stamps ..).trans (m.writeBack_stamps line)

@[simp] theorem Mem.makeRoom_stamps (line : Nat) : (m.makeRoom line).stamps = m.stamps := by
  unfold Mem.makeRoom
  dsimp only
  split
  · rfl
  · split
    · rfl
    · split
      · rfl
      · exact Mem.foldl_stamps Mem.evictLine_stamps _ _

@[simp] theorem Mem.holdLine_stamps (line : Nat) : (m.holdLine line).stamps = m.stamps := by
  unfold Mem.holdLine
  split
  · rfl
  · dsimp only
    split
    · rfl
    · exact m.makeRoom_stamps line

@[simp] theorem Mem.keepSv_stamps (a n : Nat) : (m.keepSv a n).stamps = m.stamps := rfl
@[simp] theorem Mem.bytesToHome_stamps (a n : Nat) : (m.bytesToHome a n).stamps = m.stamps := rfl
@[simp] theorem Mem.bytesToCellar_stamps (a n : Nat) : (m.bytesToCellar a n).stamps = m.stamps := rfl

@[simp] theorem Mem.retag_stamps (line : Nat) (want : Option (BitVec 13)) : (m.retag line want).stamps = m.stamps := by
  have step (m : Mem) (x : List (Nat × BitVec 13)) (y : List Nat) : ({ m with tags := x, poison := y } : Mem).stamps = m.stamps := rfl
  unfold Mem.retag
  dsimp only
  split
  · rfl
  · refine (step _ _ _).trans ?_
    rw [Mem.writeBack_stamps, Mem.keepSv_stamps, Mem.bytesToCellar_stamps, Mem.bytesToHome_stamps]

theorem Mem.withVerified_stamps (x : List (Nat × Nat × Nat)) : ({ m with verified := x } : Mem).stamps = m.stamps := rfl
@[simp] theorem Mem.keepPath_stamps (line : Nat) : (m.keepPath line).stamps = m.stamps := m.withVerified_stamps _

@[simp] theorem Mem.fillLine_stamps (line : Nat) : (m.fillLine line).stamps = m.stamps := by
  have step (x y : List Nat) : ({ m with poison := x, bad := y } : Mem).stamps = m.stamps := rfl
  unfold Mem.fillLine
  extract_lets a ours lost forged marks m1 m2
  have h1 : m1.stamps = m.stamps := step _ _
  have h2 : m2.stamps = m.stamps := by
    simp only [m2]
    clear_value m1 lost
    split <;> exact h1
  clear_value m2 forged
  split
  · exact h2
  · split
    · exact (m2.keepPath_stamps line).trans h2
    · exact h2

@[simp] theorem Mem.reachLine_stamps (line : Nat) (enc : Bool) (k : BitVec 13) (whole : Bool) :
    (m.reachLine line enc k whole).stamps = m.stamps := by
  unfold Mem.reachLine
  extract_lets want hit m1 m2
  have h1 : m1.stamps = m.stamps := m.retag_stamps line want
  rw [Mem.holdLine_stamps]
  simp only [m2]
  clear_value hit m1
  split
  · exact h1
  · split
    · exact h1
    · exact (m1.fillLine_stamps line).trans h1

/-! Requests at the channels -/

@[simp] theorem Mem.cleanSectors_stamps (a n : Nat) : (m.cleanSectors a n).stamps = m.stamps := by
  unfold Mem.cleanSectors; split <;> rfl

@[simp] theorem Mem.writeSector_stamps (r : MemRequest) (x : Nat × Nat) : (m.writeSector r x).stamps = m.stamps :=
  (Mem.cleanSectors_stamps ..).trans (m.withCellar_stamps _)

@[simp] theorem Mem.serveLine_stamps (r : MemRequest) (line : Nat) : (m.serveLine r line).stamps = m.stamps := by
  unfold Mem.serveLine
  dsimp only
  split
  · exact (Mem.foldl_stamps (fun m x => m.writeSector_stamps r x) _ _).trans (m.reachLine_stamps ..)
  · exact m.reachLine_stamps ..

@[simp] theorem Mem.serveRequest_stamps (q : ChanReq) : (m.serveRequest q).stamps = m.stamps := by
  unfold Mem.serveRequest
  dsimp only
  split
  · exact Mem.foldl_stamps (fun m l => (Mem.forgetLine_stamps ..).trans (m.writeBack_stamps l)) _ _
  · exact Mem.foldl_stamps (fun m l => m.serveLine_stamps q.req l) _ _

@[simp] theorem Mem.flushParked_stamps : m.flushParked.stamps = m.stamps := by
  unfold Mem.flushParked
  split
  · exact Mem.foldl_stamps Mem.flushLine_stamps _ _
  · rfl

@[simp] theorem Mem.settleChans_stamps (line : Nat) : (m.settleChans line).stamps = m.stamps :=
  Mem.foldl_stamps Mem.serveRequest_stamps _ _

@[simp] theorem Mem.reach_stamps (line : Nat) (enc : Bool) (k : BitVec 13) (whole : Bool) : (m.reach line enc k whole).stamps = m.stamps := by
  simp only [Mem.reach, Mem.reachLine_stamps, Mem.settleChans_stamps, Mem.flushParked_stamps]

/-! The adapter's pieces, and NONE lines -/

@[simp] theorem Mem.quadToHome_stamps (a n : Nat) : (m.quadToHome a n).stamps = m.stamps := rfl

@[simp] theorem Mem.homeToCellar_stamps (a n : Nat) : (m.homeToCellar a n).stamps = m.stamps :=
  Mem.foldl_stamps (fun m l => m.reach_stamps l _ _ _) _ _

@[simp] theorem Mem.hostRecall_stamps (a n : Nat) : (m.hostRecall a n).stamps = m.stamps := by
  unfold Mem.hostRecall
  split
  · rfl
  · dsimp only
    split
    · rfl
    · exact Mem.foldl_stamps (fun m j => m.quadToHome_stamps ..) _ _

@[simp] theorem Mem.hostAside_stamps (line : Nat) : (m.hostAside line).stamps = m.stamps := by
  unfold Mem.hostAside
  split
  · exact (Mem.foldl_stamps (fun m j => m.homeToCellar_stamps ..) _ _).trans (m.hostRecall_stamps ..)
  · rfl

@[simp] theorem Mem.plainWrite_stamps (a : Nat) (b : Byte) : (m.plainWrite a b).stamps = m.stamps := by
  unfold Mem.plainWrite; split <;> rfl

@[simp] theorem Mem.writeNone_stamps (x : NoneLine) : (m.writeNone x).stamps = m.stamps := by
  refine (Mem.foldl_stamps (fun m (c : Nat × Byte) => m.plainWrite_stamps c.1 c.2) _ _).trans ?_
  split
  · rw [Mem.hostAside_stamps, Mem.reach_stamps]
  · rfl

@[simp] theorem Mem.discardNone_stamps (core : Nat) : (m.discardNone core).stamps = m.stamps :=
  Mem.foldl_stamps Mem.writeNone_stamps _ _

/-- A core that has discarded its NONE lines holds none (R102). -/
theorem Mem.discardNone_nones (core : Nat) : ∀ x ∈ (m.discardNone core).nones, x.core ≠ core := fun _ hx =>
  of_decide_eq_true (List.mem_filter.1 hx).2

end

end Sys2Proof.Machine

/-! SUPPORT. What a fence does to the machine, and when fences and `orf` go on (R151, R157, R164). -/
namespace Sys2Proof.Machine

section
variable (s : State)

/-! Writes of watched words, discards and the floor's advance -/

/-- A group that learns of a write to the word that it watches changes in its wait alone (R327). -/
theorem Group.wordWritten_frame (hit : Target → Nat → Bool) (g : Group) : ∃ w, g.wordWritten hit = { g with wait := w } := by
  unfold Group.wordWritten
  split
  · exact ⟨_, rfl⟩
  · exact ⟨g.wait, rfl⟩

theorem State.wordWritten_sameOthers (hit : Target → Nat → Bool) : s.SameOthers { s with others := s.others.map (Group.wordWritten hit) } := by
  rw [State.SameOthers, List.map_map]
  refine List.map_congr_left fun g _ => ?_
  obtain ⟨w, h⟩ := g.wordWritten_frame hit
  simp only [Function.comp_apply, h]

/-- A write that has been performed changes the waits of groups and the dependences of launches, and nothing else (R327, R353). -/
theorem State.wrote_frame (hit : Target → Nat → Bool) : ∃ w os ls, s.wrote hit =
    { s with g := { s.g with wait := w }, others := os, disp := { s.disp with launches := ls } } ∧
      s.SameOthers { s with others := os } := by
  unfold State.wrote
  extract_lets s1
  have h1 : ∃ w os, s1 = { s with g := { s.g with wait := w }, others := os } ∧
      s.SameOthers { s with others := os } := by
    simp only [s1]
    split
    · obtain ⟨w, h⟩ := s.g.wordWritten_frame hit
      exact ⟨w, _, by rw [h], s.wordWritten_sameOthers hit⟩
    · exact ⟨s.g.wait, s.others, rfl, rfl⟩
  clear_value s1
  obtain ⟨w, os, rfl, same⟩ := h1
  split
  · exact ⟨w, os, _, rfl, same⟩
  · exact ⟨w, os, s.disp.launches, rfl, same⟩

/-- A core's discard of its NONE lines changes memory, waits and dependences alone (R102, R327). -/
theorem State.discardNones_frame (core : Nat) : ∃ w os ls, s.discardNones core =
    { s with mem := s.mem.discardNone core, g := { s.g with wait := w }, others := os, disp := { s.disp with launches := ls } } ∧
      s.SameOthers { s with others := os } :=
  State.wrote_frame { s with mem := s.mem.discardNone core } _

/-- The floor's advance changes the floor and discards copies (R101). -/
theorem State.advanceFloor_frame : ∃ f cs, s.advanceFloor =
    { s with svc := { s.svc with tfloor := f }, mem := { s.mem with copies := cs } } := by
  unfold State.advanceFloor
  split
  · exact ⟨s.svc.tfloor, s.mem.copies, rfl⟩
  · exact ⟨_, _, rfl⟩

/-! Fences (R151) -/

/-- A fence at GRP or WG joins PTS with LCT and changes no memory. -/
theorem State.fence_near {sc : Scope} (h : sc = .grp ∨ sc = .wg) : ∃ f cs, s.fence sc =
    { s with mem := { s.mem with copies := cs }, svc := { s.svc with tfloor := f }, g := { s.g with pts := maxS s.g.pts s.g.lct } } := by
  rcases h with rfl | rfl <;> exact State.advanceFloor_frame { s with g := { s.g with pts := maxS s.g.pts s.g.lct } }

/-- The memory of a fence at QUAD and wider before the floor's advance: the core's NONE lines are gone, and at DOM and SYS its PTS is
in RSTAMP. -/
def Mem.fenced (m : Mem) (core : Nat) (sc : Scope) (pts : Stamp) : Mem :=
  if Scope.domOrSys sc then ({ m.discardNone core with rstamp := maxS (m.discardNone core).rstamp pts } : Mem).seen pts
  else m.discardNone core

theorem Mem.fenced_nones (m : Mem) (core : Nat) (sc : Scope) (pts : Stamp) : ∀ x ∈ (m.fenced core sc pts).nones, x.core ≠ core := by
  unfold Mem.fenced
  split <;> exact m.discardNone_nones core

theorem Mem.fenced_rstamp (m : Mem) (core : Nat) {sc : Scope} (pts : Stamp) (h : sc = .dom ∨ sc = .sys) :
    (m.fenced core sc pts).rstamp = maxS m.rstamp pts := by
  have kept : (m.discardNone core).rstamp = m.rstamp := congrArg Prod.fst (m.discardNone_stamps core)
  rcases h with rfl | rfl <;> exact congrArg (maxS · pts) kept

theorem Scope.quadOrWider_iff (sc : Scope) : Scope.quadOrWider sc = true ↔ ¬(sc = .grp ∨ sc = .wg) := by
  cases sc <;> simp [Scope.quadOrWider]

/-- A fence at QUAD and wider joins PTS with LCT, and changes memory, the floor, waits and dependences alone. -/
theorem State.fence_wide {sc : Scope} (h : ¬(sc = .grp ∨ sc = .wg)) : ∃ w os ls f cs, s.fence sc =
    { s with mem := { s.mem.fenced s.g.coreNo sc (maxS s.g.pts s.g.lct) with copies := cs }, svc := { s.svc with tfloor := f }, others := os,
             disp := { s.disp with launches := ls }, g := { s.g with wait := w, pts := maxS s.g.pts s.g.lct } } ∧
      s.SameOthers { s with others := os } := by
  obtain ⟨w, os, ls, hd, same⟩ := s.discardNones_frame s.g.coreNo
  unfold State.fence
  rw [if_pos ((Scope.quadOrWider_iff sc).2 h), hd]
  obtain ⟨f, cs, hf⟩ := State.advanceFloor_frame
    { s with mem := s.mem.fenced s.g.coreNo sc (maxS s.g.pts s.g.lct), others := os, disp := { s.disp with launches := ls },
             g := { s.g with wait := w, pts := maxS s.g.pts s.g.lct } }
  exact ⟨w, os, ls, f, cs, hf, same⟩

theorem State.fenceReady_iff (sc : Scope) : s.fenceReady sc = true ↔ ∀ e ∈ s.g.sb, s.entryInScope s.g sc e = false := by
  simp [State.fenceReady]

theorem Group.orfReady_iff (g : Group) : g.orfReady = true ↔ ∀ e ∈ g.sb, e.performed = false → SbEntry.toBank e = false := by
  simp [Group.orfReady]

/-- A fence that need not wait has its effects and goes on (R151, R164). -/
theorem exec_fence_ready {sc : Scope} (h : s.fenceReady sc = true) : exec (.fence sc) s = .next (s.fence sc).advance :=
  congrArg Host.Outcome.next (if_pos h)

theorem exec_fence_waits {sc : Scope} (h : ¬s.fenceReady sc = true) : exec (.fence sc) s = .next s :=
  congrArg Host.Outcome.next (if_neg h)

theorem exec_orf_ready (h : s.g.orfReady = true) :
    exec .orf s = .next { s with g := { s.g with seen := s.mem.scratch, spc := s.g.spc + 4, wait := none, noWatch := false } } :=
  congrArg Host.Outcome.next (if_pos h)

theorem exec_orf_waits (h : ¬s.g.orfReady = true) : exec .orf s = .next s :=
  congrArg Host.Outcome.next (if_neg h)

end

end Sys2Proof.Machine

/-! SUPPORT. Translation registers: how `aset` and `aclr` write them, and the register that a walk forms (R118, R119, R120). -/
namespace Sys2Proof.Machine

section
variable (s : State) (n : BitVec 3)

/-- s with a value in translation register `n` and the scalar pc at the next word. -/
def State.wroteA (r : TransReg) : State := (s.setG fun g => { g with a := g.a.setIfInBounds n.toNat r }).advance

theorem State.wroteA_frame (r : TransReg) : s.wroteA n r =
    { s with g := { s.g with a := (s.wroteA n r).g.a, spc := s.g.spc + 4, wait := none, noWatch := false } } := rfl

theorem State.wroteA_a (r : TransReg) (i : Fin 8) : (s.wroteA n r).g.a[i] = if i.val = n.toNat then r else s.g.a[i] := by
  have h : (s.wroteA n r).g.a = s.g.a.setIfInBounds n.toNat r := rfl
  simp only [h, Fin.getElem_fin, Vector.getElem_setIfInBounds, eq_comm]

/-- A register that is changed by a function of what it holds. -/
theorem State.wroteA_update (f : TransReg → TransReg) (i : Fin 8) :
    (s.wroteA n (f s.g.a[n.toNat])).g.a[i] = if i.val = n.toNat then f s.g.a[i] else s.g.a[i] := by
  rw [State.wroteA_a]
  refine ite_congr rfl (fun h => ?_) fun _ => rfl
  simp only [Fin.getElem_fin, h]

theorem exec_aclr : exec (.aclr n) s = .next (s.wroteA n { s.g.a[n.toNat] with v := false, stale := false }) := rfl

/-! The register that a walk forms (R118, R119) -/

/-- A register that has been formed is valid and not stale, and its limit is at most the size asked for, which 30 bits hold. -/
theorem State.formReg_ok {asn : BitVec 12} {va : Word64} {req : Nat} {r : TransReg} (h : s.formReg asn va req = .ok r) (hreq : req ≤ 2 ^ 29) :
    r.v = true ∧ r.stale = false ∧ r.limit.toNat ≤ r.req.toNat := by
  unfold State.formReg at h
  split at h
  · cases h
  · split at h
    · cases h
    · cases h
      refine ⟨rfl, rfl, ?_⟩
      simp only [BitVec.toNat_ofNat]
      omega

/-! What `aset` does with an address and a size that is not 0 (R119), in the order of its tests -/

/-- s after `aset` has formed register `n` at an address, or with what keeps it from that. -/
def State.formInto (va : Word64) (req : Nat) : State :=
  if inWindow va then s.scalarFault .nomap { detail := 1 } va
  else if s.formHeld s.g va then s
  else match s.formReg s.g.asn va req with
    | .error f => s.scalarFault f.cause f.info va
    | .ok r => s.wroteA n r

theorem exec_aset {a b : BitVec 6} (h : s.HasRegs [a, b]) : exec (.aset n a b) s = .next (
    if min (s.sreg b).toNat (2 ^ 29) = 0 then s.wroteA n { s.g.a[n.toNat] with v := false }
    else s.formInto n (s.sreg a) (min (s.sreg b).toNat (2 ^ 29))) :=
  congrArg Host.Outcome.next (withRegs_ok _ h)

theorem exec_aset_zero {a b : BitVec 6} (h : s.HasRegs [a, b]) (hb : s.sreg b = 0) :
    exec (.aset n a b) s = .next (s.wroteA n { s.g.a[n.toNat] with v := false }) := by
  rw [exec_aset s n h, if_pos (by rw [hb]; rfl)]

theorem exec_aset_sized {a b : BitVec 6} (h : s.HasRegs [a, b]) (hb : s.sreg b ≠ 0) :
    exec (.aset n a b) s = .next (s.formInto n (s.sreg a) (min (s.sreg b).toNat (2 ^ 29))) := by
  have hpos : (s.sreg b).toNat ≠ 0 := fun h0 => hb (BitVec.eq_of_toNat_eq h0)
  rw [exec_aset s n h, if_neg (by omega)]

variable {s n} {va : Word64} {req : Nat}

theorem State.formInto_window (hw : inWindow va = true) : s.formInto n va req = s.scalarFault .nomap { detail := 1 } va := if_pos hw

section
variable (hw : inWindow va = false)
include hw

theorem State.formInto_held (hh : s.formHeld s.g va = true) : s.formInto n va req = s := by
  rw [State.formInto, if_neg (by simp [hw]), if_pos hh]

variable (hh : s.formHeld s.g va = false)
include hh

theorem State.formInto_fault {f : TransFault} (hf : s.formReg s.g.asn va req = .error f) :
    s.formInto n va req = s.scalarFault f.cause f.info va := by
  rw [State.formInto, if_neg (by simp [hw]), if_neg (by simp [hh]), hf]

theorem State.formInto_formed {r : TransReg} (hr : s.formReg s.g.asn va req = .ok r) : s.formInto n va req = s.wroteA n r := by
  rw [State.formInto, if_neg (by simp [hw]), if_neg (by simp [hh]), hr]

end

end

/-- Settles O31: `aset` and `aclr` outcome by outcome, a fence by the scopes that leave memory alone and those that do not. -/
theorem translationRegistersAndFences : Obligations.TranslationRegistersAndFences := by
  unfold Obligations.TranslationRegistersAndFences
  refine ⟨fun s n a b => ⟨?aclr, fun hregs => ⟨fun hb => ?cleared, fun hb hw => ?window, fun hb hw hh => ?held,
      fun hb hw hh => ⟨fun f hf => ?fault, fun r hr => ?formed⟩⟩⟩,
    fun s sc => ⟨fun he => exec_fence_waits s ?inScope, fun he => ?fenced, fun he => exec_orf_waits s ?toBank,
      fun he => exec_orf_ready s (s.g.orfReady_iff.2 he)⟩⟩
  case aclr =>
    exact ⟨_, exec_aclr s n, s.wroteA_frame n _, s.wroteA_update n fun r => { r with v := false, stale := false }⟩
  case cleared =>
    exact ⟨_, exec_aset_zero s n hregs hb, s.wroteA_frame n _, s.wroteA_update n fun r => { r with v := false }⟩
  case window => rw [exec_aset_sized s n hregs hb, State.formInto_window hw]
  case held => rw [exec_aset_sized s n hregs hb, State.formInto_held hw hh]
  case fault => rw [exec_aset_sized s n hregs hb, State.formInto_fault hw hh hf]
  case formed =>
    rw [exec_aset_sized s n hregs hb, State.formInto_formed hw hh hr]
    exact ⟨_, rfl, s.wroteA_frame n r, s.wroteA_a n r, s.formReg_ok hr (Nat.min_le_right ..)⟩
  case inScope =>
    obtain ⟨e, hin, hsc⟩ := he
    intro hready
    exact absurd ((s.fenceReady_iff sc).1 hready e hin) (by simp [hsc])
  case fenced =>
    refine ⟨_, exec_fence_ready s ((s.fenceReady_iff sc).2 he), ?_⟩
    by_cases near : sc = .grp ∨ sc = .wg
    · obtain ⟨f, cs, hf⟩ := s.fence_near near
      rw [hf]
      exact ⟨rfl, rfl, fun _ => ⟨rfl, rfl, rfl⟩, fun wide => absurd near wide, fun far => by rcases near with rfl | rfl <;> simp at far⟩
    · obtain ⟨w, os, ls, f, cs, hf, same⟩ := s.fence_wide near
      rw [hf]
      exact ⟨same, rfl, fun h => absurd h near, fun _ => s.mem.fenced_nones _ _ _, s.mem.fenced_rstamp _ _⟩
  case toBank =>
    obtain ⟨e, hin, hp, hbank⟩ := he
    intro hready
    exact absurd (s.g.orfReady_iff.1 hready e hin hp) (by simp [hbank])

end Sys2Proof.Machine

/-! SUPPORT. Lane loads: what accesses that resolve are followed by, and what loads that all answer go into flight with (R42, R43, R168
to R171). -/
namespace Sys2Proof.Machine

/-! Accesses that resolve (R114, R118, R168) -/

theorem firstFault_reached (accs : List LaneAcc) : firstFault (accs.map fun a => (a.lane, a.va, .ok a.reach)) = none := by
  simp [firstFault]

/-- s with the performed translations of accesses noted (R115, R121). -/
def State.notePlaces (s : State) (kind : AccessKind) (accs : List LaneAcc) : State :=
  accs.foldl (fun s a => match a.reach with | .mem p => s.notePlace p kind | .win _ => s) s

section
variable {s s1 : State} {k : LaneCtx} {bk : Nat} {f : AccessForm} {l : List (Nat × Word64 × Word64)} {accs : List LaneAcc}
  {lanes : List Nat → Mask} {body : State → List LaneAcc → State}

/-- With no access to make, an empty register, or a stale one that cannot be formed afresh, keeps nothing back (R113, R118). -/
theorem State.laneAccesses_none {e : TransFault} (hh : s.laneHeld k bk f [] = false)
    (hr : (if bk = 0 then s.freshReg s.g k.treg else .ok {}) = .error e) : s.laneAccesses k bk f [] lanes body = body s [] := by
  unfold State.laneAccesses
  simp only [List.filter_nil, hh, Bool.false_eq_true, if_false, hr]

/-- With a register that is ready, accesses that all reach something, unwatched and on free lines, are noted and handed on (R70, R114, R147,
R373). -/
theorem State.laneAccesses_reached {r : TransReg} {s0 : State} (ha : ∀ x ∈ l, x.2.1.toNat % f.al = 0) (hh : s.laneHeld k bk f l = false)
    (hr : (if bk = 0 then s.freshReg s.g k.treg else .ok {}) = .ok r) (h0 : s0 = if bk = 0 && k.treg.stale then s.freshSnap k r else s)
    (hm : (l.map fun x => (x.1, x.2.1, if bk = 0 then s0.reachReg f r x.2.2 else s0.reachVa f x.2.1)) =
      accs.map fun a => (a.lane, a.va, .ok a.reach))
    (hw : ∀ a ∈ accs, (!s.g.hmode && !s.g.noWatchLane &&
      (watches s.g.watch0 a.va f.n f.store || watches s.g.watch1 a.va f.n f.store)) = false)
    (hl : s.lineHeld (accs.flatMap (LaneAcc.lines f.n)) = false)
    (ho : f.store = false → ∀ t, s.afterOps (accs.flatMap (LaneAcc.lines f.n)) t = t) :
    s.laneAccesses k bk f l lanes body = body (s0.notePlaces f.kind accs) accs := by
  have aligned : (l.filter fun x => x.2.1.toNat % f.al ≠ 0) = [] := by simpa using ha
  have unwatched : (accs.filter fun a => !s.g.hmode && !s.g.noWatchLane &&
      (watches s.g.watch0 a.va f.n f.store || watches s.g.watch1 a.va f.n f.store)) = [] := by simpa using hw
  have handed : (accs.filterMap fun a => some (LaneAcc.mk a.lane a.va a.reach)) = accs := List.filterMap_some
  unfold State.laneAccesses
  simp only [aligned, hh, Bool.false_eq_true, if_false, hr, ← h0, hm, firstFault_reached, List.filterMap_map, Function.comp_def, handed,
    unwatched, hl]
  cases hs : f.store with
  | true => rfl
  | false => exact ho hs _

/-- Accesses that resolve are handed on, in the state that their translation leaves (R114, R168). -/
theorem State.Resolved.goes_on (h : s.Resolved k bk f l accs s1) : s.laneAccesses k bk f l lanes body = body s1 accs := by
  obtain ⟨r, s0, ha, hh, hr, hm, hw, hl, ho, rfl⟩ := h
  have free (hs : f.store = false) (t : State) : s.afterOps (accs.flatMap (LaneAcc.lines f.n)) t = t :=
    if_neg fun e => Bool.noConfusion ((ho hs).symm.trans e)
  by_cases hb : bk = 0
  · rw [if_pos hb] at hr
    cases hf : s.freshReg s.g k.treg with
    | ok x =>
      rw [hf] at hr
      obtain ⟨rfl, h0⟩ := hr
      exact State.laneAccesses_reached ha hh (by rw [if_pos hb, hf]) (by simpa [hb] using h0) hm hw hl free
    | error e =>
      rw [hf] at hr
      obtain ⟨rfl, rfl⟩ := hr
      obtain rfl : accs = [] := List.map_eq_nil_iff.mp hm.symm
      exact State.laneAccesses_none hh (by rw [if_pos hb, hf])
  · rw [if_neg hb] at hr
    subst hr
    exact State.laneAccesses_reached ha hh (if_neg hb) (by simp [hb]) (by simpa only [if_neg hb] using hm) hw hl free

end

/-! Accesses of memory and of banks that are no FIFOs (R132 to R134) -/

section
variable {accs : List LaneAcc} (h : PlainAccesses accs)
include h

theorem PlainAccesses.reach {a : LaneAcc} (ha : a ∈ accs) : (∃ p, a.reach = .mem p) ∨ ∃ b o, a.reach = .win (.scratch b o) := by
  have plain := h a ha
  split at plain
  · next p e => exact .inl ⟨p, e⟩
  · next b o e => exact .inr ⟨b, o, e⟩
  · exact plain.elim

theorem PlainAccesses.fifo {a : LaneAcc} (ha : a ∈ accs) : a.fifo = none := by
  obtain ⟨p, e⟩ | ⟨b, o, e⟩ := h.reach ha <;> simp [LaneAcc.fifo, e]

theorem PlainAccesses.violates (s : State) {a : LaneAcc} (ha : a ∈ accs) : s.violates accs a = false := by
  obtain ⟨p, e⟩ | ⟨b, o, e⟩ := h.reach ha <;> simp [State.violates, State.overFifo, e]

theorem PlainAccesses.fifoNeeds : fifoNeeds accs = [] := by
  have none : accs.filterMap LaneAcc.fifo = [] := List.filterMap_eq_nil_iff.mpr fun _ => h.fifo
  rw [Sys2Proof.Machine.fifoNeeds, none]; rfl

theorem PlainAccesses.violating (s : State) : accs.filter (s.violates accs) = [] :=
  List.filter_eq_nil_iff.mpr fun _ ha => by simp [h.violates s ha]

theorem PlainAccesses.good (s : State) : (accs.filter fun a => !s.violates accs a) = accs :=
  List.filter_eq_self.mpr fun _ ha => by simp [h.violates s ha]

end

/-- Accesses that need nothing of any FIFO bank are served at once (R133). -/
theorem State.fifoTurns_nil (s : State) (serve : State → State) : s.fifoTurns [] serve = serve s := rfl

/-! Loads that all answer (R169) -/

theorem firstBad_answered : ∀ rs : List (Nat × List Byte), firstBad (rs.map fun x => (x.1, .ok x.2)) = none
  | [] => rfl
  | _ :: rs => firstBad_answered rs

theorem State.takeLoads_answered (s s1 : State) (rs : List (Nat × List Byte)) (lanes : List Nat → Mask)
    (cont : State → List (Nat × List Byte) → State) : s.takeLoads (s1, rs.map fun x => (x.1, .ok x.2)) lanes cont = cont s1 rs := by
  have bytes : ((rs.map fun x => (x.1, LoadRes.ok x.2)).map fun x => (x.1, x.2.bytes)) = rs := List.map_map.trans (List.map_id rs)
  unfold State.takeLoads
  simp only [firstBad_answered, bytes]

/-- A lane memory instruction that waits for no entry, tests no predicate and violates in no lane goes into flight with its writes (R43,
R168). -/
theorem State.endMem_launches (s : State) (k : LaneCtx) (c : Commit) :
    s.endMem k c [] none false none 0 = s.setG fun g => g.launchLong k.place c [] none false none := by
  have late : (s.g.sb.any fun e => ([] : List Nat).contains e.id && e.peerAtomic) = false := List.any_eq_false.mpr fun _ _ => Bool.false_ne_true
  unfold State.endMem
  rw [late]; rfl

/-! The instruction (R168 to R171) -/

/-- What `ld` writes of the bytes that its lanes have read: each element, extended, in its register or pair (R170). -/
def LaneCtx.loadWrites (k : LaneCtx) (rs : List (Nat × List Byte)) : Commit :=
  { v := rs.flatMap fun x => (List.range (if k.w.var then 4 else 1)).flatMap fun i =>
      vWrite k.w.ty.wide (k.dReg + (if k.w.ty.wide then 2 else 1) * i) x.1 (loadedElem k.w.ty i x.2) }

/-- Settles O19: accesses that resolve, outside FIFO banks, are loaded at once; all of them answer, so the acquire's steps follow and `ld`
goes into flight. -/
theorem laneLoadResults : Obligations.LaneLoadResults := by
  unfold Obligations.LaneLoadResults
  intro s s1 s2 w pl accs rs k n hi hres hp hl
  refine congrArg Host.Outcome.next ((laneOp_issues _ hi).trans (hres.goes_on.trans ?_))
  dsimp only
  rw [hp.violating, hp.good, hp.fifoNeeds, State.fifoTurns_nil]
  refine (congrArg (s1.takeLoads · _ _) hl).trans ((s1.takeLoads_answered s2 rs _ _).trans ?_)
  exact State.endMem_launches _ k (k.loadWrites rs)

end Sys2Proof.Machine
